-- ==== Sys2Proof/Word.lean ====
section
/-! DEFINITION. The words the unit's wires and stores are made of. -/

namespace Sys2Proof

/-- Eight data bits: a character's data, a stored table byte, a packet byte. -/
abbrev Byte := BitVec 8

/-- A take's priority 0..3, 0 the most urgent (R2). -/
abbrev Priority := BitVec 2

/-- A four-bit number: a take's address 0..15, a strap number, a unit number (R1, R2). -/
abbrev Nibble := BitVec 4

end Sys2Proof
end

