-- ==== Sys2Proof/Syntax.lean ====
section
/-! DEFINITION. The commands of spec/opcode_table.json, one constructor per row. -/

namespace Sys2Proof

/-- The events of the unit. A command that takes an entry of the input queue has no operand: its operand is the entry at the
queue's head (R18). Each docstring cites the row's rule. -/
inductive Instr where
  /-- POWER_ON (R1, R17): the levels of the four strap pins and of the accept-all pin. -/
  | powerOn (strap : Nibble) (acceptAll : Bool)
  /-- TAKE_START (R4): a flagged value priority × 16 + address arrives. -/
  | takeStart (priority : Priority) (address : Nibble)
  /-- TAKE_END (R7): the flagged value 0x40 arrives. -/
  | takeEnd
  /-- PLAIN (R6): a plain byte arrives. -/
  | plain (byte : Byte)
  /-- IGNORED_FLAGGED_BYTE (R2): a flagged byte of 0x41..0xFF arrives. -/
  | ignoredFlaggedByte (byte : Byte)
  /-- HOLD_LINE_RISE (R14). -/
  | holdLineRise
  /-- HOLD_LINE_FALL (R14). -/
  | holdLineFall
  /-- TAKE_TIMER_EXPIRY (R15). -/
  | takeTimerExpiry
  /-- TAKE_START_ENTRY (R21, R23). -/
  | takeStartEntry
  /-- TAKE_END_ENTRY (R22). -/
  | takeEndEntry
  /-- CUT_ENTRY (R22). -/
  | cutEntry
  /-- STALLED_ENTRY (R22). -/
  | stalledEntry
  /-- GAP_ENTRY (R24). -/
  | gapEntry
  /-- PLAIN_DISCARDED (R21). -/
  | plainDiscarded
  /-- TEXT_BYTE (R25). -/
  | textByte
  /-- STRAY_CODE (R27). -/
  | strayCode
  /-- ARGUMENT_BYTE (R27). -/
  | argumentByte
  /-- PLANE (R28): the last argument byte of PLANE is taken; likewise below for FORMAT, LEADER, LOAD, BANK and QUERY. -/
  | plane
  /-- DISC (R29). -/
  | disc
  /-- TAB (R30). -/
  | tab
  /-- ENDLINE (R31). -/
  | endline
  /-- ENDPARA (R31). -/
  | endpara
  /-- JOIN (R32). -/
  | join
  /-- NOJOIN (R32). -/
  | nojoin
  /-- FORMAT (R33). -/
  | format
  /-- LEADER (R34). -/
  | leader
  /-- LOAD (R35). -/
  | load
  /-- LOAD_DATA_BYTE (R36). -/
  | loadDataByte
  /-- LOAD_SUM_BYTE (R36). -/
  | loadSumByte
  /-- COPY (R79). -/
  | copy
  /-- CLEAR (R80). -/
  | clear
  /-- SWAP (R81). -/
  | swap
  /-- INVALID_BANK_OP (R37). -/
  | invalidBankOp
  /-- STATUS (R181). -/
  | status
  /-- COUNTS (R182). -/
  | counts
  /-- COUNTS_AND_CLEAR (R182). -/
  | countsAndClear
  /-- ENTRY (R183). -/
  | entry
  /-- INVALID_QUERY_KIND (R38). -/
  | invalidQueryKind
  /-- RESET (R39). -/
  | reset
  /-- PACKET_JOIN (R157). -/
  | packetJoin
  /-- BUS_FREE (R160). -/
  | busFree
  /-- BUS_FOUND_BUSY (R161). -/
  | busFoundBusy
  /-- CONTEST_LOST (R162). -/
  | contestLost
  /-- CONTEST_WON (R163). -/
  | contestWon
  /-- COLLISION (R165). -/
  | collision
  /-- PACKET_SENT (R164). -/
  | packetSent
  /-- ACCEPT (R168). -/
  | accept
  /-- REJECT (R168). -/
  | reject
  /-- DEFER (R170). -/
  | defer
  /-- INVALID_ANSWER (R167): the answer byte. -/
  | invalidAnswer (byte : Byte)
  /-- HOLD_EXPIRY (R171). -/
  | holdExpiry
  /-- DEFER_EXPIRY (R173). -/
  | deferExpiry
  /-- OFFERED_REPLY_JOIN (R180). -/
  | offeredReplyJoin
  /-- RECORD_DEPARTURE (R178). -/
  | recordDeparture
  /-- RECORD_SENT (R178). -/
  | recordSent
  /-- RETURN_LINE_HOLD (R178): how many characters of the record being sent the sender has begun since it last went on. -/
  | returnLineHold (begun : Nat)
  /-- RETURN_LINE_RELEASE (R178). -/
  | returnLineRelease
  /-- CONTROL_CODE_WITH_ARGUMENTS (R27). -/
  | controlCodeWithArguments
  /-- IMAGING_UNIT_RELEASE (R164). -/
  | imagingUnitRelease
  deriving DecidableEq, Repr

end Sys2Proof
end

