-- ==== Sys2Proof/WellFormed.lean ====
section
/-! DEFINITION. Which operands a command's row allows. -/

namespace Sys2Proof

/-- A flagged byte the port ignores is 0x41..0xFF (R2). -/
def isIgnoredFlagged (b : Byte) : Bool := decide (0x41 ≤ b.toNat)

/-- An answer byte begins at the first bit time at which the imaging unit sends 1, so its bit 7 is set (R189). -/
def isAnswerByte (b : Byte) : Bool := decide (0x80 ≤ b.toNat)

/-- The longest return-line record: COUNTS, 29 characters in all (section 11.4). -/
def maxRecordCharacters : Nat := 29

/-- A command whose operands its row allows. -/
def Instr.wellFormed : Instr → Bool
  | .ignoredFlaggedByte b => isIgnoredFlagged b
  | .invalidAnswer b => isAnswerByte b
  | .returnLineHold n => decide (n ≤ maxRecordCharacters)
  | .powerOn _ _ => true
  | .takeStart _ _ => true
  | .takeEnd => true
  | .plain _ => true
  | .holdLineRise => true
  | .holdLineFall => true
  | .takeTimerExpiry => true
  | .takeStartEntry => true
  | .takeEndEntry => true
  | .cutEntry => true
  | .stalledEntry => true
  | .gapEntry => true
  | .plainDiscarded => true
  | .textByte => true
  | .strayCode => true
  | .argumentByte => true
  | .plane => true
  | .disc => true
  | .tab => true
  | .endline => true
  | .endpara => true
  | .join => true
  | .nojoin => true
  | .format => true
  | .leader => true
  | .load => true
  | .loadDataByte => true
  | .loadSumByte => true
  | .copy => true
  | .clear => true
  | .swap => true
  | .invalidBankOp => true
  | .status => true
  | .counts => true
  | .countsAndClear => true
  | .entry => true
  | .invalidQueryKind => true
  | .reset => true
  | .packetJoin => true
  | .busFree => true
  | .busFoundBusy => true
  | .contestLost => true
  | .contestWon => true
  | .collision => true
  | .packetSent => true
  | .accept => true
  | .reject => true
  | .defer => true
  | .holdExpiry => true
  | .deferExpiry => true
  | .offeredReplyJoin => true
  | .recordDeparture => true
  | .recordSent => true
  | .returnLineRelease => true
  | .controlCodeWithArguments => true
  | .imagingUnitRelease => true

end Sys2Proof
end

