-- ==== Sys2Proof/Decode.lean ====
section
/-! DEFINITION. How a character of the setting line and an answer byte of the exposure bus spell a command. -/

namespace Sys2Proof

/-- No row of spec/opcode_table.json gives bits: no word spells a command by the table. -/
def decodeTableWord (_nbits _w : Nat) : Option Instr := none

/-- R2 and section 11.1: what a character of the setting line, a flag bit and eight data bits, is at the port. -/
def commandOfCharacter (flagged : Bool) (b : Byte) : Instr :=
  if flagged then
    if b.toNat < 0x40 then .takeStart (b.extractLsb' 4 2) (b.extractLsb' 0 4)
    else if b = 0x40 then .takeEnd
    else .ignoredFlaggedByte b
  else .plain b

/-- Section 11.1: a TAKE_START's value is priority × 16 + address. -/
def takeStartValue (priority : Priority) (address : Nibble) : Byte := BitVec.ofNat 8 (priority.toNat * 16 + address.toNat)

/-- R189 and section 11.3: what an answer byte is. -/
def commandOfAnswer (b : Byte) : Instr :=
  if b = 0xA5 then .accept else if b = 0x96 then .defer else if b = 0xC3 then .reject else .invalidAnswer b

end Sys2Proof
end

