-- ==== Sys2Proof/Config.lean ====
section
/-! DEFINITION. What the spec fixes as a number, and the one thing it leaves open inside a command. -/

namespace Sys2Proof.Config

/-- The input queue's capacity (R8). -/
abbrev inputCapacity : Nat := 1024

/-- The level at which a stored entry raises the own hold drive (R10). -/
abbrev holdRaiseLevel : Nat := 960

/-- The level at or below which a removal lowers the own hold drive (R10). -/
abbrev holdLowerLevel : Nat := 512

/-- The exposure queue's capacity (R157). -/
abbrev exposureCapacity : Nat := 8

/-- The depth of the return queue up to which a reply joins (R20, R180). -/
abbrev replyDepth : Nat := 5

/-- The line store's capacity in cells (R88). -/
abbrev cellCapacity : Nat := 192

/-- The most items a line's cells may emit (R88). -/
abbrev itemCapacity : Nat := 255

/-- Fine units in a set step (chapter 0, units of measure). -/
abbrev finePerStep : Nat := 96

/-- The most a counter or a take byte count holds (R18, R185). -/
abbrev counterMax : Nat := 65535

/-- What a table address that is not listed reads as: the cleared byte (R70). -/
def unlistedByte : Byte := 0

/-- FREE VALUE (log 9). A removal that stores a GAP reports OVERRUN "at the same time" (R13) as the decoder makes its own
changes, and R179, R180 and R182 let either be taken first. Whether the report comes first at the n-th such moment has no
body here: nothing can be proved about it. -/
opaque lossReportedFirst : Nat → Bool

end Sys2Proof.Config
end

