-- ==== Sys2Proof/Machine/State.lean ====
section
/-! DEFINITION. Everything the spec gives the unit to hold, as plain data, and its value after power-on. -/

namespace Sys2Proof.Machine

/-! ### Setting port (chapter 1) -/

/-- The port condition (chapter 1, R4). -/
inductive PortCondition where
  | closed | accepting | deaf
  deriving DecidableEq, Repr

/-- A take boundary kept by a loss record and carried by a GAP (R8, R12). -/
inductive Boundary where
  | takeStart (priority : Priority) | takeEnd | cut
  deriving DecidableEq, Repr

/-- The loss record: lost arrivals that no GAP has reported yet (R12). -/
structure Loss where
  count : Nat
  boundary : Option Boundary
  deriving DecidableEq, Repr

/-- An entry of the input queue (R8). -/
inductive Entry where
  | plain (byte : Byte)
  | takeStart (priority : Priority)
  | takeEnd
  | cut
  | stalled
  | gap (lost : Nat) (boundary : Option Boundary)
  deriving DecidableEq, Repr

/-- The setting port with the input queue and the strap pins. `ownHold` is this unit's drive of the hold line, `othersHold` that
some other unit on the setting line drives it high (R11, log 8). `takeTimer` is the interval in seconds the running timer was
started with; `none` is a stopped timer (R14). -/
structure Port where
  strapPins : Nibble
  acceptAllPin : Bool
  unitNumber : Nibble
  acceptAll : Bool
  condition : PortCondition
  priority : Priority
  queue : List Entry
  loss : Option Loss
  ownHold : Bool
  othersHold : Bool
  takeTimer : Option Nat
  deriving DecidableEq, Repr

/-! ### Stream decoder (chapter 2) -/

/-- The control codes that take argument bytes (section 2.5). -/
inductive ControlCode where
  | plane | format | leader | load | bank | query
  deriving DecidableEq, Repr

/-- The four tables of a bank, in the order of the LOAD kinds 0..3 (R35, R69). -/
inductive TableKind where
  | codeMap | glyphs | ligatures | header
  deriving DecidableEq, Repr

/-- The load context (chapter 2, R35, R36). `item` and `sum` are the bytes taken of the current item and of the sum. -/
structure LoadContext where
  kind : TableKind
  start : Nat
  count : Nat
  taken : Nat
  item : List Byte
  sum : List Byte
  deriving DecidableEq, Repr

/-- The decoder state; ARGS holds the partial control, LOAD and SUM hold the load context (chapter 2). -/
inductive DecoderState where
  | idle
  | text
  | args (code : ControlCode) (bytes : List Byte)
  | load (ctx : LoadContext)
  | sum (ctx : LoadContext)
  | skip
  deriving DecidableEq, Repr

/-- The stream decoder (chapter 2). Whether it waits is read from the shaper and the reply unit (`State.waitingAtLineEnd`,
`State.waitingAtQuery`). -/
structure Decoder where
  state : DecoderState
  plane : BitVec 2
  priority : Priority
  byteCount : Nat
  deriving DecidableEq, Repr

/-! ### Format set (chapter 3) -/

/-- MODE (R42). -/
inductive Mode where
  | justify | flushStart | flushEnd | centre
  deriving DecidableEq, Repr

/-- DIRECTION (R42). -/
inductive Direction where
  | ltr | rtl
  deriving DecidableEq, Repr

/-- The line copy (R42). `tabs` are the sixteen stops in stop order, 0 for a cleared one (R48). -/
structure LineCopy where
  size : Nat
  measure : Nat
  leading : Nat
  paraSpace : Nat
  mode : Mode
  direction : Direction
  spaceMin : Nat
  spaceOpt : Nat
  spaceMax : Nat
  extend : Nat
  galley : Nat
  tabs : List Nat
  leader : List Nat
  deriving DecidableEq, Repr

/-- The pending set: for each line parameter, absent or one value (R45). -/
structure PendingSet where
  size : Option Nat
  measure : Option Nat
  leading : Option Nat
  paraSpace : Option Nat
  mode : Option Mode
  direction : Option Direction
  spaceMin : Option Nat
  spaceOpt : Option Nat
  spaceMax : Option Nat
  extend : Option Nat
  galley : Option Nat
  tabs : List (Option Nat)
  leader : Option (List Nat)
  deriving DecidableEq, Repr

/-- The unit parameters (R50). -/
structure UnitParams where
  burstLimit : Nat
  busGap : Nat
  holdLimit : Nat
  deferWait : Nat
  takeTimeout : Nat
  deriving DecidableEq, Repr

/-- The format set (chapter 3). -/
structure FormatSet where
  line : LineCopy
  pending : PendingSet
  unit : UnitParams
  deriving DecidableEq, Repr

/-! ### Table block (chapters 4 and 5) -/

/-- Table bytes by address, addresses rising, none equal to `Config.unlistedByte` (see `Memory.wf`). -/
abbrev Memory := List Host.Cell

/-- A bank (R56, R57). Item i of a table of n-byte items stands at addresses i × n .. i × n + n − 1. -/
structure Bank where
  codeMap : Memory
  glyphs : Memory
  ligatures : Memory
  header : Memory
  valid : Bool
  deriving DecidableEq, Repr

/-- The two banks' letters (R56). -/
inductive BankName where
  | a | b
  deriving DecidableEq, Repr

/-- The load record (chapter 5, R73). -/
structure LoadRecord where
  kind : TableKind
  accepted : Bool
  written : Nat
  sum : Nat
  deriving DecidableEq, Repr

/-- The table block (chapters 4 and 5). -/
structure TableBlock where
  bankA : Bank
  bankB : Bank
  active : BankName
  record : Option LoadRecord
  deriving DecidableEq, Repr

/-! ### Shaper (chapters 6 and 7) -/

/-- The contextual form of a letter (R97). -/
inductive Form where
  | isolated | initial | medial | final
  deriving DecidableEq, Repr

/-- Which control made a LINK (R95). -/
inductive LinkKind where
  | join | nojoin
  deriving DecidableEq, Repr

/-- A LETTER cell (R87). `second` is present exactly in a ligature cell. `form`, `setGlyph` and `width` (in du) are final once
`settled`. -/
structure Letter where
  glyph : Nat
  second : Option Nat
  setGlyph : Nat
  form : Form
  settled : Bool
  above : List Nat
  below : List Nat
  width : Nat
  strokes : Nat
  deriving DecidableEq, Repr

/-- A CARRIER cell (R87, R103); its glyph and its set glyph are one number, its width is in du. -/
structure Carrier where
  glyph : Nat
  above : List Nat
  below : List Nat
  width : Nat
  deriving DecidableEq, Repr

/-- A cell of the line store (R87). A SPACE's and a BREAK's width is in du, a TAB's gap and leftover in fine units. -/
inductive Cell where
  | letter (l : Letter)
  | space (width : Nat)
  | tab (gap : Nat) (leaders : List Nat) (leftover : Nat)
  | brk (brokenWidth : Nat) (broken : Bool) (width : Nat)
  | link (kind : LinkKind)
  | carrier (c : Carrier)
  deriving DecidableEq, Repr

/-- The line flags (chapter 6; section 11.3). -/
structure LineFlags where
  forced : Bool
  overset : Bool
  loose : Bool
  unmapped : Bool
  markOverflow : Bool
  gap : Bool
  cut : Bool
  deriving DecidableEq, Repr

/-- The line being built (chapter 6). `lastBreak` is the index of a cell and a broken width in fine units (R115). -/
structure Line where
  cells : List Cell
  acc : Nat
  items : Nat
  lastBreak : Option (Nat × Nat)
  flags : LineFlags
  deriving DecidableEq, Repr

/-- What the decoder hands the shaper to append (R90, R103): a CARRIER arrives with its glyph and its one mark. -/
inductive Arrival where
  | letter (glyph : Nat)
  | space
  | disc
  | tab
  | link (kind : LinkKind)
  | carrier (glyph : Nat) (mark : Nat)
  deriving DecidableEq, Repr

/-- The kind of a line end (R121). -/
inductive EndKind where
  | overflow | endline | endpara | take | swap
  deriving DecidableEq, Repr

/-- A line end that a control asks for: its kind, never `overflow`, and whether the line it ends takes flag CUT (R22, R83). -/
structure ControlEnd where
  kind : EndKind
  cut : Bool
  deriving DecidableEq, Repr

/-- The shaper's work still to be done for one entry, in this order (R19, R106, R108): carried cells to be re-measured, an
arrival to be taken (the held arrival, R90), a control's line end to be made, the exchange of banks after it (R83). `priority`
is the priority of the packets this work makes (R152). -/
structure Job where
  priority : Priority
  carried : List Cell
  arrival : Option Arrival
  control : Option ControlEnd
  exchange : Bool
  deriving DecidableEq, Repr

/-- One glyph to be exposed (R151). -/
structure Item where
  face : BitVec 6
  char : Byte
  x : Nat
  y : Int
  deriving DecidableEq, Repr

/-- A line packet as the placement unit builds it, without its sequence number and check (R152). -/
structure PacketBody where
  priority : Priority
  unit : Nibble
  galley : Nat
  size : Nat
  leading : Nat
  flags : LineFlags
  items : List Item
  deriving DecidableEq, Repr

/-- A line end whose packet waits for room (R19, R107, R154): the packet, the ending line's cells as they were handed to the
justifier (log 15), and the work that follows. -/
structure WaitingEnd where
  packet : PacketBody
  ending : List Cell
  job : Job
  deriving DecidableEq, Repr

/-- The shaper (chapter 6). -/
structure Shaper where
  line : Line
  paraDue : Bool
  waiting : Option WaitingEnd
  deriving DecidableEq, Repr

/-! ### Bus port (chapter 9) -/

/-- The bus port's states (chapter 9). -/
inductive BusState where
  | busIdle | waiting | contending | sending | awaiting | deferring
  deriving DecidableEq, Repr

/-- A packet of the exposure queue (R157). -/
structure Packet where
  body : PacketBody
  sequence : BitVec 8
  check : Nat
  deriving DecidableEq, Repr

/-- An ownership of the exposure bus (R163). -/
structure Ownership where
  burstLimit : Nat
  sent : Nat
  deriving DecidableEq, Repr

/-- The bus port with the exposure queue. `othersDrive`: another party is sensed driving the bus (R159). `answerDue`: the
imaging unit has not released the bus since this unit's packet was sent (R164, R167). The timers hold the interval in
milliseconds they were armed with. -/
structure Bus where
  queue : List Packet
  nextSequence : BitVec 8
  state : BusState
  gap : Nat
  idleCount : Nat
  ownership : Option Ownership
  holdTimer : Option Nat
  deferTimer : Option Nat
  othersDrive : Bool
  answerDue : Bool
  deriving DecidableEq, Repr

/-! ### Reply unit (chapter 10) -/

/-- The fourteen counters (R185). -/
structure Counters where
  takes : Nat
  lines : Nat
  forced : Nat
  overset : Nat
  loose : Nat
  unmapped : Nat
  orphans : Nat
  markOverflow : Nat
  stray : Nat
  overrun : Nat
  contestsLost : Nat
  deferred : Nat
  rejected : Nat
  holdExpiries : Nat
  deriving DecidableEq, Repr

/-- The ten notice kinds (R184). -/
inductive NoticeKind where
  | overrun | takeCut | takeStalled | loadRefused | loadSum | loadAborted | swapRefused | packetRejected | holdExpired
  | collision
  deriving DecidableEq, Repr

/-- A STATUS reply's fields (R181). -/
structure StatusFields where
  unitNumber : Nibble
  acceptAll : Bool
  takeOpen : Bool
  portPriority : Priority
  activeBank : BankName
  standbyValid : Bool
  pendingNonEmpty : Bool
  cells : Nat
  items : Nat
  exposureDepth : Nat
  busState : BusState
  inputLevel : Nat
  hold : Bool
  returnDepth : Nat
  deriving DecidableEq, Repr

/-- A record of the return queue (chapter 10). -/
inductive Record where
  | status (f : StatusFields)
  | counts (c : Counters)
  | entry (kind : TableKind) (standby : Bool) (index : Nat) (present : Bool) (item : List Byte)
  | notice (kind : NoticeKind) (repeats : Nat) (detail : Nat)
  deriving DecidableEq, Repr

/-- A QUERY's kind and the arguments its reply needs (R38). -/
inductive Query where
  | status
  | counts
  | countsAndClear
  | entry (kind : TableKind) (standby : Bool) (index : Nat)
  deriving DecidableEq, Repr

/-- The record on its way out and its characters not yet begun (R178); a character is a flag and eight data bits. -/
structure Sending where
  record : Record
  unsent : List (Bool × Byte)
  deriving DecidableEq, Repr

/-- The reply unit (chapter 10). `held`: the front-end holds the return line. -/
structure ReplyUnit where
  queue : List Record
  sender : Option Sending
  held : Bool
  offered : Option Query
  counters : Counters
  deriving DecidableEq, Repr

/-! ### The whole unit -/

/-- The unit. `pending` is the queue of commands, first in first out. `freeIndex` is the model's own: it indexes the free value
`Config.lossReportedFirst` (log 9). -/
structure State where
  port : Port
  decoder : Decoder
  format : FormatSet
  tables : TableBlock
  shaper : Shaper
  bus : Bus
  reply : ReplyUnit
  freeIndex : Nat
  pending : List Instr
  deriving DecidableEq, Repr

/-- Faults of the model; the spec names none that stops the unit. -/
inductive Fault where
  /-- Raised by IGNORED_FLAGGED_BYTE, INVALID_ANSWER and RETURN_LINE_HOLD when `Instr.wellFormed` fails: the operand is none
  that the row allows. Safe: no such event exists. -/
  | illFormedOperand
  deriving DecidableEq, Repr

/-- Why an event cannot happen in a state. -/
inductive Obstacle where
  /-- the decoder is waiting, so it removes no entry (R18) -/
  | decoderWaiting
  /-- the input queue is empty (R18) -/
  | inputQueueEmpty
  /-- the head entry, in the decoder's state, is another row's event (R18) -/
  | otherEntryAtHead
  /-- no other unit drives the hold line, so none lowers its drive (R11) -/
  | holdLineCannotFall
  /-- the timer is stopped (R14, R171, R173) -/
  | timerStopped
  /-- no line end waits, or the exposure queue is full (R157) -/
  | noPacketCanJoin
  /-- the port is not in the state in which the event happens, or has nothing to send (chapter 9) -/
  | busStateOther
  /-- another party drives the bus, so it is not free (R160) -/
  | busBusy
  /-- the idle count has not reached the gap in force, so the bus is not free (R160) -/
  | gapNotReached
  /-- the byte is a valid answer that the port takes (R167) -/
  | answerIsValid
  /-- the return queue is deeper than 5, so the offered reply goes on waiting (R20, R180) -/
  | returnQueueDeep
  /-- the sender is busy, the return queue is empty or the return line is held (R178) -/
  | noRecordCanLeave
  /-- no record is being sent, or the line is held before its last character (R178) -/
  | recordUnfinished
  deriving DecidableEq, Repr

/-- Refusals of the model. -/
inductive Refusal where
  /-- Raised by `exec` for a row without a meaning. Safe. -/
  | notModelled (mnemonic : String)
  /-- Raised by a meaning when the unit's state rules the event out (log 7): the event is not the unit's, and the spec gives it
  no effect. Safe. -/
  | cannotOccur (why : Obstacle)
  deriving DecidableEq, Repr

/-! ### Power-on values -/

/-- No line flag (R110). -/
def LineFlags.none : LineFlags := ⟨false, false, false, false, false, false, false⟩

/-- The line parameters' defaults (R42, R54). -/
def LineCopy.default : LineCopy :=
  { size := 36, measure := 2640, leading := 200, paraSpace := 0, mode := .justify, direction := .ltr, spaceMin := 20
    spaceOpt := 24, spaceMax := 40, extend := 0, galley := 0, tabs := List.replicate 16 0, leader := [] }

/-- The empty pending set (R54). -/
def PendingSet.empty : PendingSet :=
  { size := none, measure := none, leading := none, paraSpace := none, mode := none, direction := none, spaceMin := none
    spaceOpt := none, spaceMax := none, extend := none, galley := none, tabs := List.replicate 16 none, leader := none }

/-- The unit parameters' defaults (R50, R54). -/
def UnitParams.default : UnitParams := { burstLimit := 4, busGap := 8, holdLimit := 50, deferWait := 20, takeTimeout := 10 }

/-- The format set after either reset (R54, R55). -/
def FormatSet.default : FormatSet := ⟨LineCopy.default, PendingSet.empty, UnitParams.default⟩

/-- A cleared bank: every byte 0, valid (R70, R80). -/
def Bank.cleared : Bank := ⟨[], [], [], [], true⟩

/-- The table block after power-on (R70, R85). -/
def TableBlock.powerOn : TableBlock := ⟨Bank.cleared, Bank.cleared, .a, none⟩

/-- An empty line (R110). -/
def Line.empty : Line := ⟨[], 0, 0, none, LineFlags.none⟩

/-- The shaper after either reset (R110, R111). -/
def Shaper.empty : Shaper := ⟨Line.empty, false, none⟩

/-- All counters 0 (R186). -/
def Counters.zero : Counters := ⟨0, 0, 0, 0, 0, 0, 0, 0, 0, 0, 0, 0, 0, 0⟩

/-- The decoder after power-on (R41). -/
def Decoder.powerOn : Decoder := ⟨.idle, 0, 0, 0⟩

/-- The unit right after power-on (R17, R41, R54, R70, R85, R110, R138, R175, R186). The spec gives no levels for the strap
pins, for the lines driven from outside, and no gap in force: logs 1, 2 and 3. -/
def State.reset : State :=
  { port :=
      { strapPins := 0, acceptAllPin := false, unitNumber := 1, acceptAll := false, condition := .closed, priority := 0
        queue := [], loss := none, ownHold := false, othersHold := false, takeTimer := none }
    decoder := Decoder.powerOn
    format := FormatSet.default
    tables := TableBlock.powerOn
    shaper := Shaper.empty
    bus :=
      { queue := [], nextSequence := 0, state := .busIdle, gap := 8, idleCount := 0, ownership := none, holdTimer := none
        deferTimer := none, othersDrive := false, answerDue := false }
    reply := { queue := [], sender := none, held := false, offered := none, counters := Counters.zero }
    freeIndex := 0
    pending := [] }

end Sys2Proof.Machine
end

