-- ==== Sys2Proof/Machine/Flags.lean ====
section
/-! DEFINITION. The line flags: how they are given, joined and laid out (R106, R117, R118, R132, section 11.3). -/

namespace Sys2Proof.Machine

/-- A Bool as the bit a layout sends. -/
def bit (b : Bool) : Nat := if b then 1 else 0

/-- Every flag of either set: flags are given, never taken back, until the line ends. -/
def LineFlags.union (f g : LineFlags) : LineFlags :=
  { forced := f.forced || g.forced, overset := f.overset || g.overset, loose := f.loose || g.loose
    unmapped := f.unmapped || g.unmapped, markOverflow := f.markOverflow || g.markOverflow, gap := f.gap || g.gap
    cut := f.cut || g.cut }

/-- The flag byte of a packet: bit 0 FORCED to bit 6 CUT, bit 7 not used (section 11.3). -/
def LineFlags.toNat (f : LineFlags) : Nat :=
  bit f.forced + 2 * bit f.overset + 4 * bit f.loose + 8 * bit f.unmapped + 16 * bit f.markOverflow + 32 * bit f.gap
    + 64 * bit f.cut

/-- R26: the line being set takes flag UNMAPPED, whether or not it holds cells. -/
def Line.flagUnmapped (ln : Line) : Line := { ln with flags := { ln.flags with unmapped := true } }

/-- R24: the line being set takes flag GAP, whether or not it holds cells. -/
def Line.flagGap (ln : Line) : Line := { ln with flags := { ln.flags with gap := true } }

/-- R101, R104: the line takes flag MARK_OVERFLOW. -/
def Line.flagMarkOverflow (ln : Line) : Line := { ln with flags := { ln.flags with markOverflow := true } }

end Sys2Proof.Machine
end

