-- ==== Sys2Proof/Machine/Ops.lean ====
section
/-! DEFINITION. The named operations on tables, counters, notices, the input queue, the timers and the exposure queue. -/

namespace Sys2Proof.Machine

/-! ### Parts of the state -/

def State.setPort (s : State) (p : Port) : State := { s with port := p }
def State.setDecoder (s : State) (d : Decoder) : State := { s with decoder := d }
def State.setFormat (s : State) (f : FormatSet) : State := { s with format := f }
def State.setTables (s : State) (t : TableBlock) : State := { s with tables := t }
def State.setShaper (s : State) (h : Shaper) : State := { s with shaper := h }
def State.setBus (s : State) (b : Bus) : State := { s with bus := b }
def State.setReply (s : State) (r : ReplyUnit) : State := { s with reply := r }
def State.setFreeIndex (s : State) (n : Nat) : State := { s with freeIndex := n }
def State.setPending (s : State) (q : List Instr) : State := { s with pending := q }
def State.setLine (s : State) (ln : Line) : State := s.setShaper { s.shaper with line := ln }

/-! ### Table memory (R74, R188): addresses rising, no entry equal to the cleared byte -/

/-- Addresses strictly rise from `low` on and no byte is the unlisted one. -/
def Memory.wfFrom : Nat → Memory → Bool
  | _, [] => true
  | low, (k, v) :: rest => decide (low ≤ k) && decide (v ≠ Config.unlistedByte) && Memory.wfFrom (k + 1) rest

/-- The canonical form, so that equal tables are equal data. -/
def Memory.wf (m : Memory) : Bool := Memory.wfFrom 0 m

/-- The byte at an address. -/
def memRead : Memory → Nat → Byte
  | [], _ => Config.unlistedByte
  | (k, v) :: rest, a => if k = a then v else memRead rest a

/-- One byte written; writing the unlisted byte removes the entry. -/
def memWrite : Memory → Nat → Byte → Memory
  | [], a, v => if v = Config.unlistedByte then [] else [(a, v)]
  | (k, w) :: rest, a, v =>
    if a < k then (if v = Config.unlistedByte then (k, w) :: rest else (a, v) :: (k, w) :: rest)
    else if a = k then (if v = Config.unlistedByte then rest else (a, v) :: rest)
    else (k, w) :: memWrite rest a v

/-- Bytes written at rising addresses. -/
def memWriteBytes : Memory → Nat → List Byte → Memory
  | m, _, [] => m
  | m, a, v :: rest => memWriteBytes (memWrite m a v) (a + 1) rest

/-- `n` bytes from an address on. -/
def memReadBytes (m : Memory) : Nat → Nat → List Byte
  | _, 0 => []
  | a, n + 1 => memRead m a :: memReadBytes m (a + 1) n

/-! ### The table block (R56) -/

/-- The active bank. -/
def TableBlock.activeBank (t : TableBlock) : Bank := match t.active with | .a => t.bankA | .b => t.bankB

/-- The standby bank. -/
def TableBlock.standbyBank (t : TableBlock) : Bank := match t.active with | .a => t.bankB | .b => t.bankA

/-- The standby bank replaced, the active bank and the roles as they stand. -/
def TableBlock.setStandby (t : TableBlock) (k : Bank) : TableBlock :=
  match t.active with | .a => { t with bankB := k } | .b => { t with bankA := k }

/-- R82: the roles exchange; the banks keep their items and flags. -/
def TableBlock.exchange (t : TableBlock) : TableBlock :=
  { t with active := match t.active with | .a => .b | .b => .a }

/-- The bank whose tables copy is set from. -/
def State.bank (s : State) : Bank := s.tables.activeBank

/-- The line copy. -/
def State.copy (s : State) : LineCopy := s.format.line

/-! ### Counters (R185) -/

/-- The counters' names. -/
inductive CounterName where
  | takes | lines | forced | overset | loose | unmapped | orphans | markOverflow | stray | overrun | contestsLost | deferred
  | rejected | holdExpiries
  deriving DecidableEq, Repr

/-- R185: an addition that would exceed 65535 leaves 65535. -/
def saturate (n k : Nat) : Nat := min Config.counterMax (n + k)

/-- A counter's value. -/
def Counters.get (c : Counters) : CounterName → Nat
  | .takes => c.takes
  | .lines => c.lines
  | .forced => c.forced
  | .overset => c.overset
  | .loose => c.loose
  | .unmapped => c.unmapped
  | .orphans => c.orphans
  | .markOverflow => c.markOverflow
  | .stray => c.stray
  | .overrun => c.overrun
  | .contestsLost => c.contestsLost
  | .deferred => c.deferred
  | .rejected => c.rejected
  | .holdExpiries => c.holdExpiries

/-- A counter increased by `k`, saturating. -/
def Counters.add (c : Counters) (name : CounterName) (k : Nat) : Counters :=
  match name with
  | .takes => { c with takes := saturate c.takes k }
  | .lines => { c with lines := saturate c.lines k }
  | .forced => { c with forced := saturate c.forced k }
  | .overset => { c with overset := saturate c.overset k }
  | .loose => { c with loose := saturate c.loose k }
  | .unmapped => { c with unmapped := saturate c.unmapped k }
  | .orphans => { c with orphans := saturate c.orphans k }
  | .markOverflow => { c with markOverflow := saturate c.markOverflow k }
  | .stray => { c with stray := saturate c.stray k }
  | .overrun => { c with overrun := saturate c.overrun k }
  | .contestsLost => { c with contestsLost := saturate c.contestsLost k }
  | .deferred => { c with deferred := saturate c.deferred k }
  | .rejected => { c with rejected := saturate c.rejected k }
  | .holdExpiries => { c with holdExpiries := saturate c.holdExpiries k }

/-- A counter of the unit increased by `k`. -/
def countBy (name : CounterName) (k : Nat) (s : State) : State :=
  s.setReply { s.reply with counters := s.reply.counters.add name k }

/-- An event counted. -/
def count (name : CounterName) (s : State) : State := countBy name 1 s

/-- An event counted when it happened. -/
def countIf (b : Bool) (name : CounterName) (s : State) : State := if b then count name s else s

/-! ### Notices (R179) -/

/-- R179: a notice merges into the queued notice of its kind, or joins the tail with repeat count 1. -/
def raiseIn (kind : NoticeKind) (detail : Nat) : List Record → List Record
  | [] => [.notice kind 1 detail]
  | .notice k r d :: rest =>
    if k = kind then .notice kind (min 255 (r + 1)) detail :: rest else .notice k r d :: raiseIn kind detail rest
  | .status f :: rest => .status f :: raiseIn kind detail rest
  | .counts c :: rest => .counts c :: raiseIn kind detail rest
  | .entry t b i p v :: rest => .entry t b i p v :: raiseIn kind detail rest

/-- A notice raised at the reply unit. -/
def raise (kind : NoticeKind) (detail : Nat) (s : State) : State :=
  s.setReply { s.reply with queue := raiseIn kind detail s.reply.queue }

/-! ### The input queue, the hold drive and the take timer (R8 to R15) -/

/-- R11: the sensed level of the hold line, high while this unit or any other drives it high. -/
def Port.holdLine (p : Port) : Bool := p.ownHold || p.othersHold

/-- An entry joins the tail. The entry that brings the level to 960 raises the own hold drive (R10), which makes the hold line
high (R11) and so stops the take timer (R14). A full queue takes nothing: its arrivals are lost before they come here (R12). -/
def Port.store (e : Entry) (p : Port) : Port :=
  if p.queue.length < Config.inputCapacity then
    if p.queue.length + 1 = Config.holdRaiseLevel then
      { p with queue := p.queue ++ [e], ownHold := true, takeTimer := none }
    else { p with queue := p.queue ++ [e] }
  else p

/-- R12: an accepted arrival is lost. A flagged one sets the lost boundary; a plain byte keeps the earlier one. -/
def Port.lose (boundary : Option Boundary) (p : Port) : Port :=
  { p with loss :=
      match p.loss with
      | none => some ⟨1, boundary⟩
      | some l => some ⟨min 255 (l.count + 1), match boundary with | some b => some b | none => l.boundary⟩ }

/-- The input queue is full (R12). -/
def Port.full (p : Port) : Bool := decide (Config.inputCapacity ≤ p.queue.length)

/-- An accepted arrival is stored, or lost to a full queue. -/
def Port.storeOrLose (e : Entry) (boundary : Option Boundary) (p : Port) : Port :=
  if p.full then p.lose boundary else p.store e

/-- R14: a restart reads TAKE_TIMEOUT. The timer runs only while the port is ACCEPTING, the hold line is low and the value read
is not 0. -/
def Port.restartTimer (timeout : Nat) (p : Port) : Port :=
  { p with takeTimer :=
      if p.condition = .accepting ∧ p.holdLine = false ∧ timeout ≠ 0 then some timeout else none }

/-- R3: the address test. -/
def Port.forThisUnit (p : Port) (address : Nibble) : Bool :=
  decide (address = p.unitNumber) || decide (address = 0) || p.acceptAll

/-- R1: strap number 0 becomes unit number 1. -/
def unitNumberOf (strap : Nibble) : Nibble := if strap = 0 then 1 else strap

/-- The GAP entry a loss record is stored as (R13). -/
def Loss.gapEntry (l : Loss) : Entry := .gap l.count l.boundary

/-- R10, R11, R14: the own hold drive lowered. Where it was the last drive that was high, the hold line falls and the take timer
restarts. -/
def Port.lowerHold (timeout : Nat) (p : Port) : Port :=
  if p.ownHold && !p.othersHold then ({ p with ownHold := false } : Port).restartTimer timeout
  else { p with ownHold := false }

/-- R9, R10, R13: the removal of the head entry as the port sees it: a pending loss is stored as a GAP in the freed place, and
then the own hold drive falls at 512 or below. -/
def Port.removeHead (timeout : Nat) (p : Port) : Port :=
  let tail := { p with queue := p.queue.tail }
  let filled :=
    match p.loss with
    | none => tail
    | some l => { tail.store l.gapEntry with loss := none }
  if filled.queue.length ≤ Config.holdLowerLevel then filled.lowerHold timeout else filled

/-- R13: the OVERRUN counter grows by the GAP's lost count and an OVERRUN notice carries it. -/
def reportLoss (l : Loss) (s : State) : State := raise .overrun l.count (countBy .overrun l.count s)

/-! ### Waiting (R18 to R20) -/

/-- The decoder is waiting at a line end (R19). -/
def State.waitingAtLineEnd (s : State) : Bool := s.shaper.waiting.isSome

/-- The decoder is waiting at a query (R20). -/
def State.waitingAtQuery (s : State) : Bool := s.reply.offered.isSome

/-- The decoder is waiting (R18). -/
def State.decoderWaiting (s : State) : Bool := s.waitingAtLineEnd || s.waitingAtQuery

/-! ### The exposure bus (R157 to R160) -/

/-- This unit is driving the bus (R162, R164). -/
def Bus.drives (b : Bus) : Bool := decide (b.state = .contending) || decide (b.state = .sending)

/-- R159: the bus is busy while any party drives it. -/
def Bus.busy (b : Bus) : Bool := b.othersDrive || b.drives

/-- R160: a free-bus wait starts; the port reads BUS_GAP and enters WAITING. -/
def Bus.startWait (busGap : Nat) (b : Bus) : Bus := { b with state := .waiting, gap := busGap }

/-- R160: the idle count has reached the gap in force. -/
def Bus.gapReached (b : Bus) : Bool := decide (b.gap ≤ b.idleCount)

/-- R160: the port begins sending the head packet's header, so the bus is busy. -/
def Bus.beginHeader (b : Bus) : Bus := { b with state := .contending, idleCount := 0 }

/-- R159, R160: one bit time passes. At a bit time at which the bus is free for a WAITING unit its header begins; at any other
the idle count rises while the bus is idle and is 0 while it is busy. -/
def Bus.bitTime (b : Bus) : Bus :=
  if b.busy then { b with idleCount := 0 }
  else if b.state = .waiting ∧ b.gapReached then b.beginHeader
  else { b with idleCount := b.idleCount + 1 }

/-- R159, R161: the bus is sensed busy by another party's drive, and the idle count returns to 0. -/
def Bus.senseBusy (b : Bus) : Bus := { b with othersDrive := true, idleCount := 0 }

/-- R159, R164: the imaging unit's drive ends. If it was driving, the idle count starts afresh. -/
def Bus.imagingRelease (b : Bus) : Bus :=
  { b with othersDrive := false, answerDue := false, idleCount := if b.othersDrive then 0 else b.idleCount }

/-- R164, R167: an answer is taken in AWAITING until the imaging unit releases the bus. -/
def Bus.takesAnswer (b : Bus) : Bool := decide (b.state = .awaiting) && b.answerDue

end Sys2Proof.Machine
end

