-- ==== Sys2Proof/Machine/Operands.lean ====
section
/-! DEFINITION. What stored bytes and queue entries mean: two-byte fields, table items, glyph numbers, control arguments, and
which command the head entry of the input queue is. -/

namespace Sys2Proof.Machine

/-! ### Two-byte fields (chapter 11, R187) -/

/-- A field of two bytes, high byte first. -/
def pairValue (hi lo : Byte) : Nat := hi.toNat * 256 + lo.toNat

/-- The byte at a place in a list, 0 beyond its end. -/
def byteAt (bytes : List Byte) (i : Nat) : Byte := bytes.getD i 0

/-- The two-byte field at a place in a list. -/
def fieldAt (bytes : List Byte) (i : Nat) : Nat := pairValue (byteAt bytes i) (byteAt bytes (i + 1))

/-- All two-byte fields of a list, in order. -/
def pairFields : List Byte → List Nat
  | hi :: lo :: rest => pairValue hi lo :: pairFields rest
  | _ => []

/-- A number sent as two bytes, high byte first. -/
def twoBytes (n : Nat) : List Byte := [BitVec.ofNat 8 (n / 256), BitVec.ofNat 8 n]

/-! ### Tables (R35, R69, R73) -/

/-- The size of a table's items in bytes (R35). -/
def TableKind.itemSize : TableKind → Nat
  | .codeMap => 2
  | .glyphs => 10
  | .ligatures => 6
  | .header => 8

/-- A table's number (R35, R69). -/
def TableKind.number : TableKind → Nat
  | .codeMap => 0
  | .glyphs => 1
  | .ligatures => 2
  | .header => 3

/-- The table a number names; a number above 3 names none (R35). -/
def tableKindOf (n : Nat) : Option TableKind :=
  match n with
  | 0 => some .codeMap
  | 1 => some .glyphs
  | 2 => some .ligatures
  | 3 => some .header
  | _ => none

/-- The table's first index (R73). -/
def TableKind.first : TableKind → Nat
  | .glyphs => 1
  | .codeMap => 0
  | .ligatures => 0
  | .header => 0

/-- The table's last index (R73). -/
def TableKind.last : TableKind → Nat
  | .codeMap => 895
  | .glyphs => 1023
  | .ligatures => 255
  | .header => 0

/-- An index lies in the table's range (R69, R73). -/
def TableKind.inRange (k : TableKind) (i : Nat) : Bool := decide (k.first ≤ i) && decide (i ≤ k.last)

/-- A bank's table. -/
def Bank.table (b : Bank) : TableKind → Memory
  | .codeMap => b.codeMap
  | .glyphs => b.glyphs
  | .ligatures => b.ligatures
  | .header => b.header

/-- A bank's table replaced. -/
def Bank.setTable (b : Bank) (k : TableKind) (m : Memory) : Bank :=
  match k with
  | .codeMap => { b with codeMap := m }
  | .glyphs => { b with glyphs := m }
  | .ligatures => { b with ligatures := m }
  | .header => { b with header := m }

/-- The stored bytes of an item (R69, R188). -/
def Bank.item (b : Bank) (k : TableKind) (i : Nat) : List Byte := memReadBytes (b.table k) (i * k.itemSize) k.itemSize

/-- R74: an item written whole at its index. -/
def Bank.writeItem (b : Bank) (k : TableKind) (i : Nat) (bytes : List Byte) : Bank :=
  b.setTable k (memWriteBytes (b.table k) (i * k.itemSize) bytes)

/-! ### Glyph entries (section 4.4, section 11.2, R188) -/

/-- Direction classes (R62). -/
inductive DirClass where
  | l | r | n | s | w | m
  deriving DecidableEq, Repr

/-- Joining types (R63). -/
inductive Joining where
  | none | dual | right | cause | transparent
  deriving DecidableEq, Repr

/-- Which side of its base a mark goes to (R65). -/
inductive Side where
  | above | below
  deriving DecidableEq, Repr

/-- Byte `i` of glyph entry `g`. -/
def glyphByte (b : Bank) (g i : Nat) : Byte := memRead b.glyphs (g * TableKind.glyphs.itemSize + i)

/-- The entry holds a glyph: bit 7 of byte 0. -/
def holding (b : Bank) (g : Nat) : Bool := (glyphByte b g 0).getLsbD 7

/-- R60: a glyph number is usable when it is 1..1023 and its entry holds a glyph. -/
def usable (b : Bank) (g : Nat) : Bool := decide (1 ≤ g) && decide (g ≤ 1023) && holding b g

/-- Bit 6 of byte 0. -/
def sideOf (b : Bank) (g : Nat) : Side := if (glyphByte b g 0).getLsbD 6 then .below else .above

/-- Bits 5..0 of byte 0. -/
def faceOf (b : Bank) (g : Nat) : BitVec 6 := (glyphByte b g 0).extractLsb' 0 6

/-- Byte 1. -/
def charOf (b : Bank) (g : Nat) : Byte := glyphByte b g 1

/-- Byte 2, in du. -/
def advanceOf (b : Bank) (g : Nat) : Nat := (glyphByte b g 2).toNat

/-- Bits 7..5 of byte 3; 6 and 7 read as W (R188). -/
def classOf (b : Bank) (g : Nat) : DirClass :=
  match (glyphByte b g 3).toNat / 32 with
  | 0 => .l
  | 1 => .r
  | 2 => .n
  | 3 => .s
  | 5 => .m
  | _ => .w

/-- Bits 4..2 of byte 3, 5 to 7 read as NONE; an entry of class M reads as TRANSPARENT (R63, R188). -/
def joiningOf (b : Bank) (g : Nat) : Joining :=
  if classOf b g = .m then .transparent
  else
    match (glyphByte b g 3).toNat / 4 % 8 with
    | 1 => .dual
    | 2 => .right
    | 3 => .cause
    | 4 => .transparent
    | _ => .none

/-- Bit 1 of byte 3. -/
def extendableOf (b : Bank) (g : Nat) : Bool := (glyphByte b g 3).getLsbD 1

/-- Byte 4, in du. -/
def aboveExtentOf (b : Bank) (g : Nat) : Nat := (glyphByte b g 4).toNat

/-- Byte 5, in du. -/
def belowExtentOf (b : Bank) (g : Nat) : Nat := (glyphByte b g 5).toNat

/-- Bytes 6..9 as a four-byte value, most significant byte first. -/
def formsOf (b : Bank) (g : Nat) : Nat :=
  pairValue (glyphByte b g 6) (glyphByte b g 7) * 65536 + pairValue (glyphByte b g 8) (glyphByte b g 9)

/-- The glyph number a form field holds: initial in bits 29..20, medial in 19..10, final in 9..0; the isolated form is the entry
itself (R64). -/
def formField (b : Bank) (g : Nat) : Form → Nat
  | .isolated => g
  | .initial => formsOf b g / 1048576 % 1024
  | .medial => formsOf b g / 1024 % 1024
  | .final => formsOf b g % 1024

/-- R64: the glyph set for a form; a field that names no usable glyph falls back to the entry itself. -/
def setGlyphFor (b : Bank) (g : Nat) (f : Form) : Nat := if usable b (formField b g f) then formField b g f else g

/-! ### Code map, ligature list, script header -/

/-- A code map item's meaning (R59, R188): type 3 reads as NONE. -/
inductive CodeItem where
  | none | glyph (g : Nat) | space
  deriving DecidableEq, Repr

/-- The item at an index: the type in bits 15..14, the glyph number in bits 9..0. -/
def codeItemAt (b : Bank) (i : Nat) : CodeItem :=
  let v := pairValue (memRead b.codeMap (i * 2)) (memRead b.codeMap (i * 2 + 1))
  match v / 16384 with
  | 1 => .glyph (v % 1024)
  | 2 => .space
  | _ => .none

/-- R25: the index of an input code in a plane. -/
def codeIndex (plane : BitVec 2) (c : Byte) : Nat := plane.toNat * 224 + (c.toNat - 0x20)

/-- A two-byte field of ligature entry `i`: 0 first, 2 second, 4 result. -/
def ligatureField (b : Bank) (i k : Nat) : Nat :=
  pairValue (memRead b.ligatures (i * 6 + k)) (memRead b.ligatures (i * 6 + k + 1))

/-- The result of the lowest-index entry from `i` on that is not empty and matches the pair, among `n` entries (R67). -/
def ligatureFrom (b : Bank) (first second : Nat) : Nat → Nat → Option Nat
  | 0, _ => none
  | n + 1, i =>
    if ligatureField b i 0 ≠ 0 ∧ ligatureField b i 0 = first ∧ ligatureField b i 2 = second then some (ligatureField b i 4)
    else ligatureFrom b first second n (i + 1)

/-- R67: the glyph a pair merges into; an entry found whose result is not usable gives none, and no later one is consulted. -/
def ligatureOf (b : Bank) (first second : Nat) : Option Nat :=
  match ligatureFrom b first second 256 0 with
  | some g => if usable b g then some g else none
  | none => none

/-- The four fields of the script header (R68). -/
inductive HeaderField where
  | carrier | substitute | breakGlyph | extension
  deriving DecidableEq, Repr

/-- A header field's place in the item (section 11.2). -/
def HeaderField.offset : HeaderField → Nat
  | .carrier => 0
  | .substitute => 2
  | .breakGlyph => 4
  | .extension => 6

/-- R68: the glyph the header names in a field, if it names one. -/
def headerGlyph (b : Bank) (f : HeaderField) : Option Nat :=
  let g := pairValue (memRead b.header f.offset) (memRead b.header (f.offset + 1))
  if usable b g then some g else none

/-! ### Control codes (section 2.5) -/

/-- The control code with arguments that a byte is, if it is one. -/
def controlCodeOf (b : Byte) : Option ControlCode :=
  match b.toNat with
  | 0x01 => some .plane
  | 0x08 => some .format
  | 0x09 => some .leader
  | 0x0A => some .load
  | 0x0B => some .bank
  | 0x0C => some .query
  | _ => none

/-- How many argument bytes a code takes, from the bytes taken so far: LEADER's first byte n fixes 1 + 2n (R27). -/
def argumentCount (code : ControlCode) (bytes : List Byte) : Nat :=
  match code with
  | .plane => 1
  | .format => 3
  | .leader => match bytes with | [] => 1 | n :: _ => 1 + 2 * n.toNat
  | .load => 5
  | .bank => 1
  | .query => 4

/-- R35 to R38: which command the last argument byte completes. -/
def completedCommand (code : ControlCode) (bytes : List Byte) : Instr :=
  match code with
  | .plane => .plane
  | .format => .format
  | .leader => .leader
  | .load => .load
  | .bank =>
    match (byteAt bytes 0).toNat with
    | 0 => .copy
    | 1 => .clear
    | 2 => .swap
    | _ => .invalidBankOp
  | .query =>
    match (byteAt bytes 0).toNat with
    | 0 => .status
    | 1 => .counts
    | 2 => .countsAndClear
    | 3 => .entry
    | _ => .invalidQueryKind

/-- R25, R27: what a PLAIN byte taken in TEXT is. -/
def textCommand (b : Byte) : Instr :=
  if 0x20 ≤ b.toNat then .textByte
  else
    match b.toNat with
    | 0x01 => .controlCodeWithArguments
    | 0x02 => .disc
    | 0x03 => .tab
    | 0x04 => .endline
    | 0x05 => .endpara
    | 0x06 => .join
    | 0x07 => .nojoin
    | 0x08 => .controlCodeWithArguments
    | 0x09 => .controlCodeWithArguments
    | 0x0A => .controlCodeWithArguments
    | 0x0B => .controlCodeWithArguments
    | 0x0C => .controlCodeWithArguments
    | 0x0D => .reset
    | _ => .strayCode

/-- R18 to R24, R27, R36: the command that the removal of an entry is, in the decoder's state. -/
def commandFor (d : Decoder) (e : Entry) : Instr :=
  match e with
  | .takeStart _ => .takeStartEntry
  | .takeEnd => .takeEndEntry
  | .cut => .cutEntry
  | .stalled => .stalledEntry
  | .gap _ _ => .gapEntry
  | .plain b =>
    match d.state with
    | .idle => .plainDiscarded
    | .skip => .plainDiscarded
    | .text => textCommand b
    | .args code bytes =>
      if (bytes ++ [b]).length < argumentCount code (bytes ++ [b]) then .argumentByte else completedCommand code (bytes ++ [b])
    | .load _ => .loadDataByte
    | .sum _ => .loadSumByte

/-- The byte of a PLAIN entry. -/
def Entry.byte : Entry → Byte
  | .plain b => b
  | .takeStart _ => 0
  | .takeEnd => 0
  | .cut => 0
  | .stalled => 0
  | .gap _ _ => 0

/-- The argument bytes that the entry completes. -/
def Decoder.argumentBytes (d : Decoder) (e : Entry) : List Byte :=
  match d.state with
  | .args _ bytes => bytes ++ [e.byte]
  | .idle => []
  | .text => []
  | .load _ => []
  | .sum _ => []
  | .skip => []

/-- R38, R187: an ENTRY query's arguments: the table in bits 1..0 of a, the bank in bit 2, the index b. -/
def entryQuery (bytes : List Byte) : Query :=
  .entry ((tableKindOf ((byteAt bytes 1).toNat % 4)).getD .header) ((byteAt bytes 1).getLsbD 2) (fieldAt bytes 2)

end Sys2Proof.Machine
end

