-- ==== Sys2Proof/Machine/Layouts.lean ====
section
/-! DEFINITION. The layouts of chapter 11: line packets, their check and their bits on the bus, and return-line records. -/

namespace Sys2Proof.Machine

/-! ### Line packets (section 11.3, R189) -/

/-- A number as sixteen bits of two's complement, sent as two bytes (section 11.3, the item's y). -/
def signedBytes (y : Int) : List Byte := twoBytes (y.emod 65536).toNat

/-- An item's six bytes. -/
def itemBytes (i : Item) : List Byte := [BitVec.ofNat 8 i.face.toNat, i.char] ++ twoBytes i.x ++ signedBytes i.y

/-- The header's value, priority × 16 + unit (R162). -/
def headerValue (p : PacketBody) : Nat := p.priority.toNat * 16 + p.unit.toNat

/-- Bytes 0 to 8 + 6n of a packet: all of it before the check (section 11.3). -/
def packetBody (p : PacketBody) (sequence : BitVec 8) : List Byte :=
  [BitVec.ofNat 8 (headerValue p), sequence, BitVec.ofNat 8 p.galley] ++ twoBytes p.size ++ twoBytes p.leading
    ++ [BitVec.ofNat 8 p.flags.toNat, BitVec.ofNat 8 p.items.length] ++ p.items.flatMap itemBytes

/-- The sum of bytes as numbers. -/
def byteSum : List Byte → Nat
  | [] => 0
  | b :: rest => b.toNat + byteSum rest

/-- R154, R189: the check is the sum of the bytes before it, modulo 65536. -/
def packetCheck (p : PacketBody) (sequence : BitVec 8) : Nat := byteSum (packetBody p sequence) % 65536

/-- A packet's bytes, the check last, high byte first. -/
def packetBytes (p : Packet) : List Byte := packetBody p.body p.sequence ++ twoBytes p.check

/-- The low `n` bits of a byte, the most significant first. -/
def bitsOf (b : Byte) : Nat → List Bool
  | 0 => []
  | n + 1 => b.getLsbD n :: bitsOf b n

/-- R162, R189: the six header bits that the contest compares, bits 5..0 of byte 0. -/
def headerBits (p : Packet) : List Bool := bitsOf (BitVec.ofNat 8 (headerValue p.body)) 6

/-- R164, R189: all the bits of a packet as the bus carries them; the not-used bits of byte 0 are not sent. -/
def packetBits (p : Packet) : List Bool := headerBits p ++ (packetBytes p).tail.flatMap (fun b => bitsOf b 8)

/-! ### Return-line records (section 11.4, R190) -/

/-- A Bool as a byte, 1 for yes. -/
def boolByte (b : Bool) : Byte := BitVec.ofNat 8 (bit b)

/-- The active bank's number (R81, section 11.4). -/
def BankName.number : BankName → Nat
  | .a => 0
  | .b => 1

/-- The bus port state's number (section 11.4). -/
def BusState.number : BusState → Nat
  | .busIdle => 0
  | .waiting => 1
  | .contending => 2
  | .sending => 3
  | .awaiting => 4
  | .deferring => 5

/-- A notice kind's number (section 11.4). -/
def NoticeKind.number : NoticeKind → Nat
  | .overrun => 1
  | .takeCut => 2
  | .takeStalled => 3
  | .loadRefused => 4
  | .loadSum => 5
  | .loadAborted => 6
  | .swapRefused => 7
  | .packetRejected => 8
  | .holdExpired => 9
  | .collision => 10

/-- The counters in the order of a COUNTS record (section 11.4). -/
def Counters.inOrder (c : Counters) : List Nat :=
  [c.takes, c.lines, c.forced, c.overset, c.loose, c.unmapped, c.orphans, c.markOverflow, c.stray, c.overrun, c.contestsLost,
    c.deferred, c.rejected, c.holdExpiries]

/-- A STATUS record's fifteen plain bytes (section 11.4). -/
def statusBytes (f : StatusFields) : List Byte :=
  [BitVec.ofNat 8 f.unitNumber.toNat, boolByte f.acceptAll, boolByte f.takeOpen, BitVec.ofNat 8 f.portPriority.toNat,
    BitVec.ofNat 8 f.activeBank.number, boolByte f.standbyValid, boolByte f.pendingNonEmpty, BitVec.ofNat 8 f.cells,
    BitVec.ofNat 8 f.items, BitVec.ofNat 8 f.exposureDepth, BitVec.ofNat 8 f.busState.number] ++ twoBytes f.inputLevel
    ++ [boolByte f.hold, BitVec.ofNat 8 f.returnDepth]

/-- A record's flagged kind byte (section 11.4). -/
def Record.kindByte : Record → Byte
  | .status _ => 1
  | .counts _ => 2
  | .entry _ _ _ _ _ => 3
  | .notice _ _ _ => 4

/-- A record's plain bytes (section 11.4). -/
def Record.plainBytes : Record → List Byte
  | .status f => statusBytes f
  | .counts c => c.inOrder.flatMap twoBytes
  | .entry k standby i present item =>
    [BitVec.ofNat 8 k.number, boolByte standby] ++ twoBytes i ++ [boolByte present] ++ item
  | .notice k r d => [BitVec.ofNat 8 k.number, BitVec.ofNat 8 r] ++ twoBytes d

/-- R178, R190: a record as the sender sends it: the flagged kind byte, then the plain bytes. -/
def Record.characters (r : Record) : List (Bool × Byte) := (true, r.kindByte) :: r.plainBytes.map (fun b => (false, b))

end Sys2Proof.Machine
end

