-- ==== Sys2Proof/Machine/FormatWrites.lean ====
section
/-! DEFINITION. The format set's work: clamping, filing and applying writes (chapter 3). -/

namespace Sys2Proof.Machine

/-- A write of one line parameter, its value clamped (R43, R49). -/
inductive LineWrite where
  | size (v : Nat) | measure (v : Nat) | leading (v : Nat) | paraSpace (v : Nat) | mode (m : Mode) | direction (d : Direction)
  | spaceMin (v : Nat) | spaceOpt (v : Nat) | spaceMax (v : Nat) | extend (v : Nat) | galley (v : Nat)
  | tab (stop : Nat) (v : Nat) | leader (glyphs : List Nat)
  deriving DecidableEq, Repr

/-- A write of one unit parameter, its value clamped (R50). -/
inductive UnitWrite where
  | burstLimit (v : Nat) | busGap (v : Nat) | holdLimit (v : Nat) | deferWait (v : Nat) | takeTimeout (v : Nat)
  deriving DecidableEq, Repr

/-- What a FORMAT write is: one of a line parameter, one of a unit parameter, or held or ignored (R44). -/
inductive FormatWrite where
  | line (w : LineWrite) | unit (w : UnitWrite) | stray
  deriving DecidableEq, Repr

/-- R43: a value clamped into a range. -/
def clamp (lo hi v : Nat) : Nat := max lo (min hi v)

/-- MODE's values; above 3 none (R44). -/
def modeOf (v : Nat) : Option Mode :=
  match v with
  | 0 => some .justify
  | 1 => some .flushStart
  | 2 => some .flushEnd
  | 3 => some .centre
  | _ => none

/-- DIRECTION's values; above 1 none (R44). -/
def directionOf (v : Nat) : Option Direction :=
  match v with
  | 0 => some .ltr
  | 1 => some .rtl
  | _ => none

/-- R42 to R44, R48, R50: what FORMAT k, v writes. -/
def formatWrite (k v : Nat) : FormatWrite :=
  match k with
  | 0 => .line (.size (clamp 16 384 v))
  | 1 => .line (.measure (clamp 240 14400 v))
  | 2 => .line (.leading (clamp 0 2880 v))
  | 3 => .line (.paraSpace (clamp 0 1440 v))
  | 4 => match modeOf v with | some m => .line (.mode m) | none => .stray
  | 5 => match directionOf v with | some d => .line (.direction d) | none => .stray
  | 6 => .line (.spaceMin (clamp 0 255 v))
  | 7 => .line (.spaceOpt (clamp 0 255 v))
  | 8 => .line (.spaceMax (clamp 0 255 v))
  | 9 => .line (.extend (clamp 0 8 v))
  | 10 => .line (.galley (clamp 0 15 v))
  | 32 => .unit (.burstLimit (clamp 1 16 v))
  | 33 => .unit (.busGap (clamp 4 64 v))
  | 34 => .unit (.holdLimit (clamp 1 255 v))
  | 35 => .unit (.deferWait (clamp 1 255 v))
  | 36 => .unit (.takeTimeout (clamp 0 60 v))
  | k => if 16 ≤ k ∧ k ≤ 31 then .line (.tab (k - 16) (clamp 0 14400 v)) else .stray

/-- A write filed into the line copy (R45). -/
def LineCopy.write (c : LineCopy) : LineWrite → LineCopy
  | .size v => { c with size := v }
  | .measure v => { c with measure := v }
  | .leading v => { c with leading := v }
  | .paraSpace v => { c with paraSpace := v }
  | .mode m => { c with mode := m }
  | .direction d => { c with direction := d }
  | .spaceMin v => { c with spaceMin := v }
  | .spaceOpt v => { c with spaceOpt := v }
  | .spaceMax v => { c with spaceMax := v }
  | .extend v => { c with extend := v }
  | .galley v => { c with galley := v }
  | .tab i v => { c with tabs := c.tabs.set i v }
  | .leader g => { c with leader := g }

/-- A write filed into the pending set; it replaces the parameter's entry (R45). -/
def PendingSet.write (p : PendingSet) : LineWrite → PendingSet
  | .size v => { p with size := some v }
  | .measure v => { p with measure := some v }
  | .leading v => { p with leading := some v }
  | .paraSpace v => { p with paraSpace := some v }
  | .mode m => { p with mode := some m }
  | .direction d => { p with direction := some d }
  | .spaceMin v => { p with spaceMin := some v }
  | .spaceOpt v => { p with spaceOpt := some v }
  | .spaceMax v => { p with spaceMax := some v }
  | .extend v => { p with extend := some v }
  | .galley v => { p with galley := some v }
  | .tab i v => { p with tabs := p.tabs.set i (some v) }
  | .leader g => { p with leader := some g }

/-- A unit parameter written at once (R50). -/
def UnitParams.write (u : UnitParams) : UnitWrite → UnitParams
  | .burstLimit v => { u with burstLimit := v }
  | .busGap v => { u with busGap := v }
  | .holdLimit v => { u with holdLimit := v }
  | .deferWait v => { u with deferWait := v }
  | .takeTimeout v => { u with takeTimeout := v }

/-- R45: a line parameter's write goes into the line copy while the line store is empty, and into the pending set otherwise. -/
def FormatSet.fileLine (storeEmpty : Bool) (w : LineWrite) (f : FormatSet) : FormatSet :=
  if storeEmpty then { f with line := f.line.write w } else { f with pending := f.pending.write w }

/-- The tab stops with their pending values applied, stop by stop (R46). -/
def applyTabs : List Nat → List (Option Nat) → List Nat
  | t :: ts, p :: ps => p.getD t :: applyTabs ts ps
  | ts, [] => ts
  | [], _ :: _ => []

/-- R46: every pending value replaces its parameter in the copy. -/
def PendingSet.applyTo (p : PendingSet) (c : LineCopy) : LineCopy :=
  { size := p.size.getD c.size, measure := p.measure.getD c.measure, leading := p.leading.getD c.leading
    paraSpace := p.paraSpace.getD c.paraSpace, mode := p.mode.getD c.mode, direction := p.direction.getD c.direction
    spaceMin := p.spaceMin.getD c.spaceMin, spaceOpt := p.spaceOpt.getD c.spaceOpt, spaceMax := p.spaceMax.getD c.spaceMax
    extend := p.extend.getD c.extend, galley := p.galley.getD c.galley, tabs := applyTabs c.tabs p.tabs
    leader := p.leader.getD c.leader }

/-- R46: the pending set applied at a line start, and then empty. -/
def FormatSet.applyPending (f : FormatSet) : FormatSet :=
  { f with line := f.pending.applyTo f.line, pending := PendingSet.empty }

/-! ### Values read from the line copy -/

/-- A width of a du in fine units, a × 5Q (chapter 0, R52). -/
def LineCopy.fine (c : LineCopy) (du : Nat) : Nat := du * (5 * c.size)

/-- MEASURE in fine units, M (R112). -/
def LineCopy.measureFine (c : LineCopy) : Nat := c.measure * Config.finePerStep

/-- R47: the effective minimum. -/
def LineCopy.effMin (c : LineCopy) : Nat := c.spaceMin

/-- R47: the effective optimum. -/
def LineCopy.effOpt (c : LineCopy) : Nat := max c.spaceOpt c.spaceMin

/-- R47: the effective maximum. -/
def LineCopy.effMax (c : LineCopy) : Nat := max c.spaceMax c.effOpt

/-- R92: the width at which a SPACE is appended, in du. -/
def LineCopy.spaceWidth (c : LineCopy) : Nat := if c.mode = .justify then c.effMin else c.effOpt

/-- R48, R125: the smallest fine position beyond the accumulator among the set stops, each taken as MEASURE if beyond it. -/
def nextStop (c : LineCopy) (acc : Nat) : List Nat → Option Nat
  | [] => none
  | t :: rest =>
    let position := min t c.measure * Config.finePerStep
    if t ≠ 0 ∧ acc < position then
      some (match nextStop c acc rest with | some q => min position q | none => position)
    else nextStop c acc rest

/-- R125: a TAB's gap at an accumulator. -/
def tabGap (c : LineCopy) (acc : Nat) : Nat :=
  match nextStop c acc c.tabs with
  | some position => position - acc
  | none => 0

end Sys2Proof.Machine
end

