-- ==== Sys2Proof/Machine/Shaping.lean ====
section
/-! DEFINITION. The shaper's cells: widths, items, joining, forms, settlement, ligatures and appending (chapter 6). -/

namespace Sys2Proof.Machine

/-! ### Kinds of cells -/

def Cell.isSpace : Cell → Bool
  | .space _ => true
  | _ => false

def Cell.isTab : Cell → Bool
  | .tab _ _ _ => true
  | _ => false

/-- An unbroken BREAK (R90, R100). -/
def Cell.isUnbrokenBreak : Cell → Bool
  | .brk _ broken _ => !broken
  | _ => false

/-- A LETTER, CARRIER, SPACE or TAB: a cell before which a line may be cut (R117). -/
def Cell.isContent : Cell → Bool
  | .letter _ => true
  | .carrier _ => true
  | .space _ => true
  | .tab _ _ _ => true
  | .brk _ _ _ => false
  | .link _ => false

/-- A LETTER, CARRIER or TAB: a cell after which an opportunity is recorded (R113, R114). -/
def Cell.allowsBreak : Cell → Bool
  | .letter _ => true
  | .carrier _ => true
  | .tab _ _ _ => true
  | .space _ => false
  | .brk _ _ _ => false
  | .link _ => false

/-- A ligature cell keeps its second glyph (R87). -/
def Letter.isLigature (l : Letter) : Bool := l.second.isSome

/-- The LETTER at a place, if one stands there. -/
def letterAt (cells : List Cell) (i : Nat) : Option Letter :=
  match cells[i]? with
  | some (.letter l) => some l
  | _ => none

/-! ### Widths and items (R88, R105) -/

/-- A cell's width in the accumulator. -/
def cellFine (c : LineCopy) : Cell → Nat
  | .letter l => if l.settled then c.fine l.width else 0
  | .space w => c.fine w
  | .tab gap _ _ => gap
  | .brk _ broken w => if broken then c.fine w else 0
  | .link _ => 0
  | .carrier k => c.fine k.width

/-- The width of the settled cells. -/
def sumFine (c : LineCopy) : List Cell → Nat
  | [] => 0
  | x :: rest => cellFine c x + sumFine c rest

/-- The items a cell would emit, a BREAK counting one when the header names a break glyph. -/
def cellItems (b : Bank) : Cell → Nat
  | .letter l => 1 + l.above.length + l.below.length
  | .carrier k => 1 + k.above.length + k.below.length
  | .brk _ _ _ => if (headerGlyph b .breakGlyph).isSome then 1 else 0
  | .space _ => 0
  | .tab _ _ _ => 0
  | .link _ => 0

/-- The items the cells would emit. -/
def sumItems (b : Bank) : List Cell → Nat
  | [] => 0
  | x :: rest => cellItems b x + sumItems b rest

/-! ### Joining and forms (R90, R96, R97) -/

def glyphTransparent (b : Bank) (g : Nat) : Bool := decide (joiningOf b g = .transparent)

def glyphOffersBack (b : Bank) (g : Nat) : Bool :=
  match joiningOf b g with
  | .dual => true
  | .right => true
  | .cause => true
  | .none => false
  | .transparent => false

def glyphOffersForward (b : Bank) (g : Nat) : Bool :=
  match joiningOf b g with
  | .dual => true
  | .cause => true
  | .right => false
  | .none => false
  | .transparent => false

/-- A ligature cell is transparent when both its glyphs are. -/
def Letter.transparent (b : Bank) (l : Letter) : Bool :=
  glyphTransparent b l.glyph && (match l.second with | none => true | some g => glyphTransparent b g)

/-- R90: the cells that others look past. -/
def Cell.transparent (b : Bank) : Cell → Bool
  | .letter l => l.transparent b
  | .brk _ broken _ => !broken
  | .space _ => false
  | .tab _ _ _ => false
  | .link _ => false
  | .carrier _ => false

/-- R96: the cell offers a join toward its previous neighbour. -/
def Cell.offersBack (b : Bank) : Cell → Bool
  | .letter l => glyphOffersBack b l.glyph
  | .link k => decide (k = .join)
  | .space _ => false
  | .tab _ _ _ => false
  | .brk _ _ _ => false
  | .carrier _ => false

/-- R96: the cell offers a join toward its next neighbour; a ligature cell as its second glyph's type. -/
def Cell.offersForward (b : Bank) : Cell → Bool
  | .letter l => glyphOffersForward b (l.second.getD l.glyph)
  | .link k => decide (k = .join)
  | .space _ => false
  | .tab _ _ _ => false
  | .brk _ _ _ => false
  | .carrier _ => false

/-- R90: the arriving cell is transparent. -/
def Arrival.transparent (b : Bank) : Arrival → Bool
  | .letter g => glyphTransparent b g
  | .disc => true
  | .space => false
  | .tab => false
  | .link _ => false
  | .carrier _ _ => false

/-- R96, R97: the arriving cell, as a next neighbour, offers a join backward. -/
def Arrival.offersBack (b : Bank) : Arrival → Bool
  | .letter g => glyphOffersBack b g
  | .link k => decide (k = .join)
  | .disc => false
  | .space => false
  | .tab => false
  | .carrier _ _ => false

/-- R97: among the cells before a place, the nearest that is not transparent. -/
def previousNeighbour (b : Bank) (before : List Cell) : Option Cell := before.reverse.find? (fun x => !x.transparent b)

/-- R97: the form by joins previous and joins next. -/
def formOf (previous next : Bool) : Form :=
  match previous, next with
  | true, true => .medial
  | true, false => .final
  | false, true => .initial
  | false, false => .isolated

def Form.joinsPrevious : Form → Bool
  | .medial => true
  | .final => true
  | .initial => false
  | .isolated => false

/-- R99: a LETTER joins next when its form is INITIAL or MEDIAL. -/
def Form.joinsNext : Form → Bool
  | .initial => true
  | .medial => true
  | .final => false
  | .isolated => false

/-- R97: a letter's form from the cells before it and from whether its next neighbour exists and offers a join backward. -/
def letterForm (b : Bank) (before : List Cell) (g : Nat) (nextOffers : Bool) : Form :=
  formOf (glyphOffersBack b g && (previousNeighbour b before).any (fun x => x.offersForward b))
    (glyphOffersForward b g && nextOffers)

/-- R64, R98: a letter settled, or re-formed, in a form. -/
def Letter.setForm (b : Bank) (l : Letter) (f : Form) : Letter :=
  { l with form := f, setGlyph := setGlyphFor b l.glyph f, width := advanceOf b (setGlyphFor b l.glyph f), settled := true }

/-! ### Settlement and ligatures (R98 to R101) -/

/-- The place of the provisional letter, counted from `i`. -/
def provisionalFrom : Nat → List Cell → Option Nat
  | _, [] => none
  | i, .letter l :: rest => if l.settled then provisionalFrom (i + 1) rest else some i
  | i, .space _ :: rest => provisionalFrom (i + 1) rest
  | i, .tab _ _ _ :: rest => provisionalFrom (i + 1) rest
  | i, .brk _ _ _ :: rest => provisionalFrom (i + 1) rest
  | i, .link _ :: rest => provisionalFrom (i + 1) rest
  | i, .carrier _ :: rest => provisionalFrom (i + 1) rest

/-- The place of the provisional letter (R91: the line store holds at most one). -/
def provisionalIndex (cells : List Cell) : Option Nat := provisionalFrom 0 cells

/-- R98: the letter at a place settles; the accumulator takes its width. -/
def Line.settleAt (b : Bank) (c : LineCopy) (nextOffers : Bool) (i : Nat) (ln : Line) : Line :=
  match letterAt ln.cells i with
  | none => ln
  | some l =>
    let set := l.setForm b (letterForm b (ln.cells.take i) l.glyph nextOffers)
    { ln with cells := ln.cells.set i (.letter set), acc := ln.acc + c.fine set.width }

/-- R100: an unbroken BREAK stands after a place before the next neighbour or the end. -/
def breakFollows (b : Bank) (cells : List Cell) (i : Nat) : Bool :=
  ((cells.drop (i + 1)).takeWhile (fun x => x.transparent b)).any Cell.isUnbrokenBreak

/-- R101: two letters merged into a result glyph, and how many marks the merge drops. Joins previous is read from the form that
the earlier letter has at the merge; where carry-over re-formed that letter since it settled, that is the re-formed one, which
is the model's reading (log 20). -/
def mergeLetters (b : Bank) (result : Nat) (e l : Letter) : Letter × Nat :=
  ({ e with
      setGlyph := result, second := some l.glyph, above := (e.above ++ l.above).take 3, below := (e.below ++ l.below).take 3
      width := advanceOf b result, form := formOf e.form.joinsPrevious l.form.joinsNext },
    ((e.above ++ l.above).length - 3) + ((e.below ++ l.below).length - 3))

/-- R100: the glyph into which the letter at a place merges with the cell just before it, if the lookup is made and finds one. -/
def ligatureResult (b : Bank) (cells : List Cell) (i : Nat) : Option (Nat × Letter × Letter) :=
  match i with
  | 0 => none
  | j + 1 =>
    match letterAt cells j, letterAt cells (j + 1) with
    | some e, some l =>
      if e.settled && !e.isLigature && !breakFollows b cells (j + 1) then
        match ligatureOf b e.setGlyph l.setGlyph with
        | some g => some (g, e, l)
        | none => none
      else none
    | _, _ => none

/-- R101: the line after the letter at a place has been looked up with the cell before it: the line, the place of the cell that
now holds the letter, and the marks dropped. -/
def Line.ligate (b : Bank) (c : LineCopy) (i : Nat) (ln : Line) : Line × Nat × Nat :=
  match ligatureResult b ln.cells i with
  | none => (ln, i, 0)
  | some (g, e, l) =>
    let m := mergeLetters b g e l
    let merged : Line :=
      { ln with
        cells := (ln.cells.set (i - 1) (.letter m.1)).eraseIdx i
        acc := ln.acc - c.fine e.width - c.fine l.width + c.fine m.1.width
        items := ln.items - 1 - m.2 }
    (if m.2 = 0 then merged else merged.flagMarkOverflow, i - 1, m.2)

/-! ### Break opportunities (R94, R113 to R115) -/

/-- The place of the last cell that is not transparent, counted from `i`. -/
def lastSolidFrom (b : Bank) : Nat → Option Nat → List Cell → Option Nat
  | _, found, [] => found
  | i, found, x :: rest => lastSolidFrom b (i + 1) (if x.transparent b then found else some i) rest

/-- R94: the break letter of a BREAK after these cells: the last non-transparent one, when it is a LETTER and no ligature. -/
def breakLetter (b : Bank) (cells : List Cell) : Option (Nat × Letter) :=
  match lastSolidFrom b 0 none cells with
  | none => none
  | some j =>
    match letterAt cells j with
    | some l => if l.isLigature then none else some (j, l)
    | none => none

/-- R94: the break glyph's advance, 0 when the header names none. -/
def breakAdvance (b : Bank) : Nat :=
  match headerGlyph b .breakGlyph with
  | some g => advanceOf b g
  | none => 0

/-- R94: the line's width if it ended at a BREAK after these cells. -/
def brokenWidthAfter (b : Bank) (c : LineCopy) (cells : List Cell) : Nat :=
  (match breakLetter b cells with
    | some (j, l) =>
      sumFine c (cells.eraseIdx j)
        + c.fine (advanceOf b (setGlyphFor b l.glyph (letterForm b (cells.take j) l.glyph false)))
    | none => sumFine c cells)
    + c.fine (breakAdvance b)

/-- R113 to R115: an opportunity at the next place; it becomes the last eligible break when a LETTER, CARRIER or TAB stands
before it and its broken width is M or less. -/
def Line.recordBreak (c : LineCopy) (width : Nat) (ln : Line) : Line :=
  if ln.cells.any Cell.allowsBreak ∧ width ≤ c.measureFine then { ln with lastBreak := some (ln.cells.length, width) } else ln

/-! ### Appending (R88, R90 to R95) -/

/-- A cell joins the tail, with its width and its items. -/
def Line.append (b : Bank) (c : LineCopy) (x : Cell) (ln : Line) : Line :=
  { ln with cells := ln.cells ++ [x], acc := ln.acc + cellFine c x, items := ln.items + cellItems b x }

/-- The last cell is a SPACE, so that a further SPACE joins its run (R113). -/
def Line.endsInSpace (ln : Line) : Bool := ln.cells.getLast?.any Cell.isSpace

/-- R92, R113: a SPACE appended; the first of a run records an opportunity before it. -/
def Line.appendSpace (b : Bank) (c : LineCopy) (ln : Line) : Line :=
  (if ln.endsInSpace then ln else ln.recordBreak c ln.acc).append b c (.space c.spaceWidth)

/-- R93, R125: a TAB appended; the last eligible break becomes absent. -/
def Line.appendTab (b : Bank) (c : LineCopy) (ln : Line) : Line :=
  { ln.append b c (.tab (tabGap c ln.acc) [] 0) with lastBreak := none }

/-- R94, R114: a BREAK appended, with its broken width recorded as an opportunity. -/
def Line.appendBreak (b : Bank) (c : LineCopy) (ln : Line) : Line :=
  (ln.recordBreak c (brokenWidthAfter b c ln.cells)).append b c (.brk (brokenWidthAfter b c ln.cells) false 0)

/-- R91: a LETTER not yet settled. Its form, set glyph and width are chosen as it settles; that the cell holds ISOLATED, its own
glyph and 0 until then is the model's choice (log 22). -/
def provisionalLetter (g : Nat) : Letter :=
  { glyph := g, second := none, setGlyph := g, form := .isolated, settled := false, above := [], below := [], width := 0
    strokes := 0 }

/-- R91: a transparent LETTER is appended settled, ISOLATED, with its own glyph. -/
def transparentLetter (b : Bank) (g : Nat) : Letter := { provisionalLetter g with settled := true, width := advanceOf b g }

/-- R103: a CARRIER with the mark it was made for. -/
def carrierCell (b : Bank) (g mark : Nat) : Carrier :=
  { glyph := g
    above := if sideOf b mark = .above then [mark] else []
    below := if sideOf b mark = .below then [mark] else []
    width := advanceOf b g }

/-- R88: the items an arrival brings. -/
def Arrival.items (b : Bank) : Arrival → Nat
  | .letter _ => 1
  | .carrier _ _ => 2
  | .disc => if (headerGlyph b .breakGlyph).isSome then 1 else 0
  | .space => 0
  | .tab => 0
  | .link _ => 0

/-- R88: the arrival fails the capacity test. -/
def Line.lacksRoom (b : Bank) (a : Arrival) (ln : Line) : Bool :=
  decide (Config.cellCapacity < ln.cells.length + 1) || decide (Config.itemCapacity < ln.items + a.items b)

/-! ### Marks on the last cell (R102, R104) -/

/-- The mark list of a side, with a mark joined to its end. -/
def joinMark (side : Side) (mark : Nat) (above below : List Nat) : List Nat × List Nat :=
  match side with
  | .above => (above ++ [mark], below)
  | .below => (above, below ++ [mark])

/-- The number of marks on a side. -/
def markCount (side : Side) (above below : List Nat) : Nat :=
  match side with
  | .above => above.length
  | .below => below.length

/-- R102: a cell with a mark joined to the list its side names; only LETTER and CARRIER cells hold marks. -/
def Cell.withMark (side : Side) (mark : Nat) : Cell → Cell
  | .letter l =>
    .letter { l with above := (joinMark side mark l.above l.below).1, below := (joinMark side mark l.above l.below).2 }
  | .carrier k =>
    .carrier { k with above := (joinMark side mark k.above k.below).1, below := (joinMark side mark k.above k.below).2 }
  | .space w => .space w
  | .tab g ls r => .tab g ls r
  | .brk w br d => .brk w br d
  | .link k => .link k

/-- R102: the marks on a side of a cell that can hold marks. -/
def Cell.marksOn (side : Side) : Cell → Option Nat
  | .letter l => some (markCount side l.above l.below)
  | .carrier k => some (markCount side k.above k.below)
  | .space _ => none
  | .tab _ _ _ => none
  | .brk _ _ _ => none
  | .link _ => none

/-- What becomes of an arriving mark (R102 to R104). -/
inductive MarkFate where
  | attach | overflow | needsCarrier
  deriving DecidableEq, Repr

/-- R102, R104: a mark attaches to a last LETTER or CARRIER unless it would be a fourth on its side or the item count would
pass 255; any other last cell, or none, needs a carrier. -/
def Line.markFate (b : Bank) (mark : Nat) (ln : Line) : MarkFate :=
  match ln.cells.getLast? with
  | none => .needsCarrier
  | some x =>
    match x.marksOn (sideOf b mark) with
    | none => .needsCarrier
    | some n => if 3 ≤ n ∨ Config.itemCapacity < ln.items + 1 then .overflow else .attach

/-- R102: the mark on the last cell. -/
def Line.attachMark (b : Bank) (mark : Nat) (ln : Line) : Line :=
  { ln with
    cells := ln.cells.modify (ln.cells.length - 1) (Cell.withMark (sideOf b mark) mark)
    items := ln.items + 1 }

end Sys2Proof.Machine
end

