-- ==== Sys2Proof/Machine/Breaking.lean ====
section
/-! DEFINITION. Where a line ends, and what is carried over and re-measured (R106, R108, R112 to R120). -/

namespace Sys2Proof.Machine

/-- A line end as the shaper decides it: the cells of the ending line, the cells carried, and the flags it gives. -/
structure EndPlan where
  kind : EndKind
  ending : List Cell
  carried : List Cell
  forced : Bool
  overset : Bool
  cut : Bool
  deriving DecidableEq, Repr

/-- The flags a line end gives (R106, R117 to R119). -/
def EndPlan.flags (p : EndPlan) : LineFlags := { LineFlags.none with forced := p.forced, overset := p.overset, cut := p.cut }

/-- R106, R116: the break letter re-formed, or settled, with its previous neighbour as it stands and no next neighbour. -/
def reformBreakLetter (b : Bank) (cells : List Cell) : List Cell :=
  match breakLetter b cells with
  | some (j, l) => cells.set j (.letter (l.setForm b (letterForm b (cells.take j) l.glyph false)))
  | none => cells

/-- R118, R119: a provisional letter of an ending line settles with no next neighbour and makes no ligature lookup. -/
def settleInEnding (b : Bank) (cells : List Cell) : List Cell :=
  match provisionalIndex cells with
  | some i =>
    match letterAt cells i with
    | some l => cells.set i (.letter (l.setForm b (letterForm b (cells.take i) l.glyph false)))
    | none => cells
  | none => cells

/-- R116: the line ends at its last eligible break: before a run, whose SPACE cells are discarded, or at a BREAK, now broken. -/
def planAtBreak (b : Bank) (cells : List Cell) (i : Nat) : EndPlan :=
  match cells[i]? with
  | some (.brk width _ _) =>
    { kind := .overflow, ending := reformBreakLetter b (cells.take i) ++ [.brk width true (breakAdvance b)]
      carried := cells.drop (i + 1), forced := false, overset := false, cut := false }
  | _ =>
    { kind := .overflow, ending := cells.take i, carried := (cells.drop i).dropWhile Cell.isSpace
      forced := false, overset := false, cut := false }

/-- R117: the line ends just before its end cell. -/
def planForced (cells : List Cell) (i : Nat) : EndPlan :=
  { kind := .overflow, ending := cells.take i, carried := cells.drop i, forced := true, overset := false, cut := false }

/-- R117: a LETTER, CARRIER, SPACE or TAB stands before a place. -/
def contentBefore (cells : List Cell) (i : Nat) : Bool := (cells.take i).any Cell.isContent

/-- R117: the end cell of an overflow at an offending cell: a provisional letter that stands before it, else itself. -/
def endCell (cells : List Cell) (offending : Nat) : Nat :=
  match provisionalIndex cells with
  | some p => if p < offending then p else offending
  | none => offending

/-- R118: the line ends just after its offending cell. -/
def planOverset (b : Bank) (cells : List Cell) (offending : Nat) : EndPlan :=
  { kind := .overflow, ending := settleInEnding b (cells.take (offending + 1)), carried := cells.drop (offending + 1)
    forced := true, overset := true, cut := false }

/-- R116 to R118: how an overflow at an offending cell ends the line. -/
def planOverflow (b : Bank) (ln : Line) (offending : Nat) : EndPlan :=
  match ln.lastBreak with
  | some (i, _) => planAtBreak b ln.cells i
  | none =>
    if contentBefore ln.cells (endCell ln.cells offending) then planForced ln.cells (endCell ln.cells offending)
    else planOverset b ln.cells offending

/-- R119: a capacity failure ends the line after its last cell; a provisional letter settled there may overset it. -/
def planWhole (b : Bank) (c : LineCopy) (cells : List Cell) : EndPlan :=
  { kind := .overflow, ending := settleInEnding b cells, carried := [], forced := true
    overset := decide (c.measureFine < sumFine c (settleInEnding b cells)), cut := false }

/-- R119: how a capacity failure ends the line. -/
def planCapacity (b : Bank) (c : LineCopy) (ln : Line) : EndPlan :=
  match ln.lastBreak with
  | some (i, _) => planAtBreak b ln.cells i
  | none =>
    match provisionalIndex ln.cells with
    | some p => if contentBefore ln.cells p then planForced ln.cells p else planWhole b c ln.cells
    | none => planWhole b c ln.cells

/-- R106, R121: a control's line end takes every cell. -/
def planControl (k : ControlEnd) (ln : Line) : EndPlan :=
  { kind := k.kind, ending := ln.cells, carried := [], forced := false, overset := false, cut := k.cut }

/-! ### Carry-over (R108, R109) -/

/-- R108 step 1: the first non-transparent carried cell, if it is a settled LETTER and no ligature, is re-formed with no previous
neighbour; joins next is kept. -/
def reformFirst (b : Bank) : List Cell → List Cell
  | [] => []
  | x :: rest =>
    if x.transparent b then x :: reformFirst b rest
    else
      (match x with
        | .letter l =>
          if l.settled && !l.isLigature then .letter (l.setForm b (formOf false l.form.joinsNext)) else .letter l
        | .space w => .space w
        | .tab g ls r => .tab g ls r
        | .brk w br d => .brk w br d
        | .link k => .link k
        | .carrier k => .carrier k) :: rest

/-- R108 step 2: one carried cell re-measured at the tail of the new line. -/
def Line.remeasureCell (b : Bank) (c : LineCopy) (x : Cell) (ln : Line) : Line :=
  match x with
  | .letter l => ln.append b c (.letter (if l.settled then { l with width := advanceOf b l.setGlyph } else l))
  | .space _ => if ln.cells.isEmpty then ln else ln.appendSpace b c
  | .tab _ _ _ => ln.appendTab b c
  | .brk _ _ _ => ln.appendBreak b c
  | .link k => ln.append b c (.link k)
  | .carrier k => ln.append b c (.carrier { k with width := advanceOf b k.glyph })

/-- R108, R120: the carried cells re-measured in order, up to the first that overflows the new line; then also the cells not yet
re-measured. -/
def remeasure (b : Bank) (c : LineCopy) : List Cell → Line → Line × Option (List Cell)
  | [], ln => (ln, none)
  | x :: rest, ln =>
    if c.measureFine < (ln.remeasureCell b c x).acc then (ln.remeasureCell b c x, some rest)
    else remeasure b c rest (ln.remeasureCell b c x)

/-- R120: an overflow of the new line carries its own carried cells and those not yet re-measured. -/
def planCarried (b : Bank) (ln : Line) (rest : List Cell) : EndPlan :=
  { planOverflow b ln (ln.cells.length - 1) with
    carried := (planOverflow b ln (ln.cells.length - 1)).carried ++ rest }

end Sys2Proof.Machine
end

