-- ==== Sys2Proof/Machine/Justify.lean ====
section
/-! DEFINITION. The justifier: leaders, space widths, extension strokes, the offset and LOOSE (sections 7.5 to 7.8). -/

namespace Sys2Proof.Machine

/-- The justifier's results: each cell, with its strokes and leaders, beside the set width of a SPACE in fine units; the offset
of the last field; LOOSE. -/
structure Justified where
  cells : List (Cell × Nat)
  offset : Nat
  loose : Bool
  deriving DecidableEq, Repr

/-! ### Leaders (R126) -/

/-- The pattern's glyphs that are not passed over. -/
def leaderGlyphs (b : Bank) (c : LineCopy) : List Nat := c.leader.filter (fun g => usable b g && decide (advanceOf b g ≠ 0))

/-- The fill of a gap with at most `budget` leaders, from a place in the pattern on: the glyphs placed and the leftover. -/
def fillLeaders (b : Bank) (c : LineCopy) (pattern : List Nat) : Nat → List Nat → Nat → List Nat × Nat
  | 0, _, room => ([], room)
  | n + 1, todo, room =>
    match (if todo.isEmpty then pattern else todo) with
    | [] => ([], room)
    | g :: rest =>
      if c.fine (advanceOf b g) ≤ room then
        (g :: (fillLeaders b c pattern n rest (room - c.fine (advanceOf b g))).1,
          (fillLeaders b c pattern n rest (room - c.fine (advanceOf b g))).2)
      else ([], room)

/-- Every TAB filled in logical order within the item budget: the cells and the budget left. -/
def fillTabs (b : Bank) (c : LineCopy) : List Cell → Nat → List Cell × Nat
  | [], budget => ([], budget)
  | .tab gap _ _ :: rest, budget =>
    let f := fillLeaders b c (leaderGlyphs b c) budget [] gap
    let r := fillTabs b c rest (budget - f.1.length)
    (.tab gap f.1 f.2 :: r.1, r.2)
  | x :: rest, budget =>
    let r := fillTabs b c rest budget
    (x :: r.1, r.2)

/-! ### The last field (R124) -/

/-- The cells after the last TAB. -/
def lastField (cells : List Cell) : List Cell := (cells.reverse.takeWhile (fun x => !x.isTab)).reverse

/-- The cells up to the last TAB. -/
def firstFields (cells : List Cell) : List Cell := cells.take (cells.length - (lastField cells).length)

/-- The number of SPACE cells. -/
def spaceCount : List Cell → Nat
  | [] => 0
  | x :: rest => (if x.isSpace then 1 else 0) + spaceCount rest

/-- A SPACE's width as appended, in fine units; 0 beside any other cell. -/
def appendedWidth (c : LineCopy) : Cell → Nat
  | .space w => c.fine w
  | _ => 0

/-- Cells at their appended widths. -/
def asAppended (c : LineCopy) (cells : List Cell) : List (Cell × Nat) := cells.map (fun x => (x, appendedWidth c x))

/-- R131: every SPACE set at a width, the first `extra` of them one fine unit wider. -/
def spread (width : Nat) : Nat → List Cell → List (Cell × Nat)
  | _, [] => []
  | extra, x :: rest =>
    if x.isSpace then (x, if 0 < extra then width + 1 else width) :: spread width (extra - 1) rest
    else (x, 0) :: spread width extra rest

/-- R131, R134: an extra width shared out to the spaces of the last field over a least width. -/
def share (least extra : Nat) (cells : List Cell) : List (Cell × Nat) :=
  spread (least + extra / spaceCount cells) (extra % spaceCount cells) cells

/-! ### Extension strokes (R129, R130) -/

/-- R129: an extension point lies between two cells that stand next to each other. -/
def extensionPoint (b : Bank) (x y : Cell) : Bool :=
  match x, y with
  | .letter l, .letter m =>
    extendableOf b l.setGlyph && l.form.joinsNext && decide (classOf b l.glyph = .r) && decide (classOf b m.glyph = .r)
  | _, _ => false

/-- The number of extension points. -/
def pointCount (b : Bank) : List Cell → Nat
  | x :: y :: rest => (if extensionPoint b x y then 1 else 0) + pointCount b (y :: rest)
  | _ => 0

/-- A LETTER's strokes. -/
def Cell.withStrokes (n : Nat) : Cell → Cell
  | .letter l => .letter { l with strokes := n }
  | x => x

/-- R130: strokes given to the earlier cell of each point, one more at the first `extra` points. -/
def giveStrokes (b : Bank) (each : Nat) : Nat → List Cell → List Cell
  | extra, x :: y :: rest =>
    if extensionPoint b x y then
      x.withStrokes (if 0 < extra then each + 1 else each) :: giveStrokes b each (extra - 1) (y :: rest)
    else x :: giveStrokes b each extra (y :: rest)
  | _, cells => cells

/-- R127: the width x of one stroke, 0 when the header names no extension glyph. -/
def strokeWidth (b : Bank) (c : LineCopy) : Nat :=
  match headerGlyph b .extension with
  | some g => c.fine (advanceOf b g)
  | none => 0

/-- R130: the number k of strokes. -/
def strokeTotal (b : Bank) (c : LineCopy) (points slack budget : Nat) : Nat :=
  if 0 < c.extend ∧ 0 < strokeWidth b c ∧ strokeWidth b c ≤ slack then
    min (slack / strokeWidth b c) (min (points * c.extend) budget)
  else 0

/-- R130: the field with its strokes shared out over its points. -/
def withStrokes (b : Bank) (total : Nat) (cells : List Cell) : List Cell :=
  giveStrokes b (total / pointCount b cells) (total % pointCount b cells) cells

/-! ### A line justified (R127 to R135) -/

/-- R127, R128: phase 1's amount for a field. -/
def phaseOne (c : LineCopy) (slack : Nat) (field : List Cell) : Nat :=
  min slack (spaceCount field * (c.fine c.effOpt - c.fine c.effMin))

/-- R128 to R132: the three phases on the last field: its cells with their set widths, and LOOSE. -/
def threePhases (b : Bank) (c : LineCopy) (slack0 budget : Nat) (field : List Cell) : List (Cell × Nat) × Bool :=
  let d1 := phaseOne c slack0 field
  let slack1 := slack0 - d1
  let k := strokeTotal b c (pointCount b field) slack1 budget
  let slack2 := slack1 - k * strokeWidth b c
  let stroked := withStrokes b k field
  let n := spaceCount field
  let extra := d1 + slack2
  if n = 0 then (asAppended c stroked, decide (0 < slack2))
  else
    (share (c.fine c.effMin) extra stroked,
      decide (c.fine c.effMax < c.fine c.effMin + extra / n + (if 0 < extra % n then 1 else 0)))

/-- R133: the offset of the last field by the mode. -/
def modeOffset (c : LineCopy) (slack : Nat) : Nat :=
  match c.mode with
  | .justify => 0
  | .flushStart => 0
  | .flushEnd => slack
  | .centre => slack / 2

/-- R124, R127, R133 to R135: the ending line justified by its mode, its kind and flag OVERSET. -/
def justify (b : Bank) (c : LineCopy) (kind : EndKind) (overset : Bool) (cells : List Cell) : Justified :=
  let acc := sumFine c cells
  let filled := fillTabs b c cells (Config.itemCapacity - sumItems b cells)
  let before := asAppended c (firstFields filled.1)
  let field := lastField filled.1
  let slack := c.measureFine - acc
  if overset then ⟨before ++ asAppended c field, 0, false⟩
  else if c.mode ≠ .justify then ⟨before ++ asAppended c field, modeOffset c slack, false⟩
  else if kind = .overflow then
    let r := threePhases b c slack filled.2 field
    ⟨before ++ r.1, 0, r.2⟩
  else ⟨before ++ share (c.fine c.effMin) (phaseOne c slack field) field, 0, false⟩

end Sys2Proof.Machine
end

