-- ==== Sys2Proof/Machine/Placement.lean ====
section
/-! DEFINITION. The placement unit: direction resolution, field geometry, positions and marks (chapter 8). -/

namespace Sys2Proof.Machine

/-! ### Starting classes (R139) -/

/-- The base direction counts as the class L or R where a step speaks of it as a class. -/
def Direction.strong : Direction → DirClass
  | .ltr => .l
  | .rtl => .r

/-- A glyph's class with M read as W. -/
def startClassOf (b : Bank) (g : Nat) : DirClass := if classOf b g = .m then .w else classOf b g

/-- R139: a cell's starting class, or none when it is omitted (a TAB is in no field). -/
def startClass (b : Bank) : Cell → Option DirClass
  | .letter l => some (startClassOf b l.glyph)
  | .carrier _ => some .w
  | .space _ => some .w
  | .brk _ broken _ =>
    if broken then
      match headerGlyph b .breakGlyph with
      | some g => some (startClassOf b g)
      | none => none
    else none
  | .link _ => none
  | .tab _ _ _ => none

/-! ### Resolution (R141 to R144) -/

/-- R141: an S between two cells of starting class N becomes N, every other S becomes W. -/
def resolveSeparators : Option DirClass → List DirClass → List DirClass
  | _, [] => []
  | before, x :: rest =>
    (if x = .s then (if before = some .n ∧ rest.head? = some .n then .n else .w) else x) :: resolveSeparators (some x) rest

/-- A cell's class after R141 and R142: strong, a digit with its group's counted direction, or neutral. -/
inductive Resolved where
  | strong (d : Direction) | digit (counted : Direction) | neutral
  deriving DecidableEq, Repr

/-- R142: a digit group's counted direction is that of the nearest L or R before it, else the base direction. -/
def resolveDigits : Direction → List DirClass → List Resolved
  | _, [] => []
  | _, .l :: rest => .strong .ltr :: resolveDigits .ltr rest
  | _, .r :: rest => .strong .rtl :: resolveDigits .rtl rest
  | counted, .n :: rest => .digit counted :: resolveDigits counted rest
  | counted, .s :: rest => .neutral :: resolveDigits counted rest
  | counted, .w :: rest => .neutral :: resolveDigits counted rest
  | counted, .m :: rest => .neutral :: resolveDigits counted rest

/-- R143: the direction a cell beside a neutral run shows. -/
def Resolved.shows : Resolved → Option Direction
  | .strong d => some d
  | .digit d => some d
  | .neutral => none

/-- R143: what the first cell after a neutral run shows, the base direction at the sequence's end. -/
def shownAfter (base : Direction) : List Resolved → Direction
  | [] => base
  | x :: rest => x.shows.getD (shownAfter base rest)

/-- R143: every cell of a neutral run takes the class its two sides show when they agree, else the base direction. -/
def resolveNeutrals (base : Direction) : Direction → List Resolved → List Resolved
  | _, [] => []
  | _, .strong d :: rest => .strong d :: resolveNeutrals base d rest
  | _, .digit d :: rest => .digit d :: resolveNeutrals base d rest
  | left, .neutral :: rest =>
    .strong (if left = shownAfter base rest then left else base) :: resolveNeutrals base left rest

/-- R144: a cell's level. -/
def levelOf (base : Direction) : Resolved → Nat
  | .strong .ltr => match base with | .ltr => 0 | .rtl => 2
  | .strong .rtl => 1
  | .digit .ltr => match base with | .ltr => 0 | .rtl => 2
  | .digit .rtl => 2
  | .neutral => match base with | .ltr => 0 | .rtl => 1

/-- R141 to R144: the levels of a field's sequence. -/
def levels (base : Direction) (classes : List DirClass) : List Nat :=
  (resolveNeutrals base base (resolveDigits base (resolveSeparators none classes))).map (levelOf base)

/-! ### Visual order (R145) -/

/-- Every maximal run of entries that satisfy `p` reversed in place; `run` holds the open run, latest first. -/
def reverseRuns {α : Type} (p : α → Bool) : List α → List α → List α
  | run, [] => run
  | run, x :: rest => if p x then reverseRuns p (x :: run) rest else run ++ x :: reverseRuns p [] rest

/-- R145: the runs at level 2 reversed, then the runs at level 1 or 2. -/
def visualOrder {α : Type} (entries : List (Nat × α)) : List (Nat × α) :=
  reverseRuns (fun e => decide (1 ≤ e.1)) [] (reverseRuns (fun e => decide (2 ≤ e.1)) [] entries)

/-- R139, R140: a field's cells that take part, each with its starting class and its set width. -/
def sequenceOf (b : Bank) : List (Cell × Nat) → List (DirClass × Cell × Nat)
  | [] => []
  | x :: rest =>
    match startClass b x.1 with
    | some k => (k, x.1, x.2) :: sequenceOf b rest
    | none => sequenceOf b rest

/-- R139 to R145: a field's cells from left to right. -/
def fieldOrder (b : Bank) (base : Direction) (field : List (Cell × Nat)) : List (Cell × Nat) :=
  (visualOrder ((levels base ((sequenceOf b field).map (·.1))).zip ((sequenceOf b field).map (·.2)))).map (·.2)

/-! ### The walk (R148) -/

/-- The pen of a walk: the position in set steps and the residue in fine units. -/
structure Pen where
  w : Nat
  r : Nat
  deriving DecidableEq, Repr

/-- The pen at a fine left edge. -/
def Pen.start (e : Nat) : Pen := ⟨e / Config.finePerStep, e % Config.finePerStep⟩

/-- A thing of a width placed: t = f + r, w grows by t div 96, r becomes t mod 96. -/
def Pen.advance (f : Nat) (p : Pen) : Pen := ⟨p.w + (f + p.r) / Config.finePerStep, (f + p.r) % Config.finePerStep⟩

/-- The exact fine position the pen stands for. -/
def Pen.fine (p : Pen) : Nat := p.w * Config.finePerStep + p.r

/-- A glyph's item at a position on the baseline. -/
def glyphItem (b : Bank) (g x : Nat) : Item := { face := faceOf b g, char := charOf b g, x := x, y := 0 }

/-- Glyphs placed one after another. -/
def walkGlyphs (b : Bank) (c : LineCopy) : List Nat → Pen → List Item × Pen
  | [], p => ([], p)
  | g :: rest, p =>
    (glyphItem b g p.w :: (walkGlyphs b c rest (p.advance (c.fine (advanceOf b g)))).1,
      (walkGlyphs b c rest (p.advance (c.fine (advanceOf b g)))).2)

/-! ### Marks (R149, R150) -/

/-- R149: a mark's x: its base's fine left edge plus half the difference of the advances, truncated toward zero; a negative
position gives 0. -/
def markX (c : LineCopy) (edge baseAdvance markAdvance : Nat) : Nat :=
  (((edge : Int) + (((baseAdvance : Int) - markAdvance) * (5 * c.size : Nat)).tdiv 2).toNat) / Config.finePerStep

/-- R150: a height or depth in set steps. -/
def markHeight (c : LineCopy) (du : Nat) : Nat := c.fine du / Config.finePerStep

/-- R150: the items of a mark list, each mark standing at the extents before it. -/
def markItems (b : Bank) (c : LineCopy) (side : Side) (edge baseAdvance : Nat) : Nat → List Nat → List Item
  | _, [] => []
  | height, m :: rest =>
    { face := faceOf b m, char := charOf b m, x := markX c edge baseAdvance (advanceOf b m)
      y := match side with
        | .above => (markHeight c height : Int)
        | .below => -(markHeight c height : Int) }
    :: markItems b c side edge baseAdvance
        (height + (match side with | .above => aboveExtentOf b m | .below => belowExtentOf b m)) rest

/-- The items of a base's marks: above, then below (R151). -/
def baseMarks (b : Bank) (c : LineCopy) (base edge : Nat) (above below : List Nat) : List Item :=
  markItems b c .above edge (advanceOf b base) (aboveExtentOf b base) above
    ++ markItems b c .below edge (advanceOf b base) (belowExtentOf b base) below

/-! ### Cells and fields placed (R148, R151) -/

/-- A cell placed: its strokes, its base, its marks, and the pen after it. -/
def walkCell (b : Bank) (c : LineCopy) (x : Cell × Nat) (p : Pen) : List Item × Pen :=
  match x.1 with
  | .letter l =>
    let strokes :=
      match headerGlyph b .extension with
      | some g => walkGlyphs b c (List.replicate l.strokes g) p
      | none => ([], p)
    (strokes.1 ++ glyphItem b l.setGlyph strokes.2.w :: baseMarks b c l.setGlyph strokes.2.fine l.above l.below,
      strokes.2.advance (c.fine (advanceOf b l.setGlyph)))
  | .carrier k =>
    (glyphItem b k.glyph p.w :: baseMarks b c k.glyph p.fine k.above k.below, p.advance (c.fine (advanceOf b k.glyph)))
  | .space _ => ([], p.advance x.2)
  | .brk _ broken _ =>
    if broken then
      match headerGlyph b .breakGlyph with
      | some g => ([glyphItem b g p.w], p.advance (c.fine (advanceOf b g)))
      | none => ([], p)
    else ([], p)
  | .link _ => ([], p)
  | .tab _ _ _ => ([], p)

/-- Cells placed from left to right. -/
def walkCells (b : Bank) (c : LineCopy) : List (Cell × Nat) → Pen → List Item
  | [], _ => []
  | x :: rest, p => (walkCell b c x p).1 ++ walkCells b c rest (walkCell b c x p).2

/-- R148: a cell's placed width. -/
def placedWidth (b : Bank) (c : LineCopy) (x : Cell × Nat) : Nat :=
  match x.1 with
  | .letter l =>
    (match headerGlyph b .extension with
      | some _ => l.strokes * strokeWidth b c
      | none => 0) + c.fine (advanceOf b l.setGlyph)
  | .carrier k => c.fine (advanceOf b k.glyph)
  | .space _ => x.2
  | .brk _ broken _ => if broken then c.fine (breakAdvance b) else 0
  | .link _ => 0
  | .tab _ _ _ => 0

/-- R146: a field's content width. -/
def contentWidth (b : Bank) (c : LineCopy) : List (Cell × Nat) → Nat
  | [] => 0
  | x :: rest => placedWidth b c x + contentWidth b c rest

/-- The width of a leader run. -/
def runWidth (b : Bank) (c : LineCopy) : List Nat → Nat
  | [] => 0
  | g :: rest => c.fine (advanceOf b g) + runWidth b c rest

/-- A part of a line: a field with its start position and offset, or a TAB's leaders with its stop (R146, R147). -/
inductive Part where
  | field (cells : List (Cell × Nat)) (start offset : Nat)
  | run (leaders : List Nat) (stop : Nat)
  deriving DecidableEq, Repr

/-- R140, R146, R147: the parts of a line in logical order. `position` is the accumulator as the cells were measured; a field
starts at the accumulator just after the TAB before it. -/
def lineParts (c : LineCopy) (offset : Nat) : List (Cell × Nat) → Nat → Nat → List (Cell × Nat) → List Part
  | current, start, _, [] => [.field current start offset]
  | current, start, position, (.tab gap leaders _, _) :: rest =>
    .field current start 0 :: .run leaders (position + gap)
      :: lineParts c offset [] (position + gap) (position + gap) rest
  | current, start, position, x :: rest =>
    lineParts c offset (current ++ [x]) start (position + cellFine c x.1) rest

/-- R146 to R148: a part's items, walked from its own fine left edge. In an RTL base a left edge below 0 is taken as 0. -/
def placePart (b : Bank) (c : LineCopy) : Part → List Item
  | .field cells start offset =>
    walkCells b c (fieldOrder b c.direction cells)
      (Pen.start
        (match c.direction with
          | .ltr => start + offset
          | .rtl => c.measureFine - start - offset - contentWidth b c cells))
  | .run leaders stop =>
    match c.direction with
    | .ltr => (walkGlyphs b c leaders (Pen.start (stop - runWidth b c leaders))).1
    | .rtl => (walkGlyphs b c leaders.reverse (Pen.start (c.measureFine - stop))).1

/-- R147, R151: the line's items in visual order. -/
def lineItems (b : Bank) (c : LineCopy) (j : Justified) : List Item :=
  match c.direction with
  | .ltr => (lineParts c j.offset [] 0 0 j.cells).flatMap (placePart b c)
  | .rtl => (lineParts c j.offset [] 0 0 j.cells).reverse.flatMap (placePart b c)

end Sys2Proof.Machine
end

