-- ==== Sys2Proof/Machine/LineEnd.lean ====
section
/-! DEFINITION. Arrivals at the shaper, line ends, packets joining the exposure queue, and the work that follows (R19, R46, R90,
R106 to R108, R120 to R123, R152 to R157). -/

namespace Sys2Proof.Machine

/-! ### An arrival taken (R90) -/

/-- How far the shaper's work got: done, or stopped at a line end with the arrival that is held, if one is. -/
inductive Shaped where
  | done (s : State)
  | ends (s : State) (plan : EndPlan) (held : Option Arrival)

/-- R112: the accumulator exceeds M. -/
def State.overflows (s : State) : Bool := decide (s.copy.measureFine < s.shaper.line.acc)

/-- R100, R101: the ligature lookup of the letter at a place; then the place of the cell that holds it. -/
def ligateAt (i : Nat) (s : State) : State × Nat :=
  let r := s.shaper.line.ligate s.bank s.copy i
  (if r.2.2 = 0 then s.setLine r.1 else countBy .markOverflow r.2.2 (s.setLine r.1), r.2.1)

/-- R98: the provisional letter, if one stands, settles and is looked up; then the offending cell of the fit test. -/
def settleProvisional (nextOffers : Bool) (s : State) : Option (State × Nat) :=
  match provisionalIndex s.shaper.line.cells with
  | none => none
  | some i => some (ligateAt i (s.setLine (s.shaper.line.settleAt s.bank s.copy nextOffers i)))

/-- R112: the fit test at an offending cell, with nothing held. -/
def fitTest (offending : Nat) (s : State) : Shaped :=
  if s.overflows then .ends s (planOverflow s.bank s.shaper.line offending) none else .done s

/-- R90 steps 4 and 5: the arrival appended, and the fit test after a cell that adds width. -/
def appendArrival (a : Arrival) (s : State) : Shaped :=
  match a with
  | .letter g =>
    if glyphTransparent s.bank g then
      let r := ligateAt s.shaper.line.cells.length
        (s.setLine (s.shaper.line.append s.bank s.copy (.letter (transparentLetter s.bank g))))
      fitTest r.2 r.1
    else .done (s.setLine (s.shaper.line.append s.bank s.copy (.letter (provisionalLetter g))))
  | .space => fitTest s.shaper.line.cells.length (s.setLine (s.shaper.line.appendSpace s.bank s.copy))
  | .tab => fitTest s.shaper.line.cells.length (s.setLine (s.shaper.line.appendTab s.bank s.copy))
  | .disc => .done (s.setLine (s.shaper.line.appendBreak s.bank s.copy))
  | .link k => .done (s.setLine (s.shaper.line.append s.bank s.copy (.link k)))
  | .carrier g mark =>
    fitTest s.shaper.line.cells.length
      (s.setLine (s.shaper.line.append s.bank s.copy (.carrier (carrierCell s.bank g mark))))

/-- R90 steps 3 to 5: the capacity test, then the append. -/
def admitArrival (a : Arrival) (s : State) : Shaped :=
  if s.shaper.line.lacksRoom s.bank a then .ends s (planCapacity s.bank s.copy s.shaper.line) (some a)
  else appendArrival a s

/-- R90: an arrival taken from step 1. A SPACE at an empty line store is discarded. -/
def takeArrival (a : Arrival) (s : State) : Shaped :=
  if a = .space ∧ s.shaper.line.cells = [] then .done s
  else if a.transparent s.bank then admitArrival a s
  else
    match settleProvisional (a.offersBack s.bank) s with
    | none => admitArrival a s
    | some (settled, offending) =>
      if settled.overflows then .ends settled (planOverflow settled.bank settled.shaper.line offending) (some a)
      else admitArrival a settled

/-! ### The shaper's work for one entry up to its next line end -/

/-- How far a job got: done, or stopped at a line end with the job that follows it. -/
inductive Progress where
  | done (s : State)
  | ends (s : State) (plan : EndPlan) (next : Job)

/-- R82: the roles of the banks exchange. -/
def exchangeBanks (s : State) : State := s.setTables s.tables.exchange

/-- The line with its flags cleared, as a line end without a packet leaves it (R107, R121). -/
def dropFlags (s : State) : State := s.setLine { s.shaper.line with flags := LineFlags.none }

/-- R121 to R123: a control's line end on an empty line store that makes no packet. -/
def emptyEnd (kind : EndKind) (s : State) : State :=
  match kind with
  | .endpara => (dropFlags s).setShaper { (dropFlags s).shaper with paraDue := true }
  | .take => dropFlags s
  | .swap => exchangeBanks s
  | .endline => s
  | .overflow => s

/-- R106, R121, R122: a control's line end once the provisional letter has settled and fits. -/
def endByControl (k : ControlEnd) (j : Job) (s : State) : Progress :=
  if s.shaper.line.cells = [] ∧ k.kind ≠ .endline then .done (emptyEnd k.kind s)
  else
    .ends s (planControl k s.shaper.line)
      { j with carried := [], arrival := none, control := none, exchange := decide (k.kind = .swap) }

/-- R106: a control's line end: the provisional letter settles first, and an overflow it makes is resolved first. -/
def controlEnd (k : ControlEnd) (j : Job) (s : State) : Progress :=
  match settleProvisional false s with
  | none => endByControl k j s
  | some (settled, offending) =>
    if settled.overflows then
      .ends settled (planOverflow settled.bank settled.shaper.line offending)
        { j with
          carried := (planOverflow settled.bank settled.shaper.line offending).carried, arrival := none, control := some k }
    else endByControl k j settled

/-- What follows the arrival: the control's line end, or the exchange of banks (R83). -/
def afterArrival (j : Job) (s : State) : Progress :=
  match j.control with
  | some k => controlEnd k j s
  | none => .done (if j.exchange then exchangeBanks s else s)

/-- What follows carry-over: the arrival, held or new (R90, R120). -/
def afterCarryOver (j : Job) (s : State) : Progress :=
  match j.arrival with
  | none => afterArrival j s
  | some a =>
    match takeArrival a s with
    | .done t => afterArrival j t
    | .ends t plan held => .ends t plan { j with carried := plan.carried, arrival := held }

/-- R108: carry-over, then the rest of the job, up to the next line end. -/
def Job.advance (j : Job) (s : State) : Progress :=
  let r := remeasure s.bank s.copy (reformFirst s.bank j.carried) s.shaper.line
  match r.2 with
  | none => afterCarryOver j (s.setLine r.1)
  | some rest =>
    .ends (s.setLine r.1) (planCarried s.bank r.1 rest) { j with carried := (planCarried s.bank r.1 rest).carried }

/-! ### A line end made: justified, placed, flagged and counted (R107, R123, R136, R152) -/

/-- The flags of an ending line before LOOSE. -/
def endingFlags (plan : EndPlan) (s : State) : LineFlags := s.shaper.line.flags.union plan.flags

/-- The ending line as the justifier leaves it. -/
def endingJustified (plan : EndPlan) (s : State) : Justified :=
  justify s.bank s.copy plan.kind (endingFlags plan s).overset plan.ending

/-- R152: the packet of a line end. -/
def linePacket (priority : Priority) (plan : EndPlan) (s : State) : PacketBody :=
  { priority := priority
    unit := s.port.unitNumber
    galley := s.copy.galley
    size := s.copy.size
    leading := s.copy.leading + (if s.shaper.paraDue then s.copy.paraSpace else 0)
    flags := { endingFlags plan s with loose := (endingFlags plan s).loose || (endingJustified plan s).loose }
    items := lineItems s.bank s.copy (endingJustified plan s) }

/-- R123, R136: the line end made: its counts, paragraph space due after it, and a line store that no longer holds its cells. -/
def makeLineEnd (plan : EndPlan) (s : State) : State :=
  let counted := countIf (endingJustified plan s).loose .loose (countIf plan.overset .overset (countIf plan.forced .forced s))
  counted.setShaper { counted.shaper with line := Line.empty, paraDue := decide (plan.kind = .endpara) }

/-! ### The exposure queue (R46, R107, R157) -/

/-- R157: a packet joins the tail with the next sequence number and its check; a port in BUS_IDLE starts a free-bus wait. -/
def Bus.join (busGap : Nat) (p : PacketBody) (b : Bus) : Bus :=
  let joined :=
    { b with
      queue := b.queue ++ [⟨p, b.nextSequence, packetCheck p b.nextSequence⟩], nextSequence := b.nextSequence + 1 }
  if b.state = .busIdle then joined.startWait busGap else joined

/-- R46, R107: the packet joins, LINES is counted, and the next line begins under the line copy with the pending set applied. -/
def joinPacket (p : PacketBody) (s : State) : State :=
  let joined := count .lines (s.setBus (s.bus.join s.format.unit.busGap p))
  joined.setFormat joined.format.applyPending

/-- The room left in the exposure queue. -/
def State.room (s : State) : Nat := Config.exposureCapacity - s.bus.queue.length

/-- R19, R120: the shaper's work for one entry. Each line end's packet joins while there is room; with none it waits, and the
rest of the work waits with it. That the ending line's cells are kept as they were handed to the justifier, with no strokes and
no leaders, is the model's choice (log 15). -/
def runJob : Nat → Job → State → State
  | room, j, s =>
    match j.advance s with
    | .done t => t
    | .ends t plan next =>
      match room with
      | 0 =>
        (makeLineEnd plan t).setShaper
          { (makeLineEnd plan t).shaper with waiting := some ⟨linePacket j.priority plan t, plan.ending, next⟩ }
      | r + 1 => runJob r next (joinPacket (linePacket j.priority plan t) (makeLineEnd plan t))

/-- The job done with the room the exposure queue has. -/
def doJob (j : Job) (s : State) : State := runJob s.room j s

/-- The job of one arrival. -/
def arrivalJob (priority : Priority) (a : Arrival) : Job := ⟨priority, [], some a, none, false⟩

/-- The job of a control's line end. -/
def controlJob (priority : Priority) (kind : EndKind) (cut : Bool) : Job := ⟨priority, [], none, some ⟨kind, cut⟩, false⟩

/-- An arrival handed to the shaper. -/
def handArrival (a : Arrival) (s : State) : State := doJob (arrivalJob s.decoder.priority a) s

/-- R102 to R104: a mark handed to the shaper. -/
def handMark (mark : Nat) (s : State) : State :=
  match s.shaper.line.markFate s.bank mark with
  | .attach => s.setLine (s.shaper.line.attachMark s.bank mark)
  | .overflow => count .markOverflow (s.setLine s.shaper.line.flagMarkOverflow)
  | .needsCarrier =>
    match headerGlyph s.bank .carrier with
    | some g => handArrival (.carrier g mark) s
    | none => count .orphans s

end Sys2Proof.Machine
end

