-- ==== Sys2Proof/Machine/SettingLine.lean ====
section
/-! DEFINITION. Power-on and the setting line: arrivals, the hold line and the take timer (chapter 1). -/

namespace Sys2Proof.Machine

/-- A next state. -/
abbrev Result := Host.Outcome State Fault Refusal

/-- R1, R17: the setting port starts afresh and reads the straps. The other units' drive of the hold line is theirs (log 17). -/
def Port.powerOn (strap : Nibble) (acceptAll : Bool) (p : Port) : Port :=
  { strapPins := strap, acceptAllPin := acceptAll, unitNumber := unitNumberOf strap, acceptAll := acceptAll
    condition := .closed, priority := 0, queue := [], loss := none, ownHold := false, othersHold := p.othersHold
    takeTimer := none }

/-- R175: the bus port starts afresh; what other parties drive stays as it is, and the idle count follows it from 0. -/
def Bus.powerOn (b : Bus) : Bus :=
  { queue := [], nextSequence := 0, state := .busIdle, gap := UnitParams.default.busGap, idleCount := 0, ownership := none
    holdTimer := none, deferTimer := none, othersDrive := b.othersDrive, answerDue := false }

/-- R186: the reply unit starts afresh; the front-end's hold of the return line stays as it is. -/
def ReplyUnit.powerOn (r : ReplyUnit) : ReplyUnit :=
  { queue := [], sender := none, held := r.held, offered := none, counters := Counters.zero }

/-- POWER_ON (R1, R17, R41, R54, R70, R85, R110, R138, R156, R175, R186): every block starts afresh. -/
def execPowerOn (strap : Nibble) (acceptAll : Bool) (s : State) : Result :=
  .next
    { s with
      port := s.port.powerOn strap acceptAll, decoder := Decoder.powerOn, format := FormatSet.default
      tables := TableBlock.powerOn, shaper := Shaper.empty, bus := s.bus.powerOn, reply := s.reply.powerOn }

/-- R4, R5, R12: a TAKE_START for this unit. A CUT goes ahead of it while ACCEPTING; at a full queue the one lost arrival stands
for both. -/
def Port.takeStartHere (timeout : Nat) (priority : Priority) (p : Port) : Port :=
  let stored :=
    if p.condition = .accepting then
      if p.full then p.lose (some (.takeStart priority))
      else (p.store .cut).storeOrLose (.takeStart priority) (some (.takeStart priority))
    else p.storeOrLose (.takeStart priority) (some (.takeStart priority))
  ({ stored with condition := .accepting, priority := priority } : Port).restartTimer timeout

/-- R4, R5, R12: a TAKE_START for another unit closes this unit's take, if one is open. -/
def Port.takeStartElsewhere (timeout : Nat) (p : Port) : Port :=
  if p.condition = .accepting then
    ({ p.storeOrLose .cut (some .cut) with condition := .deaf } : Port).restartTimer timeout
  else { p with condition := .deaf }

/-- TAKE_START (R3, R4, R5, R12, R14). -/
def execTakeStart (priority : Priority) (address : Nibble) (s : State) : Result :=
  .next
    (s.setPort
      (if s.port.forThisUnit address then s.port.takeStartHere s.format.unit.takeTimeout priority
        else s.port.takeStartElsewhere s.format.unit.takeTimeout))

/-- R7: a TAKE_END at the port. -/
def Port.endTake (timeout : Nat) (p : Port) : Port :=
  match p.condition with
  | .accepting =>
    ({ p.storeOrLose .takeEnd (some .takeEnd) with condition := .closed } : Port).restartTimer timeout
  | .closed => p
  | .deaf => p

/-- TAKE_END (R7, R12, R14). -/
def execTakeEnd (s : State) : Result := .next (s.setPort (s.port.endTake s.format.unit.takeTimeout))

/-- R6: a plain byte at the port. -/
def Port.plainByte (timeout : Nat) (b : Byte) (p : Port) : Port :=
  match p.condition with
  | .accepting => (p.storeOrLose (.plain b) none).restartTimer timeout
  | .closed => p
  | .deaf => p

/-- PLAIN (R6, R12, R14). -/
def execPlain (b : Byte) (s : State) : Result := .next (s.setPort (s.port.plainByte s.format.unit.takeTimeout b))

/-- IGNORED_FLAGGED_BYTE (R2). -/
def execIgnoredFlaggedByte (b : Byte) (s : State) : Result :=
  if isIgnoredFlagged b then .next s else .fault .illFormedOperand

/-- HOLD_LINE_RISE (R11, R14): another unit drives the line high, and the take timer is stopped. The rise by this unit's own
drive comes about in the store that raises it (log 8). -/
def execHoldLineRise (s : State) : Result := .next (s.setPort { s.port with othersHold := true, takeTimer := none })

/-- R11, R14: the last other unit that drives the line lowers its drive. The line falls unless this unit drives it high, and a
port that is ACCEPTING restarts its timer at the fall. -/
def Port.othersLower (timeout : Nat) (p : Port) : Port :=
  if p.ownHold then { p with othersHold := false } else ({ p with othersHold := false } : Port).restartTimer timeout

/-- HOLD_LINE_FALL (R11, R14): the other units' drive ends. The fall by this unit's own drive comes about in the removal that
lowers it (log 8). -/
def execHoldLineFall (s : State) : Result :=
  if s.port.othersHold then .next (s.setPort (s.port.othersLower s.format.unit.takeTimeout))
  else .refused (.cannotOccur .holdLineCannotFall)

/-- TAKE_TIMER_EXPIRY (R15). -/
def execTakeTimerExpiry (s : State) : Result :=
  if s.port.takeTimer.isSome then
    .next (s.setPort { s.port.store .stalled with condition := .closed, takeTimer := none })
  else .refused (.cannotOccur .timerStopped)

end Sys2Proof.Machine
end

