-- ==== Sys2Proof/Machine/Entries.lean ====
section
/-! DEFINITION. The decoder taking an entry; take boundaries and gaps (sections 2.1 to 2.3, 5.4). -/

namespace Sys2Proof.Machine

/-! ### The removal of the head entry (R9, R13, R18) -/

/-- R18: a PLAIN entry taken while a take is open adds one to the take byte count. -/
def Decoder.countByte (e : Entry) (d : Decoder) : Decoder :=
  match e with
  | .plain _ => if d.state = .idle then d else { d with byteCount := saturate d.byteCount 1 }
  | .takeStart _ => d
  | .takeEnd => d
  | .cut => d
  | .stalled => d
  | .gap _ _ => d

/-- The head entry gone from the queue and counted by the decoder. A fall of the hold line at this removal reads TAKE_TIMEOUT
before the entry's work (log 8). -/
def removeHead (e : Entry) (s : State) : State :=
  (s.setPort (s.port.removeHead s.format.unit.takeTimeout)).setDecoder (s.decoder.countByte e)

/-- R13, R18: the removal and the decoder's work. Where the removal stores a GAP, its OVERRUN report and the work come at one
moment, in an order the spec leaves open: a free value. That the report falls before all of the work or after all of it, and
never between two notices of one entry, is the model's choice (log 9). -/
def withRemoval (e : Entry) (work : State → State) (s : State) : State :=
  match s.port.loss with
  | none => work (removeHead e s)
  | some l =>
    let removed := (removeHead e s).setFreeIndex (s.freeIndex + 1)
    if Config.lossReportedFirst s.freeIndex then work (reportLoss l removed) else reportLoss l (work removed)

/-- R18: the decoder takes the head entry as the command `c`, whose work is `work`, when it is not waiting and the head entry is
that command's. -/
def takeHead (c : Instr) (work : Entry → State → State) (s : State) : Result :=
  if s.decoderWaiting then .refused (.cannotOccur .decoderWaiting)
  else
    match s.port.queue with
    | [] => .refused (.cannotOccur .inputQueueEmpty)
    | e :: _ =>
      if commandFor s.decoder e = c then .next (withRemoval e (work e) s)
      else .refused (.cannotOccur .otherEntryAtHead)

/-- The decoder state changed. -/
def setDecoderState (d : DecoderState) (s : State) : State := s.setDecoder { s.decoder with state := d }

/-! ### Aborts and boundaries (R21 to R24, R78) -/

/-- The notice detail of a refused load: the kind in the upper eight bits, the reason in the lower (R72, R77). -/
def refusalDetail (kind reason : Nat) : Nat := kind * 256 + reason

/-- R78: the table block aborts the load it is receiving. -/
def abortLoad (s : State) : State :=
  match s.tables.record with
  | none => s
  | some r =>
    let cleared := s.setTables { s.tables with record := none }
    if r.accepted then
      raise .loadAborted r.written
        (cleared.setTables (cleared.tables.setStandby { cleared.tables.standbyBank with valid := false }))
    else raise .loadRefused (refusalDetail r.kind.number 2) cleared

/-- R22, R24: what the decoder had in hand is cleared: a partial control counts STRAY, a load is aborted. -/
def clearInHand (s : State) : State :=
  match s.decoder.state with
  | .args _ _ => count .stray s
  | .load _ => abortLoad s
  | .sum _ => abortLoad s
  | .idle => s
  | .text => s
  | .skip => s

/-- R22, first and second steps: in hand cleared, IDLE entered, and for a CUT or a STALLED the notice raised. -/
def closeTake (notice : Option NoticeKind) (s : State) : State :=
  let closed := setDecoderState .idle (clearInHand s)
  match notice with
  | none => closed
  | some k => raise k s.decoder.byteCount closed

/-- R21: a take opened. -/
def openTake (priority : Priority) (s : State) : State :=
  count .takes (s.setDecoder { state := .text, plane := 0, priority := priority, byteCount := 0 })

/-- R21, R22: a boundary that closes a take; in IDLE it leaves the decoder as it is. The line end has the priority of the take
being closed (R152). -/
def closingBoundary (notice : Option NoticeKind) (s : State) : State :=
  if s.decoder.state = .idle then s
  else doJob (controlJob s.decoder.priority .take notice.isSome) (closeTake notice s)

/-- R21, R23: a TAKE_START; in an open take it is a CUT followed by that TAKE_START. The decoder's own changes come first and the
line end after them (R19), under the priority of the take being closed (R152). -/
def openingBoundary (priority : Priority) (s : State) : State :=
  if s.decoder.state = .idle then openTake priority s
  else doJob (controlJob s.decoder.priority .take true) (openTake priority (closeTake (some .takeCut) s))

/-- R24: a lost boundary applied as if an entry of its kind had been taken. -/
def applyBoundary (boundary : Option Boundary) (s : State) : State :=
  match boundary with
  | none => s
  | some (.takeStart p) => openingBoundary p s
  | some .takeEnd => closingBoundary none s
  | some .cut => closingBoundary (some .takeCut) s

/-- R24: flag GAP given to the line being set. -/
def flagGap (s : State) : State := s.setLine s.shaper.line.flagGap

/-- R24: the decoder's action on the loss a GAP reports. -/
def actOnLoss (s : State) : State :=
  match s.decoder.state with
  | .idle => s
  | .text => flagGap s
  | .args _ _ => flagGap (setDecoderState .text (clearInHand s))
  | .load _ => flagGap (setDecoderState .skip (clearInHand s))
  | .sum _ => flagGap (setDecoderState .skip (clearInHand s))
  | .skip => s

/-- The lost boundary a GAP entry carries. -/
def Entry.boundary : Entry → Option Boundary
  | .gap _ b => b
  | .plain _ => none
  | .takeStart _ => none
  | .takeEnd => none
  | .cut => none
  | .stalled => none

/-- The priority a TAKE_START entry carries. -/
def Entry.priority : Entry → Priority
  | .takeStart p => p
  | .plain _ => 0
  | .takeEnd => 0
  | .cut => 0
  | .stalled => 0
  | .gap _ _ => 0

/-- TAKE_START_ENTRY (R21, R23). -/
def execTakeStartEntry (s : State) : Result := takeHead .takeStartEntry (fun e t => openingBoundary e.priority t) s

/-- TAKE_END_ENTRY (R21, R22). -/
def execTakeEndEntry (s : State) : Result := takeHead .takeEndEntry (fun _ t => closingBoundary none t) s

/-- CUT_ENTRY (R21, R22). -/
def execCutEntry (s : State) : Result := takeHead .cutEntry (fun _ t => closingBoundary (some .takeCut) t) s

/-- STALLED_ENTRY (R21, R22). -/
def execStalledEntry (s : State) : Result := takeHead .stalledEntry (fun _ t => closingBoundary (some .takeStalled) t) s

/-- GAP_ENTRY (R24). -/
def execGapEntry (s : State) : Result := takeHead .gapEntry (fun e t => applyBoundary e.boundary (actOnLoss t)) s

/-- PLAIN_DISCARDED (R21). -/
def execPlainDiscarded (s : State) : Result := takeHead .plainDiscarded (fun _ t => t) s

end Sys2Proof.Machine
end

