-- ==== Sys2Proof/Machine/Controls.lean ====
section
/-! DEFINITION. Control codes with arguments that do not belong to the tables or to queries: PLANE, FORMAT, LEADER (R27, R28, R33,
R34). -/

namespace Sys2Proof.Machine

/-- R27: the code becomes the partial control with no bytes yet. -/
def openControl (e : Entry) (s : State) : State :=
  match controlCodeOf e.byte with
  | some code => setDecoderState (.args code []) s
  | none => s

/-- CONTROL_CODE_WITH_ARGUMENTS (R27). -/
def execControlCodeWithArguments (s : State) : Result := takeHead .controlCodeWithArguments openControl s

/-- R27: an argument byte joins the partial control. -/
def addArgument (e : Entry) (s : State) : State :=
  match s.decoder.state with
  | .args code bytes => setDecoderState (.args code (bytes ++ [e.byte])) s
  | .idle => s
  | .text => s
  | .load _ => s
  | .sum _ => s
  | .skip => s

/-- ARGUMENT_BYTE (R27). -/
def execArgumentByte (s : State) : Result := takeHead .argumentByte addArgument s

/-- R27: the last argument byte: the code is carried out with all its bytes, the decoder back in TEXT. -/
def carryOut (work : List Byte → State → State) (e : Entry) (s : State) : State :=
  work (s.decoder.argumentBytes e) (setDecoderState .text s)

/-- R28: PLANE p. -/
def setPlane (bytes : List Byte) (s : State) : State :=
  if (byteAt bytes 0).toNat ≤ 3 then s.setDecoder { s.decoder with plane := (byteAt bytes 0).extractLsb' 0 2 } else count .stray s

/-- PLANE (R28). -/
def execPlane (s : State) : Result := takeHead .plane (carryOut setPlane) s

/-- R45: a line parameter's write filed by the state of the line store. -/
def fileLineWrite (w : LineWrite) (s : State) : State := s.setFormat (s.format.fileLine s.shaper.line.cells.isEmpty w)

/-- R33, R43 to R45, R50: FORMAT k, v. -/
def writeFormat (bytes : List Byte) (s : State) : State :=
  match formatWrite (byteAt bytes 0).toNat (fieldAt bytes 1) with
  | .line w => fileLineWrite w s
  | .unit w => s.setFormat { s.format with unit := s.format.unit.write w }
  | .stray => count .stray s

/-- FORMAT (R33). -/
def execFormat (s : State) : Result := takeHead .format (carryOut writeFormat) s

/-- R34, R49: LEADER hands on the first four glyph numbers. -/
def writeLeader (bytes : List Byte) (s : State) : State := fileLineWrite (.leader ((pairFields bytes.tail).take 4)) s

/-- LEADER (R34). -/
def execLeader (s : State) : Result := takeHead .leader (carryOut writeLeader) s

end Sys2Proof.Machine
end

