-- ==== Sys2Proof/Machine/Copy.lean ====
section
/-! DEFINITION. Copy: text bytes and the control codes that shape the line (sections 2.4 and 2.5). -/

namespace Sys2Proof.Machine

/-- What a text byte makes (R25, R26, R59). -/
inductive TextWork where
  | letter (g : Nat) | mark (g : Nat) | space | unmapped
  deriving DecidableEq, Repr

/-- R25, R59: a text byte looked up in the active code map, in the current plane. -/
def textWork (b : Bank) (plane : BitVec 2) (c : Byte) : TextWork :=
  match codeItemAt b (codeIndex plane c) with
  | .space => .space
  | .none => .unmapped
  | .glyph g => if usable b g then (if classOf b g = .m then .mark g else .letter g) else .unmapped

/-- R26: an unmapped byte: UNMAPPED counted, the line flagged, and the substitute handed on as a letter if the header names
one. R26 does not say which line takes the flag where the letter's own arrival ends the line. The flag is given before the
letter is handed on, so the line that ends takes it: DESIGN CHOICE, unsafe (log 23). -/
def handUnmapped (s : State) : State :=
  let flagged := count .unmapped (s.setLine s.shaper.line.flagUnmapped)
  match headerGlyph s.bank .substitute with
  | some g => handArrival (.letter g) flagged
  | none => flagged

/-- R25, R26: the work of a text byte. -/
def takeText (c : Byte) (s : State) : State :=
  match textWork s.bank s.decoder.plane c with
  | .letter g => handArrival (.letter g) s
  | .mark g => handMark g s
  | .space => handArrival .space s
  | .unmapped => handUnmapped s

/-- TEXT_BYTE (R25, R26). -/
def execTextByte (s : State) : Result := takeHead .textByte (fun e t => takeText e.byte t) s

/-- STRAY_CODE (R27). -/
def execStrayCode (s : State) : Result := takeHead .strayCode (fun _ t => count .stray t) s

/-- DISC (R29). -/
def execDisc (s : State) : Result := takeHead .disc (fun _ t => handArrival .disc t) s

/-- TAB (R30). -/
def execTab (s : State) : Result := takeHead .tab (fun _ t => handArrival .tab t) s

/-- JOIN (R32). -/
def execJoin (s : State) : Result := takeHead .join (fun _ t => handArrival (.link .join) t) s

/-- NOJOIN (R32). -/
def execNojoin (s : State) : Result := takeHead .nojoin (fun _ t => handArrival (.link .nojoin) t) s

/-- A line end that the copy asks for (R31). -/
def handLineEnd (kind : EndKind) (s : State) : State := doJob (controlJob s.decoder.priority kind false) s

/-- ENDLINE (R31, R122). -/
def execEndline (s : State) : Result := takeHead .endline (fun _ t => handLineEnd .endline t) s

/-- ENDPARA (R31, R123). -/
def execEndpara (s : State) : Result := takeHead .endpara (fun _ t => handLineEnd .endpara t) s

/-- R39, R55, R111: the unit reset: plane 0, format defaults, an empty line store without a packet. -/
def unitReset (s : State) : State :=
  ((s.setDecoder { s.decoder with plane := 0 }).setFormat FormatSet.default).setShaper Shaper.empty

/-- RESET (R39, R55, R71, R111). -/
def execReset (s : State) : Result := takeHead .reset (fun _ t => unitReset t) s

end Sys2Proof.Machine
end

