-- ==== Sys2Proof/Machine/ExposureBus.lean ====
section
/-! DEFINITION. The exposure queue and bus (chapter 9). -/

namespace Sys2Proof.Machine

/-- The event happens in one port state only, with a packet at the head. -/
def inBusState (st : BusState) (s : State) (t : Packet → State) : Result :=
  match s.bus.queue with
  | [] => .refused (.cannotOccur .busStateOther)
  | p :: _ => if s.bus.state = st then .next (t p) else .refused (.cannotOccur .busStateOther)

/-- PACKET_JOIN (R19, R157, R158): the waiting packet joins, and the line end and the rest of the entry's work finish. -/
def execPacketJoin (s : State) : Result :=
  match s.shaper.waiting with
  | none => .refused (.cannotOccur .noPacketCanJoin)
  | some w =>
    match s.room with
    | 0 => .refused (.cannotOccur .noPacketCanJoin)
    | r + 1 => .next (runJob r w.job (joinPacket w.packet (s.setShaper { s.shaper with waiting := none })))

/-- BUS_FREE (R160, R161): the idle count has reached the gap in force, and the port begins the head packet's header. Without
this command the next bit time begins it (log 6). -/
def execBusFree (s : State) : Result :=
  if s.bus.othersDrive then .refused (.cannotOccur .busBusy)
  else if s.bus.state = .waiting ∧ s.bus.gapReached = false then .refused (.cannotOccur .gapNotReached)
  else inBusState .waiting s (fun _ => s.setBus s.bus.beginHeader)

/-- BUS_FOUND_BUSY (R159, R161): the bus is sensed busy; the port stays as it is, with the same gap in force. -/
def execBusFoundBusy (s : State) : Result := .next (s.setBus s.bus.senseBusy)

/-- CONTEST_LOST (R160, R162). -/
def execContestLost (s : State) : Result :=
  inBusState .contending s (fun _ =>
    count .contestsLost (s.setBus (s.bus.senseBusy.startWait s.format.unit.busGap)))

/-- CONTEST_WON (R163): the port reads BURST_LIMIT into the ownership. -/
def execContestWon (s : State) : Result :=
  inBusState .contending s (fun _ =>
    s.setBus { s.bus with state := .sending, ownership := some ⟨s.format.unit.burstLimit, 0⟩ })

/-- COLLISION (R165): the ownership ends, the packet stays, and the other unit goes on undisturbed. -/
def execCollision (s : State) : Result :=
  inBusState .sending s (fun p =>
    raise .collision p.sequence.toNat
      (s.setBus { s.bus.senseBusy.startWait s.format.unit.busGap with ownership := none }))

/-- PACKET_SENT (R164): packets sent rises, the hold timer is armed, and the imaging unit drives the bus. -/
def execPacketSent (s : State) : Result :=
  inBusState .sending s (fun _ =>
    s.setBus
      { s.bus.senseBusy with
        state := .awaiting, ownership := s.bus.ownership.map (fun o => { o with sent := o.sent + 1 })
        holdTimer := some s.format.unit.holdLimit, answerDue := true })

/-- R164, R167: the end of a valid answer taken in AWAITING: the hold timer stops, and the imaging unit no longer drives the
bus (log 12). -/
def Bus.endAnswer (b : Bus) : Bus := { b with holdTimer := none, othersDrive := false, answerDue := false, idleCount := 0 }

/-- R169: the owner may send another packet in this ownership. -/
def Bus.mayGoOn (b : Bus) : Bool :=
  match b.ownership with
  | some o => decide (o.sent < o.burstLimit) && !b.queue.isEmpty
  | none => false

/-- R169: after an ACCEPT or a REJECT has removed the head packet, the owner goes on or releases the bus. -/
def Bus.goOnOrRelease (busGap : Nat) (b : Bus) : Bus :=
  if b.mayGoOn then { b with state := .sending }
  else if b.queue.isEmpty then { b with state := .busIdle, ownership := none }
  else { b.startWait busGap with ownership := none }

/-- R168: the head packet leaves the exposure queue. -/
def Bus.removeHead (b : Bus) : Bus := { b with queue := b.queue.tail }

/-- ACCEPT (R167 to R169): ignored unless the port takes an answer. -/
def execAccept (s : State) : Result :=
  if s.bus.takesAnswer then .next (s.setBus (s.bus.endAnswer.removeHead.goOnOrRelease s.format.unit.busGap)) else .next s

/-- R168: the detail of PACKET_REJECTED: the sequence number in the upper eight bits, the galley in the lower. -/
def rejectedDetail (q : List Packet) : Nat :=
  match q with
  | [] => 0
  | p :: _ => p.sequence.toNat * 256 + p.body.galley

/-- REJECT (R167 to R169): as ACCEPT, with REJECTED counted and PACKET_REJECTED raised. -/
def execReject (s : State) : Result :=
  if s.bus.takesAnswer then
    .next
      (raise .packetRejected (rejectedDetail s.bus.queue)
        (count .rejected (s.setBus (s.bus.endAnswer.removeHead.goOnOrRelease s.format.unit.busGap))))
  else .next s

/-- R170, R171: the ownership ends and the defer timer is armed. -/
def Bus.enterDeferring (deferWait : Nat) (b : Bus) : Bus :=
  { b with state := .deferring, ownership := none, holdTimer := none, deferTimer := some deferWait, answerDue := false }

/-- DEFER (R167, R170): the packet stays at the head. -/
def execDefer (s : State) : Result :=
  if s.bus.takesAnswer then
    .next (count .deferred (s.setBus (s.bus.endAnswer.enterDeferring s.format.unit.deferWait)))
  else .next s

/-- The byte is one of the three valid answers (section 11.3). -/
def validAnswer (b : Byte) : Bool := decide (b = 0xA5) || decide (b = 0x96) || decide (b = 0xC3)

/-- INVALID_ANSWER (R167): a byte that is no valid answer, or any answer the port does not take, is ignored. -/
def execInvalidAnswer (b : Byte) (s : State) : Result :=
  if isAnswerByte b then
    if validAnswer b && s.bus.takesAnswer then .refused (.cannotOccur .answerIsValid) else .next s
  else .fault .illFormedOperand

/-- The sequence number of the head packet. -/
def headSequence (q : List Packet) : Nat :=
  match q with
  | [] => 0
  | p :: _ => p.sequence.toNat

/-- HOLD_EXPIRY (R171): the owner gives up waiting; the imaging unit may still hold the bus. -/
def execHoldExpiry (s : State) : Result :=
  if s.bus.state = .awaiting ∧ s.bus.holdTimer.isSome then
    .next
      (raise .holdExpired (headSequence s.bus.queue)
        (count .holdExpiries (s.setBus (s.bus.enterDeferring s.format.unit.deferWait))))
  else .refused (.cannotOccur .timerStopped)

/-- DEFER_EXPIRY (R160, R173). -/
def execDeferExpiry (s : State) : Result :=
  if s.bus.state = .deferring ∧ s.bus.deferTimer.isSome then
    .next (s.setBus { s.bus.startWait s.format.unit.busGap with deferTimer := none })
  else .refused (.cannotOccur .timerStopped)

/-- IMAGING_UNIT_RELEASE (R159, R164): the bus goes idle, the idle count starts afresh, and a packet released without an answer
takes no later one. -/
def execImagingUnitRelease (s : State) : Result := .next (s.setBus s.bus.imagingRelease)

/-- One bit time of the exposure bus with no command (R159, R160, log 4). -/
def tick (s : State) : State := s.setBus s.bus.bitTime

end Sys2Proof.Machine
end

