-- ==== Sys2Proof/Machine/Loads.lean ====
section
/-! DEFINITION. Table loads and bank operations (R35 to R37, chapter 5). -/

namespace Sys2Proof.Machine

/-! ### Loads -/

/-- R73: the range test; the last index is worked as an ordinary whole number. -/
def rangeAccepted (k : TableKind) (start count : Nat) : Bool :=
  k.inRange start && (decide (count = 0) || k.inRange (start + count - 1))

/-- R35, R72, R73: the last header byte of a LOAD. -/
def openLoad (bytes : List Byte) (s : State) : State :=
  match tableKindOf (byteAt bytes 0).toNat with
  | none => raise .loadRefused (refusalDetail (byteAt bytes 0).toNat 1) (setDecoderState .skip s)
  | some k =>
    let ctx : LoadContext := { kind := k, start := fieldAt bytes 1, count := fieldAt bytes 3, taken := 0, item := [], sum := [] }
    let opened := s.setTables { s.tables with record := some ⟨k, rangeAccepted k ctx.start ctx.count, 0, 0⟩ }
    setDecoderState (if ctx.count = 0 then .sum ctx else .load ctx) opened

/-- LOAD (R35, R72, R73). -/
def execLoad (s : State) : Result := takeHead .load (carryOut openLoad) s

/-- R74: the table block takes a complete item: its bytes are added to the running sum, and an accepted load writes it into the
standby bank. -/
def takeItem (k : TableKind) (index : Nat) (bytes : List Byte) (s : State) : State :=
  match s.tables.record with
  | none => s
  | some r =>
    if r.accepted then
      s.setTables
        { s.tables.setStandby (s.tables.standbyBank.writeItem k index bytes) with
          record := some { r with sum := (r.sum + byteSum bytes) % 65536, written := r.written + 1 } }
    else s.setTables { s.tables with record := some { r with sum := (r.sum + byteSum bytes) % 65536 } }

/-- The load context after a further item byte, with the item that byte completes. -/
def LoadContext.takeByte (b : Byte) (ctx : LoadContext) : LoadContext × Option (List Byte) :=
  if (ctx.item ++ [b]).length < ctx.kind.itemSize then ({ ctx with item := ctx.item ++ [b] }, none)
  else ({ ctx with item := [], taken := ctx.taken + 1 }, some (ctx.item ++ [b]))

/-- R36: the next byte of the current item; after the last item the decoder enters SUM. -/
def takeLoadByte (e : Entry) (s : State) : State :=
  match s.decoder.state with
  | .load ctx =>
    let r := ctx.takeByte e.byte
    match r.2 with
    | none => setDecoderState (.load r.1) s
    | some item =>
      takeItem ctx.kind (ctx.start + ctx.taken) item
        (setDecoderState (if r.1.taken < ctx.count then .load r.1 else .sum r.1) s)
  | .idle => s
  | .text => s
  | .args _ _ => s
  | .sum _ => s
  | .skip => s

/-- LOAD_DATA_BYTE (R36, R74). -/
def execLoadDataByte (s : State) : Result := takeHead .loadDataByte takeLoadByte s

/-- R76, R77: the table block takes the sum: a refused load raises LOAD_REFUSED, an accepted one whose sum differs spoils the
standby bank. -/
def takeSum (sent : Nat) (s : State) : State :=
  match s.tables.record with
  | none => s
  | some r =>
    let cleared := s.setTables { s.tables with record := none }
    if r.accepted then
      if sent = r.sum then cleared
      else
        raise .loadSum r.sum
          (cleared.setTables (cleared.tables.setStandby { cleared.tables.standbyBank with valid := false }))
    else raise .loadRefused (refusalDetail r.kind.number 2) cleared

/-- R36: a sum byte; the second ends the load. -/
def takeSumByte (e : Entry) (s : State) : State :=
  match s.decoder.state with
  | .sum ctx =>
    match ctx.sum with
    | [] => setDecoderState (.sum { ctx with sum := [e.byte] }) s
    | hi :: _ => takeSum (pairValue hi e.byte) (setDecoderState .text s)
  | .idle => s
  | .text => s
  | .args _ _ => s
  | .load _ => s
  | .skip => s

/-- LOAD_SUM_BYTE (R36, R76, R77). -/
def execLoadSumByte (s : State) : Result := takeHead .loadSumByte takeSumByte s

/-! ### Bank operations -/

/-- R79: every item of the active bank copied into standby, which becomes valid. -/
def copyBank (s : State) : State := s.setTables (s.tables.setStandby { s.tables.activeBank with valid := true })

/-- COPY (R79). -/
def execCopy (s : State) : Result := takeHead .copy (carryOut (fun _ t => copyBank t)) s

/-- R80: every item of standby cleared; it becomes valid. -/
def clearBank (s : State) : State := s.setTables (s.tables.setStandby Bank.cleared)

/-- CLEAR (R80). -/
def execClear (s : State) : Result := takeHead .clear (carryOut (fun _ t => clearBank t)) s

/-- R81 to R83: a SWAP refused, or carried out after the line end of kind SWAP, flagged CUT, that a line holding cells takes. -/
def swapBanks (s : State) : State :=
  if s.tables.standbyBank.valid then doJob (controlJob s.decoder.priority .swap true) s
  else raise .swapRefused s.tables.active.number s

/-- SWAP (R81). -/
def execSwap (s : State) : Result := takeHead .swap (carryOut (fun _ t => swapBanks t)) s

/-- INVALID_BANK_OP (R37). -/
def execInvalidBankOp (s : State) : Result := takeHead .invalidBankOp (carryOut (fun _ t => count .stray t)) s

end Sys2Proof.Machine
end

