-- ==== Sys2Proof/Machine/Queries.lean ====
section
/-! DEFINITION. Queries and the replies they offer (R20, R38, sections 10.1 and 10.3). -/

namespace Sys2Proof.Machine

/-- R53: the pending set holds an entry. -/
def PendingSet.nonEmpty (p : PendingSet) : Bool := decide (p ≠ PendingSet.empty)

/-- R181: a STATUS reply's fields, all taken at one moment. -/
def statusFields (s : State) : StatusFields :=
  { unitNumber := s.port.unitNumber
    acceptAll := s.port.acceptAll
    takeOpen := decide (s.port.condition = .accepting)
    portPriority := s.port.priority
    activeBank := s.tables.active
    standbyValid := s.tables.standbyBank.valid
    pendingNonEmpty := s.format.pending.nonEmpty
    cells := s.shaper.line.cells.length
    items := s.shaper.line.items
    exposureDepth := s.bus.queue.length
    busState := s.bus.state
    inputLevel := s.port.queue.length
    hold := s.port.ownHold
    returnDepth := s.reply.queue.length }

/-- R69, R183: an ENTRY reply's record. -/
def entryRecord (k : TableKind) (standby : Bool) (index : Nat) (s : State) : Record :=
  .entry k standby index (k.inRange index)
    (if k.inRange index then (if standby then s.tables.standbyBank else s.tables.activeBank).item k index
      else List.replicate k.itemSize 0)

/-- R181 to R183: a reply built at the moment it joins. -/
def buildReply (q : Query) (s : State) : Record :=
  match q with
  | .status => .status (statusFields s)
  | .counts => .counts s.reply.counters
  | .countsAndClear => .counts s.reply.counters
  | .entry k standby index => entryRecord k standby index s

/-- R182: COUNTS-and-clear sets every counter to 0 as its reply joins. -/
def Query.countersAfter (q : Query) (c : Counters) : Counters :=
  match q with
  | .countsAndClear => Counters.zero
  | .status => c
  | .counts => c
  | .entry _ _ _ => c

/-- R180: a reply joins the tail; no reply is then offered. -/
def joinReply (q : Query) (s : State) : State :=
  s.setReply
    { s.reply with
      queue := s.reply.queue ++ [buildReply q s], offered := none, counters := q.countersAfter s.reply.counters }

/-- R20, R180: a reply offered joins at a depth of 5 or fewer, and otherwise waits, and the decoder with it. -/
def offerReply (q : Query) (s : State) : State :=
  if s.reply.queue.length ≤ Config.replyDepth then joinReply q s else s.setReply { s.reply with offered := some q }

/-- R20, R178, R180: at a departure a reply that waits is tested against the depth left, and joins at once at 5 or fewer. -/
def retestReply (s : State) : State :=
  match s.reply.offered with
  | none => s
  | some q => if s.reply.queue.length ≤ Config.replyDepth then joinReply q s else s

/-- STATUS (R38, R181). -/
def execStatus (s : State) : Result := takeHead .status (carryOut (fun _ t => offerReply .status t)) s

/-- COUNTS (R38, R182). -/
def execCounts (s : State) : Result := takeHead .counts (carryOut (fun _ t => offerReply .counts t)) s

/-- COUNTS_AND_CLEAR (R38, R182). -/
def execCountsAndClear (s : State) : Result := takeHead .countsAndClear (carryOut (fun _ t => offerReply .countsAndClear t)) s

/-- ENTRY (R38, R69, R183). -/
def execEntry (s : State) : Result := takeHead .entry (carryOut (fun bytes t => offerReply (entryQuery bytes) t)) s

/-- INVALID_QUERY_KIND (R38). -/
def execInvalidQueryKind (s : State) : Result := takeHead .invalidQueryKind (carryOut (fun _ t => count .stray t)) s

end Sys2Proof.Machine
end

