-- ==== Sys2Proof/Machine/ReturnLine.lean ====
section
/-! DEFINITION. The return line: replies that waited, departures, and the front-end's hold (sections 10.1 and 11.4). -/

namespace Sys2Proof.Machine

/-- OFFERED_REPLY_JOIN (R20, R180): a reply that waited joins at a depth of 5 or fewer, built at that moment. The departure that
leaves such a depth joins it at once, and this command then finds none left to join (log 10). -/
def execOfferedReplyJoin (s : State) : Result :=
  match s.reply.offered with
  | none => .next s
  | some q =>
    if s.reply.queue.length ≤ Config.replyDepth then .next (joinReply q s) else .refused (.cannotOccur .returnQueueDeep)

/-- RECORD_DEPARTURE (R20, R178, R180): the idle sender takes the head record while the return line is not held, and a reply
that waits joins at once if the departure leaves a depth of 5 or fewer. The taking is this command, and other commands may stand
between the moment it can be made and this command: DESIGN CHOICE, unsafe (log 10). -/
def execRecordDeparture (s : State) : Result :=
  match s.reply.queue with
  | [] => .refused (.cannotOccur .noRecordCanLeave)
  | r :: rest =>
    if s.reply.sender.isNone && !s.reply.held then
      .next (retestReply (s.setReply { s.reply with queue := rest, sender := some ⟨r, r.characters⟩ }))
    else .refused (.cannotOccur .noRecordCanLeave)

/-- RECORD_SENT (R178): the last character has been sent. While the line is held the sender finishes the character it has begun,
so only a record with every character begun can end. The sender is then idle: R178 has it take the next head record at once, and
in the model that is the command RECORD_DEPARTURE, before which other commands may stand: DESIGN CHOICE, unsafe (log 10). -/
def execRecordSent (s : State) : Result :=
  match s.reply.sender with
  | none => .refused (.cannotOccur .recordUnfinished)
  | some r =>
    if !s.reply.held || r.unsent.isEmpty then .next (s.setReply { s.reply with sender := none })
    else .refused (.cannotOccur .recordUnfinished)

/-- The sender's record after some of its characters have been begun. -/
def Sending.advance (begun : Nat) (r : Sending) : Sending := { r with unsent := r.unsent.drop begun }

/-- RETURN_LINE_HOLD (R178): the sender stops after the character it has begun. A line already held stays so. -/
def execReturnLineHold (begun : Nat) (s : State) : Result :=
  if decide (begun ≤ maxRecordCharacters) then
    if s.reply.held then .next s
    else .next (s.setReply { s.reply with held := true, sender := s.reply.sender.map (Sending.advance begun) })
  else .fault .illFormedOperand

/-- RETURN_LINE_RELEASE (R178): the sender goes on from the next character. -/
def execReturnLineRelease (s : State) : Result := .next (s.setReply { s.reply with held := false })

end Sys2Proof.Machine
end

