-- ==== Sys2Proof/Machine/Dispatch.lean ====
section
/-! DEFINITION. One arm per command. -/

namespace Sys2Proof.Machine

def exec (i : Instr) (s : State) : Host.Outcome State Fault Refusal :=
  match i with
  | .powerOn strap acceptAll => Sys2Proof.Machine.execPowerOn strap acceptAll s
  | .takeStart priority address => Sys2Proof.Machine.execTakeStart priority address s
  | .takeEnd => Sys2Proof.Machine.execTakeEnd s
  | .plain byte => Sys2Proof.Machine.execPlain byte s
  | .ignoredFlaggedByte byte => Sys2Proof.Machine.execIgnoredFlaggedByte byte s
  | .holdLineRise => Sys2Proof.Machine.execHoldLineRise s
  | .holdLineFall => Sys2Proof.Machine.execHoldLineFall s
  | .takeTimerExpiry => Sys2Proof.Machine.execTakeTimerExpiry s
  | .takeStartEntry => Sys2Proof.Machine.execTakeStartEntry s
  | .takeEndEntry => Sys2Proof.Machine.execTakeEndEntry s
  | .cutEntry => Sys2Proof.Machine.execCutEntry s
  | .stalledEntry => Sys2Proof.Machine.execStalledEntry s
  | .gapEntry => Sys2Proof.Machine.execGapEntry s
  | .plainDiscarded => Sys2Proof.Machine.execPlainDiscarded s
  | .textByte => Sys2Proof.Machine.execTextByte s
  | .strayCode => Sys2Proof.Machine.execStrayCode s
  | .argumentByte => Sys2Proof.Machine.execArgumentByte s
  | .plane => Sys2Proof.Machine.execPlane s
  | .disc => Sys2Proof.Machine.execDisc s
  | .tab => Sys2Proof.Machine.execTab s
  | .endline => Sys2Proof.Machine.execEndline s
  | .endpara => Sys2Proof.Machine.execEndpara s
  | .join => Sys2Proof.Machine.execJoin s
  | .nojoin => Sys2Proof.Machine.execNojoin s
  | .format => Sys2Proof.Machine.execFormat s
  | .leader => Sys2Proof.Machine.execLeader s
  | .load => Sys2Proof.Machine.execLoad s
  | .loadDataByte => Sys2Proof.Machine.execLoadDataByte s
  | .loadSumByte => Sys2Proof.Machine.execLoadSumByte s
  | .copy => Sys2Proof.Machine.execCopy s
  | .clear => Sys2Proof.Machine.execClear s
  | .swap => Sys2Proof.Machine.execSwap s
  | .invalidBankOp => Sys2Proof.Machine.execInvalidBankOp s
  | .status => Sys2Proof.Machine.execStatus s
  | .counts => Sys2Proof.Machine.execCounts s
  | .countsAndClear => Sys2Proof.Machine.execCountsAndClear s
  | .entry => Sys2Proof.Machine.execEntry s
  | .invalidQueryKind => Sys2Proof.Machine.execInvalidQueryKind s
  | .reset => Sys2Proof.Machine.execReset s
  | .packetJoin => Sys2Proof.Machine.execPacketJoin s
  | .busFree => Sys2Proof.Machine.execBusFree s
  | .busFoundBusy => Sys2Proof.Machine.execBusFoundBusy s
  | .contestLost => Sys2Proof.Machine.execContestLost s
  | .contestWon => Sys2Proof.Machine.execContestWon s
  | .collision => Sys2Proof.Machine.execCollision s
  | .packetSent => Sys2Proof.Machine.execPacketSent s
  | .accept => Sys2Proof.Machine.execAccept s
  | .reject => Sys2Proof.Machine.execReject s
  | .defer => Sys2Proof.Machine.execDefer s
  | .invalidAnswer byte => Sys2Proof.Machine.execInvalidAnswer byte s
  | .holdExpiry => Sys2Proof.Machine.execHoldExpiry s
  | .deferExpiry => Sys2Proof.Machine.execDeferExpiry s
  | .offeredReplyJoin => Sys2Proof.Machine.execOfferedReplyJoin s
  | .recordDeparture => Sys2Proof.Machine.execRecordDeparture s
  | .recordSent => Sys2Proof.Machine.execRecordSent s
  | .returnLineHold begun => Sys2Proof.Machine.execReturnLineHold begun s
  | .returnLineRelease => Sys2Proof.Machine.execReturnLineRelease s
  | .controlCodeWithArguments => Sys2Proof.Machine.execControlCodeWithArguments s
  | .imagingUnitRelease => Sys2Proof.Machine.execImagingUnitRelease s

end Sys2Proof.Machine
end

