-- ==== Sys2Proof/Machine/Step.lean ====
section
/-! DEFINITION. One step: the command at the front of the queue, or one bit time of the exposure bus when none waits (log 4). -/

namespace Sys2Proof.Machine

/-- One step of the unit. -/
def step (s : State) : Host.Outcome State Fault Refusal :=
  match s.pending with
  | [] => .next (tick s)
  | c :: rest => exec c (s.setPending rest)

/-- The command that a word spells put at the front of the queue. No row of the table gives bits, so no word spells one
(log 21). -/
def State.withFetchWord (s : State) (nbits w : Nat) : State :=
  match decodeTableWord nbits w with
  | some c => s.setPending (c :: s.pending)
  | none => s

end Sys2Proof.Machine
end

