-- ==== Sys2Proof/Safety.lean ====
section
/-! DEFINITION. What the spec promises of every state of the unit, as decidable invariants, and the shape of a decoder event.
Each invariant stands by itself: a step keeps it from any state that has it. -/

namespace Sys2Proof.Safety

open Sys2Proof.Machine

/-! ### Setting port (R8, R10 to R15, R17) -/

/-- A GAP's lost count is 1..255 (R8). -/
def entryInRange : Entry → Bool
  | .gap n _ => decide (1 ≤ n) && decide (n ≤ 255)
  | .plain _ => true
  | .takeStart _ => true
  | .takeEnd => true
  | .cut => true
  | .stalled => true

/-- R8, R10, R12 to R15: the queue's bound; a loss is pending only while the queue is full; while the own drive is low the level
is below 960; the timer runs only in ACCEPTING with the line low. -/
abbrev PortInv (s : State) : Prop :=
  s.port.queue.length ≤ 1024
  ∧ s.port.queue.all entryInRange = true
  ∧ (s.port.loss.isSome = true → s.port.queue.length = 1024)
  ∧ (s.port.loss.all (fun l => decide (1 ≤ l.count ∧ l.count ≤ 255)) = true)
  ∧ (s.port.ownHold = false → s.port.queue.length < 960)
  ∧ (s.port.takeTimer.isSome = true → s.port.condition = .accepting ∧ s.port.holdLine = false)
  ∧ s.port.unitNumber ≠ 0

/-! ### Parameters (R42, R43, R50, R51) -/

/-- A number within a range. -/
abbrev within (lo hi n : Nat) : Bool := decide (lo ≤ n) && decide (n ≤ hi)

/-- R42: every line parameter in its range, sixteen stops, at most four leader glyph numbers. -/
abbrev copyInRange (c : LineCopy) : Prop :=
  within 16 384 c.size = true ∧ within 240 14400 c.measure = true ∧ c.leading ≤ 2880 ∧ c.paraSpace ≤ 1440
  ∧ c.spaceMin ≤ 255 ∧ c.spaceOpt ≤ 255 ∧ c.spaceMax ≤ 255 ∧ c.extend ≤ 8 ∧ c.galley ≤ 15
  ∧ c.tabs.length = 16 ∧ c.tabs.all (within 0 14400) = true
  ∧ c.leader.length ≤ 4 ∧ c.leader.all (within 0 65535) = true

/-- R45: every pending entry in its parameter's range. -/
abbrev pendingInRange (p : PendingSet) : Prop :=
  p.size.all (within 16 384) = true ∧ p.measure.all (within 240 14400) = true ∧ p.leading.all (within 0 2880) = true
  ∧ p.paraSpace.all (within 0 1440) = true ∧ p.spaceMin.all (within 0 255) = true ∧ p.spaceOpt.all (within 0 255) = true
  ∧ p.spaceMax.all (within 0 255) = true ∧ p.extend.all (within 0 8) = true ∧ p.galley.all (within 0 15) = true
  ∧ p.tabs.length = 16 ∧ p.tabs.all (fun t => t.all (within 0 14400)) = true
  ∧ p.leader.all (fun l => decide (l.length ≤ 4) && l.all (within 0 65535)) = true

/-- R50, R51: the unit parameters in their ranges, and every value a block has read from them. -/
abbrev unitInRange (s : State) : Prop :=
  within 1 16 s.format.unit.burstLimit = true ∧ within 4 64 s.format.unit.busGap = true
  ∧ within 1 255 s.format.unit.holdLimit = true ∧ within 1 255 s.format.unit.deferWait = true
  ∧ s.format.unit.takeTimeout ≤ 60
  ∧ within 4 64 s.bus.gap = true ∧ s.bus.holdTimer.all (within 1 255) = true ∧ s.bus.deferTimer.all (within 1 255) = true
  ∧ s.port.takeTimer.all (within 1 60) = true
  ∧ s.bus.ownership.all (fun o => within 1 16 o.burstLimit) = true

/-- Every format parameter and every value read from one stays in its range. -/
abbrev FormatInv (s : State) : Prop := copyInRange s.format.line ∧ pendingInRange s.format.pending ∧ unitInRange s

/-! ### Waiting (R19, R20, R45) -/

/-- R45: the pending set holds entries only while the line store holds cells, a waiting line end's cells among them. R18 to
R20: the decoder waits at a line end or at a query, never at both. -/
abbrev WaitInv (s : State) : Prop :=
  (s.format.pending ≠ PendingSet.empty → s.shaper.line.cells ≠ [] ∨ s.shaper.waiting.isSome = true)
  ∧ (s.shaper.waiting.isSome = true → s.reply.offered = none)

/-! ### Tables and loads (R57, R73, R74, R83) -/

/-- A bank's four tables in canonical form. -/
def bankCanonical (k : Bank) : Bool := k.codeMap.wf && k.glyphs.wf && k.ligatures.wf && k.header.wf

/-- A job that will still exchange the banks. -/
def Job.willExchange (j : Job) : Bool := j.exchange || j.control.any (fun k => decide (k.kind = .swap))

/-- R57: the active bank is always valid. R83: a SWAP that has begun its line end is always carried out, to a valid bank. -/
abbrev TableInv (s : State) : Prop :=
  bankCanonical s.tables.bankA = true ∧ bankCanonical s.tables.bankB = true
  ∧ s.tables.activeBank.valid = true
  ∧ (s.shaper.waiting.any (fun w => Job.willExchange w.job) = true → s.tables.standbyBank.valid = true)

/-- Every stored byte stands at an index of its table's range. -/
def tableInRange (k : TableKind) (m : Memory) : Bool := m.all (fun c => k.inRange (c.1 / k.itemSize))

/-- A bank whose stored bytes all stand at indexes in range. -/
def bankInRange (b : Bank) : Bool :=
  tableInRange .codeMap b.codeMap && tableInRange .glyphs b.glyphs && tableInRange .ligatures b.ligatures
    && tableInRange .header b.header

/-- The load context and the load record agree (R35, R36, R73, R74). -/
def loadAgrees (ctx : LoadContext) (r : LoadRecord) : Bool :=
  decide (r.kind = ctx.kind) && decide (r.accepted = rangeAccepted ctx.kind ctx.start ctx.count)
    && decide (r.written = if r.accepted then ctx.taken else 0) && decide (r.sum < 65536)
    && decide (ctx.start ≤ 65535) && decide (ctx.count ≤ 65535)

/-- R36, R73, R85: the load record is open exactly while the decoder reads a load, and agrees with its context. -/
def loadOpen (d : DecoderState) (r : Option LoadRecord) : Bool :=
  match d, r with
  | .load ctx, some r => loadAgrees ctx r && decide (ctx.taken < ctx.count) && decide (ctx.item.length < ctx.kind.itemSize)
      && ctx.sum.isEmpty
  | .sum ctx, some r => loadAgrees ctx r && decide (ctx.taken = ctx.count) && ctx.item.isEmpty && decide (ctx.sum.length ≤ 1)
  | .load _, none => false
  | .sum _, none => false
  | .idle, r => r.isNone
  | .text, r => r.isNone
  | .args _ _, r => r.isNone
  | .skip, r => r.isNone

/-- R36, R73, R74: loads write only inside their tables. -/
abbrev LoadInv (s : State) : Prop :=
  loadOpen s.decoder.state s.tables.record = true
  ∧ bankInRange s.tables.bankA = true ∧ bankInRange s.tables.bankB = true

/-! ### Line store (R86 to R91, R104, R105, R115) -/

/-- R83, R106: banks are exchanged only by a job with nothing before the exchange. -/
def Job.exchangesLast (j : Job) : Bool :=
  !j.exchange || (j.carried.isEmpty && j.arrival.isNone && j.control.isNone)

/-- R88, R105: the accumulator is the width of the settled cells and the item count is what the cells would emit; while a line
end waits no cell stands in the new line. -/
abbrev LineSumsInv (s : State) : Prop :=
  s.shaper.line.acc = sumFine s.copy s.shaper.line.cells
  ∧ s.shaper.line.items = sumItems s.bank s.shaper.line.cells
  ∧ (s.shaper.waiting.isSome = true → s.shaper.line = Line.empty)
  ∧ s.shaper.waiting.all (fun w => Job.exchangesLast w.job) = true

/-- R104: at most three marks on each side. -/
def marksBounded : Cell → Bool
  | .letter l => decide (l.above.length ≤ 3) && decide (l.below.length ≤ 3)
  | .carrier k => decide (k.above.length ≤ 3) && decide (k.below.length ≤ 3)
  | .space _ => true
  | .tab _ _ _ => true
  | .brk _ _ _ => true
  | .link _ => true

/-- R88, R104: at most 192 cells, 255 items, and three marks a side; the same of the cells a waiting line end carries. -/
abbrev LineStoreInv (s : State) : Prop :=
  LineSumsInv s
  ∧ s.shaper.line.cells.length ≤ 192 ∧ s.shaper.line.items ≤ 255 ∧ s.shaper.line.cells.all marksBounded = true
  ∧ s.shaper.waiting.all (fun w =>
      decide (w.job.carried.length ≤ 192) && decide (sumItems s.bank w.job.carried ≤ 255) && w.job.carried.all marksBounded)
      = true

/-- R91: only the last non-transparent cell may be provisional. -/
def provisionalLast (b : Bank) : List Cell → Bool
  | [] => true
  | .letter l :: rest =>
    (l.settled || (!l.transparent b && rest.all (fun x => x.transparent b))) && provisionalLast b rest
  | _ :: rest => provisionalLast b rest

/-- R115: what the last eligible break may name: a SPACE or an unbroken BREAK. -/
def namesBreak : Cell → Bool
  | .space _ => true
  | .brk _ broken _ => !broken
  | .letter _ => false
  | .tab _ _ _ => false
  | .link _ => false
  | .carrier _ => false

/-- R91, R113 to R115: the provisional letter is the last non-transparent cell, and the last eligible break names a SPACE or a
BREAK of the line store with a LETTER, CARRIER or TAB before it and a broken width of M or less. -/
abbrev BreakInv (s : State) : Prop :=
  provisionalLast s.bank s.shaper.line.cells = true
  ∧ s.shaper.line.lastBreak.all (fun p =>
      s.shaper.line.cells[p.1]?.any namesBreak && (s.shaper.line.cells.take p.1).any Cell.allowsBreak
        && decide (p.2 ≤ s.copy.measureFine)) = true
  ∧ (s.shaper.waiting.isSome = true → s.shaper.line = Line.empty)
  ∧ s.shaper.waiting.all (fun w => provisionalLast s.bank w.job.carried && Job.exchangesLast w.job) = true

/-! ### Exposure queue and bus (R157 to R173) -/

/-- R157: the sequence numbers run consecutively, modulo 256, up to the one before `next`. -/
def consecutive (next : BitVec 8) : List Packet → Bool
  | [] => true
  | p :: rest => decide (p.sequence = next - BitVec.ofNat 8 (rest.length + 1)) && consecutive next rest

/-- R157 to R173: the queue's bound and numbers; each check as R154 gives; BUS_IDLE exactly while the queue is empty; an
ownership exactly in SENDING and AWAITING, within its burst limit; each timer exactly in its state; no idle count while the bus
is busy. -/
abbrev BusInv (s : State) : Prop :=
  s.bus.queue.length ≤ 8
  ∧ consecutive s.bus.nextSequence s.bus.queue = true
  ∧ s.bus.queue.all (fun p => decide (p.check = packetCheck p.body p.sequence)) = true
  ∧ (s.bus.state = .busIdle ↔ s.bus.queue = [])
  ∧ (s.bus.ownership.isSome = true ↔ s.bus.state = .sending ∨ s.bus.state = .awaiting)
  ∧ (s.bus.holdTimer.isSome = true ↔ s.bus.state = .awaiting)
  ∧ (s.bus.deferTimer.isSome = true ↔ s.bus.state = .deferring)
  ∧ s.bus.ownership.all (fun o => decide (o.sent ≤ o.burstLimit)) = true
  ∧ (s.bus.state = .sending → s.bus.ownership.all (fun o => decide (o.sent < o.burstLimit)) = true)
  ∧ 1 ≤ s.format.unit.burstLimit
  ∧ (s.bus.answerDue = true → s.bus.state = .awaiting ∧ s.bus.othersDrive = true)
  ∧ (s.bus.busy = true → s.bus.idleCount = 0)

/-! ### Reply unit (R177 to R185) -/

/-- The notice kinds in a return queue, in order. -/
def noticeKinds : List Record → List NoticeKind
  | [] => []
  | .notice k _ _ :: rest => k :: noticeKinds rest
  | .status _ :: rest => noticeKinds rest
  | .counts _ :: rest => noticeKinds rest
  | .entry _ _ _ _ _ :: rest => noticeKinds rest

/-- The replies in a return queue. -/
def replyCount (q : List Record) : Nat := q.length - (noticeKinds q).length

/-- A notice's repeat count is 1..255 (R184). -/
def repeatsInRange : Record → Bool
  | .notice _ r _ => within 1 255 r
  | .status _ => true
  | .counts _ => true
  | .entry _ _ _ _ _ => true

/-- R20, R179, R184, R185: at most 16 records, one notice of each kind, six replies; a reply waits only at a depth of 6 or more;
repeat counts and counters in range; the sender has a last part of its record still to send. -/
abbrev ReplyInv (s : State) : Prop :=
  s.reply.queue.length ≤ 16
  ∧ (noticeKinds s.reply.queue).Nodup
  ∧ replyCount s.reply.queue ≤ 6
  ∧ (s.reply.offered.isSome = true → 6 ≤ s.reply.queue.length)
  ∧ s.reply.queue.all repeatsInRange = true
  ∧ s.reply.counters.inOrder.all (within 0 65535) = true
  ∧ s.reply.sender.all (fun r => decide (r.unsent.length ≤ r.record.characters.length)
      && decide (r.unsent = r.record.characters.drop (r.record.characters.length - r.unsent.length))) = true

/-! ### Letters and line ends (R19, R64, R97, R98, R107) -/

/-- Every LETTER among the cells is settled (R91). -/
def allSettled (cells : List Cell) : Bool :=
  cells.all (fun x => match x with
    | .letter l => l.settled
    | _ => true)

/-- R64, R98: a letter set in a form: the glyph its entry names for that form if it is usable and its own glyph otherwise, that
glyph's advance, and settled. -/
def inForm (b : Bank) (l : Letter) (form : Form) : Letter :=
  let named : Nat :=
    match form with
    | .isolated => l.glyph
    | .initial => formsOf b l.glyph / 2 ^ 20 % 2 ^ 10
    | .medial => formsOf b l.glyph / 2 ^ 10 % 2 ^ 10
    | .final => formsOf b l.glyph % 2 ^ 10
  let set : Nat := if usable b named = true then named else l.glyph
  { l with form := form, setGlyph := set, width := advanceOf b set, settled := true }

/-- R97, R98: a letter settled, or re-formed, after the cells `before`, its next neighbour offering a join backward or not. -/
def settledLetter (b : Bank) (before : List Cell) (l : Letter) (nextOffers : Bool) : Letter :=
  let joinsPrevious : Bool :=
    glyphOffersBack b l.glyph
      && ((before.filter (fun x => !x.transparent b)).getLast?.any (fun x => x.offersForward b))
  let joinsNext : Bool := glyphOffersForward b l.glyph && nextOffers
  inForm b l
    (if joinsPrevious then (if joinsNext then .medial else .final) else (if joinsNext then .initial else .isolated))

/-- R19, R107, R157: the line of `t` ends as `plan` says while the exposure queue has room for `room` packets. With room the
packet joins and the work `next` follows; with none it waits, and that work with it. -/
def lineEnds (room : Nat) (priority : Priority) (plan : EndPlan) (next : Job) (t : State) : State :=
  let packet : PacketBody := linePacket priority plan t
  let ended : State := makeLineEnd plan t
  match room with
  | 0 => { ended with shaper := { ended.shaper with waiting := some ⟨packet, plan.ending, next⟩ } }
  | r + 1 => runJob r next (joinPacket packet ended)

/-! ### The decoder's events (R9, R13, R18) -/

/-- The state with the head entry `e` removed: the queue, the hold drive and the take timer as R9 to R14 leave them, and one more
byte of the take for a PLAIN entry taken while a take is open (R18). A fall of the hold line at the removal reads TAKE_TIMEOUT
before the entry's work (log 8). -/
def removed (e : Entry) (s : State) : State :=
  { s with port := s.port.removeHead s.format.unit.takeTimeout, decoder := s.decoder.countByte e }

/-- R13, R18: the command `c` takes the head entry `e`, and its next state is the removal followed by `work`. Where the removal
stores a GAP, the report of the loss comes before the work or after it (log 9). -/
def Takes (c : Instr) (e : Entry) (work : State → State) (s : State) : Prop :=
  match s.port.loss with
  | none => exec c s = .next (work (removed e s))
  | some l =>
    exec c s = .next (work (reportLoss l { removed e s with freeIndex := s.freeIndex + 1 }))
    ∨ exec c s = .next (reportLoss l (work { removed e s with freeIndex := s.freeIndex + 1 }))

/-- The decoder may take `e`: it is the head entry and the decoder is not waiting (R18). -/
abbrev Ready (e : Entry) (s : State) : Prop := s.port.queue.head? = some e ∧ s.decoderWaiting = false

end Sys2Proof.Safety
end

