-- ==== Sys2Proof/Certificates/Slice0/Obligations.lean ====
section
/-! DEFINITION. The statements for the provers. Most name the next state whole: what they do not change is unchanged. -/

open Sys2Proof Sys2Proof.Machine Sys2Proof.Safety

/-! ### The queue of commands and power-on -/

/-- A step takes the command at the front of the queue: it is that command's meaning on the state with the queue's rest. -/
def Obligations.StepRunsFrontCommand : Prop :=
  ∀ (c : Instr) (rest : List Instr) (s : State), s.pending = c :: rest → step s = exec c { s with pending := rest }

/-- R1, R17, R41, R54, R70, R85, R110, R138, R175, R186: power-on starts every block afresh. The levels that other parties
drive, and the queue of commands, stay (the model's choice, log 17); the gap in force is the model's choice (log 3). -/
def Obligations.PowerOnRestartsEveryBlock : Prop :=
  ∀ (strap : Nibble) (acceptAll : Bool) (s : State),
    exec (.powerOn strap acceptAll) s =
      .next
        { port :=
            { strapPins := strap, acceptAllPin := acceptAll, unitNumber := if strap = 0 then 1 else strap
              acceptAll := acceptAll, condition := .closed, priority := 0, queue := [], loss := none, ownHold := false
              othersHold := s.port.othersHold, takeTimer := none }
          decoder := { state := .idle, plane := 0, priority := 0, byteCount := 0 }
          format :=
            { line :=
                { size := 36, measure := 2640, leading := 200, paraSpace := 0, mode := .justify, direction := .ltr
                  spaceMin := 20, spaceOpt := 24, spaceMax := 40, extend := 0, galley := 0
                  tabs := [0, 0, 0, 0, 0, 0, 0, 0, 0, 0, 0, 0, 0, 0, 0, 0], leader := [] }
              pending := PendingSet.empty
              unit := { burstLimit := 4, busGap := 8, holdLimit := 50, deferWait := 20, takeTimeout := 10 } }
          tables :=
            { bankA := { codeMap := [], glyphs := [], ligatures := [], header := [], valid := true }
              bankB := { codeMap := [], glyphs := [], ligatures := [], header := [], valid := true }
              active := .a, record := none }
          shaper :=
            { line :=
                { cells := [], acc := 0, items := 0, lastBreak := none
                  flags := ⟨false, false, false, false, false, false, false⟩ }
              paraDue := false, waiting := none }
          bus :=
            { queue := [], nextSequence := 0, state := .busIdle, gap := 8, idleCount := 0, ownership := none
              holdTimer := none, deferTimer := none, othersDrive := s.bus.othersDrive, answerDue := false }
          reply :=
            { queue := [], sender := none, held := s.reply.held, offered := none
              counters := ⟨0, 0, 0, 0, 0, 0, 0, 0, 0, 0, 0, 0, 0, 0⟩ }
          freeIndex := s.freeIndex, pending := s.pending }

/-- The state after reset has every invariant, and power-on with its straps leaves it as it is (logs 1 to 3). -/
def Obligations.ResetHoldsEveryInvariant : Prop :=
  PortInv State.reset ∧ FormatInv State.reset ∧ WaitInv State.reset ∧ TableInv State.reset ∧ LoadInv State.reset
    ∧ LineStoreInv State.reset ∧ BreakInv State.reset ∧ BusInv State.reset ∧ ReplyInv State.reset
    ∧ exec (.powerOn 0 false) State.reset = .next State.reset

/-! ### The setting line (chapter 1) -/

/-- R3: the address test, whatever the port condition: a TAKE_START leaves the port ACCEPTING exactly when it is for this
unit. -/
def Obligations.TakeStartAddressTest : Prop :=
  ∀ (priority : Priority) (address : Nibble) (s : State),
    ∃ t : State, exec (.takeStart priority address) s = .next t
      ∧ (t.port.condition = .accepting ↔ address = s.port.unitNumber ∨ address = 0 ∨ s.port.acceptAll = true)

/-- R4, R5, R12, R14: a TAKE_START in every port condition, with and without room. For this unit: a CUT goes ahead of it in
ACCEPTING, and one lost arrival stands for both when there is room for neither. For another unit: in ACCEPTING the take is closed
and the take timer stopped. -/
def Obligations.TakeStartStoresOrLoses : Prop :=
  (∀ (priority : Priority) (address : Nibble) (s : State), s.port.forThisUnit address = true →
      (s.port.condition ≠ .accepting → s.port.queue.length < 1024 →
        exec (.takeStart priority address) s =
          .next
            { s with
              port :=
                ({ s.port.store (.takeStart priority) with condition := .accepting, priority := priority } : Port).restartTimer
                  s.format.unit.takeTimeout })
      ∧ (s.port.condition = .accepting → s.port.queue.length < 1023 →
        exec (.takeStart priority address) s =
          .next
            { s with
              port :=
                ({ (s.port.store .cut).store (.takeStart priority) with
                    condition := .accepting, priority := priority } : Port).restartTimer s.format.unit.takeTimeout })
      ∧ (s.port.condition = .accepting → s.port.queue.length = 1023 →
        exec (.takeStart priority address) s =
          .next
            { s with
              port :=
                ({ (s.port.store .cut).lose (some (.takeStart priority)) with
                    condition := .accepting, priority := priority } : Port).restartTimer s.format.unit.takeTimeout })
      ∧ (1024 ≤ s.port.queue.length →
        exec (.takeStart priority address) s =
          .next
            { s with
              port :=
                ({ s.port.lose (some (.takeStart priority)) with
                    condition := .accepting, priority := priority } : Port).restartTimer s.format.unit.takeTimeout }))
  ∧ (∀ (priority : Priority) (address : Nibble) (s : State), s.port.forThisUnit address = false →
      (s.port.condition ≠ .accepting →
        exec (.takeStart priority address) s = .next { s with port := { s.port with condition := .deaf } })
      ∧ (s.port.condition = .accepting → s.port.queue.length < 1024 →
        exec (.takeStart priority address) s =
          .next { s with port := { s.port.store .cut with condition := .deaf, takeTimer := none } })
      ∧ (s.port.condition = .accepting → 1024 ≤ s.port.queue.length →
        exec (.takeStart priority address) s =
          .next { s with port := { s.port.lose (some .cut) with condition := .deaf, takeTimer := none } }))

/-- R6, R7, R12, R14: a plain byte and a TAKE_END are stored or lost in ACCEPTING and discarded otherwise. -/
def Obligations.PlainAndTakeEndArrivals : Prop :=
  ∀ (b : Byte) (s : State),
    (s.port.condition ≠ .accepting → exec (.plain b) s = .next s ∧ exec .takeEnd s = .next s)
    ∧ (s.port.condition = .accepting → s.port.queue.length < 1024 →
      exec (.plain b) s =
          .next { s with port := (s.port.store (.plain b)).restartTimer s.format.unit.takeTimeout }
        ∧ exec .takeEnd s =
          .next { s with port := { s.port.store .takeEnd with condition := .closed, takeTimer := none } })
    ∧ (s.port.condition = .accepting → 1024 ≤ s.port.queue.length →
      exec (.plain b) s = .next { s with port := (s.port.lose none).restartTimer s.format.unit.takeTimeout }
        ∧ exec .takeEnd s =
          .next { s with port := { s.port.lose (some .takeEnd) with condition := .closed, takeTimer := none } })

/-- R8 to R14: what a stored entry, a lost arrival, a timer's restart, a removal and the report of a loss do. A stored entry
that brings the level to 960 raises the own drive and stops the timer: the line is high while this unit or another drives it. A
removal with a loss pending stores a GAP and clears the record; a removal that leaves 512 or fewer lowers the own drive, and
where that was the last drive that was high the line falls and the timer restarts in ACCEPTING. That this fall comes about in
the removal itself is how log 8 puts the event. The report of a loss adds the lost count to OVERRUN and raises an OVERRUN notice
with that count as detail. -/
def Obligations.QueueStoresLosesAndRemoves : Prop :=
  (∀ (l : Loss) (s : State),
    reportLoss l s =
      raise .overrun l.count
        { s with
          reply :=
            { s.reply with
              counters := { s.reply.counters with overrun := min 65535 (s.reply.counters.overrun + l.count) } } })
  ∧ ∀ (p : Port) (e : Entry) (rest : List Entry) (boundary : Option Boundary) (b : Boundary) (timeout : Nat),
    p.holdLine = (p.ownHold || p.othersHold)
    ∧ p.restartTimer timeout =
        { p with
          takeTimer := if p.condition = .accepting ∧ p.holdLine = false ∧ timeout ≠ 0 then some timeout else none }
    ∧ (p.queue.length < 1024 → p.queue.length ≠ 959 → p.store e = { p with queue := p.queue ++ [e] })
    ∧ (p.queue.length = 959 → p.store e = { p with queue := p.queue ++ [e], ownHold := true, takeTimer := none })
    ∧ (p.loss = none → p.lose boundary = { p with loss := some ⟨1, boundary⟩ })
    ∧ (∀ l : Loss, p.loss = some l →
      p.lose none = { p with loss := some ⟨min 255 (l.count + 1), l.boundary⟩ }
        ∧ p.lose (some b) = { p with loss := some ⟨min 255 (l.count + 1), some b⟩ })
    ∧ (p.queue = e :: rest → p.loss = none → 512 < rest.length → p.removeHead timeout = { p with queue := rest })
    ∧ (p.queue = e :: rest → p.loss = none → rest.length ≤ 512 → p.ownHold = false ∨ p.othersHold = true →
      p.removeHead timeout = { p with queue := rest, ownHold := false })
    ∧ (p.queue = e :: rest → p.loss = none → rest.length ≤ 512 → p.ownHold = true → p.othersHold = false →
      p.removeHead timeout =
        { p with
          queue := rest, ownHold := false
          takeTimer := if p.condition = .accepting ∧ timeout ≠ 0 then some timeout else none })
    ∧ (∀ l : Loss, p.queue = e :: rest → p.loss = some l → rest.length = 1023 →
      p.removeHead timeout = { p with queue := rest ++ [.gap l.count l.boundary], loss := none })

/-- R11, R14, R15: HOLD_LINE_RISE and HOLD_LINE_FALL say that the other units' drive of the line begins and ends. The first stops
the timer; the second, unless this unit drives the line high, makes it fall and restarts the timer in ACCEPTING. That the first
may come on a line that is high already, and the second while this unit drives it, is the model's choice (log 8). An expiry
stores STALLED and closes the port. That an event that cannot come is refused, and that an IGNORED_FLAGGED_BYTE of another value
faults, is the model's choice (log 7). -/
def Obligations.HoldLineAndTakeTimer : Prop :=
  ∀ s : State,
    exec .holdLineRise s = .next { s with port := { s.port with othersHold := true, takeTimer := none } }
    ∧ (s.port.othersHold = true → s.port.ownHold = false →
      exec .holdLineFall s =
        .next
          { s with
            port :=
              { s.port with
                othersHold := false
                takeTimer :=
                  if s.port.condition = .accepting ∧ s.format.unit.takeTimeout ≠ 0 then some s.format.unit.takeTimeout
                  else none } })
    ∧ (s.port.othersHold = true → s.port.ownHold = true →
      exec .holdLineFall s = .next { s with port := { s.port with othersHold := false } })
    ∧ (s.port.othersHold = false → exec .holdLineFall s = .refused (.cannotOccur .holdLineCannotFall))
    ∧ (s.port.takeTimer.isSome = true →
      exec .takeTimerExpiry s =
        .next { s with port := { s.port.store .stalled with condition := .closed, takeTimer := none } })
    ∧ (s.port.takeTimer = none → exec .takeTimerExpiry s = .refused (.cannotOccur .timerStopped))
    ∧ (∀ b : Byte, b.toNat < 0x41 → exec (.ignoredFlaggedByte b) s = .fault .illFormedOperand)

/-- R2, section 11.1: how a flagged byte reads, and that an ignored one does nothing in any state. -/
def Obligations.FlaggedByteReading : Prop :=
  ∀ b : Byte,
    (b.toNat ≤ 0x3F →
      commandOfCharacter true b = .takeStart (BitVec.ofNat 2 (b.toNat / 16)) (BitVec.ofNat 4 (b.toNat % 16)))
    ∧ (b.toNat = 0x40 → commandOfCharacter true b = .takeEnd)
    ∧ (0x41 ≤ b.toNat →
      commandOfCharacter true b = .ignoredFlaggedByte b ∧ ∀ s : State, exec (.ignoredFlaggedByte b) s = .next s)

/-! ### The decoder (chapter 2) -/

/-- R18: whatever entry stands at the head and whatever the decoder's state, the event of that entry answers a next state while
the decoder is not waiting; and no decoder event happens but the head entry's. -/
def Obligations.DecoderTakesExactlyTheHeadEntry : Prop :=
  (∀ (e : Entry) (s : State), Ready e s → ∃ t : State, exec (commandFor s.decoder e) s = .next t)
  ∧ (∀ (c : Instr) (s t : State),
      c ∈ [.takeStartEntry, .takeEndEntry, .cutEntry, .stalledEntry, .gapEntry, .plainDiscarded, .textByte, .strayCode,
        .controlCodeWithArguments, .argumentByte, .plane, .disc, .tab, .endline, .endpara, .join, .nojoin, .format, .leader,
        .load, .loadDataByte, .loadSumByte, .copy, .clear, .swap, .invalidBankOp, .status, .counts, .countsAndClear, .entry,
        .invalidQueryKind, .reset] →
      exec c s = .next t → ∃ e : Entry, Ready e s ∧ commandFor s.decoder e = c)

/-- R21: entries taken while no take is open. A TAKE_START, and a GAP that lost one, opens a take and TAKES is counted;
TAKE_END, CUT, STALLED, a PLAIN and any other GAP change nothing but the queue (R24). A PLAIN is discarded in SKIP too. The
first part is R18's take byte count: every PLAIN taken in any state but IDLE adds one to it, and no other entry's removal
changes the decoder. -/
def Obligations.EntriesTakenInIdleOrSkip : Prop :=
  (∀ (s : State) (e : Entry),
    (∀ b, e = .plain b → s.decoder.state ≠ .idle →
      (removed e s).decoder = { s.decoder with byteCount := min 65535 (s.decoder.byteCount + 1) })
    ∧ ((∀ b, e ≠ .plain b) ∨ s.decoder.state = .idle → (removed e s).decoder = s.decoder))
  ∧ ∀ (s : State) (b : Byte) (p : Priority) (n : Nat),
    (s.decoder.state = .idle →
      let opened (u : State) : State :=
        { u with
          decoder := { state := .text, plane := 0, priority := p, byteCount := 0 }
          reply :=
            { u.reply with
              counters := { u.reply.counters with takes := min 65535 (u.reply.counters.takes + 1) } } }
      (Ready (.takeStart p) s → Takes .takeStartEntry (.takeStart p) opened s)
      ∧ (Ready (.gap n (some (.takeStart p))) s → Takes .gapEntry (.gap n (some (.takeStart p))) opened s)
      ∧ (∀ boundary ∈ [none, some .takeEnd, some .cut], Ready (.gap n boundary) s →
        Takes .gapEntry (.gap n boundary) (fun u => u) s)
      ∧ (Ready .takeEnd s → Takes .takeEndEntry .takeEnd (fun u => u) s)
      ∧ (Ready .cut s → Takes .cutEntry .cut (fun u => u) s)
      ∧ (Ready .stalled s → Takes .stalledEntry .stalled (fun u => u) s)
      ∧ (Ready (.plain b) s → (removed (.plain b) s).decoder = s.decoder ∧ Takes .plainDiscarded (.plain b) (fun u => u) s))
    ∧ (s.decoder.state = .skip → Ready (.plain b) s →
        (removed (.plain b) s).decoder = { s.decoder with byteCount := min 65535 (s.decoder.byteCount + 1) }
        ∧ Takes .plainDiscarded (.plain b) (fun u => u) s)

/-- R22, R23, R152: a boundary taken while a take is open: what was in hand is cleared, the decoder enters IDLE, a CUT or a
STALLED raises its notice with the take byte count, and the shaper ends the line with kind TAKE under the closed take's
priority, with flag CUT for a CUT, a STALLED or a TAKE_START. A TAKE_START then opens its take. That a removal's OVERRUN report
stands before or after both notices of an entry that raises two, and never between them, is the model's choice (log 9). The first
part says the same of the operations that a GAP's lost boundary applies (R24). -/
def Obligations.BoundariesCloseAnOpenTake : Prop :=
  (∀ (u : State) (p : Priority) (notice : Option NoticeKind),
    let closed : State := { clearInHand u with decoder := { (clearInHand u).decoder with state := .idle } }
    let ends (cut : Bool) (v : State) : State := doJob ⟨u.decoder.priority, [], none, some ⟨.take, cut⟩, false⟩ v
    openTake p u =
        { u with
          decoder := { state := .text, plane := 0, priority := p, byteCount := 0 }
          reply :=
            { u.reply with
              counters := { u.reply.counters with takes := min 65535 (u.reply.counters.takes + 1) } } }
    ∧ (u.decoder.state = .idle → closingBoundary notice u = u ∧ openingBoundary p u = openTake p u)
    ∧ (u.decoder.state ≠ .idle →
      closingBoundary none u = ends false closed
      ∧ (∀ kind, closingBoundary (some kind) u = ends true (raise kind u.decoder.byteCount closed))
      ∧ openingBoundary p u = ends true (openTake p (raise .takeCut u.decoder.byteCount closed))))
  ∧ ∀ (s : State) (p : Priority), s.decoder.state ≠ .idle →
    (Ready .takeEnd s →
      Takes .takeEndEntry .takeEnd
        (fun u =>
          let v := clearInHand u
          doJob ⟨s.decoder.priority, [], none, some ⟨.take, false⟩, false⟩
            { v with decoder := { v.decoder with state := .idle } }) s)
    ∧ (Ready .cut s →
      Takes .cutEntry .cut
        (fun u =>
          let v := clearInHand u
          doJob ⟨s.decoder.priority, [], none, some ⟨.take, true⟩, false⟩
            (raise .takeCut s.decoder.byteCount { v with decoder := { v.decoder with state := .idle } })) s)
    ∧ (Ready .stalled s →
      Takes .stalledEntry .stalled
        (fun u =>
          let v := clearInHand u
          doJob ⟨s.decoder.priority, [], none, some ⟨.take, true⟩, false⟩
            (raise .takeStalled s.decoder.byteCount { v with decoder := { v.decoder with state := .idle } })) s)
    ∧ (Ready (.takeStart p) s →
      Takes .takeStartEntry (.takeStart p)
        (fun u =>
          doJob ⟨s.decoder.priority, [], none, some ⟨.take, true⟩, false⟩
            (openTake p
              (raise .takeCut s.decoder.byteCount
                { clearInHand u with decoder := { (clearInHand u).decoder with state := .idle } }))) s)

/-- R22, R78: what a boundary or a GAP clears. A partial control counts STRAY. An accepted load spoils the standby bank and
raises LOAD_ABORTED with the items written; a refused load raises LOAD_REFUSED with its kind and reason 2. -/
def Obligations.InHandIsCleared : Prop :=
  ∀ (s : State),
    (s.decoder.state = .text ∨ s.decoder.state = .skip → clearInHand s = s)
    ∧ (∀ code bytes, s.decoder.state = .args code bytes →
      clearInHand s =
        { s with
          reply :=
            { s.reply with
              counters := { s.reply.counters with stray := min 65535 (s.reply.counters.stray + 1) } } })
    ∧ (∀ ctx r, s.decoder.state = .load ctx ∨ s.decoder.state = .sum ctx → s.tables.record = some r →
      (r.accepted = true → s.tables.active = .a →
        clearInHand s =
          raise .loadAborted r.written
            { s with tables := { s.tables with record := none, bankB := { s.tables.bankB with valid := false } } })
      ∧ (r.accepted = true → s.tables.active = .b →
        clearInHand s =
          raise .loadAborted r.written
            { s with tables := { s.tables with record := none, bankA := { s.tables.bankA with valid := false } } })
      ∧ (r.accepted = false →
        clearInHand s =
          raise .loadRefused (r.kind.number * 256 + 2) { s with tables := { s.tables with record := none } }))

/-- R24: a GAP acts on the loss by the decoder's state, and then applies its boundary as if that entry had been taken. That a
removal's OVERRUN report stands before or after both notices of a GAP that raises two, and never between them, is the model's
choice (log 9). -/
def Obligations.GapActsByState : Prop :=
  ∀ (s : State) (n : Nat) (boundary : Option Boundary), Ready (.gap n boundary) s →
    Takes .gapEntry (.gap n boundary)
      (fun u =>
        let flagged (v : State) : State :=
          { v with
            shaper :=
              { v.shaper with
                line := { v.shaper.line with flags := { v.shaper.line.flags with gap := true } } } }
        let acted : State :=
          match u.decoder.state with
          | .idle => u
          | .skip => u
          | .text => flagged u
          | .args _ _ =>
            flagged { clearInHand u with decoder := { (clearInHand u).decoder with state := .text } }
          | .load _ => flagged { clearInHand u with decoder := { (clearInHand u).decoder with state := .skip } }
          | .sum _ => flagged { clearInHand u with decoder := { (clearInHand u).decoder with state := .skip } }
        match boundary with
        | none => acted
        | some .takeEnd => closingBoundary none acted
        | some .cut => closingBoundary (some .takeCut) acted
        | some (.takeStart p) => openingBoundary p acted) s

/-- R25, R26: a text byte is looked up at plane × 224 + (byte − 0x20) of the active code map. A usable glyph of class M makes a
mark and of any other class a letter; SPACE makes a space; anything else counts UNMAPPED, flags the line, and hands on the
header's substitute, if it names one, as a letter. That the line is flagged before the letter is handed on, so that a line which
the letter's arrival ends takes the flag, is the model's choice (log 23). What these readings are in the stored bytes is R60, R68
and R188. -/
def Obligations.TextByteHandsOnItsItem : Prop :=
  (∀ (b : Bank) (i g : Nat),
    (∀ hi lo, b.item .codeMap i = [hi, lo] →
      codeItemAt b i =
        (if hi.toNat / 64 = 1 then .glyph ((hi.toNat * 256 + lo.toNat) % 1024)
          else if hi.toNat / 64 = 2 then .space else .none))
    ∧ (∀ b0 b1 b2 b3 others, b.item .glyphs g = b0 :: b1 :: b2 :: b3 :: others →
      (usable b g = true ↔ 1 ≤ g ∧ g ≤ 1023 ∧ 128 ≤ b0.toNat)
      ∧ classOf b g =
          (match b3.toNat / 32 with | 0 => .l | 1 => .r | 2 => .n | 3 => .s | 5 => .m | _ => .w))
    ∧ (∀ k1 k0 s1 s0 g1 g0 e1 e0, b.item .header 0 = [k1, k0, s1, s0, g1, g0, e1, e0] →
      let named (n : Nat) : Option Nat := if usable b n = true then some n else none
      headerGlyph b .carrier = named (k1.toNat * 256 + k0.toNat)
      ∧ headerGlyph b .substitute = named (s1.toNat * 256 + s0.toNat)
      ∧ headerGlyph b .breakGlyph = named (g1.toNat * 256 + g0.toNat)
      ∧ headerGlyph b .extension = named (e1.toNat * 256 + e0.toNat)))
  ∧ ∀ (s : State) (c : Byte), Ready (.plain c) s → s.decoder.state = .text → 0x20 ≤ c.toNat →
    Takes .textByte (.plain c)
      (fun u =>
        let unmapped : State :=
          { u with
            shaper :=
              { u.shaper with line := { u.shaper.line with flags := { u.shaper.line.flags with unmapped := true } } }
            reply :=
              { u.reply with
                counters := { u.reply.counters with unmapped := min 65535 (u.reply.counters.unmapped + 1) } } }
        let dropOrReplace : State :=
          match headerGlyph u.tables.activeBank .substitute with
          | some g => handArrival (.letter g) unmapped
          | none => unmapped
        match codeItemAt u.tables.activeBank (u.decoder.plane.toNat * 224 + (c.toNat - 0x20)) with
        | .space => handArrival .space u
        | .none => dropOrReplace
        | .glyph g =>
          if usable u.tables.activeBank g = true then
            if classOf u.tables.activeBank g = .m then handMark g u else handArrival (.letter g) u
          else dropOrReplace) s

/-- R27, R28: stray codes, codes with arguments, their argument bytes, and PLANE. -/
def Obligations.ControlCodesAndPlane : Prop :=
  ∀ (s : State) (b : Byte), Ready (.plain b) s →
    (s.decoder.state = .text → b.toNat = 0 ∨ (0x0E ≤ b.toNat ∧ b.toNat ≤ 0x1F) →
      Takes .strayCode (.plain b)
        (fun u =>
          { u with
            reply :=
              { u.reply with
                counters := { u.reply.counters with stray := min 65535 (u.reply.counters.stray + 1) } } }) s)
    ∧ (∀ code, s.decoder.state = .text →
      (b.toNat, code) ∈ [(0x01, ControlCode.plane), (0x08, .format), (0x09, .leader), (0x0A, .load), (0x0B, .bank),
        (0x0C, .query)] →
      Takes .controlCodeWithArguments (.plain b)
        (fun u => { u with decoder := { u.decoder with state := .args code [] } }) s)
    ∧ (∀ code bytes, s.decoder.state = .args code bytes →
      bytes.length + 1 <
        (match code with
          | .plane => 1
          | .format => 3
          | .leader => (match bytes with | [] => 1 + 2 * b.toNat | n :: _ => 1 + 2 * n.toNat)
          | .load => 5
          | .bank => 1
          | .query => 4) →
      Takes .argumentByte (.plain b)
        (fun u => { u with decoder := { u.decoder with state := .args code (bytes ++ [b]) } }) s)
    ∧ (s.decoder.state = .args .plane [] → b.toNat ≤ 3 →
      Takes .plane (.plain b)
        (fun u => { u with decoder := { u.decoder with state := .text, plane := BitVec.ofNat 2 b.toNat } }) s)
    ∧ (s.decoder.state = .args .plane [] → 3 < b.toNat →
      Takes .plane (.plain b)
        (fun u =>
          { u with
            decoder := { u.decoder with state := .text }
            reply :=
              { u.reply with
                counters := { u.reply.counters with stray := min 65535 (u.reply.counters.stray + 1) } } }) s)

/-- R29 to R32: the copy controls hand the shaper their arrival, or a line end of their kind, under the take's priority. -/
def Obligations.CopyControlsHandOn : Prop :=
  ∀ (s : State) (b : Byte), Ready (.plain b) s → s.decoder.state = .text →
    (b = 0x02 → Takes .disc (.plain b) (doJob ⟨s.decoder.priority, [], some .disc, none, false⟩) s)
    ∧ (b = 0x03 → Takes .tab (.plain b) (doJob ⟨s.decoder.priority, [], some .tab, none, false⟩) s)
    ∧ (b = 0x04 → Takes .endline (.plain b) (doJob ⟨s.decoder.priority, [], none, some ⟨.endline, false⟩, false⟩) s)
    ∧ (b = 0x05 → Takes .endpara (.plain b) (doJob ⟨s.decoder.priority, [], none, some ⟨.endpara, false⟩, false⟩) s)
    ∧ (b = 0x06 → Takes .join (.plain b) (doJob ⟨s.decoder.priority, [], some (.link .join), none, false⟩) s)
    ∧ (b = 0x07 → Takes .nojoin (.plain b) (doJob ⟨s.decoder.priority, [], some (.link .nojoin), none, false⟩) s)

/-! ### The line store (chapter 6) -/

/-- R19, R82, R83, R106, R107, R121 to R123, R136, R152: line ends by control. On an empty line store ENDLINE makes an empty
packet with the line's flags and leading, ENDPARA and TAKE make no packet and clear the flags, and SWAP exchanges the banks and
keeps the flags (R82). On one with cells every kind ends the line with all of them, SWAP with the exchange to follow. A
provisional letter settles first; an overflow it makes is resolved first, and the control's line end waits behind it. The last
two clauses say what a line end is: the packet's header, the flags given and counted, the paragraph space due after it, the
empty line store; and that the exchange is made when nothing else is left to do. The overflow that comes first may carry
nothing, and the control's line end is then made on an empty line: that is the model's reading (log 14). What the record of a
waiting line end keeps, with the line store reading empty, is the model's choice (log 15). -/
def Obligations.LineEndsByControl : Prop :=
  (∀ (s : State) (priority : Priority) (cut : Bool),
    s.shaper.line.cells = [] → s.shaper.waiting = none →
    let packet : PacketBody :=
      { priority := priority, unit := s.port.unitNumber, galley := s.format.line.galley, size := s.format.line.size
        leading := s.format.line.leading + (if s.shaper.paraDue then s.format.line.paraSpace else 0)
        flags := { s.shaper.line.flags with cut := s.shaper.line.flags.cut || cut }, items := [] }
    let after : Shaper := { line := Line.empty, paraDue := false, waiting := none }
    (s.bus.queue.length < 8 →
      doJob ⟨priority, [], none, some ⟨.endline, cut⟩, false⟩ s = joinPacket packet { s with shaper := after })
    ∧ (8 ≤ s.bus.queue.length →
      doJob ⟨priority, [], none, some ⟨.endline, cut⟩, false⟩ s =
        { s with shaper := { after with waiting := some ⟨packet, [], ⟨priority, [], none, none, false⟩⟩ } })
    ∧ doJob ⟨priority, [], none, some ⟨.endpara, cut⟩, false⟩ s =
        { s with
          shaper := { s.shaper with line := { s.shaper.line with flags := LineFlags.none }, paraDue := true } }
    ∧ doJob ⟨priority, [], none, some ⟨.take, cut⟩, false⟩ s =
        { s with shaper := { s.shaper with line := { s.shaper.line with flags := LineFlags.none } } }
    ∧ doJob ⟨priority, [], none, some ⟨.swap, cut⟩, false⟩ s =
        { s with tables := { s.tables with active := if s.tables.active = .a then .b else .a } })
  ∧ (∀ (s : State) (priority : Priority) (kind : EndKind) (cut : Bool),
    let whole (u : State) : EndPlan :=
      { kind := kind, ending := u.shaper.line.cells, carried := [], forced := false, overset := false, cut := cut }
    let room := 8 - s.bus.queue.length
    (s.shaper.line.cells ≠ [] → allSettled s.shaper.line.cells = true →
      doJob ⟨priority, [], none, some ⟨kind, cut⟩, false⟩ s =
        lineEnds room priority (whole s) ⟨priority, [], none, none, decide (kind = .swap)⟩ s)
    ∧ (∀ t offending, settleProvisional false s = some (t, offending) → t.shaper.line.cells ≠ [] →
      doJob ⟨priority, [], none, some ⟨kind, cut⟩, false⟩ s =
        if t.shaper.line.acc ≤ s.format.line.measure * 96 then
          lineEnds room priority (whole t) ⟨priority, [], none, none, decide (kind = .swap)⟩ t
        else
          let plan := planOverflow s.tables.activeBank t.shaper.line offending
          lineEnds room priority plan ⟨priority, plan.carried, none, some ⟨kind, cut⟩, false⟩ t))
  ∧ (∀ (s : State) (priority : Priority) (plan : EndPlan),
    let flags := s.shaper.line.flags
    let justified := justify s.tables.activeBank s.format.line plan.kind (flags.overset || plan.overset) plan.ending
    let counted (given : Bool) (n : Nat) : Nat := if given = true then min 65535 (n + 1) else n
    linePacket priority plan s =
      { priority := priority, unit := s.port.unitNumber, galley := s.format.line.galley, size := s.format.line.size
        leading := s.format.line.leading + (if s.shaper.paraDue then s.format.line.paraSpace else 0)
        flags :=
          { forced := flags.forced || plan.forced, overset := flags.overset || plan.overset
            loose := flags.loose || justified.loose, unmapped := flags.unmapped, markOverflow := flags.markOverflow
            gap := flags.gap, cut := flags.cut || plan.cut }
        items := lineItems s.tables.activeBank s.format.line justified }
    ∧ makeLineEnd plan s =
      { s with
        shaper :=
          { s.shaper with line := ⟨[], 0, 0, none, LineFlags.none⟩, paraDue := decide (plan.kind = .endpara) }
        reply :=
          { s.reply with
            counters :=
              { s.reply.counters with
                forced := counted plan.forced s.reply.counters.forced
                overset := counted plan.overset s.reply.counters.overset
                loose := counted justified.loose s.reply.counters.loose } } })
  ∧ (∀ (room : Nat) (priority : Priority) (exchange : Bool) (s : State),
    runJob room ⟨priority, [], none, none, exchange⟩ s =
      if exchange = true then
        { s with tables := { s.tables with active := if s.tables.active = .a then .b else .a } }
      else s)
  ∧ Line.empty = ⟨[], 0, 0, none, LineFlags.none⟩
  ∧ LineFlags.none = ⟨false, false, false, false, false, false, false⟩

/-- R88, R90 to R95, R98, R103, R112 to R115, R119, R125: what each arrival appends to a line without a provisional letter, the
fit test after it, the provisional letter that settles before it, and the line ends that hold it. The first part says what
appending a SPACE, a TAB and a BREAK does to a line, with the broken width and the last eligible break. The form, set glyph and
width of a letter that has not settled are the model's choice (log 22). -/
def Obligations.ArrivalsAppend : Prop :=
  (∀ (x : Cell),
    x.isSpace = (match x with | .space _ => true | _ => false)
    ∧ x.allowsBreak = (match x with | .letter _ => true | .carrier _ => true | .tab _ _ _ => true | _ => false))
  ∧ (∀ (b : Bank) (c : LineCopy) (ln : Line),
    let w := if c.mode = .justify then c.spaceMin else max c.spaceOpt c.spaceMin
    let eligible (width : Nat) : Prop := ln.cells.any Cell.allowsBreak = true ∧ width ≤ c.measure * 96
    let named : Option Nat := headerGlyph b .breakGlyph
    let breakWidth : Nat := (match named with | some g => advanceOf b g | none => 0) * (5 * c.size)
    let broken := brokenWidthAfter b c ln.cells
    ln.appendSpace b c =
        { ln with
          cells := ln.cells ++ [.space w], acc := ln.acc + w * (5 * c.size)
          lastBreak :=
            if ln.cells.getLast?.any Cell.isSpace = false ∧ eligible ln.acc then some (ln.cells.length, ln.acc)
            else ln.lastBreak }
    ∧ ln.appendTab b c =
        { ln with
          cells := ln.cells ++ [.tab (tabGap c ln.acc) [] 0], acc := ln.acc + tabGap c ln.acc, lastBreak := none }
    ∧ ln.appendBreak b c =
        { ln with
          cells := ln.cells ++ [.brk broken false 0], items := ln.items + (if named.isSome then 1 else 0)
          lastBreak := if eligible broken then some (ln.cells.length, broken) else ln.lastBreak }
    ∧ (∀ before l after, ln.cells = before ++ .letter l :: after → after.all (fun x => x.transparent b) = true →
        l.transparent b = false → l.second = none →
        broken =
          sumFine c before + sumFine c after + (settledLetter b before l false).width * (5 * c.size) + breakWidth)
    ∧ (∀ before x after, ln.cells = before ++ x :: after → after.all (fun x => x.transparent b) = true →
        x.transparent b = false → (∀ l, x = .letter l → l.second ≠ none) → broken = sumFine c ln.cells + breakWidth)
    ∧ (ln.cells.all (fun x => x.transparent b) = true → broken = sumFine c ln.cells + breakWidth))
  ∧ (∀ (s : State),
    let bank := s.tables.activeBank
    let copy := s.format.line
    let line := s.shaper.line
    let room := 8 - s.bus.queue.length
    let breakItems := if (headerGlyph bank .breakGlyph).isSome then 1 else 0
    let set (ln : Line) : State := { s with shaper := { s.shaper with line := ln } }
    let fits (offending : Nat) (t : State) : State :=
      if t.shaper.line.acc ≤ copy.measure * 96 then t
      else
        let plan := planOverflow bank t.shaper.line offending
        lineEnds room s.decoder.priority plan ⟨s.decoder.priority, plan.carried, none, none, false⟩ t
    let unsettled (g : Nat) : Letter :=
      { glyph := g, second := none, setGlyph := g, form := .isolated, settled := false, above := [], below := []
        width := 0, strokes := 0 }
    (line.cells = [] → handArrival .space s = s)
    ∧ (line.cells.length < 192 → line.items + breakItems ≤ 255 →
        handArrival .disc s = set (line.appendBreak bank copy))
    ∧ (∀ g, glyphTransparent bank g = true → line.cells.length < 192 → line.items < 255 →
        let letter : Letter := { unsettled g with settled := true, width := advanceOf bank g }
        let looked :=
          ligateAt line.cells.length
            (set
              { line with
                cells := line.cells ++ [.letter letter], acc := line.acc + advanceOf bank g * (5 * copy.size)
                items := line.items + 1 })
        handArrival (.letter g) s = fits looked.2 looked.1)
    ∧ (allSettled line.cells = true → line.cells.length < 192 →
        (∀ g, glyphTransparent bank g = false → line.items < 255 →
          handArrival (.letter g) s =
            set { line with cells := line.cells ++ [.letter (unsettled g)], items := line.items + 1 })
        ∧ (line.cells ≠ [] → line.items ≤ 255 →
          handArrival .space s = fits line.cells.length (set (line.appendSpace bank copy)))
        ∧ (line.items ≤ 255 → handArrival .tab s = fits line.cells.length (set (line.appendTab bank copy)))
        ∧ (∀ k, line.items ≤ 255 →
          handArrival (.link k) s = set { line with cells := line.cells ++ [.link k] })
        ∧ (∀ g mark, line.items < 254 →
          handArrival (.carrier g mark) s =
            fits line.cells.length
              (set
                { line with
                  cells :=
                    line.cells
                      ++ [.carrier
                        { glyph := g, above := if sideOf bank mark = .above then [mark] else []
                          below := if sideOf bank mark = .below then [mark] else [], width := advanceOf bank g }]
                  acc := line.acc + advanceOf bank g * (5 * copy.size), items := line.items + 2 })))
    ∧ (∀ a, a.transparent bank = false →
        let offers : Bool :=
          match a with
          | .letter g => glyphOffersBack bank g
          | .link k => decide (k = .join)
          | _ => false
        ∀ t offending, settleProvisional offers s = some (t, offending) →
          (t.shaper.line.acc ≤ copy.measure * 96 → allSettled t.shaper.line.cells = true → t.shaper.line.cells ≠ [] →
            handArrival a s = handArrival a t)
          ∧ (copy.measure * 96 < t.shaper.line.acc →
            let plan := planOverflow bank t.shaper.line offending
            handArrival a s =
              lineEnds room s.decoder.priority plan ⟨s.decoder.priority, plan.carried, some a, none, false⟩ t))
    ∧ (∀ a, a.transparent bank = true ∨ allSettled line.cells = true → a ≠ .space ∨ line.cells ≠ [] →
        let items : Nat :=
          match a with
          | .letter _ => 1
          | .carrier _ _ => 2
          | .disc => breakItems
          | _ => 0
        192 ≤ line.cells.length ∨ 255 < line.items + items →
        let plan := planCapacity bank copy line
        handArrival a s =
          lineEnds room s.decoder.priority plan ⟨s.decoder.priority, plan.carried, some a, none, false⟩ s))

/-- R102 to R104: a mark joins the list its side names on a last LETTER or CARRIER, unless it would be the fourth there or the
256th item: then it is dropped, counted and flagged. With nothing to attach to it is handed on inside a CARRIER, if the header
names one, and otherwise counts ORPHANS. -/
def Obligations.MarksAttachOrDrop : Prop :=
  ∀ (s : State) (mark : Nat),
    let bank := s.tables.activeBank
    let line := s.shaper.line
    let set (ln : Line) : State := { s with shaper := { s.shaper with line := ln } }
    (∀ (before : List Cell) (above below : List Nat) (cell : List Nat → List Nat → Cell),
      (∃ l : Letter, cell = fun a b => .letter { l with above := a, below := b })
        ∨ (∃ k : Carrier, cell = fun a b => .carrier { k with above := a, below := b }) →
      line.cells = before ++ [cell above below] →
      (sideOf bank mark = .above → above.length < 3 → line.items < 255 →
        handMark mark s = set { line with cells := before ++ [cell (above ++ [mark]) below], items := line.items + 1 })
      ∧ (sideOf bank mark = .below → below.length < 3 → line.items < 255 →
        handMark mark s = set { line with cells := before ++ [cell above (below ++ [mark])], items := line.items + 1 })
      ∧ ((sideOf bank mark = .above ∧ 3 ≤ above.length) ∨ (sideOf bank mark = .below ∧ 3 ≤ below.length)
          ∨ 255 ≤ line.items →
        handMark mark s =
          { set { line with flags := { line.flags with markOverflow := true } } with
            reply :=
              { s.reply with
                counters :=
                  { s.reply.counters with markOverflow := min 65535 (s.reply.counters.markOverflow + 1) } } }))
    ∧ (line.cells.getLast?.any (fun x => !x.isSpace && !x.isTab && x.isContent) = false →
      (headerGlyph bank .carrier = none →
        handMark mark s =
          { s with
            reply :=
              { s.reply with
                counters := { s.reply.counters with orphans := min 65535 (s.reply.counters.orphans + 1) } } })
      ∧ (∀ g, headerGlyph bank .carrier = some g → handMark mark s = handArrival (.carrier g mark) s))

/-- R63, R64, R96 to R98: a settled letter has the form its two joins give, the glyph the entry names for that form if it is
usable and its own glyph otherwise, and that glyph's advance; the accumulator grows by it. The provisional letter settles so and
is then looked up. The transparent cells and arrivals (R90, R96) are letters whose glyphs are so and unbroken BREAKs. What a
glyph entry's bytes say of face, char, side, advance, extents, extendable, joining and forms is R61, R63, R65, R66 and R188. -/
def Obligations.SettlementChoosesForm : Prop :=
  (∀ (b : Bank) (g : Nat),
    (∀ b0 b1 b2 b3 b4 b5 b6 b7 b8 b9, b.item .glyphs g = [b0, b1, b2, b3, b4, b5, b6, b7, b8, b9] →
      joiningOf b g =
          (if classOf b g = .m then .transparent
            else match b3.toNat / 4 % 8 with | 1 => .dual | 2 => .right | 3 => .cause | 4 => .transparent | _ => .none)
      ∧ faceOf b g = BitVec.ofNat 6 (b0.toNat % 64)
      ∧ sideOf b g = (if b0.toNat / 64 % 2 = 1 then .below else .above)
      ∧ charOf b g = b1
      ∧ advanceOf b g = b2.toNat
      ∧ extendableOf b g = decide (b3.toNat / 2 % 2 = 1)
      ∧ aboveExtentOf b g = b4.toNat
      ∧ belowExtentOf b g = b5.toNat
      ∧ formsOf b g = b6.toNat * 2 ^ 24 + b7.toNat * 2 ^ 16 + b8.toNat * 2 ^ 8 + b9.toNat)
    ∧ glyphTransparent b g = decide (joiningOf b g = .transparent)
    ∧ (∀ x : Cell,
      x.transparent b =
        (match x with
          | .letter l =>
            glyphTransparent b l.glyph && (match l.second with | some second => glyphTransparent b second | none => true)
          | .brk _ broken _ => !broken
          | _ => false))
    ∧ (∀ a : Arrival,
      a.transparent b = (match a with | .letter n => glyphTransparent b n | .disc => true | _ => false))
    ∧ glyphOffersBack b g = decide (joiningOf b g = .dual ∨ joiningOf b g = .right ∨ joiningOf b g = .cause)
    ∧ glyphOffersForward b g = decide (joiningOf b g = .dual ∨ joiningOf b g = .cause)
    ∧ (∀ l : Letter, (Cell.letter l).offersForward b = glyphOffersForward b (l.second.getD l.glyph))
    ∧ (∀ k, (Cell.link k).offersForward b = decide (k = .join))
    ∧ (∀ w, (Cell.space w).offersForward b = false)
    ∧ (∀ gap leaders left, (Cell.tab gap leaders left).offersForward b = false)
    ∧ (∀ k, (Cell.carrier k).offersForward b = false))
  ∧ (∀ (offers : Bool) (s : State) (before after : List Cell) (l : Letter),
    (allSettled s.shaper.line.cells = true → settleProvisional offers s = none)
    ∧ (s.shaper.line.cells = before ++ .letter l :: after → allSettled before = true → l.settled = false →
      settleProvisional offers s =
        some
          (ligateAt before.length
            { s with
              shaper :=
                { s.shaper with
                  line := s.shaper.line.settleAt s.tables.activeBank s.format.line offers before.length } })))
  ∧ ∀ (b : Bank) (c : LineCopy) (ln : Line) (before after : List Cell) (l : Letter) (nextOffers : Bool),
    ln.cells = before ++ .letter l :: after →
    let joinsPrevious : Bool :=
      glyphOffersBack b l.glyph
        && ((before.filter (fun x => !x.transparent b)).getLast?.any (fun x => x.offersForward b))
    let joinsNext : Bool := glyphOffersForward b l.glyph && nextOffers
    let form : Form :=
      if joinsPrevious then (if joinsNext then .medial else .final) else (if joinsNext then .initial else .isolated)
    let named : Nat :=
      match form with
      | .isolated => l.glyph
      | .initial => formsOf b l.glyph / 2 ^ 20 % 2 ^ 10
      | .medial => formsOf b l.glyph / 2 ^ 10 % 2 ^ 10
      | .final => formsOf b l.glyph % 2 ^ 10
    let set : Nat := if usable b named = true then named else l.glyph
    ln.settleAt b c nextOffers before.length =
      { ln with
        cells :=
          before ++ .letter { l with form := form, setGlyph := set, width := advanceOf b set, settled := true } :: after
        acc := ln.acc + advanceOf b set * (5 * c.size) }

/-- R67, R100, R101: a letter looked up with the cell just before it merges into it when that cell is a settled LETTER and no
ligature, no unbroken BREAK stands after the letter before its next neighbour, and the lowest-index entry that is not empty and
names the pair has a usable result; a later entry is never consulted. The merged cell has the result as its set glyph, the marks
of both up to three a side, and the joins of both; the line loses both widths and gains the result's. That joins previous is
read from the form the earlier letter has at the merge is the model's reading (log 20). -/
def Obligations.LigatureLookupAndMerge : Prop :=
  (∀ (b : Bank) (first second : Nat),
    let isMatch (i : Nat) : Prop := ligatureField b i 0 ≠ 0 ∧ ligatureField b i 0 = first ∧ ligatureField b i 2 = second
    (∀ g, ligatureOf b first second = some g ↔
      ∃ i, i < 256 ∧ isMatch i ∧ (∀ j, j < i → ¬ isMatch j) ∧ ligatureField b i 4 = g ∧ usable b g = true)
    ∧ (∀ i f1 f0 s1 s0 r1 r0, b.item .ligatures i = [f1, f0, s1, s0, r1, r0] →
      ligatureField b i 0 = f1.toNat * 256 + f0.toNat ∧ ligatureField b i 2 = s1.toNat * 256 + s0.toNat
      ∧ ligatureField b i 4 = r1.toNat * 256 + r0.toNat))
  ∧ (∀ (b : Bank) (c : LineCopy) (ln : Line) (before after : List Cell) (e l : Letter),
    ln.cells = before ++ .letter e :: .letter l :: after →
    let looksUp : Prop :=
      e.settled = true ∧ e.second = none
      ∧ (after.takeWhile (fun x => x.transparent b)).any Cell.isUnbrokenBreak = false
    let above := e.above ++ l.above
    let below := e.below ++ l.below
    let dropped := (above.length - 3) + (below.length - 3)
    let joinsPrevious : Bool := decide (e.form = .medial ∨ e.form = .final)
    let joinsNext : Bool := decide (l.form = .medial ∨ l.form = .initial)
    (¬ looksUp ∨ ligatureOf b e.setGlyph l.setGlyph = none → ln.ligate b c (before.length + 1) = (ln, before.length + 1, 0))
    ∧ (∀ g, looksUp → ligatureOf b e.setGlyph l.setGlyph = some g →
      ln.ligate b c (before.length + 1) =
        ({ ln with
            cells :=
              before
                ++ .letter
                    { e with
                      setGlyph := g, second := some l.glyph, above := above.take 3, below := below.take 3
                      width := advanceOf b g
                      form :=
                        if joinsPrevious then (if joinsNext then .medial else .final)
                        else (if joinsNext then .initial else .isolated) }
                  :: after
            acc := ln.acc - e.width * (5 * c.size) - l.width * (5 * c.size) + advanceOf b g * (5 * c.size)
            items := ln.items - 1 - dropped
            flags := { ln.flags with markOverflow := ln.flags.markOverflow || decide (dropped ≠ 0) } },
          before.length, dropped)))
  ∧ (∀ (b : Bank) (c : LineCopy) (ln : Line) (before after : List Cell) (l : Letter),
    ln.cells = before ++ .letter l :: after → (∀ e, before.getLast? ≠ some (.letter e)) →
    ln.ligate b c before.length = (ln, before.length, 0))
  ∧ (∀ (i : Nat) (s : State),
    let r := s.shaper.line.ligate s.tables.activeBank s.format.line i
    ligateAt i s =
      ({ s with
          shaper := { s.shaper with line := r.1 }
          reply :=
            { s.reply with
              counters :=
                { s.reply.counters with
                  markOverflow :=
                    if r.2.2 = 0 then s.reply.counters.markOverflow
                    else min 65535 (s.reply.counters.markOverflow + r.2.2) } } },
        r.2.1))
  ∧ (∀ x : Cell, x.isUnbrokenBreak = (match x with | .brk _ broken _ => !broken | _ => false))

/-- R48, R125: a TAB's gap runs to the smallest set stop beyond the accumulator, each stop beyond MEASURE taken as MEASURE; with
none it is 0. -/
def Obligations.TabGoesToTheNextStop : Prop :=
  ∀ (c : LineCopy) (acc : Nat),
    let isStop (position : Nat) : Prop := ∃ t ∈ c.tabs, t ≠ 0 ∧ position = min t c.measure * 96
    ((∀ position, isStop position → position ≤ acc) → tabGap c acc = 0)
    ∧ ((∃ position, isStop position ∧ acc < position) →
        isStop (acc + tabGap c acc) ∧ 0 < tabGap c acc
        ∧ ∀ position, isStop position → acc < position → acc + tabGap c acc ≤ position)

/-! ### Breaking and justifying (chapter 7) -/

/-- R106, R108, R109, R116 to R120: where an overflow or a capacity failure ends the line, how the break letter and a provisional
letter of the ending line are set, how carried cells are re-formed and re-measured, and the series of line ends that follows when
they overflow the new line in turn. A line ended at a BREAK is as wide as the broken width that ArrivalsAppend spells out (R116).
The last two clauses say that an arrival's work is a job, held arrivals among them (R90), and with which room a job starts. -/
def Obligations.OverflowEndsAndCarriesOver : Prop :=
  (∀ (b : Bank) (c : LineCopy) (x : Cell) (before : List Cell),
    x.isContent =
        (match x with | .letter _ => true | .carrier _ => true | .space _ => true | .tab _ _ _ => true | _ => false)
    ∧ breakAdvance b = (match headerGlyph b .breakGlyph with | some g => advanceOf b g | none => 0)
    ∧ (∀ width, sumFine c (reformBreakLetter b before ++ [.brk width true (breakAdvance b)]) = brokenWidthAfter b c before))
  ∧ (∀ (b : Bank) (ln : Line) (offending : Nat),
    (∀ i w, ln.lastBreak = some (i, w) → (∃ width, ln.cells[i]? = some (.space width)) →
      planOverflow b ln offending =
        { kind := .overflow, ending := ln.cells.take i, carried := (ln.cells.drop i).dropWhile Cell.isSpace
          forced := false, overset := false, cut := false })
    ∧ (∀ i w broken width old, ln.lastBreak = some (i, w) → ln.cells[i]? = some (.brk broken width old) →
      planOverflow b ln offending =
        { kind := .overflow
          ending := reformBreakLetter b (ln.cells.take i) ++ [.brk broken true (breakAdvance b)]
          carried := ln.cells.drop (i + 1), forced := false, overset := false, cut := false })
    ∧ (ln.lastBreak = none →
      let endAt : Nat :=
        match provisionalIndex ln.cells with
        | some p => if p < offending then p else offending
        | none => offending
      ((ln.cells.take endAt).any Cell.isContent = true →
        planOverflow b ln offending =
          { kind := .overflow, ending := ln.cells.take endAt, carried := ln.cells.drop endAt, forced := true
            overset := false, cut := false })
      ∧ ((ln.cells.take endAt).any Cell.isContent = false →
        planOverflow b ln offending =
          { kind := .overflow, ending := settleInEnding b (ln.cells.take (offending + 1))
            carried := ln.cells.drop (offending + 1), forced := true, overset := true, cut := false })))
  ∧ (∀ (b : Bank) (c : LineCopy) (ln : Line) (offending : Nat),
    let whole := settleInEnding b ln.cells
    (∀ place, ln.lastBreak = some place → planCapacity b c ln = planOverflow b ln offending)
    ∧ (ln.lastBreak = none →
      (∀ p, provisionalIndex ln.cells = some p → (ln.cells.take p).any Cell.isContent = true →
        planCapacity b c ln =
          { kind := .overflow, ending := ln.cells.take p, carried := ln.cells.drop p, forced := true, overset := false
            cut := false })
      ∧ ((∀ p, provisionalIndex ln.cells = some p → (ln.cells.take p).any Cell.isContent = false) →
        planCapacity b c ln =
          { kind := .overflow, ending := whole, carried := [], forced := true
            overset := decide (c.measure * 96 < sumFine c whole), cut := false })))
  ∧ (∀ (b : Bank) (before after cells : List Cell) (l : Letter) (x : Cell),
    (allSettled cells = true → provisionalIndex cells = none ∧ settleInEnding b cells = cells)
    ∧ (allSettled before = true → l.settled = false →
      provisionalIndex (before ++ .letter l :: after) = some before.length
      ∧ settleInEnding b (before ++ .letter l :: after) = before ++ .letter (settledLetter b before l false) :: after)
    ∧ (after.all (fun y => y.transparent b) = true → l.transparent b = false → l.second = none →
      reformBreakLetter b (before ++ .letter l :: after) = before ++ .letter (settledLetter b before l false) :: after)
    ∧ (after.all (fun y => y.transparent b) = true → x.transparent b = false → (∀ l, x = .letter l → l.second ≠ none) →
      reformBreakLetter b (before ++ x :: after) = before ++ x :: after)
    ∧ (before.all (fun y => y.transparent b) = true →
      reformBreakLetter b before = before ∧ reformFirst b before = before
      ∧ (l.transparent b = false →
        reformFirst b (before ++ .letter l :: after) =
          before
            ++ .letter
                (if l.settled = true ∧ l.second = none then
                  inForm b l (if l.form = .initial ∨ l.form = .medial then .initial else .isolated)
                else l)
              :: after)
      ∧ (x.transparent b = false → (∀ l, x ≠ .letter l) →
        reformFirst b (before ++ x :: after) = before ++ x :: after)))
  ∧ (∀ (b : Bank) (c : LineCopy) (ln : Line),
    (∀ l, ln.remeasureCell b c (.letter l) =
      { ln with
        cells := ln.cells ++ [.letter (if l.settled = true then { l with width := advanceOf b l.setGlyph } else l)]
        acc := ln.acc + (if l.settled = true then advanceOf b l.setGlyph * (5 * c.size) else 0)
        items := ln.items + (1 + l.above.length + l.below.length) })
    ∧ (∀ k, ln.remeasureCell b c (.carrier k) =
      { ln with
        cells := ln.cells ++ [.carrier { k with width := advanceOf b k.glyph }]
        acc := ln.acc + advanceOf b k.glyph * (5 * c.size)
        items := ln.items + (1 + k.above.length + k.below.length) })
    ∧ (∀ w, ln.remeasureCell b c (.space w) = if ln.cells = [] then ln else ln.appendSpace b c)
    ∧ (∀ gap leaders left, ln.remeasureCell b c (.tab gap leaders left) = ln.appendTab b c)
    ∧ (∀ w broken d, ln.remeasureCell b c (.brk w broken d) = ln.appendBreak b c)
    ∧ (∀ k, ln.remeasureCell b c (.link k) = { ln with cells := ln.cells ++ [.link k] })
    ∧ remeasure b c [] ln = (ln, none)
    ∧ (∀ x rest,
      remeasure b c (x :: rest) ln =
        if (ln.remeasureCell b c x).acc ≤ c.measure * 96 then remeasure b c rest (ln.remeasureCell b c x)
        else (ln.remeasureCell b c x, some rest)))
  ∧ (∀ (room : Nat) (j : Job) (s : State),
    let bank := s.tables.activeBank
    let measured := remeasure bank s.format.line (reformFirst bank j.carried) s.shaper.line
    let t : State := { s with shaper := { s.shaper with line := measured.1 } }
    (measured.2 = none → runJob room j s = runJob room { j with carried := [] } t)
    ∧ (∀ rest, measured.2 = some rest →
      let plan := planOverflow bank measured.1 (measured.1.cells.length - 1)
      runJob room j s =
        lineEnds room j.priority { plan with carried := plan.carried ++ rest }
          { j with carried := plan.carried ++ rest } t))
  ∧ (∀ (a : Arrival) (s : State), handArrival a s = doJob ⟨s.decoder.priority, [], some a, none, false⟩ s)
  ∧ (∀ (j : Job) (s : State), doJob j s = runJob (8 - s.bus.queue.length) j s)

/-- R131: the extra width is shared out whole: the set widths of the n spaces add up to n times the least width and the extra,
and each is the quotient or one more, the wider ones first. -/
def Obligations.SpacesShareTheExtra : Prop :=
  ∀ (least extra : Nat) (cells : List Cell), 0 < spaceCount cells →
    let set := share least extra cells
    spaceCount cells = (cells.filter Cell.isSpace).length
    ∧ set.map (·.1) = cells
    ∧ (set.map (·.2)).sum = spaceCount cells * least + extra
    ∧ (∀ i, i < spaceCount cells →
        ((set.filter (fun x => x.1.isSpace)).map (·.2))[i]? =
          some (least + extra / spaceCount cells + (if i < extra % spaceCount cells then 1 else 0)))

/-- R129, R130: an extension point lies at a LETTER whose set glyph is extendable, that joins next, with a LETTER just after it,
both of class R. When phase 2 runs the number of strokes is the smallest of its three numbers, and otherwise 0; the points share
them out, the first ones one stroke more, no point more than EXTEND, and no other cell changes. -/
def Obligations.StrokesAreShared : Prop :=
  ∀ (b : Bank) (c : LineCopy) (slack budget : Nat) (cells : List Cell),
    let x : Nat := match headerGlyph b .extension with | some g => advanceOf b g * (5 * c.size) | none => 0
    let isPoint (i : Nat) : Bool :=
      match cells[i]?, cells[i + 1]? with
      | some (.letter l), some (.letter m) =>
        extendableOf b l.setGlyph && decide (l.form = .initial ∨ l.form = .medial) && decide (classOf b l.glyph = .r)
          && decide (classOf b m.glyph = .r)
      | _, _ => false
    let pointsBefore (i : Nat) : Nat := ((List.range i).filter isPoint).length
    let p := pointsBefore cells.length
    let k := strokeTotal b c p slack budget
    let given (i : Nat) : Nat := k / p + (if pointsBefore i < k % p then 1 else 0)
    let strokes : Cell → Nat := fun y => match y with | .letter l => l.strokes | _ => 0
    strokeWidth b c = x ∧ pointCount b cells = p
    ∧ (1 ≤ c.extend → 0 < x → x ≤ slack → k = min (slack / x) (min (p * c.extend) budget))
    ∧ (c.extend = 0 ∨ x = 0 ∨ slack < x → k = 0)
    ∧ (∀ i, (withStrokes b k cells)[i]? =
        if isPoint i = true then (cells[i]?).map (Cell.withStrokes (given i)) else cells[i]?)
    ∧ (∀ i, isPoint i = true → given i ≤ c.extend)
    ∧ (∀ l n, Cell.withStrokes n (.letter l) = .letter { l with strokes := n })
    ∧ ((∀ l, Cell.letter l ∈ cells → l.strokes = 0) → ((withStrokes b k cells).map strokes).sum = k)

/-- R126: the leaders of a gap are the pattern's glyphs that are usable and have an advance, in its order and repeated; the fill
stops at the budget or at the first of them that does not fit; and the leaders and the leftover fill the gap exactly. The TABs of
a line are filled in order, each within the budget that those before it leave. -/
def Obligations.LeadersFillTheGap : Prop :=
  (∀ (b : Bank) (c : LineCopy) (budget gap : Nat),
    let pattern := c.leader.filter (fun g => usable b g && decide (advanceOf b g ≠ 0))
    let fill := fillLeaders b c (leaderGlyphs b c) budget [] gap
    let next : Option Nat := pattern[fill.1.length % pattern.length]?
    runWidth b c fill.1 + fill.2 = gap
    ∧ fill.1.length ≤ budget
    ∧ (∀ i, i < fill.1.length → fill.1[i]? = pattern[i % pattern.length]?)
    ∧ (fill.1.length = budget ∨ next.all (fun g => decide (fill.2 < advanceOf b g * (5 * c.size))) = true))
  ∧ (∀ (b : Bank) (c : LineCopy) (budget gap left : Nat) (leaders : List Nat) (before after : List Cell),
    let fill := fillLeaders b c (leaderGlyphs b c) budget [] gap
    let rest := fillTabs b c after (budget - fill.1.length)
    runWidth b c [] = 0 ∧ (∀ g, runWidth b c (g :: leaders) = advanceOf b g * (5 * c.size) + runWidth b c leaders)
    ∧ (before.any Cell.isTab = false →
      fillTabs b c before budget = (before, budget)
      ∧ fillTabs b c (before ++ .tab gap leaders left :: after) budget =
          (before ++ .tab gap fill.1 fill.2 :: rest.1, rest.2)))

/-- R47, R124, R127, R128, R131 to R135: the ending line justified. Its TABs are filled within the free item budget; the last
field is what follows its last TAB. A JUSTIFY line that an overflow ended, not overset, goes through the three phases: spaces to
the optimum, strokes, and the extra shared out over the spaces, so that with a space it is exactly M wide; it is LOOSE when a
space passes the maximum, or when slack is left and it has no space. A JUSTIFY line of another kind is widened to the optimum at
most. A line of another mode is set as appended, its last field offset by the mode. An overset line is not justified. The first
part says what a cell adds to the line's width (R105) and to its items (R88). -/
def Obligations.JustifiedByModeAndKind : Prop :=
  (∀ (b : Bank) (c : LineCopy) (x : Cell) (rest : List Cell),
    let unit := 5 * c.size
    let wide : Nat :=
      match x with
      | .letter l => if l.settled = true then l.width * unit else 0
      | .carrier k => k.width * unit
      | .space w => w * unit
      | .tab gap _ _ => gap
      | .brk _ broken w => if broken = true then w * unit else 0
      | .link _ => 0
    let emitted : Nat :=
      match x with
      | .letter l => 1 + l.above.length + l.below.length
      | .carrier k => 1 + k.above.length + k.below.length
      | .brk _ _ _ => if (headerGlyph b .breakGlyph).isSome = true then 1 else 0
      | _ => 0
    sumFine c [] = 0 ∧ sumFine c (x :: rest) = wide + sumFine c rest
    ∧ sumItems b [] = 0 ∧ sumItems b (x :: rest) = emitted + sumItems b rest
    ∧ (∀ width, sumFine c (rest ++ [.brk width true (breakAdvance b)]) = sumFine c rest + breakAdvance b * unit)
    ∧ x.isTab = (match x with | .tab _ _ _ => true | _ => false))
  ∧ (∀ (b : Bank) (c : LineCopy) (kind : EndKind) (overset : Bool) (cells : List Cell),
    let unit := 5 * c.size
    let least := c.spaceMin * unit
    let optimum := max c.spaceOpt c.spaceMin * unit
    let greatest := max c.spaceMax (max c.spaceOpt c.spaceMin) * unit
    let filled := fillTabs b c cells (255 - sumItems b cells)
    let before := firstFields filled.1
    let field := lastField filled.1
    let appended (xs : List Cell) : List (Cell × Nat) :=
      xs.map (fun x => (x, match x with | .space w => w * unit | _ => 0))
    let n := spaceCount field
    let slack := c.measure * 96 - sumFine c cells
    let phase1 := min slack (n * (optimum - least))
    let k := strokeTotal b c (pointCount b field) (slack - phase1) filled.2
    let slack2 := slack - phase1 - k * strokeWidth b c
    let extra := phase1 + slack2
    let stroked := withStrokes b k field
    (overset = true → justify b c kind overset cells = ⟨appended before ++ appended field, 0, false⟩)
    ∧ (overset = false → c.mode = .flushStart →
      justify b c kind overset cells = ⟨appended before ++ appended field, 0, false⟩)
    ∧ (overset = false → c.mode = .flushEnd →
      justify b c kind overset cells = ⟨appended before ++ appended field, slack, false⟩)
    ∧ (overset = false → c.mode = .centre →
      justify b c kind overset cells = ⟨appended before ++ appended field, slack / 2, false⟩)
    ∧ (overset = false → c.mode = .justify → kind ≠ .overflow →
      justify b c kind overset cells = ⟨appended before ++ share least phase1 field, 0, false⟩)
    ∧ (overset = false → c.mode = .justify → kind = .overflow →
      (n = 0 → justify b c kind overset cells = ⟨appended before ++ appended stroked, 0, decide (0 < slack2)⟩)
      ∧ (0 < n →
        justify b c kind overset cells =
          ⟨appended before ++ share least extra stroked, 0,
            decide (∃ y ∈ share least extra stroked, y.1.isSpace = true ∧ greatest < y.2)⟩
        ∧ (sumFine c cells ≤ c.measure * 96 → sumFine c cells + k * strokeWidth b c + extra = c.measure * 96))))
  ∧ (∀ (cells : List Cell),
    firstFields cells ++ lastField cells = cells ∧ (lastField cells).any Cell.isTab = false
    ∧ (firstFields cells ≠ [] → (firstFields cells).getLast?.any Cell.isTab = true))

/-! ### Direction and placement (chapter 8) -/

/-- R139, R141: an S cell of a field's sequence between two cells of starting class N becomes N, every other S becomes W, and no
other cell changes; no S is left. The sequence is the field's cells in order without the omitted ones. The starting class of a
LETTER, a ligature too, is the class of its glyph field's entry, and of a broken BREAK that of the break glyph, with M read as W;
a CARRIER and a SPACE are W; a broken BREAK without a break glyph, an unbroken one, a LINK and a TAB have none. -/
def Obligations.SeparatorsSettle : Prop :=
  (∀ (classes : List DirClass) (i : Nat),
    (resolveSeparators none classes)[i]? =
        (classes[i]?).map (fun k =>
          if k = .s then
            (if 0 < i ∧ classes[i - 1]? = some .n ∧ classes[i + 1]? = some .n then .n else .w)
          else k))
  ∧ (∀ (classes : List DirClass), DirClass.s ∉ resolveSeparators none classes)
  ∧ (∀ (b : Bank) (field : List (Cell × Nat)),
      sequenceOf b field = field.filterMap (fun x => (startClass b x.1).map (fun k => (k, x.1, x.2))))
  ∧ (∀ (b : Bank) (x : Cell),
    let read (g : Nat) : DirClass := if classOf b g = .m then .w else classOf b g
    startClass b x =
        (match x with
          | .letter l => some (read l.glyph)
          | .carrier _ => some .w
          | .space _ => some .w
          | .brk _ broken _ => if broken = true then (headerGlyph b .breakGlyph).map read else none
          | .link _ => none
          | .tab _ _ _ => none)
    ∧ startClass b x ≠ some .m)

/-- R142 to R144: the level of every cell of a field, after R141 has settled its separators. A strong cell takes its class's
level; a digit group takes the direction of the nearest strong cell before it, and level 0 only left to right in an LTR base; a
neutral run takes the class its two sides show when they agree and the base direction otherwise. -/
def Obligations.LevelsByClassAndBase : Prop :=
  (∀ (base : Direction) (classes : List DirClass), .m ∉ classes →
    let settled := resolveSeparators none classes
    let strongLevel (d : Direction) : Nat :=
      match base, d with | .ltr, .ltr => 0 | .ltr, .rtl => 1 | .rtl, .ltr => 2 | .rtl, .rtl => 1
    let strongOf (k : DirClass) : Option Direction := match k with | .l => some .ltr | .r => some .rtl | _ => none
    let counted (i : Nat) : Direction := ((settled.take i).filterMap strongOf).getLast?.getD base
    let shows (i : Nat) : Direction :=
      match settled[i]? with | some .l => .ltr | some .r => .rtl | _ => counted i
    let isSide (i : Nat) : Bool := decide (settled[i]? ≠ some .w)
    let left (i : Nat) : Direction :=
      match ((List.range i).filter isSide).getLast? with | some j => shows j | none => base
    let right (i : Nat) : Direction :=
      match (List.range' (i + 1) (settled.length - (i + 1))).find? isSide with | some j => shows j | none => base
    ∀ i, (levels base classes)[i]? =
      (settled[i]?).map (fun (k : DirClass) =>
        match k with
        | .l => strongLevel .ltr
        | .r => 1
        | .n => if counted i = Direction.ltr then strongLevel .ltr else 2
        | _ => strongLevel (if left i = right i then left i else base)))
  ∧ (∀ (base : Direction) (classes : List DirClass), (levels base classes).length = classes.length)
  ∧ (∀ (classes : List DirClass), ∀ l ∈ levels .ltr classes, l ≤ 2)
  ∧ (∀ (classes : List DirClass), ∀ l ∈ levels .rtl classes, l = 1 ∨ l = 2)
  ∧ (∀ (base : Direction) (n : Nat),
      levels base (List.replicate n .l) = List.replicate n (if base = .ltr then 0 else 2)
      ∧ levels base (List.replicate n .r) = List.replicate n 1
      ∧ levels base (List.replicate n .n) = List.replicate n (if base = .ltr then 0 else 2)
      ∧ levels base (List.replicate n .w) = List.replicate n (if base = .ltr then 0 else 1))
  ∧ (∀ (base : Direction) (n : Nat),
      levels base (.r :: List.replicate n .n) = 1 :: List.replicate n 2)

/-- R145: the visual order is a pass over the runs at level 2 and then a pass over those at level 1 or 2 (LevelsByClassAndBase:
no level lies above 2). A pass reverses each maximal run in place, whatever stands before and after it, and every cell outside
the runs keeps its place: the clauses on a run and on a cell outside give the pass on every field. The visual order is the same
cells; a field at level 0 keeps its order; a field all at level 1 or 2 is the reverse of the field with its level-2 runs
reversed; one at level 1 alone is reversed end to end. -/
def Obligations.VisualOrderReversesRuns : Prop :=
  let pass (k : Nat) (cells : List (Nat × Cell)) : List (Nat × Cell) := reverseRuns (fun e => decide (k ≤ e.1)) [] cells
  (∀ (k : Nat) (before run after : List (Nat × Cell)),
    (∀ e ∈ run, k ≤ e.1) → (∀ e, before.getLast? = some e → e.1 < k) → (∀ e, after.head? = some e → e.1 < k) →
    pass k (before ++ run ++ after) = pass k before ++ run.reverse ++ pass k after)
  ∧ (∀ (k : Nat) (before after : List (Nat × Cell)) (x : Nat × Cell), x.1 < k →
    pass k (before ++ x :: after) = pass k before ++ x :: pass k after)
  ∧ (∀ (k : Nat) (cells : List (Nat × Cell)),
    (pass k cells).length = cells.length
    ∧ (∀ (i : Nat) (e : Nat × Cell), cells[i]? = some e → e.1 < k → (pass k cells)[i]? = some e))
  ∧ ∀ (entries : List (Nat × Cell)),
    visualOrder entries = pass 1 (pass 2 entries)
    ∧ (visualOrder entries).Perm entries
    ∧ ((∀ e ∈ entries, e.1 = 0) → visualOrder entries = entries)
    ∧ ((∀ e ∈ entries, 1 ≤ e.1) → visualOrder entries = (pass 2 entries).reverse)
    ∧ ((∀ e ∈ entries, e.1 = 1) → visualOrder entries = entries.reverse)
    ∧ ((∀ e ∈ entries, e.1 = 2) → visualOrder entries = entries)

/-- R140, R146 to R148, R151: in a walk every item stands at its exact fine left edge divided by 96, whatever stands before it: a
glyph of a leader run, and each cell's strokes, base and marks. A line's parts are its fields and its TABs' leader runs, each
placed from its own edge, listed from left to right: in their order in an LTR base and in the reverse order in an RTL one. -/
def Obligations.LinePlacedAtExactEdges : Prop :=
  (∀ (b : Bank) (c : LineCopy) (glyphs : List Nat) (e i : Nat),
    (walkGlyphs b c glyphs (Pen.start e)).2.fine = e + runWidth b c glyphs
    ∧ (walkGlyphs b c glyphs (Pen.start e)).1.length = glyphs.length
    ∧ (walkGlyphs b c glyphs (Pen.start e)).1[i]? =
        (glyphs[i]?).map (fun g =>
          { face := faceOf b g, char := charOf b g, x := (e + runWidth b c (glyphs.take i)) / 96, y := 0 }))
  ∧ (∀ (b : Bank) (c : LineCopy) (before after : List (Cell × Nat)) (cell : Cell) (w e : Nat),
    let glyph (g edge : Nat) : Item := { face := faceOf b g, char := charOf b g, x := edge / 96, y := 0 }
    let wide (g : Nat) : Nat := advanceOf b g * (5 * c.size)
    let marks (g edge : Nat) (above below : List Nat) : List Item :=
      markItems b c .above edge (advanceOf b g) (aboveExtentOf b g) above
        ++ markItems b c .below edge (advanceOf b g) (belowExtentOf b g) below
    let extension := headerGlyph b .extension
    let strokes (l : Letter) (edge : Nat) : List Item :=
      match extension with
      | some g => (List.range l.strokes).map (fun j => glyph g (edge + j * wide g))
      | none => []
    let strokesWide (l : Letter) : Nat := match extension with | some g => l.strokes * wide g | none => 0
    let items (edge : Nat) : List Item :=
      match cell with
      | .letter l =>
        let base := edge + strokesWide l
        strokes l edge ++ glyph l.setGlyph base :: marks l.setGlyph base l.above l.below
      | .carrier k => glyph k.glyph edge :: marks k.glyph edge k.above k.below
      | .brk _ broken _ =>
        (match headerGlyph b .breakGlyph with | some g => if broken = true then [glyph g edge] else [] | none => [])
      | _ => []
    let placed : Nat :=
      match cell with
      | .letter l => strokesWide l + wide l.setGlyph
      | .carrier k => wide k.glyph
      | .space _ => w
      | .brk _ broken _ =>
        (match headerGlyph b .breakGlyph with | some g => if broken = true then wide g else 0 | none => 0)
      | _ => 0
    contentWidth b c [] = 0 ∧ walkCells b c [] (Pen.start e) = []
    ∧ contentWidth b c ((cell, w) :: after) = placed + contentWidth b c after
    ∧ walkCells b c (before ++ (cell, w) :: after) (Pen.start e) =
        walkCells b c before (Pen.start e) ++ items (e + contentWidth b c before)
          ++ walkCells b c after (Pen.start (e + contentWidth b c before + placed)))
  ∧ (∀ (b : Bank) (c : LineCopy) (field after : List (Cell × Nat)) (leaders : List Nat) (start offset stop gap left w : Nat),
    let M := c.measure * 96
    let ordered := fieldOrder b c.direction field
    ordered =
        (visualOrder ((levels c.direction ((sequenceOf b field).map (·.1))).zip ((sequenceOf b field).map (·.2)))).map (·.2)
    ∧ (c.direction = .ltr →
      placePart b c (.field field start offset) = walkCells b c ordered (Pen.start (start + offset))
      ∧ placePart b c (.run leaders stop) = (walkGlyphs b c leaders (Pen.start (stop - runWidth b c leaders))).1)
    ∧ (c.direction = .rtl →
      placePart b c (.field field start offset) =
          walkCells b c ordered (Pen.start (M - start - offset - contentWidth b c field))
      ∧ placePart b c (.run leaders stop) = (walkGlyphs b c leaders.reverse (Pen.start (M - stop))).1)
    ∧ (field.any (fun x => x.1.isTab) = false →
      lineParts c offset [] start start field = [.field field start offset]
      ∧ lineParts c offset [] start start (field ++ (.tab gap leaders left, w) :: after) =
          (let next := start + sumFine c (field.map (·.1)) + gap
          .field field start 0 :: .run leaders next :: lineParts c offset [] next next after)))
  ∧ (∀ (b : Bank) (c : LineCopy) (j : Justified),
    let parts := lineParts c j.offset [] 0 0 j.cells
    (c.direction = .ltr → lineItems b c j = parts.flatMap (placePart b c))
    ∧ (c.direction = .rtl → lineItems b c j = parts.reverse.flatMap (placePart b c)))

/-- R149, R150: the i-th mark of a list stands at its base's extent plus the extents of the marks before it, centred on the base;
a position left of the measure becomes 0. -/
def Obligations.MarksStackAndCentre : Prop :=
  ∀ (b : Bank) (c : LineCopy) (edge advance extent : Nat) (marks : List Nat) (i : Nat),
    (markItems b c .above edge advance extent marks)[i]? =
        (marks[i]?).map (fun m =>
          { face := faceOf b m, char := charOf b m, x := markX c edge advance (advanceOf b m)
            y := (((extent + ((marks.take i).map (aboveExtentOf b)).sum) * (5 * c.size) / 96 : Nat) : Int) })
    ∧ (markItems b c .below edge advance extent marks)[i]? =
        (marks[i]?).map (fun m =>
          { face := faceOf b m, char := charOf b m, x := markX c edge advance (advanceOf b m)
            y := -(((extent + ((marks.take i).map (belowExtentOf b)).sum) * (5 * c.size) / 96 : Nat) : Int) })
    ∧ (∀ m, m ≤ advance → markX c edge advance m = (edge + (advance - m) * (5 * c.size) / 2) / 96)
    ∧ (∀ m, advance ≤ m → markX c edge advance m = (edge - (m - advance) * (5 * c.size) / 2) / 96)

/-! ### The exposure queue and bus (chapter 9) -/

/-- R19, R46, R107, R154, R157, R158: a packet joins at the tail with the next sequence number and the check of its bytes; LINES
is counted, the pending set is applied, and a port in BUS_IDLE enters WAITING with the BUS_GAP read. A waiting packet joins when
the queue holds fewer than 8 packets, and the rest of the entry's work goes on with the room that is left; with 8 packets, or none
waiting, no packet joins. The first part is the layout of section 11.3: the bytes that the check sums, those that the bus
carries, and the header bits of the contest (R162, R189); the second is what applying the pending set does to each parameter, stop
by stop for the tabs. That PACKET_JOIN is an event of its own, which tests the room when it is taken, is the model's choice (log
10); so is its refusal with no packet waiting or no room (log 7). -/
def Obligations.PacketJoinsWithNumberAndCheck : Prop :=
  (∀ (p : PacketBody) (sequence : BitVec 8) (check : Nat) (i : Item),
    let two (n : Nat) : List Byte := [BitVec.ofNat 8 (n / 256), BitVec.ofNat 8 n]
    let flag (given : Bool) (weight : Nat) : Nat := if given = true then weight else 0
    let bits (b : Byte) : List Bool := (List.range 8).map (fun k => b.getLsbD (7 - k))
    let f := p.flags
    let header : Byte := BitVec.ofNat 8 (p.priority.toNat * 16 + p.unit.toNat)
    itemBytes i = [BitVec.ofNat 8 i.face.toNat, i.char] ++ two i.x ++ two (i.y.emod 65536).toNat
    ∧ packetBody p sequence =
        [header, sequence, BitVec.ofNat 8 p.galley] ++ two p.size ++ two p.leading
          ++ [BitVec.ofNat 8
                (flag f.forced 1 + flag f.overset 2 + flag f.loose 4 + flag f.unmapped 8 + flag f.markOverflow 16
                  + flag f.gap 32 + flag f.cut 64),
              BitVec.ofNat 8 p.items.length]
          ++ p.items.flatMap itemBytes
    ∧ packetBytes ⟨p, sequence, check⟩ = packetBody p sequence ++ two check
    ∧ headerBits ⟨p, sequence, check⟩ = (bits header).drop 2
    ∧ packetBits ⟨p, sequence, check⟩ = ((packetBytes ⟨p, sequence, check⟩).flatMap bits).drop 2)
  ∧ (∀ (p : PendingSet) (c : LineCopy), p.tabs.length = c.tabs.length →
      p.applyTo c =
        { size := p.size.getD c.size, measure := p.measure.getD c.measure, leading := p.leading.getD c.leading
          paraSpace := p.paraSpace.getD c.paraSpace, mode := p.mode.getD c.mode, direction := p.direction.getD c.direction
          spaceMin := p.spaceMin.getD c.spaceMin, spaceOpt := p.spaceOpt.getD c.spaceOpt
          spaceMax := p.spaceMax.getD c.spaceMax, extend := p.extend.getD c.extend, galley := p.galley.getD c.galley
          tabs := c.tabs.zipWith (fun stop entry => entry.getD stop) p.tabs, leader := p.leader.getD c.leader })
  ∧ PendingSet.empty =
      { size := none, measure := none, leading := none, paraSpace := none, mode := none, direction := none, spaceMin := none
        spaceOpt := none, spaceMax := none, extend := none, galley := none, tabs := List.replicate 16 none, leader := none }
  ∧ (∀ (p : PacketBody) (s : State),
      joinPacket p s =
        { s with
          bus :=
            { s.bus with
              queue :=
                s.bus.queue
                  ++ [{ body := p, sequence := s.bus.nextSequence
                        check := ((packetBody p s.bus.nextSequence).map BitVec.toNat).sum % 65536 }]
              nextSequence := s.bus.nextSequence + 1
              state := if s.bus.state = .busIdle then .waiting else s.bus.state
              gap := if s.bus.state = .busIdle then s.format.unit.busGap else s.bus.gap }
          reply :=
            { s.reply with counters := { s.reply.counters with lines := min 65535 (s.reply.counters.lines + 1) } }
          format := { s.format with line := s.format.pending.applyTo s.format.line, pending := PendingSet.empty } })
  ∧ (∀ (s : State),
      (∀ w, s.shaper.waiting = some w → s.bus.queue.length < 8 →
        exec .packetJoin s =
          .next
            (runJob (7 - s.bus.queue.length) w.job
              (joinPacket w.packet { s with shaper := { s.shaper with waiting := none } })))
      ∧ (s.shaper.waiting = none ∨ 8 ≤ s.bus.queue.length →
        exec .packetJoin s = .refused (.cannotOccur .noPacketCanJoin)))

/-- R159 to R165: the contest and the sending, with a packet at the head of the queue. The bus is free for a WAITING unit when the
idle count has reached the gap in force. That an event of another port state, of a bus that is not free or of an empty queue is
refused is the model's choice (log 7; for the gap log 6); so is that a contest lost or won, a collision and a packet's end are
told by the command (log 11). -/
def Obligations.ContestAndSending : Prop :=
  (∀ (s : State) (p : Packet) (rest : List Packet), s.bus.queue = p :: rest →
        (s.bus.state = .waiting → s.bus.othersDrive = false → s.bus.gap ≤ s.bus.idleCount →
          exec .busFree s = .next { s with bus := { s.bus with state := .contending, idleCount := 0 } })
        ∧ (s.bus.state = .contending →
          exec .contestLost s =
            .next
              { s with
                bus :=
                  { s.bus with state := .waiting, gap := s.format.unit.busGap, othersDrive := true, idleCount := 0 }
                reply :=
                  { s.reply with
                    counters :=
                      { s.reply.counters with contestsLost := min 65535 (s.reply.counters.contestsLost + 1) } } }
          ∧ exec .contestWon s =
            .next
              { s with
                bus := { s.bus with state := .sending, ownership := some ⟨s.format.unit.burstLimit, 0⟩ } })
        ∧ (s.bus.state = .sending →
          exec .collision s =
            .next
              (raise .collision p.sequence.toNat
                { s with
                  bus :=
                    { s.bus with
                      state := .waiting, gap := s.format.unit.busGap, ownership := none, othersDrive := true
                      idleCount := 0 } })
          ∧ ∀ o, s.bus.ownership = some o →
            exec .packetSent s =
              .next
                { s with
                  bus :=
                    { s.bus with
                      state := .awaiting, ownership := some { o with sent := o.sent + 1 }
                      holdTimer := some s.format.unit.holdLimit, othersDrive := true, answerDue := true, idleCount := 0 } }))
  ∧ (∀ s : State,
      (s.bus.othersDrive = true → exec .busFree s = .refused (.cannotOccur .busBusy))
      ∧ (s.bus.othersDrive = false → s.bus.state = .waiting → s.bus.idleCount < s.bus.gap →
        exec .busFree s = .refused (.cannotOccur .gapNotReached))
      ∧ (s.bus.othersDrive = false → s.bus.state ≠ .waiting ∨ (s.bus.queue = [] ∧ s.bus.gap ≤ s.bus.idleCount) →
        exec .busFree s = .refused (.cannotOccur .busStateOther))
      ∧ (s.bus.queue = [] ∨ s.bus.state ≠ .contending →
        exec .contestLost s = .refused (.cannotOccur .busStateOther)
          ∧ exec .contestWon s = .refused (.cannotOccur .busStateOther))
      ∧ (s.bus.queue = [] ∨ s.bus.state ≠ .sending →
        exec .collision s = .refused (.cannotOccur .busStateOther)
          ∧ exec .packetSent s = .refused (.cannotOccur .busStateOther)))

/-- R159 to R161, R164, R171, R173: the bus found busy, in every port state (the model's reading, log 13); the imaging unit's
release, which ends the drive of any other party and leaves the idle count of a free bus (the model's reading, log 12); the hold
timer's and the defer timer's expiry, refused when the timer is not running (the model's choice, log 7); and a bit time, which is
a step with no command (the model's choice, log 4): the header begins at the bit time at which the bus is free, and otherwise the
idle count follows the bus. -/
def Obligations.BusSensedAndTimersExpire : Prop :=
  (∀ s : State,
      exec .busFoundBusy s = .next { s with bus := { s.bus with othersDrive := true, idleCount := 0 } }
      ∧ exec .imagingUnitRelease s =
        .next
          { s with
            bus :=
              { s.bus with
                othersDrive := false, answerDue := false
                idleCount := if s.bus.othersDrive = true then 0 else s.bus.idleCount } })
  ∧ (∀ (s : State) (p : Packet) (rest : List Packet), s.bus.queue = p :: rest →
      (s.bus.state = .awaiting → s.bus.holdTimer.isSome = true →
        exec .holdExpiry s =
          .next
            (raise .holdExpired p.sequence.toNat
              { s with
                bus :=
                  { s.bus with
                    state := .deferring, ownership := none, holdTimer := none
                    deferTimer := some s.format.unit.deferWait, answerDue := false }
                reply :=
                  { s.reply with
                    counters :=
                      { s.reply.counters with holdExpiries := min 65535 (s.reply.counters.holdExpiries + 1) } } }))
      ∧ (s.bus.state = .deferring → s.bus.deferTimer.isSome = true →
        exec .deferExpiry s =
          .next
            { s with bus := { s.bus with state := .waiting, gap := s.format.unit.busGap, deferTimer := none } }))
  ∧ (∀ s : State,
      (s.bus.state ≠ .awaiting ∨ s.bus.holdTimer = none → exec .holdExpiry s = .refused (.cannotOccur .timerStopped))
      ∧ (s.bus.state ≠ .deferring ∨ s.bus.deferTimer = none → exec .deferExpiry s = .refused (.cannotOccur .timerStopped)))
  ∧ (∀ s : State, s.pending = [] →
      step s =
        .next
          { s with
            bus :=
              if s.bus.othersDrive = true ∨ s.bus.state = .contending ∨ s.bus.state = .sending then
                { s.bus with idleCount := 0 }
              else if s.bus.state = .waiting ∧ s.bus.gap ≤ s.bus.idleCount then
                { s.bus with state := .contending, idleCount := 0 }
              else { s.bus with idleCount := s.bus.idleCount + 1 } })

/-- R164, R167 to R170, R172, R189: an answer taken in AWAITING before the imaging unit has released the bus. That the answer ends
the imaging unit's drive in the same step is the model's reading (log 12). Outside AWAITING, or once the bus has been released
without an answer, an answer changes nothing; a byte of bit 7 set that is no valid answer changes nothing in any state. An
INVALID_ANSWER that is none, being a valid answer that the port takes or a byte without bit 7, stops (the model's choice, logs 7
and 18). -/
def Obligations.AnswersTakenOrIgnored : Prop :=
  (∀ (s : State) (p : Packet) (rest : List Packet) (o : Ownership),
      s.bus.state = .awaiting → s.bus.answerDue = true → s.bus.queue = p :: rest → s.bus.ownership = some o →
      let answered : Bus :=
        { s.bus with holdTimer := none, othersDrive := false, answerDue := false, idleCount := 0 }
      let decided : Bus :=
        if o.sent < o.burstLimit ∧ rest ≠ [] then { answered with queue := rest, state := .sending }
        else if rest = [] then { answered with queue := [], state := .busIdle, ownership := none }
        else { answered with queue := rest, state := .waiting, gap := s.format.unit.busGap, ownership := none }
      exec .accept s = .next { s with bus := decided }
      ∧ exec .reject s =
        .next
          (raise .packetRejected (p.sequence.toNat * 256 + p.body.galley)
            { s with
              bus := decided
              reply :=
                { s.reply with
                  counters := { s.reply.counters with rejected := min 65535 (s.reply.counters.rejected + 1) } } })
      ∧ exec .defer s =
        .next
          { s with
            bus := { answered with state := .deferring, ownership := none, deferTimer := some s.format.unit.deferWait }
            reply :=
              { s.reply with
                counters := { s.reply.counters with deferred := min 65535 (s.reply.counters.deferred + 1) } } })
  ∧ (∀ (s : State) (b : Byte),
      (s.bus.state ≠ .awaiting ∨ s.bus.answerDue = false →
        exec .accept s = .next s ∧ exec .reject s = .next s ∧ exec .defer s = .next s
        ∧ (0x80 ≤ b.toNat → exec (.invalidAnswer b) s = .next s))
      ∧ (0x80 ≤ b.toNat → b ≠ 0xA5 → b ≠ 0x96 → b ≠ 0xC3 → exec (.invalidAnswer b) s = .next s)
      ∧ (s.bus.state = .awaiting → s.bus.answerDue = true → b = 0xA5 ∨ b = 0x96 ∨ b = 0xC3 →
        exec (.invalidAnswer b) s = .refused (.cannotOccur .answerIsValid))
      ∧ (b.toNat < 0x80 → exec (.invalidAnswer b) s = .fault .illFormedOperand))

/-! ### Format parameters (chapter 3) -/

/-- R33, R43 to R45, R50: what FORMAT k, v does: clamped, filed by the state of the line store, or held and counted. The first
part says which parameter of the line copy, and which entry of the pending set, each write sets, and that it sets no other. That
a hold line's fall at the last byte's removal reads TAKE_TIMEOUT as it stands before the write is the model's reading (log 8).
-/
def Obligations.FormatClampsAndFiles : Prop :=
  (∀ (c : LineCopy) (p : PendingSet) (v i : Nat) (m : Mode) (d : Direction) (g : List Nat),
    (c.write (.size v) = { c with size := v } ∧ p.write (.size v) = { p with size := some v })
    ∧ (c.write (.measure v) = { c with measure := v } ∧ p.write (.measure v) = { p with measure := some v })
    ∧ (c.write (.leading v) = { c with leading := v } ∧ p.write (.leading v) = { p with leading := some v })
    ∧ (c.write (.paraSpace v) = { c with paraSpace := v } ∧ p.write (.paraSpace v) = { p with paraSpace := some v })
    ∧ (c.write (.mode m) = { c with mode := m } ∧ p.write (.mode m) = { p with mode := some m })
    ∧ (c.write (.direction d) = { c with direction := d } ∧ p.write (.direction d) = { p with direction := some d })
    ∧ (c.write (.spaceMin v) = { c with spaceMin := v } ∧ p.write (.spaceMin v) = { p with spaceMin := some v })
    ∧ (c.write (.spaceOpt v) = { c with spaceOpt := v } ∧ p.write (.spaceOpt v) = { p with spaceOpt := some v })
    ∧ (c.write (.spaceMax v) = { c with spaceMax := v } ∧ p.write (.spaceMax v) = { p with spaceMax := some v })
    ∧ (c.write (.extend v) = { c with extend := v } ∧ p.write (.extend v) = { p with extend := some v })
    ∧ (c.write (.galley v) = { c with galley := v } ∧ p.write (.galley v) = { p with galley := some v })
    ∧ (c.write (.tab i v) = { c with tabs := c.tabs.set i v } ∧ p.write (.tab i v) = { p with tabs := p.tabs.set i (some v) })
    ∧ (c.write (.leader g) = { c with leader := g } ∧ p.write (.leader g) = { p with leader := some g }))
  ∧ ∀ (s : State) (k hi lo : Byte), Ready (.plain lo) s → s.decoder.state = .args .format [k, hi] →
    let v := hi.toNat * 256 + lo.toNat
    let toText (u : State) : State := { u with decoder := { u.decoder with state := .text } }
    let stray (u : State) : State :=
      { toText u with
        reply :=
          { u.reply with counters := { u.reply.counters with stray := min 65535 (u.reply.counters.stray + 1) } } }
    let file (w : LineWrite) (u : State) : State :=
      { toText u with
        format :=
          if u.shaper.line.cells = [] then { u.format with line := u.format.line.write w }
          else { u.format with pending := u.format.pending.write w } }
    Takes .format (.plain lo)
      (fun u =>
        let setUnit (p : UnitParams) : State := { toText u with format := { u.format with unit := p } }
        if k.toNat = 0 then file (.size (max 16 (min 384 v))) u
        else if k.toNat = 1 then file (.measure (max 240 (min 14400 v))) u
        else if k.toNat = 2 then file (.leading (min 2880 v)) u
        else if k.toNat = 3 then file (.paraSpace (min 1440 v)) u
        else if k.toNat = 4 then
          (if v = 0 then file (.mode .justify) u
            else if v = 1 then file (.mode .flushStart) u
            else if v = 2 then file (.mode .flushEnd) u
            else if v = 3 then file (.mode .centre) u
            else stray u)
        else if k.toNat = 5 then
          (if v = 0 then file (.direction .ltr) u else if v = 1 then file (.direction .rtl) u else stray u)
        else if k.toNat = 6 then file (.spaceMin (min 255 v)) u
        else if k.toNat = 7 then file (.spaceOpt (min 255 v)) u
        else if k.toNat = 8 then file (.spaceMax (min 255 v)) u
        else if k.toNat = 9 then file (.extend (min 8 v)) u
        else if k.toNat = 10 then file (.galley (min 15 v)) u
        else if 16 ≤ k.toNat ∧ k.toNat ≤ 31 then file (.tab (k.toNat - 16) (min 14400 v)) u
        else if k.toNat = 32 then setUnit { u.format.unit with burstLimit := max 1 (min 16 v) }
        else if k.toNat = 33 then setUnit { u.format.unit with busGap := max 4 (min 64 v) }
        else if k.toNat = 34 then setUnit { u.format.unit with holdLimit := max 1 (min 255 v) }
        else if k.toNat = 35 then setUnit { u.format.unit with deferWait := max 1 (min 255 v) }
        else if k.toNat = 36 then setUnit { u.format.unit with takeTimeout := min 60 v }
        else stray u) s

/-- R34, R45, R49: LEADER files the first four glyph numbers as one line parameter. -/
def Obligations.LeaderFilesThePattern : Prop :=
  ∀ (s : State) (bytes : List Byte) (b : Byte), Ready (.plain b) s → s.decoder.state = .args .leader bytes →
    (∀ n rest, bytes ++ [b] = n :: rest → rest.length = 2 * n.toNat →
      Takes .leader (.plain b)
        (fun u =>
          let pattern := (List.range (min 4 n.toNat)).map (fun i =>
            (rest.getD (2 * i) 0).toNat * 256 + (rest.getD (2 * i + 1) 0).toNat)
          { u with
            decoder := { u.decoder with state := .text }
            format :=
              if u.shaper.line.cells = [] then { u.format with line := { u.format.line with leader := pattern } }
              else { u.format with pending := { u.format.pending with leader := some pattern } } }) s)

/-- R39, R55, R71, R111, R176: RESET restarts the setting of copy: plane 0, default parameters, an empty line store; the port's
queue moves on and everything else stays. That a hold line's fall at the RESET's removal reads TAKE_TIMEOUT as it stands before
the defaults is the model's reading (log 8). -/
def Obligations.ResetRestartsCopy : Prop :=
  LineCopy.default =
      { size := 36, measure := 2640, leading := 200, paraSpace := 0, mode := .justify, direction := .ltr, spaceMin := 20
        spaceOpt := 24, spaceMax := 40, extend := 0, galley := 0, tabs := List.replicate 16 0, leader := [] }
  ∧ ∀ (s : State) (b : Byte), Ready (.plain b) s → s.decoder.state = .text → b = 0x0D →
    Takes .reset (.plain b)
      (fun u =>
        { u with
          decoder := { u.decoder with plane := 0 }
          format := { line := LineCopy.default, pending := PendingSet.empty, unit := ⟨4, 8, 50, 20, 10⟩ }
          shaper := { line := ⟨[], 0, 0, none, LineFlags.none⟩, paraDue := false, waiting := none } }) s

/-! ### Tables and loads (chapters 4 and 5) -/

/-- R69, R70, R74, R80, R188: an item written whole reads back as sent, and every other item of its table, and every other table,
is as it was. Every item of a bank without stored bytes reads as its cleared value, all zeros. -/
def Obligations.WrittenItemReadsBack : Prop :=
  (∀ (t : TableKind) (i : Nat) (valid : Bool),
    t.itemSize = (match t with | .codeMap => 2 | .glyphs => 10 | .ligatures => 6 | .header => 8)
    ∧ (⟨[], [], [], [], valid⟩ : Bank).item t i = List.replicate t.itemSize 0)
  ∧ ∀ (k : Bank) (t : TableKind) (i j : Nat) (bytes : List Byte),
    bytes.length = t.itemSize → (k.table t).wf = true →
    (k.writeItem t i bytes).item t i = bytes
    ∧ (j ≠ i → (k.writeItem t i bytes).item t j = k.item t j)
    ∧ (∀ t', t' ≠ t → (k.writeItem t i bytes).item t' j = k.item t' j)
    ∧ (k.writeItem t i bytes).valid = k.valid

/-- R35, R72, R73: the last header byte of a LOAD. -/
def Obligations.LoadHeaderOpensOrRefuses : Prop :=
  ∀ (s : State) (kind s1 s0 c1 c0 : Byte), Ready (.plain c0) s → s.decoder.state = .args .load [kind, s1, s0, c1] →
    let start := s1.toNat * 256 + s0.toNat
    let count := c1.toNat * 256 + c0.toNat
    (3 < kind.toNat →
      Takes .load (.plain c0)
        (fun u => raise .loadRefused (kind.toNat * 256 + 1) { u with decoder := { u.decoder with state := .skip } }) s)
    ∧ (∀ t first last,
        (kind.toNat, t, first, last) ∈ [(0, TableKind.codeMap, 0, 895), (1, .glyphs, 1, 1023), (2, .ligatures, 0, 255),
          (3, .header, 0, 0)] →
        let accepted : Bool := decide (first ≤ start ∧ start ≤ last ∧ (count = 0 ∨ start + count - 1 ≤ last))
        let ctx : LoadContext := { kind := t, start := start, count := count, taken := 0, item := [], sum := [] }
        Takes .load (.plain c0)
          (fun u =>
            { u with
              tables := { u.tables with record := some { kind := t, accepted := accepted, written := 0, sum := 0 } }
              decoder := { u.decoder with state := if count = 0 then .sum ctx else .load ctx } }) s)

/-- R36, R74: a data byte joins the current item; the item's last byte hands it to the table block, which adds its bytes to the
running sum and, for an accepted load, writes it into the standby bank at start plus the items taken before. -/
def Obligations.LoadDataByteFillsTheItem : Prop :=
  ∀ (s : State) (b : Byte) (ctx : LoadContext), Ready (.plain b) s → s.decoder.state = .load ctx →
    (ctx.item.length + 1 < ctx.kind.itemSize →
      Takes .loadDataByte (.plain b)
        (fun u => { u with decoder := { u.decoder with state := .load { ctx with item := ctx.item ++ [b] } } }) s)
    ∧ (ctx.item.length + 1 = ctx.kind.itemSize →
      let next : LoadContext := { ctx with item := [], taken := ctx.taken + 1 }
      Takes .loadDataByte (.plain b)
        (fun u =>
          takeItem ctx.kind (ctx.start + ctx.taken) (ctx.item ++ [b])
            { u with
              decoder := { u.decoder with state := if ctx.taken + 1 < ctx.count then .load next else .sum next } }) s
      ∧ ∀ (u : State) (r : LoadRecord), u.tables.record = some r →
        let sum := (r.sum + ((ctx.item ++ [b]).map BitVec.toNat).sum) % 65536
        takeItem ctx.kind (ctx.start + ctx.taken) (ctx.item ++ [b]) u =
          { u with
            tables :=
              if r.accepted = true then
                { u.tables.setStandby
                    (u.tables.standbyBank.writeItem ctx.kind (ctx.start + ctx.taken) (ctx.item ++ [b])) with
                  record := some { r with sum := sum, written := r.written + 1 } }
              else { u.tables with record := some { r with sum := sum } } })

/-- R36, R76, R77: the sum bytes. The first is kept; the second ends the load. -/
def Obligations.LoadSumEndsTheLoad : Prop :=
  ∀ (s : State) (b : Byte) (ctx : LoadContext), Ready (.plain b) s → s.decoder.state = .sum ctx →
    (ctx.sum = [] →
      Takes .loadSumByte (.plain b)
        (fun u => { u with decoder := { u.decoder with state := .sum { ctx with sum := [b] } } }) s)
    ∧ (∀ hi r, ctx.sum = [hi] → s.tables.record = some r →
      let ended (u : State) : State :=
        { u with decoder := { u.decoder with state := .text }, tables := { u.tables with record := none } }
      Takes .loadSumByte (.plain b)
        (fun u =>
          if r.accepted = false then raise .loadRefused (r.kind.number * 256 + 2) (ended u)
          else if hi.toNat * 256 + b.toNat = r.sum then ended u
          else
            raise .loadSum r.sum
              { ended u with
                tables :=
                  (ended u).tables.setStandby { (ended u).tables.standbyBank with valid := false } }) s)

/-- R37, R79 to R83: the bank operations. COPY and CLEAR make the standby bank valid and leave the active bank and the roles; a
SWAP is refused, with the active bank's number, while the standby bank is not valid, and is otherwise a line end of kind SWAP
with flag CUT followed by the exchange; LineEndsByControl says what that line end is, and that on an empty line store the exchange
is made at once. The first part says which bank is active and which standby (R56). -/
def Obligations.BankOperations : Prop :=
  (∀ (t : TableBlock) (k : Bank),
    (t.active = .a → t.activeBank = t.bankA ∧ t.standbyBank = t.bankB ∧ t.setStandby k = { t with bankB := k })
    ∧ (t.active = .b → t.activeBank = t.bankB ∧ t.standbyBank = t.bankA ∧ t.setStandby k = { t with bankA := k }))
  ∧ ∀ (s : State) (b : Byte), Ready (.plain b) s → s.decoder.state = .args .bank [] →
    let toText (u : State) : State := { u with decoder := { u.decoder with state := .text } }
    (b = 0 → s.tables.active = .a →
      Takes .copy (.plain b)
        (fun u => { toText u with tables := { u.tables with bankB := { u.tables.bankA with valid := true } } }) s)
    ∧ (b = 0 → s.tables.active = .b →
      Takes .copy (.plain b)
        (fun u => { toText u with tables := { u.tables with bankA := { u.tables.bankB with valid := true } } }) s)
    ∧ (b = 1 → s.tables.active = .a →
      Takes .clear (.plain b) (fun u => { toText u with tables := { u.tables with bankB := ⟨[], [], [], [], true⟩ } }) s)
    ∧ (b = 1 → s.tables.active = .b →
      Takes .clear (.plain b) (fun u => { toText u with tables := { u.tables with bankA := ⟨[], [], [], [], true⟩ } }) s)
    ∧ (b = 2 → s.tables.standbyBank.valid = false →
      Takes .swap (.plain b)
        (fun u => raise .swapRefused (match u.tables.active with | .a => 0 | .b => 1) (toText u)) s)
    ∧ (b = 2 → s.tables.standbyBank.valid = true →
      Takes .swap (.plain b)
        (fun u => doJob ⟨s.decoder.priority, [], none, some ⟨.swap, true⟩, false⟩ (toText u)) s)
    ∧ (2 < b.toNat →
      Takes .invalidBankOp (.plain b)
        (fun u =>
          { toText u with
            reply :=
              { u.reply with
                counters := { u.reply.counters with stray := min 65535 (u.reply.counters.stray + 1) } } }) s)

/-! ### The reply unit (chapter 10) -/

/-- R16, R20, R38, R53, R69, R89, R174, R180 to R183: what each reply holds, in its own fields; and a QUERY of kind 0 to 3
offers its reply, which joins at a depth of 5 or fewer, built at that moment, and otherwise waits; kind 2 clears the counters as
it joins; a kind above 3 counts STRAY. -/
def Obligations.QueriesOfferReplies : Prop :=
  (∀ (s : State) (table : TableKind) (standby : Bool) (index : Nat),
    statusFields s =
      { unitNumber := s.port.unitNumber, acceptAll := s.port.acceptAll
        takeOpen := decide (s.port.condition = .accepting), portPriority := s.port.priority
        activeBank := s.tables.active
        standbyValid := (match s.tables.active with | .a => s.tables.bankB.valid | .b => s.tables.bankA.valid)
        pendingNonEmpty := decide (s.format.pending ≠ PendingSet.empty)
        cells := s.shaper.line.cells.length, items := s.shaper.line.items
        exposureDepth := s.bus.queue.length, busState := s.bus.state
        inputLevel := s.port.queue.length, hold := s.port.ownHold, returnDepth := s.reply.queue.length }
    ∧ (let bank := if standby = true then s.tables.standbyBank else s.tables.activeBank
      let present : Bool :=
        match table with
        | .codeMap => decide (index ≤ 895)
        | .glyphs => decide (1 ≤ index ∧ index ≤ 1023)
        | .ligatures => decide (index ≤ 255)
        | .header => decide (index = 0)
      entryRecord table standby index s =
        .entry table standby index present
          (if present = true then bank.item table index else List.replicate table.itemSize 0))
    ∧ buildReply .status s = .status (statusFields s) ∧ buildReply .counts s = .counts s.reply.counters
    ∧ buildReply .countsAndClear s = .counts s.reply.counters
    ∧ buildReply (.entry table standby index) s = entryRecord table standby index s)
  ∧ ∀ (s : State) (kind a b1 b0 : Byte), Ready (.plain b0) s → s.decoder.state = .args .query [kind, a, b1] →
    let toText (u : State) : State := { u with decoder := { u.decoder with state := .text } }
    let joins (record : Record) (q : Query) (u : State) : State :=
      if u.reply.queue.length ≤ 5 then
        { toText u with
          reply :=
            { u.reply with
              queue := u.reply.queue ++ [record]
              offered := none
              counters := if kind.toNat = 2 then ⟨0, 0, 0, 0, 0, 0, 0, 0, 0, 0, 0, 0, 0, 0⟩ else u.reply.counters } }
      else { toText u with reply := { u.reply with offered := some q } }
    (kind.toNat = 0 → Takes .status (.plain b0) (fun u => joins (.status (statusFields (toText u))) .status u) s)
    ∧ (kind.toNat = 1 → Takes .counts (.plain b0) (fun u => joins (.counts u.reply.counters) .counts u) s)
    ∧ (kind.toNat = 2 →
      Takes .countsAndClear (.plain b0) (fun u => joins (.counts u.reply.counters) .countsAndClear u) s)
    ∧ (∀ table, (a.toNat % 4, table) ∈ [(0, TableKind.codeMap), (1, .glyphs), (2, .ligatures), (3, .header)] →
      let standby : Bool := decide (a.toNat / 4 % 2 = 1)
      let index := b1.toNat * 256 + b0.toNat
      kind.toNat = 3 →
      Takes .entry (.plain b0)
        (fun u => joins (entryRecord table standby index u) (.entry table standby index) u) s)
    ∧ (3 < kind.toNat →
      Takes .invalidQueryKind (.plain b0)
        (fun u =>
          { toText u with
            reply :=
              { u.reply with
                counters := { u.reply.counters with stray := min 65535 (u.reply.counters.stray + 1) } } }) s)

/-- R20, R178, R180, R184, R190: what happens at the return queue and the sender, and the characters of each record. A departure
that leaves a depth of 5 or fewer joins a reply that waits at once. That a record's end leaves the sender idle until the command
RECORD_DEPARTURE, before which other commands may stand, is the model's choice (log 10; R178 has the next head record taken at
once). That OFFERED_REPLY_JOIN names that joining and alone joins a
reply where one stands at such a depth is the model's choice (log 10); so is that a hold's operand is the characters begun, that
RECORD_SENT tells the end of the record whatever is unsent, and that a hold on a held line changes nothing (log 11). That an
event which cannot come is refused, and that a hold after more characters than a record has faults, is log 7's. -/
def Obligations.ReturnLineEvents : Prop :=
  (∀ (r : Record),
    let two (n : Nat) : List Byte := [BitVec.ofNat 8 (n / 256), BitVec.ofNat 8 n]
    let yes (given : Bool) : Byte := if given = true then 1 else 0
    let bank (n : BankName) : Byte := match n with | .a => 0 | .b => 1
    let portState (n : BusState) : Byte :=
      match n with
      | .busIdle => 0 | .waiting => 1 | .contending => 2 | .sending => 3 | .awaiting => 4 | .deferring => 5
    let noticeKind (n : NoticeKind) : Byte :=
      match n with
      | .overrun => 1 | .takeCut => 2 | .takeStalled => 3 | .loadRefused => 4 | .loadSum => 5 | .loadAborted => 6
      | .swapRefused => 7 | .packetRejected => 8 | .holdExpired => 9 | .collision => 10
    let kind : Byte := match r with | .status _ => 1 | .counts _ => 2 | .entry _ _ _ _ _ => 3 | .notice _ _ _ => 4
    let plain : List Byte :=
      match r with
      | .status f =>
        [BitVec.ofNat 8 f.unitNumber.toNat, yes f.acceptAll, yes f.takeOpen, BitVec.ofNat 8 f.portPriority.toNat,
          bank f.activeBank, yes f.standbyValid, yes f.pendingNonEmpty, BitVec.ofNat 8 f.cells, BitVec.ofNat 8 f.items,
          BitVec.ofNat 8 f.exposureDepth, portState f.busState] ++ two f.inputLevel
          ++ [yes f.hold, BitVec.ofNat 8 f.returnDepth]
      | .counts c =>
        [c.takes, c.lines, c.forced, c.overset, c.loose, c.unmapped, c.orphans, c.markOverflow, c.stray, c.overrun,
          c.contestsLost, c.deferred, c.rejected, c.holdExpiries].flatMap two
      | .entry table standby index present item =>
        [(match table with | .codeMap => 0 | .glyphs => 1 | .ligatures => 2 | .header => 3), yes standby] ++ two index
          ++ [yes present] ++ item
      | .notice k repeats detail => [noticeKind k, BitVec.ofNat 8 repeats] ++ two detail
    r.characters = (true, kind) :: plain.map (fun b => (false, b)))
  ∧ ∀ (s : State),
    (∀ q, s.reply.offered = some q → s.reply.queue.length ≤ 5 →
      exec .offeredReplyJoin s =
        .next
          { s with
            reply :=
              { s.reply with
                queue := s.reply.queue ++ [buildReply q s]
                offered := none
                counters :=
                  if q = .countsAndClear then ⟨0, 0, 0, 0, 0, 0, 0, 0, 0, 0, 0, 0, 0, 0⟩ else s.reply.counters } })
    ∧ (s.reply.offered = none → exec .offeredReplyJoin s = .next s)
    ∧ (s.reply.offered.isSome = true → 5 < s.reply.queue.length →
      exec .offeredReplyJoin s = .refused (.cannotOccur .returnQueueDeep))
    ∧ (∀ r rest, s.reply.queue = r :: rest → s.reply.sender = none → s.reply.held = false →
      let departed : State :=
        { s with reply := { s.reply with queue := rest, sender := some ⟨r, r.characters⟩ } }
      (s.reply.offered = none ∨ 5 < rest.length → exec .recordDeparture s = .next departed)
      ∧ (∀ q, s.reply.offered = some q → rest.length ≤ 5 →
        exec .recordDeparture s =
          .next
            { departed with
              reply :=
                { departed.reply with
                  queue := rest ++ [buildReply q departed]
                  offered := none
                  counters :=
                    if q = .countsAndClear then ⟨0, 0, 0, 0, 0, 0, 0, 0, 0, 0, 0, 0, 0, 0⟩ else s.reply.counters } }))
    ∧ (∀ r, s.reply.sender = some r → s.reply.held = false ∨ r.unsent = [] →
      exec .recordSent s = .next { s with reply := { s.reply with sender := none } })
    ∧ (∀ n, n ≤ 29 → s.reply.held = false →
      exec (.returnLineHold n) s =
        .next
          { s with
            reply :=
              { s.reply with
                held := true
                sender := s.reply.sender.map (fun r => { r with unsent := r.unsent.drop n }) } })
    ∧ (∀ n, n ≤ 29 → s.reply.held = true → exec (.returnLineHold n) s = .next s)
    ∧ exec .returnLineRelease s = .next { s with reply := { s.reply with held := false } }
    ∧ (s.reply.queue = [] ∨ s.reply.sender.isSome = true ∨ s.reply.held = true →
      exec .recordDeparture s = .refused (.cannotOccur .noRecordCanLeave))
    ∧ (s.reply.sender = none → exec .recordSent s = .refused (.cannotOccur .recordUnfinished))
    ∧ (∀ r, s.reply.sender = some r → s.reply.held = true → r.unsent ≠ [] →
      exec .recordSent s = .refused (.cannotOccur .recordUnfinished))
    ∧ (∀ n, 29 < n → exec (.returnLineHold n) s = .fault .illFormedOperand)

/-- R179, R184: a notice merges into the queued notice of its kind, which keeps its place, or joins the tail with repeat count 1;
nothing else in the unit changes. -/
def Obligations.NoticesMerge : Prop :=
  ∀ (s : State) (kind : NoticeKind) (detail : Nat),
    (kind ∉ noticeKinds s.reply.queue →
      raise kind detail s = { s with reply := { s.reply with queue := s.reply.queue ++ [.notice kind 1 detail] } })
    ∧ (∀ before after n old, s.reply.queue = before ++ .notice kind n old :: after → kind ∉ noticeKinds before →
      raise kind detail s =
        { s with
          reply :=
            { s.reply with queue := before ++ .notice kind (min 255 (n + 1)) detail :: after } })

/-- R185: no counter decreases but at power-on and at a COUNTS-and-clear reply's joining. -/
def Obligations.CountersNeverDecrease : Prop :=
  (∀ k : Counters,
    [CounterName.takes, .lines, .forced, .overset, .loose, .unmapped, .orphans, .markOverflow, .stray, .overrun, .contestsLost,
        .deferred, .rejected, .holdExpiries].map k.get =
      [k.takes, k.lines, k.forced, k.overset, k.loose, k.unmapped, k.orphans, k.markOverflow, k.stray, k.overrun,
        k.contestsLost, k.deferred, k.rejected, k.holdExpiries])
  ∧ ∀ (c : Instr) (s t : State) (name : CounterName), exec c s = .next t →
    (∀ strap acceptAll, c ≠ .powerOn strap acceptAll) → c ≠ .countsAndClear →
    (c = .offeredReplyJoin ∨ c = .recordDeparture → s.reply.offered ≠ some .countsAndClear) →
    (s.reply.counters.get name ≤ 65535 → s.reply.counters.get name ≤ t.reply.counters.get name)

/-- R56, R57: no command but power-on writes the active bank: after it the active bank is the one that was active, or, when the
roles have exchanged, the one that was standby, as it stood. -/
def Obligations.ActiveBankIsNeverWritten : Prop :=
  ∀ (c : Instr) (s t : State), exec c s = .next t → (∀ strap acceptAll, c ≠ .powerOn strap acceptAll) →
    t.tables.activeBank = s.tables.activeBank
    ∨ (t.tables.active ≠ s.tables.active ∧ t.tables.activeBank = s.tables.standbyBank
        ∧ t.tables.standbyBank = s.tables.activeBank)

/-- R1, R17: the unit number, the accept-all setting and the strap pins as read keep their values until the next power-on; the
commands of the exposure bus and of the return line do not touch the setting port, the decoder, the format set, the tables or
the shaper. -/
def Obligations.FramesOfTheBlocks : Prop :=
  ∀ (c : Instr) (s t : State), exec c s = .next t →
    ((∀ strap acceptAll, c ≠ .powerOn strap acceptAll) →
      t.port.unitNumber = s.port.unitNumber ∧ t.port.acceptAll = s.port.acceptAll ∧ t.port.strapPins = s.port.strapPins
      ∧ t.port.acceptAllPin = s.port.acceptAllPin ∧ t.pending = s.pending)
    ∧ (c ∈ [.busFree, .busFoundBusy, .contestLost, .contestWon, .collision, .packetSent, .accept, .reject, .defer, .holdExpiry,
        .deferExpiry, .imagingUnitRelease, .offeredReplyJoin, .recordDeparture, .recordSent, .returnLineRelease] →
      t.port = s.port ∧ t.decoder = s.decoder ∧ t.format = s.format ∧ t.tables = s.tables ∧ t.shaper = s.shaper)

/-! ### Invariants that every step keeps -/

/-- R8, R10 to R15: the setting port's invariant. -/
def Obligations.StepKeepsPortInv : Prop := ∀ s t : State, PortInv s → step s = .next t → PortInv t

/-- R19, R20, R42, R43, R45, R50, R51: every parameter stays in its range; and, by itself, pending writes stand only beside cells
and the decoder has one wait at a time. -/
def Obligations.StepKeepsFormatAndWaitInv : Prop :=
  ∀ s t : State, step s = .next t → (FormatInv s → FormatInv t) ∧ (WaitInv s → WaitInv t)

/-- R57, R82, R83: canonical tables and a valid active bank. -/
def Obligations.StepKeepsTableInv : Prop := ∀ s t : State, TableInv s → step s = .next t → TableInv t

/-- R36, R73, R74, R85: loads stay inside their tables. -/
def Obligations.StepKeepsLoadInv : Prop := ∀ s t : State, LoadInv s → step s = .next t → LoadInv t

/-- R88, R105: the accumulator and the item count are the sums of the cells. -/
def Obligations.StepKeepsLineSumsInv : Prop := ∀ s t : State, LineSumsInv s → step s = .next t → LineSumsInv t

/-- R88, R104: the line store's bounds. -/
def Obligations.StepKeepsLineStoreInv : Prop := ∀ s t : State, LineStoreInv s → step s = .next t → LineStoreInv t

/-- R91, R113 to R115: the provisional letter and the last eligible break. -/
def Obligations.StepKeepsBreakInv : Prop := ∀ s t : State, BreakInv s → step s = .next t → BreakInv t

/-- R154, R157 to R173: the exposure queue and the bus port. -/
def Obligations.StepKeepsBusInv : Prop := ∀ s t : State, BusInv s → step s = .next t → BusInv t

/-- R177 to R185: the return queue, the sender and the counters. -/
def Obligations.StepKeepsReplyInv : Prop := ∀ s t : State, ReplyInv s → step s = .next t → ReplyInv t
end

