-- ==== Sys2Proof/Laws/State.lean ====
section
/-! SUPPORT. One lemma per field per setter of State. -/

namespace Sys2Proof.Machine

section Setters

variable (s : State)

/-! `setPort` -/
@[simp] theorem setPort_port (x : Port) : (s.setPort x).port = x := rfl
@[simp] theorem setPort_decoder (x : Port) : (s.setPort x).decoder = s.decoder := rfl
@[simp] theorem setPort_format (x : Port) : (s.setPort x).format = s.format := rfl
@[simp] theorem setPort_tables (x : Port) : (s.setPort x).tables = s.tables := rfl
@[simp] theorem setPort_shaper (x : Port) : (s.setPort x).shaper = s.shaper := rfl
@[simp] theorem setPort_bus (x : Port) : (s.setPort x).bus = s.bus := rfl
@[simp] theorem setPort_reply (x : Port) : (s.setPort x).reply = s.reply := rfl
@[simp] theorem setPort_freeIndex (x : Port) : (s.setPort x).freeIndex = s.freeIndex := rfl
@[simp] theorem setPort_pending (x : Port) : (s.setPort x).pending = s.pending := rfl

/-! `setDecoder` -/
@[simp] theorem setDecoder_port (x : Decoder) : (s.setDecoder x).port = s.port := rfl
@[simp] theorem setDecoder_decoder (x : Decoder) : (s.setDecoder x).decoder = x := rfl
@[simp] theorem setDecoder_format (x : Decoder) : (s.setDecoder x).format = s.format := rfl
@[simp] theorem setDecoder_tables (x : Decoder) : (s.setDecoder x).tables = s.tables := rfl
@[simp] theorem setDecoder_shaper (x : Decoder) : (s.setDecoder x).shaper = s.shaper := rfl
@[simp] theorem setDecoder_bus (x : Decoder) : (s.setDecoder x).bus = s.bus := rfl
@[simp] theorem setDecoder_reply (x : Decoder) : (s.setDecoder x).reply = s.reply := rfl
@[simp] theorem setDecoder_freeIndex (x : Decoder) : (s.setDecoder x).freeIndex = s.freeIndex := rfl
@[simp] theorem setDecoder_pending (x : Decoder) : (s.setDecoder x).pending = s.pending := rfl

/-! `setFormat` -/
@[simp] theorem setFormat_port (x : FormatSet) : (s.setFormat x).port = s.port := rfl
@[simp] theorem setFormat_decoder (x : FormatSet) : (s.setFormat x).decoder = s.decoder := rfl
@[simp] theorem setFormat_format (x : FormatSet) : (s.setFormat x).format = x := rfl
@[simp] theorem setFormat_tables (x : FormatSet) : (s.setFormat x).tables = s.tables := rfl
@[simp] theorem setFormat_shaper (x : FormatSet) : (s.setFormat x).shaper = s.shaper := rfl
@[simp] theorem setFormat_bus (x : FormatSet) : (s.setFormat x).bus = s.bus := rfl
@[simp] theorem setFormat_reply (x : FormatSet) : (s.setFormat x).reply = s.reply := rfl
@[simp] theorem setFormat_freeIndex (x : FormatSet) : (s.setFormat x).freeIndex = s.freeIndex := rfl
@[simp] theorem setFormat_pending (x : FormatSet) : (s.setFormat x).pending = s.pending := rfl

/-! `setTables` -/
@[simp] theorem setTables_port (x : TableBlock) : (s.setTables x).port = s.port := rfl
@[simp] theorem setTables_decoder (x : TableBlock) : (s.setTables x).decoder = s.decoder := rfl
@[simp] theorem setTables_format (x : TableBlock) : (s.setTables x).format = s.format := rfl
@[simp] theorem setTables_tables (x : TableBlock) : (s.setTables x).tables = x := rfl
@[simp] theorem setTables_shaper (x : TableBlock) : (s.setTables x).shaper = s.shaper := rfl
@[simp] theorem setTables_bus (x : TableBlock) : (s.setTables x).bus = s.bus := rfl
@[simp] theorem setTables_reply (x : TableBlock) : (s.setTables x).reply = s.reply := rfl
@[simp] theorem setTables_freeIndex (x : TableBlock) : (s.setTables x).freeIndex = s.freeIndex := rfl
@[simp] theorem setTables_pending (x : TableBlock) : (s.setTables x).pending = s.pending := rfl

/-! `setShaper` -/
@[simp] theorem setShaper_port (x : Shaper) : (s.setShaper x).port = s.port := rfl
@[simp] theorem setShaper_decoder (x : Shaper) : (s.setShaper x).decoder = s.decoder := rfl
@[simp] theorem setShaper_format (x : Shaper) : (s.setShaper x).format = s.format := rfl
@[simp] theorem setShaper_tables (x : Shaper) : (s.setShaper x).tables = s.tables := rfl
@[simp] theorem setShaper_shaper (x : Shaper) : (s.setShaper x).shaper = x := rfl
@[simp] theorem setShaper_bus (x : Shaper) : (s.setShaper x).bus = s.bus := rfl
@[simp] theorem setShaper_reply (x : Shaper) : (s.setShaper x).reply = s.reply := rfl
@[simp] theorem setShaper_freeIndex (x : Shaper) : (s.setShaper x).freeIndex = s.freeIndex := rfl
@[simp] theorem setShaper_pending (x : Shaper) : (s.setShaper x).pending = s.pending := rfl

/-! `setBus` -/
@[simp] theorem setBus_port (x : Bus) : (s.setBus x).port = s.port := rfl
@[simp] theorem setBus_decoder (x : Bus) : (s.setBus x).decoder = s.decoder := rfl
@[simp] theorem setBus_format (x : Bus) : (s.setBus x).format = s.format := rfl
@[simp] theorem setBus_tables (x : Bus) : (s.setBus x).tables = s.tables := rfl
@[simp] theorem setBus_shaper (x : Bus) : (s.setBus x).shaper = s.shaper := rfl
@[simp] theorem setBus_bus (x : Bus) : (s.setBus x).bus = x := rfl
@[simp] theorem setBus_reply (x : Bus) : (s.setBus x).reply = s.reply := rfl
@[simp] theorem setBus_freeIndex (x : Bus) : (s.setBus x).freeIndex = s.freeIndex := rfl
@[simp] theorem setBus_pending (x : Bus) : (s.setBus x).pending = s.pending := rfl

/-! `setReply` -/
@[simp] theorem setReply_port (x : ReplyUnit) : (s.setReply x).port = s.port := rfl
@[simp] theorem setReply_decoder (x : ReplyUnit) : (s.setReply x).decoder = s.decoder := rfl
@[simp] theorem setReply_format (x : ReplyUnit) : (s.setReply x).format = s.format := rfl
@[simp] theorem setReply_tables (x : ReplyUnit) : (s.setReply x).tables = s.tables := rfl
@[simp] theorem setReply_shaper (x : ReplyUnit) : (s.setReply x).shaper = s.shaper := rfl
@[simp] theorem setReply_bus (x : ReplyUnit) : (s.setReply x).bus = s.bus := rfl
@[simp] theorem setReply_reply (x : ReplyUnit) : (s.setReply x).reply = x := rfl
@[simp] theorem setReply_freeIndex (x : ReplyUnit) : (s.setReply x).freeIndex = s.freeIndex := rfl
@[simp] theorem setReply_pending (x : ReplyUnit) : (s.setReply x).pending = s.pending := rfl

/-! `setFreeIndex` -/
@[simp] theorem setFreeIndex_port (x : Nat) : (s.setFreeIndex x).port = s.port := rfl
@[simp] theorem setFreeIndex_decoder (x : Nat) : (s.setFreeIndex x).decoder = s.decoder := rfl
@[simp] theorem setFreeIndex_format (x : Nat) : (s.setFreeIndex x).format = s.format := rfl
@[simp] theorem setFreeIndex_tables (x : Nat) : (s.setFreeIndex x).tables = s.tables := rfl
@[simp] theorem setFreeIndex_shaper (x : Nat) : (s.setFreeIndex x).shaper = s.shaper := rfl
@[simp] theorem setFreeIndex_bus (x : Nat) : (s.setFreeIndex x).bus = s.bus := rfl
@[simp] theorem setFreeIndex_reply (x : Nat) : (s.setFreeIndex x).reply = s.reply := rfl
@[simp] theorem setFreeIndex_freeIndex (x : Nat) : (s.setFreeIndex x).freeIndex = x := rfl
@[simp] theorem setFreeIndex_pending (x : Nat) : (s.setFreeIndex x).pending = s.pending := rfl

/-! `setPending` -/
@[simp] theorem setPending_port (x : List Instr) : (s.setPending x).port = s.port := rfl
@[simp] theorem setPending_decoder (x : List Instr) : (s.setPending x).decoder = s.decoder := rfl
@[simp] theorem setPending_format (x : List Instr) : (s.setPending x).format = s.format := rfl
@[simp] theorem setPending_tables (x : List Instr) : (s.setPending x).tables = s.tables := rfl
@[simp] theorem setPending_shaper (x : List Instr) : (s.setPending x).shaper = s.shaper := rfl
@[simp] theorem setPending_bus (x : List Instr) : (s.setPending x).bus = s.bus := rfl
@[simp] theorem setPending_reply (x : List Instr) : (s.setPending x).reply = s.reply := rfl
@[simp] theorem setPending_freeIndex (x : List Instr) : (s.setPending x).freeIndex = s.freeIndex := rfl
@[simp] theorem setPending_pending (x : List Instr) : (s.setPending x).pending = x := rfl

/-! `setLine` -/
@[simp] theorem setLine_port (ln : Line) : (s.setLine ln).port = s.port := rfl
@[simp] theorem setLine_decoder (ln : Line) : (s.setLine ln).decoder = s.decoder := rfl
@[simp] theorem setLine_format (ln : Line) : (s.setLine ln).format = s.format := rfl
@[simp] theorem setLine_tables (ln : Line) : (s.setLine ln).tables = s.tables := rfl
@[simp] theorem setLine_bus (ln : Line) : (s.setLine ln).bus = s.bus := rfl
@[simp] theorem setLine_reply (ln : Line) : (s.setLine ln).reply = s.reply := rfl
@[simp] theorem setLine_freeIndex (ln : Line) : (s.setLine ln).freeIndex = s.freeIndex := rfl
@[simp] theorem setLine_pending (ln : Line) : (s.setLine ln).pending = s.pending := rfl
@[simp] theorem setLine_line (ln : Line) : (s.setLine ln).shaper.line = ln := rfl
@[simp] theorem setLine_paraDue (ln : Line) : (s.setLine ln).shaper.paraDue = s.shaper.paraDue := rfl
@[simp] theorem setLine_waiting (ln : Line) : (s.setLine ln).shaper.waiting = s.shaper.waiting := rfl
@[simp] theorem setLine_same : s.setLine s.shaper.line = s := rfl

/-! The accessors over the setters -/
@[simp] theorem bank_setLine (ln : Line) : (s.setLine ln).bank = s.bank := rfl
@[simp] theorem copy_setLine (ln : Line) : (s.setLine ln).copy = s.copy := rfl
@[simp] theorem bank_setPort (x : Port) : (s.setPort x).bank = s.bank := rfl
@[simp] theorem copy_setPort (x : Port) : (s.setPort x).copy = s.copy := rfl
@[simp] theorem bank_setDecoder (x : Decoder) : (s.setDecoder x).bank = s.bank := rfl
@[simp] theorem copy_setDecoder (x : Decoder) : (s.setDecoder x).copy = s.copy := rfl
@[simp] theorem bank_setFormat (x : FormatSet) : (s.setFormat x).bank = s.bank := rfl
@[simp] theorem copy_setTables (x : TableBlock) : (s.setTables x).copy = s.copy := rfl
@[simp] theorem bank_setShaper (x : Shaper) : (s.setShaper x).bank = s.bank := rfl
@[simp] theorem copy_setShaper (x : Shaper) : (s.setShaper x).copy = s.copy := rfl
@[simp] theorem bank_setBus (x : Bus) : (s.setBus x).bank = s.bank := rfl
@[simp] theorem copy_setBus (x : Bus) : (s.setBus x).copy = s.copy := rfl
@[simp] theorem bank_setReply (x : ReplyUnit) : (s.setReply x).bank = s.bank := rfl
@[simp] theorem copy_setReply (x : ReplyUnit) : (s.setReply x).copy = s.copy := rfl
@[simp] theorem bank_setFreeIndex (x : Nat) : (s.setFreeIndex x).bank = s.bank := rfl
@[simp] theorem copy_setFreeIndex (x : Nat) : (s.setFreeIndex x).copy = s.copy := rfl
@[simp] theorem bank_setPending (x : List Instr) : (s.setPending x).bank = s.bank := rfl
@[simp] theorem copy_setPending (x : List Instr) : (s.setPending x).copy = s.copy := rfl

end Setters

end Sys2Proof.Machine
end

