-- ==== Sys2Proof/Laws/Ops.lean ====
section
/-! SUPPORT. What counting, raising a notice, storing, losing and removing can do. -/

namespace Sys2Proof.Machine

/-! ### Counting and raising touch the reply unit only -/

section Frames

variable (s : State) (name : CounterName) (n : Nat) (kind : NoticeKind) (detail : Nat)

@[simp] theorem countBy_port : (countBy name n s).port = s.port := rfl
@[simp] theorem countBy_decoder : (countBy name n s).decoder = s.decoder := rfl
@[simp] theorem countBy_format : (countBy name n s).format = s.format := rfl
@[simp] theorem countBy_tables : (countBy name n s).tables = s.tables := rfl
@[simp] theorem countBy_shaper : (countBy name n s).shaper = s.shaper := rfl
@[simp] theorem countBy_bus : (countBy name n s).bus = s.bus := rfl
@[simp] theorem countBy_pending : (countBy name n s).pending = s.pending := rfl
@[simp] theorem countBy_queue : (countBy name n s).reply.queue = s.reply.queue := rfl
@[simp] theorem countBy_sender : (countBy name n s).reply.sender = s.reply.sender := rfl
@[simp] theorem countBy_held : (countBy name n s).reply.held = s.reply.held := rfl
@[simp] theorem countBy_offered : (countBy name n s).reply.offered = s.reply.offered := rfl
@[simp] theorem countBy_counters : (countBy name n s).reply.counters = s.reply.counters.add name n := rfl

@[simp] theorem count_port : (count name s).port = s.port := rfl
@[simp] theorem count_decoder : (count name s).decoder = s.decoder := rfl
@[simp] theorem count_format : (count name s).format = s.format := rfl
@[simp] theorem count_tables : (count name s).tables = s.tables := rfl
@[simp] theorem count_shaper : (count name s).shaper = s.shaper := rfl
@[simp] theorem count_bus : (count name s).bus = s.bus := rfl
@[simp] theorem count_pending : (count name s).pending = s.pending := rfl
@[simp] theorem count_queue : (count name s).reply.queue = s.reply.queue := rfl
@[simp] theorem count_offered : (count name s).reply.offered = s.reply.offered := rfl

@[simp] theorem raise_port : (raise kind detail s).port = s.port := rfl
@[simp] theorem raise_decoder : (raise kind detail s).decoder = s.decoder := rfl
@[simp] theorem raise_format : (raise kind detail s).format = s.format := rfl
@[simp] theorem raise_tables : (raise kind detail s).tables = s.tables := rfl
@[simp] theorem raise_shaper : (raise kind detail s).shaper = s.shaper := rfl
@[simp] theorem raise_bus : (raise kind detail s).bus = s.bus := rfl
@[simp] theorem raise_pending : (raise kind detail s).pending = s.pending := rfl
@[simp] theorem raise_sender : (raise kind detail s).reply.sender = s.reply.sender := rfl
@[simp] theorem raise_held : (raise kind detail s).reply.held = s.reply.held := rfl
@[simp] theorem raise_offered : (raise kind detail s).reply.offered = s.reply.offered := rfl
@[simp] theorem raise_counters : (raise kind detail s).reply.counters = s.reply.counters := rfl
@[simp] theorem raise_queue : (raise kind detail s).reply.queue = raiseIn kind detail s.reply.queue := rfl

end Frames

/-- Counting conditionally is counting or nothing. -/
theorem countIf_eq (b : Bool) (name : CounterName) (s : State) : countIf b name s = if b then count name s else s := rfl

/-- R185: an addition never lowers a counter that is in range, and never leaves the range. -/
theorem add_get (c : Counters) (name name' : CounterName) (k : Nat) :
    (c.add name k).get name' = if name' = name then saturate (c.get name) k else c.get name' := by
  cases name <;> cases name' <;> rfl

theorem saturate_le (n k : Nat) : saturate n k ≤ 65535 := Nat.min_le_left _ _

theorem le_saturate {n : Nat} (h : n ≤ 65535) (k : Nat) : n ≤ saturate n k := by
  simp only [saturate, Config.counterMax]
  omega

/-! ### Notices in the return queue (R179) -/

open Sys2Proof.Safety

/-- A merge leaves the kinds as they stand; otherwise the kind joins the tail. -/
theorem noticeKinds_raiseIn (kind : NoticeKind) (detail : Nat) (q : List Record) :
    noticeKinds (raiseIn kind detail q) = if kind ∈ noticeKinds q then noticeKinds q else noticeKinds q ++ [kind] := by
  induction q with
  | nil => rfl
  | cons r rest ih =>
    cases r with
    | notice k n d =>
      by_cases h : k = kind
      · subst h
        simp [raiseIn, noticeKinds]
      · have h' : kind ≠ k := fun e => h e.symm
        simp only [raiseIn, if_neg h, noticeKinds, List.mem_cons, h', false_or, ih]
        split <;> rfl
    | status f => by_cases h : kind ∈ noticeKinds rest <;> simp [raiseIn, noticeKinds, ih, h]
    | counts c => by_cases h : kind ∈ noticeKinds rest <;> simp [raiseIn, noticeKinds, ih, h]
    | entry t b i p v => by_cases h : kind ∈ noticeKinds rest <;> simp [raiseIn, noticeKinds, ih, h]

/-- The queue grows by one exactly when no notice of the kind stands in it. -/
theorem length_raiseIn (kind : NoticeKind) (detail : Nat) (q : List Record) :
    (raiseIn kind detail q).length = if kind ∈ noticeKinds q then q.length else q.length + 1 := by
  induction q with
  | nil => rfl
  | cons r rest ih =>
    cases r with
    | notice k n d =>
      by_cases h : k = kind
      · subst h
        simp [raiseIn, noticeKinds]
      · have h' : kind ≠ k := fun e => h e.symm
        simp only [raiseIn, if_neg h, noticeKinds, List.mem_cons, h', false_or, List.length_cons, ih]
        split <;> rfl
    | status f => by_cases h : kind ∈ noticeKinds rest <;> simp [raiseIn, noticeKinds, ih, h]
    | counts c => by_cases h : kind ∈ noticeKinds rest <;> simp [raiseIn, noticeKinds, ih, h]
    | entry t b i p v => by_cases h : kind ∈ noticeKinds rest <;> simp [raiseIn, noticeKinds, ih, h]

theorem noticeKinds_append (q r : List Record) : noticeKinds (q ++ r) = noticeKinds q ++ noticeKinds r := by
  induction q with
  | nil => rfl
  | cons x rest ih => cases x <;> simp [noticeKinds, ih]

theorem noticeKinds_length_le (q : List Record) : (noticeKinds q).length ≤ q.length := by
  induction q with
  | nil => exact Nat.le_refl _
  | cons x rest ih => cases x <;> simp only [noticeKinds, List.length_cons] <;> omega

/-! ### The input queue (R8 to R13) -/

/-- A stored entry changes the queue, and at level 960 also the hold drive, the line and the timer. -/
theorem store_eq (e : Entry) (p : Port) (room : p.queue.length < 1024) :
    p.store e =
      if p.queue.length + 1 = 960 then
        { p with queue := p.queue ++ [e], ownHold := true, takeTimer := none }
      else { p with queue := p.queue ++ [e] } := by
  unfold Port.store
  rw [if_pos room]

@[simp] theorem store_condition (e : Entry) (p : Port) : (p.store e).condition = p.condition := by
  unfold Port.store; repeat' split
  all_goals rfl

@[simp] theorem store_loss (e : Entry) (p : Port) : (p.store e).loss = p.loss := by
  unfold Port.store; repeat' split
  all_goals rfl

@[simp] theorem store_unitNumber (e : Entry) (p : Port) : (p.store e).unitNumber = p.unitNumber := by
  unfold Port.store; repeat' split
  all_goals rfl

@[simp] theorem store_acceptAll (e : Entry) (p : Port) : (p.store e).acceptAll = p.acceptAll := by
  unfold Port.store; repeat' split
  all_goals rfl

theorem store_length (e : Entry) (p : Port) (room : p.queue.length < 1024) :
    (p.store e).queue.length = p.queue.length + 1 := by
  rw [store_eq e p room]
  split <;> simp

@[simp] theorem lose_queue (b : Option Boundary) (p : Port) : (p.lose b).queue = p.queue := rfl
@[simp] theorem lose_condition (b : Option Boundary) (p : Port) : (p.lose b).condition = p.condition := rfl
@[simp] theorem lose_ownHold (b : Option Boundary) (p : Port) : (p.lose b).ownHold = p.ownHold := rfl
@[simp] theorem lose_holdLine (b : Option Boundary) (p : Port) : (p.lose b).holdLine = p.holdLine := rfl

/-- A restart sets the take timer and nothing else. -/
theorem restartTimer_eq (timeout : Nat) (p : Port) :
    p.restartTimer timeout =
      { p with
        takeTimer := if p.condition = .accepting ∧ p.holdLine = false ∧ timeout ≠ 0 then some timeout else none } := rfl

/-- R11: the line is high while this unit or another drives it. -/
theorem holdLine_eq (p : Port) : p.holdLine = (p.ownHold || p.othersHold) := rfl

/-- R10, R11, R14: lowering the own drive clears it and, where it was the last, restarts the take timer; nothing else. -/
theorem lowerHold_eq (timeout : Nat) (p : Port) :
    p.lowerHold timeout =
      { p with
        ownHold := false
        takeTimer :=
          if p.ownHold = true ∧ p.othersHold = false then
            (if p.condition = .accepting ∧ timeout ≠ 0 then some timeout else none)
          else p.takeTimer } := by
  unfold Port.lowerHold Port.restartTimer
  cases p.ownHold <;> cases p.othersHold <;> simp [Port.holdLine]

@[simp] theorem lowerHold_queue (n : Nat) (p : Port) : (p.lowerHold n).queue = p.queue := by rw [lowerHold_eq]
@[simp] theorem lowerHold_loss (n : Nat) (p : Port) : (p.lowerHold n).loss = p.loss := by rw [lowerHold_eq]
@[simp] theorem lowerHold_condition (n : Nat) (p : Port) : (p.lowerHold n).condition = p.condition := by rw [lowerHold_eq]
@[simp] theorem lowerHold_ownHold (n : Nat) (p : Port) : (p.lowerHold n).ownHold = false := by rw [lowerHold_eq]
@[simp] theorem lowerHold_othersHold (n : Nat) (p : Port) : (p.lowerHold n).othersHold = p.othersHold := by
  rw [lowerHold_eq]

/-- R9, R13: what a removal does to the queue, with or without a loss pending; no loss is pending after it. -/
theorem removeHead_queue (n : Nat) (p : Port) :
    (p.removeHead n).queue =
      match p.loss with
      | none => p.queue.tail
      | some l => (({ p with queue := p.queue.tail } : Port).store l.gapEntry).queue := by
  unfold Port.removeHead
  cases p.loss <;> simp only <;> split <;> simp

@[simp] theorem removeHead_loss (n : Nat) (p : Port) : (p.removeHead n).loss = none := by
  unfold Port.removeHead
  cases hl : p.loss with
  | none => simp only; split <;> simp_all
  | some l => simp only; split <;> simp

@[simp] theorem removeHead_condition (n : Nat) (p : Port) : (p.removeHead n).condition = p.condition := by
  unfold Port.removeHead
  cases p.loss <;> simp only <;> split <;> simp

/-! ### The exposure bus (R159 to R161) -/

/-- R159, R160: a bit time changes the idle count, and the state only when a header begins. -/
theorem bitTime_eq (b : Bus) :
    b.bitTime =
      { b with
        idleCount := if b.busy then 0 else if b.state = .waiting ∧ b.gapReached then 0 else b.idleCount + 1
        state := if b.busy = false ∧ b.state = .waiting ∧ b.gapReached = true then .contending else b.state } := by
  unfold Bus.bitTime Bus.beginHeader
  cases b.busy
  · simp only [Bool.false_eq_true, if_false, true_and]
    split <;> rfl
  · simp

@[simp] theorem bitTime_queue (b : Bus) : b.bitTime.queue = b.queue := by rw [bitTime_eq]
@[simp] theorem bitTime_ownership (b : Bus) : b.bitTime.ownership = b.ownership := by rw [bitTime_eq]
@[simp] theorem bitTime_gap (b : Bus) : b.bitTime.gap = b.gap := by rw [bitTime_eq]

/-! ### The reply unit (R20, R180) -/

/-- R20, R180: the retest at a departure joins a reply that waits at a depth of 5 or fewer, and changes nothing otherwise. -/
theorem retestReply_eq (s : State) :
    retestReply s =
      match s.reply.offered with
      | some q => if s.reply.queue.length ≤ 5 then joinReply q s else s
      | none => s := by
  unfold retestReply
  cases s.reply.offered <;> rfl

@[simp] theorem joinReply_queue (q : Query) (s : State) : (joinReply q s).reply.queue = s.reply.queue ++ [buildReply q s] := rfl
@[simp] theorem joinReply_offered (q : Query) (s : State) : (joinReply q s).reply.offered = none := rfl
@[simp] theorem joinReply_sender (q : Query) (s : State) : (joinReply q s).reply.sender = s.reply.sender := rfl

/-- No reply waits at a depth of 5 or fewer once the retest is made. -/
theorem retestReply_offered (s : State) (h : (retestReply s).reply.offered.isSome = true) :
    6 ≤ (retestReply s).reply.queue.length := by
  rw [retestReply_eq] at h ⊢
  cases hq : s.reply.offered with
  | none => simp [hq] at h
  | some q =>
    simp only [hq] at h ⊢
    split <;> rename_i hd
    · simp [hd] at h
    · omega

end Sys2Proof.Machine
end

