-- ==== Sys2Proof/Laws/Decoder.lean ====
section
/-! SUPPORT. What a decoder event can do: its one inversion lemma, and what carries through a removal. -/

namespace Sys2Proof.Machine

open Sys2Proof.Safety

/-- The event happens when the decoder is not waiting and the head entry is the command's. -/
theorem takeHead_ready {c : Instr} {work : Entry → State → State} {s : State} {e : Entry} (h : Ready e s)
    (hc : commandFor s.decoder e = c) : takeHead c work s = .next (withRemoval e (work e) s) := by
  obtain ⟨hq, hw⟩ := h
  unfold takeHead
  cases hs : s.port.queue with
  | nil => simp [hs] at hq
  | cons x rest =>
    simp only [hs, List.head?_cons, Option.some.injEq] at hq
    subst hq
    simp [hw, hc]

/-- If a decoder event answers a next state, the head entry was its own and the state is the removal with its work. -/
theorem takeHead_next {c : Instr} {work : Entry → State → State} {s t : State} (h : takeHead c work s = .next t) :
    ∃ e, Ready e s ∧ commandFor s.decoder e = c ∧ t = withRemoval e (work e) s := by
  unfold takeHead at h
  cases hw : s.decoderWaiting with
  | true => simp [hw] at h
  | false =>
    simp only [hw, Bool.false_eq_true, if_false] at h
    cases hs : s.port.queue with
    | nil => simp [hs] at h
    | cons x rest =>
      simp only [hs] at h
      by_cases hx : commandFor s.decoder x = c
      · simp only [if_pos hx, Host.Outcome.next.injEq] at h
        exact ⟨x, ⟨by simp [hs], hw⟩, hx, h.symm⟩
      · simp [if_neg hx] at h

/-- The removal and the work in either order of the loss's report. -/
theorem withRemoval_eq (e : Entry) (work : State → State) (s : State) :
    withRemoval e work s =
      match s.port.loss with
      | none => work (removed e s)
      | some l =>
        if Config.lossReportedFirst s.freeIndex then
          work (reportLoss l { removed e s with freeIndex := s.freeIndex + 1 })
        else reportLoss l (work { removed e s with freeIndex := s.freeIndex + 1 }) := rfl

/-- What the removal, the work and a loss's report each keep, a decoder event keeps. -/
theorem withRemoval_keeps {P : State → Prop} {e : Entry} {work : State → State} {s : State}
    (hwork : ∀ u, P u → P (work u)) (hreport : ∀ l u, P u → P (reportLoss l u))
    (h : ∀ n, P { removed e s with freeIndex := n }) : P (withRemoval e work s) := by
  rw [withRemoval_eq]
  cases s.port.loss with
  | none => exact hwork _ (h s.freeIndex)
  | some l =>
    simp only
    split
    · exact hwork _ (hreport l _ (h _))
    · exact hreport l _ (hwork _ (h _))

/-- The meaning of a decoder command from its work alone: the command takes the head entry that is its own. -/
theorem takes_of_takeHead {c : Instr} {e : Entry} {work : Entry → State → State} {work' : State → State} {s : State}
    (hexec : exec c s = takeHead c work s) (h : Ready e s) (hc : commandFor s.decoder e = c)
    (hwork : ∀ n, work e { removed e s with freeIndex := n } = work' { removed e s with freeIndex := n })
    (hreported : ∀ l n, work e (reportLoss l { removed e s with freeIndex := n })
      = work' (reportLoss l { removed e s with freeIndex := n })) : Takes c e work' s := by
  rw [takeHead_ready h hc] at hexec
  unfold Takes
  rw [withRemoval_eq] at hexec
  cases hl : s.port.loss with
  | none =>
    simp only [hl] at hexec ⊢
    rw [hexec]
    exact congrArg _ (hwork s.freeIndex)
  | some l =>
    simp only [hl] at hexec ⊢
    rw [hexec]
    split
    · exact Or.inl (congrArg _ (hreported l _))
    · exact Or.inr (congrArg _ (congrArg _ (hwork _)))

end Sys2Proof.Machine
end

