-- ==== Sys2Proof/Laws/Line.lean ====
section
/-! SUPPORT. What reading a line can do: the break letter, a letter's form by its neighbours, widths, runs reversed
in place, tab stops applied, and the pen of the walk. -/

namespace Sys2Proof.Machine

open Sys2Proof.Safety

/-! ### Neighbours and forms (R90, R94, R97) -/

/-- Transparent cells are looked past. -/
theorem lastSolidFrom_of_transparent (b : Bank) (cells : List Cell) (i : Nat) (found : Option Nat)
    (h : cells.all (fun x => x.transparent b) = true) : lastSolidFrom b i found cells = found := by
  induction cells generalizing i found with
  | nil => rfl
  | cons x r ih =>
    simp only [List.all_cons, Bool.and_eq_true] at h
    simp [lastSolidFrom, h.1, ih _ _ h.2]

/-- The last cell that is not transparent. -/
theorem lastSolidFrom_append (b : Bank) (before after : List Cell) (x : Cell) (i : Nat) (found : Option Nat)
    (h : after.all (fun y => y.transparent b) = true) (hx : x.transparent b = false) :
    lastSolidFrom b i found (before ++ x :: after) = some (i + before.length) := by
  induction before generalizing i found with
  | nil => simp [lastSolidFrom, hx, lastSolidFrom_of_transparent b after _ _ h]
  | cons y r ih =>
    simp only [List.cons_append, lastSolidFrom, ih, List.length_cons]
    congr 1
    omega

/-- R94: the break letter, when the last cell that is not transparent is a LETTER and no ligature. -/
theorem breakLetter_append (b : Bank) (before after : List Cell) (l : Letter)
    (h : after.all (fun y => y.transparent b) = true) (hl : l.transparent b = false) (h2 : l.second = none) :
    breakLetter b (before ++ .letter l :: after) = some (before.length, l) := by
  unfold breakLetter
  rw [lastSolidFrom_append b before after (.letter l) 0 none h hl]
  simp [letterAt, Letter.isLigature, h2]

/-- R97: the previous neighbour is the last of the cells before that are not transparent. -/
theorem previousNeighbour_eq (b : Bank) (before : List Cell) :
    previousNeighbour b before = (before.filter (fun x => !x.transparent b)).getLast? := by
  unfold previousNeighbour
  rw [← List.head?_filter, List.filter_reverse, List.head?_reverse]

/-- R64: a letter set in a form. -/
theorem inForm_eq (b : Bank) (l : Letter) (f : Form) : inForm b l f = l.setForm b f := by cases f <;> rfl

/-- R97, R98: a letter settled, or re-formed, after the cells before it. -/
theorem settledLetter_eq (b : Bank) (before : List Cell) (l : Letter) (nextOffers : Bool) :
    settledLetter b before l nextOffers = l.setForm b (letterForm b before l.glyph nextOffers) := by
  unfold settledLetter letterForm
  rw [previousNeighbour_eq, inForm_eq]
  refine congrArg _ ?_
  generalize (glyphOffersBack b l.glyph && _) = u
  generalize (glyphOffersForward b l.glyph && nextOffers) = v
  cases u <;> cases v <;> rfl

/-! ### Widths (R88) -/

theorem sumFine_append (c : LineCopy) (xs ys : List Cell) : sumFine c (xs ++ ys) = sumFine c xs + sumFine c ys := by
  induction xs with
  | nil => simp [sumFine]
  | cons x r ih =>
    simp only [List.cons_append, sumFine, ih]
    omega

/-- A cell replaced: its width goes and the new one's comes. -/
theorem sumFine_set (c : LineCopy) (cells : List Cell) (i : Nat) (x y : Cell) (h : cells[i]? = some x) :
    sumFine c (cells.set i y) = sumFine c (cells.eraseIdx i) + cellFine c y := by
  induction cells generalizing i with
  | nil => simp at h
  | cons z r ih =>
    cases i with
    | zero =>
      simp only [List.set_cons_zero, List.eraseIdx_cons_zero, sumFine]
      omega
    | succ i =>
      simp only [List.set_cons_succ, List.eraseIdx_cons_succ, sumFine, ih i (by simpa using h)]
      omega

/-- R64: a letter set in a form is settled, with its set glyph's advance. -/
theorem setForm_settled (b : Bank) (l : Letter) (f : Form) :
    (l.setForm b f).settled = true ∧ (l.setForm b f).width = advanceOf b (setGlyphFor b l.glyph f) := by
  cases f <;> exact ⟨rfl, rfl⟩

/-- R94: the break letter stands at the place it is found at. -/
theorem breakLetter_at {b : Bank} {cells : List Cell} {i : Nat} {l : Letter} (h : breakLetter b cells = some (i, l)) :
    cells[i]? = some (.letter l) := by
  unfold breakLetter at h
  split at h <;> try simp at h
  rename_i j _
  unfold letterAt at h
  cases hc : cells[j]? with
  | none => simp [hc] at h
  | some x =>
    rw [hc] at h
    cases x <;> simp at h
    obtain ⟨_, rfl, rfl⟩ := h
    exact hc

/-! ### Extension points (R129) -/

/-- A LETTER joins next in the forms INITIAL and MEDIAL. -/
theorem joinsNext_eq (f : Form) : f.joinsNext = decide (f = .initial ∨ f = .medial) := by cases f <;> rfl

/-! ### Runs reversed in place (R145) -/

/-- Entries of a run join the open run. -/
theorem reverseRuns_run {α : Type} (p : α → Bool) (opened run rest : List α) (h : ∀ e ∈ run, p e = true) :
    reverseRuns p opened (run ++ rest) = reverseRuns p (run.reverse ++ opened) rest := by
  induction run generalizing opened with
  | nil => rfl
  | cons x r ih =>
    rw [List.forall_mem_cons] at h
    simp [reverseRuns, h.1, ih _ h.2]

/-- An entry outside the runs keeps what lies before it apart from what lies after it. -/
theorem reverseRuns_stop {α : Type} (p : α → Bool) (opened before after : List α) (x : α) (h : p x = false) :
    reverseRuns p opened (before ++ x :: after) = reverseRuns p opened before ++ x :: reverseRuns p [] after := by
  induction before generalizing opened with
  | nil => simp [reverseRuns, h]
  | cons y r ih =>
    simp only [List.cons_append, reverseRuns]
    cases p y <;> simp [ih]

theorem reverseRuns_length {α : Type} (p : α → Bool) (opened cells : List α) :
    (reverseRuns p opened cells).length = opened.length + cells.length := by
  induction cells generalizing opened with
  | nil => simp [reverseRuns]
  | cons y r ih =>
    simp only [reverseRuns]
    cases p y <;> simp [ih]
    omega

/-! ### The pending set applied (R46) -/

/-- Stop by stop. -/
theorem applyTabs_eq_zipWith (stops : List Nat) (entries : List (Option Nat)) (h : entries.length = stops.length) :
    applyTabs stops entries = stops.zipWith (fun stop entry => entry.getD stop) entries := by
  induction stops generalizing entries with
  | nil => cases entries <;> rfl
  | cons t r ih =>
    cases entries with
    | nil => simp at h
    | cons e es => simp [applyTabs, ih es (by simpa using h)]

/-! ### The walk (R148) -/

theorem start_advance (e f : Nat) : (Pen.start e).advance f = Pen.start (e + f) := by
  simp only [Pen.start, Pen.advance, Config.finePerStep]
  congr 1 <;> omega

theorem start_fine (e : Nat) : (Pen.start e).fine = e := by
  simp only [Pen.start, Pen.fine, Config.finePerStep]
  omega

/-- The pen after a run of glyphs. -/
theorem walkGlyphs_pen (b : Bank) (c : LineCopy) (glyphs : List Nat) (e : Nat) :
    (walkGlyphs b c glyphs (Pen.start e)).2 = Pen.start (e + runWidth b c glyphs) := by
  induction glyphs generalizing e with
  | nil => rfl
  | cons g r ih =>
    simp only [walkGlyphs, runWidth, start_advance, ih]
    congr 1
    omega

/-- The pen after a cell. -/
theorem walkCell_pen (b : Bank) (c : LineCopy) (x : Cell × Nat) (e : Nat) :
    (walkCell b c x (Pen.start e)).2 = Pen.start (e + placedWidth b c x) := by
  have run : ∀ n g, runWidth b c (List.replicate n g) = n * c.fine (advanceOf b g) := by
    intro n g
    induction n with
    | zero => simp [runWidth]
    | succ n ih =>
      simp only [List.replicate_succ, runWidth, ih, Nat.succ_mul]
      omega
  obtain ⟨x, w⟩ := x
  cases x with
  | letter l =>
    simp only [walkCell, placedWidth, strokeWidth]
    cases headerGlyph b .extension with
    | none => simp [start_advance]
    | some g =>
      simp only [walkGlyphs_pen, start_advance, run]
      congr 1
      omega
  | carrier k => simp [walkCell, placedWidth, start_advance]
  | space s => simp [walkCell, placedWidth, start_advance]
  | tab gap leaders left => simp [walkCell, placedWidth]
  | link k => simp [walkCell, placedWidth]
  | brk a broken d =>
    simp only [walkCell, placedWidth, breakAdvance]
    cases headerGlyph b .breakGlyph <;> cases broken <;> simp [start_advance, LineCopy.fine]

end Sys2Proof.Machine
end

