-- ==== Sys2Proof/Laws/Memory.lean ====
section
/-! SUPPORT. Table memory: every write keeps the canonical form, and a read gives what was last written. -/

namespace Sys2Proof.Machine

theorem wfFrom_weaken {low low' : Nat} {m : Memory} (h : Memory.wfFrom low m = true) (le : low' ≤ low) :
    Memory.wfFrom low' m = true := by
  cases m with
  | nil => rfl
  | cons c rest =>
    obtain ⟨k, v⟩ := c
    simp only [Memory.wfFrom, Bool.and_eq_true, decide_eq_true_eq] at h ⊢
    exact ⟨⟨le_trans le h.1.1, h.1.2⟩, h.2⟩

/-- An address below every listed one reads as the unlisted byte. -/
theorem memRead_below {low : Nat} {m : Memory} (h : Memory.wfFrom low m = true) {a : Nat} (lt : a < low) :
    memRead m a = Config.unlistedByte := by
  induction m generalizing low with
  | nil => rfl
  | cons c rest ih =>
    obtain ⟨k, v⟩ := c
    simp only [Memory.wfFrom, Bool.and_eq_true, decide_eq_true_eq] at h
    have ne : k ≠ a := by omega
    simp only [memRead, if_neg ne]
    exact ih h.2 (by omega)

theorem memWrite_wfFrom {low : Nat} {m : Memory} (h : Memory.wfFrom low m = true) {a : Nat} (le : low ≤ a) (v : Byte) :
    Memory.wfFrom low (memWrite m a v) = true := by
  induction m generalizing low with
  | nil =>
    by_cases hv : v = Config.unlistedByte <;> simp [memWrite, hv, Memory.wfFrom, le]
  | cons c rest ih =>
    obtain ⟨k, w⟩ := c
    simp only [Memory.wfFrom, Bool.and_eq_true, decide_eq_true_eq] at h
    obtain ⟨⟨lk, hw⟩, hr⟩ := h
    by_cases lt : a < k
    · by_cases hv : v = Config.unlistedByte
      · simp [memWrite, lt, hv, Memory.wfFrom, lk, hw, hr]
      · simp only [memWrite, if_pos lt, if_neg hv, Memory.wfFrom, Bool.and_eq_true, decide_eq_true_eq]
        exact ⟨⟨le, hv⟩, ⟨⟨by omega, hw⟩, hr⟩⟩
    · by_cases eq : a = k
      · subst eq
        by_cases hv : v = Config.unlistedByte
        · simp only [memWrite, if_neg (lt_irrefl a), if_true, if_pos hv]
          exact wfFrom_weaken hr (by omega)
        · simp only [memWrite, if_neg (lt_irrefl a), if_true, if_neg hv, Memory.wfFrom, Bool.and_eq_true, decide_eq_true_eq]
          exact ⟨⟨le, hv⟩, hr⟩
      · simp only [memWrite, if_neg lt, if_neg eq, Memory.wfFrom, Bool.and_eq_true, decide_eq_true_eq]
        exact ⟨⟨lk, hw⟩, ih hr (by omega)⟩

/-- A write keeps the canonical form. -/
theorem memWrite_wf {m : Memory} (h : m.wf = true) (a : Nat) (v : Byte) : (memWrite m a v).wf = true :=
  memWrite_wfFrom h (Nat.zero_le a) v

/-- Writes of several bytes keep the canonical form. -/
theorem memWriteBytes_wf {m : Memory} (h : m.wf = true) (a : Nat) (bytes : List Byte) :
    (memWriteBytes m a bytes).wf = true := by
  induction bytes generalizing m a with
  | nil => exact h
  | cons v rest ih => exact ih (memWrite_wf h a v) (a + 1)

theorem memRead_memWrite_wfFrom {low : Nat} {m : Memory} (h : Memory.wfFrom low m = true) (a b : Nat) (v : Byte) :
    memRead (memWrite m a v) b = if b = a then v else memRead m b := by
  induction m generalizing low with
  | nil =>
    by_cases hv : v = Config.unlistedByte
    · simp only [memWrite, if_pos hv, memRead]
      split <;> simp_all
    · simp only [memWrite, if_neg hv, memRead, eq_comm]
  | cons c rest ih =>
    obtain ⟨k, w⟩ := c
    simp only [Memory.wfFrom, Bool.and_eq_true, decide_eq_true_eq] at h
    obtain ⟨⟨lk, hw⟩, hr⟩ := h
    by_cases lt : a < k
    · by_cases hv : v = Config.unlistedByte
      · simp only [memWrite, if_pos lt, if_pos hv]
        by_cases hb : b = a
        · subst hb
          have ne : k ≠ b := by omega
          simp only [memRead, if_neg ne, if_true, hv]
          exact memRead_below hr (by omega)
        · rw [if_neg hb]
      · simp only [memWrite, if_pos lt, if_neg hv, memRead, eq_comm (a := a)]
    · by_cases eq : a = k
      · subst eq
        by_cases hv : v = Config.unlistedByte
        · simp only [memWrite, if_neg (lt_irrefl a), if_true, if_pos hv, memRead]
          by_cases hb : b = a
          · subst hb
            rw [if_pos rfl, hv]
            exact memRead_below hr (by omega)
          · rw [if_neg hb, if_neg (fun h => hb h.symm)]
        · simp only [memWrite, if_neg (lt_irrefl a), if_true, if_neg hv, memRead, eq_comm (a := a)]
          split <;> rfl
      · simp only [memWrite, if_neg lt, if_neg eq, memRead]
        by_cases hb : k = b
        · subst hb
          simp [Ne.symm eq]
        · rw [if_neg hb, if_neg hb]
          exact ih hr

/-- What one byte reads as after a write. -/
theorem memRead_memWrite {m : Memory} (h : m.wf = true) (a b : Nat) (v : Byte) :
    memRead (memWrite m a v) b = if b = a then v else memRead m b := memRead_memWrite_wfFrom h a b v

/-- What one byte reads as after several are written: inside the written range the byte sent, outside it what it was. -/
theorem memRead_memWriteBytes {m : Memory} (h : m.wf = true) (a b : Nat) (bytes : List Byte) :
    memRead (memWriteBytes m a bytes) b =
      if a ≤ b ∧ b < a + bytes.length then bytes.getD (b - a) 0 else memRead m b := by
  induction bytes generalizing m a with
  | nil =>
    have out : ¬ (a ≤ b ∧ b < a + ([] : List Byte).length) := by simp only [List.length_nil]; omega
    rw [if_neg out]
    rfl
  | cons v rest ih =>
    simp only [memWriteBytes, List.length_cons]
    rw [ih (memWrite_wf h a v), memRead_memWrite h]
    by_cases hb : b = a
    · subst hb
      have out : ¬ (b + 1 ≤ b ∧ b < b + 1 + rest.length) := by omega
      have ins : b ≤ b ∧ b < b + (rest.length + 1) := by omega
      rw [if_neg out, if_pos rfl, if_pos ins]
      simp
    · by_cases ins : a + 1 ≤ b ∧ b < a + 1 + rest.length
      · have ins' : a ≤ b ∧ b < a + (rest.length + 1) := by omega
        rw [if_pos ins, if_pos ins']
        obtain ⟨d, hd⟩ : ∃ d, b - a = d + 1 := ⟨b - a - 1, by omega⟩
        have : b - (a + 1) = d := by omega
        rw [this, hd, List.getD_cons_succ]
      · have out : ¬ (a ≤ b ∧ b < a + (rest.length + 1)) := by omega
        rw [if_neg ins, if_neg out, if_neg hb]

/-- Reading a run of bytes, place by place. -/
theorem memReadBytes_eq_map (m : Memory) (a n : Nat) :
    memReadBytes m a n = (List.range n).map (fun i => memRead m (a + i)) := by
  induction n generalizing a with
  | zero => rfl
  | succ n ih =>
    rw [memReadBytes, ih, List.range_succ_eq_map, List.map_cons, List.map_map, Nat.add_zero]
    congr 1
    apply List.map_congr_left
    intro i _
    simp only [Function.comp_apply]
    congr 1
    omega

/-- The tables of a bank after one is replaced. -/
theorem setTable_table (b : Bank) (k k' : TableKind) (m : Memory) :
    (b.setTable k m).table k' = if k' = k then m else b.table k' := by
  cases k <;> cases k' <;> rfl

@[simp] theorem setTable_valid (b : Bank) (k : TableKind) (m : Memory) : (b.setTable k m).valid = b.valid := by
  cases k <;> rfl

/-- The tables of a bank after an item is written. -/
theorem writeItem_table (b : Bank) (k k' : TableKind) (i : Nat) (bytes : List Byte) :
    (b.writeItem k i bytes).table k' =
      if k' = k then memWriteBytes (b.table k) (i * k.itemSize) bytes else b.table k' := setTable_table b k k' _

/-- An item written keeps every table in canonical form. -/
theorem writeItem_table_wf {b : Bank} (h : ∀ k, (b.table k).wf = true) (k : TableKind) (i : Nat) (bytes : List Byte)
    (k' : TableKind) : ((b.writeItem k i bytes).table k').wf = true := by
  rw [writeItem_table]
  split
  · exact memWriteBytes_wf (h k) _ _
  · exact h k'

/-- A cleared table is in canonical form. -/
theorem cleared_table_wf (k : TableKind) : (Bank.cleared.table k).wf = true := by cases k <;> rfl

end Sys2Proof.Machine
end

