-- ==== Sys2Proof/Laws/Shaper.lean ====
section
/-! SUPPORT. What the shaper's work for one entry leaves alone, said once for a whole job. -/

namespace Sys2Proof.Machine

/-- The parts of the unit that no shaper work touches. The shaper has the line, the format set's copy, the roles of the banks,
the exposure queue and the counters. -/
structure ShaperKeeps (s t : State) : Prop where
  port : t.port = s.port
  decoder : t.decoder = s.decoder
  unitParams : t.format.unit = s.format.unit
  bankA : t.tables.bankA = s.tables.bankA
  bankB : t.tables.bankB = s.tables.bankB
  record : t.tables.record = s.tables.record
  queue : t.reply.queue = s.reply.queue
  sender : t.reply.sender = s.reply.sender
  held : t.reply.held = s.reply.held
  offered : t.reply.offered = s.reply.offered
  freeIndex : t.freeIndex = s.freeIndex
  pending : t.pending = s.pending

theorem ShaperKeeps.refl (s : State) : ShaperKeeps s s := ⟨rfl, rfl, rfl, rfl, rfl, rfl, rfl, rfl, rfl, rfl, rfl, rfl⟩

theorem ShaperKeeps.trans {s t u : State} (h : ShaperKeeps s t) (k : ShaperKeeps t u) : ShaperKeeps s u where
  port := k.port.trans h.port
  decoder := k.decoder.trans h.decoder
  unitParams := k.unitParams.trans h.unitParams
  bankA := k.bankA.trans h.bankA
  bankB := k.bankB.trans h.bankB
  record := k.record.trans h.record
  queue := k.queue.trans h.queue
  sender := k.sender.trans h.sender
  held := k.held.trans h.held
  offered := k.offered.trans h.offered
  freeIndex := k.freeIndex.trans h.freeIndex
  pending := k.pending.trans h.pending

/-! ### The shaper's own updates -/

theorem keeps_setShaper (s : State) (h : Shaper) : ShaperKeeps s (s.setShaper h) :=
  ⟨rfl, rfl, rfl, rfl, rfl, rfl, rfl, rfl, rfl, rfl, rfl, rfl⟩

theorem keeps_setLine (s : State) (ln : Line) : ShaperKeeps s (s.setLine ln) := keeps_setShaper s _

theorem keeps_setBus (s : State) (b : Bus) : ShaperKeeps s (s.setBus b) :=
  ⟨rfl, rfl, rfl, rfl, rfl, rfl, rfl, rfl, rfl, rfl, rfl, rfl⟩

theorem keeps_countBy (name : CounterName) (n : Nat) (s : State) : ShaperKeeps s (countBy name n s) :=
  ⟨rfl, rfl, rfl, rfl, rfl, rfl, rfl, rfl, rfl, rfl, rfl, rfl⟩

theorem keeps_count (name : CounterName) (s : State) : ShaperKeeps s (count name s) := keeps_countBy name 1 s

theorem keeps_countIf (b : Bool) (name : CounterName) (s : State) : ShaperKeeps s (countIf b name s) := by
  cases b
  · exact ShaperKeeps.refl s
  · exact keeps_count name s

theorem keeps_exchangeBanks (s : State) : ShaperKeeps s (exchangeBanks s) :=
  ⟨rfl, rfl, rfl, rfl, rfl, rfl, rfl, rfl, rfl, rfl, rfl, rfl⟩

theorem keeps_applyPending (s : State) : ShaperKeeps s (s.setFormat s.format.applyPending) :=
  ⟨rfl, rfl, rfl, rfl, rfl, rfl, rfl, rfl, rfl, rfl, rfl, rfl⟩

theorem keeps_ligateAt (i : Nat) (s : State) : ShaperKeeps s (ligateAt i s).1 := by
  unfold ligateAt
  dsimp only
  split
  · exact keeps_setLine s _
  · exact (keeps_setLine s _).trans (keeps_countBy _ _ _)

theorem keeps_settleProvisional {offers : Bool} {s : State} {r : State × Nat} (h : settleProvisional offers s = some r) :
    ShaperKeeps s r.1 := by
  unfold settleProvisional at h
  split at h
  · cases h
  · cases h
    exact (keeps_setLine s _).trans (keeps_ligateAt _ _)

/-! ### Arrivals -/

/-- The state an arrival's work stops in. -/
def Shaped.state : Shaped → State
  | .done s => s
  | .ends s _ _ => s

theorem keeps_fitTest (i : Nat) (s : State) : ShaperKeeps s (fitTest i s).state := by
  unfold fitTest
  split <;> exact ShaperKeeps.refl s

theorem keeps_appendArrival (a : Arrival) (s : State) : ShaperKeeps s (appendArrival a s).state := by
  cases a with
  | letter g =>
    unfold appendArrival
    dsimp only
    split
    · exact ((keeps_setLine s _).trans (keeps_ligateAt _ _)).trans (keeps_fitTest _ _)
    · exact keeps_setLine s _
  | space => exact (keeps_setLine s _).trans (keeps_fitTest _ _)
  | disc => exact keeps_setLine s _
  | tab => exact (keeps_setLine s _).trans (keeps_fitTest _ _)
  | link k => exact keeps_setLine s _
  | carrier g m => exact (keeps_setLine s _).trans (keeps_fitTest _ _)

theorem keeps_admitArrival (a : Arrival) (s : State) : ShaperKeeps s (admitArrival a s).state := by
  unfold admitArrival
  split
  · exact ShaperKeeps.refl s
  · exact keeps_appendArrival a s

theorem keeps_takeArrival (a : Arrival) (s : State) : ShaperKeeps s (takeArrival a s).state := by
  unfold takeArrival
  split
  · exact ShaperKeeps.refl s
  · split
    · exact keeps_admitArrival a s
    · split
      · exact keeps_admitArrival a s
      · rename_i settled offending heq
        have hk := keeps_settleProvisional heq
        split
        · exact hk
        · exact hk.trans (keeps_admitArrival a settled)

/-! ### A job -/

/-- The state a job's advance stops in. -/
def Progress.state : Progress → State
  | .done s => s
  | .ends s _ _ => s

theorem keeps_emptyEnd (kind : EndKind) (s : State) : ShaperKeeps s (emptyEnd kind s) := by
  cases kind with
  | overflow => exact ShaperKeeps.refl s
  | endline => exact ShaperKeeps.refl s
  | endpara => exact (keeps_setLine s _).trans (keeps_setShaper _ _)
  | take => exact keeps_setLine s _
  | swap => exact keeps_exchangeBanks s

theorem keeps_endByControl (k : ControlEnd) (j : Job) (s : State) : ShaperKeeps s (endByControl k j s).state := by
  unfold endByControl
  split
  · exact keeps_emptyEnd k.kind s
  · exact ShaperKeeps.refl s

theorem keeps_controlEnd (k : ControlEnd) (j : Job) (s : State) : ShaperKeeps s (controlEnd k j s).state := by
  unfold controlEnd
  split
  · exact keeps_endByControl k j s
  · rename_i settled offending heq
    have hk := keeps_settleProvisional heq
    split
    · exact hk
    · exact hk.trans (keeps_endByControl k j settled)

theorem keeps_afterArrival (j : Job) (s : State) : ShaperKeeps s (afterArrival j s).state := by
  unfold afterArrival
  split
  · exact keeps_controlEnd _ j s
  · show ShaperKeeps s (if j.exchange = true then exchangeBanks s else s)
    split
    · exact keeps_exchangeBanks s
    · exact ShaperKeeps.refl s

theorem keeps_afterCarryOver (j : Job) (s : State) : ShaperKeeps s (afterCarryOver j s).state := by
  unfold afterCarryOver
  split
  · exact keeps_afterArrival j s
  · rename_i a _
    have hk := keeps_takeArrival a s
    split
    · rename_i t heq
      rw [heq] at hk
      exact hk.trans (keeps_afterArrival j t)
    · rename_i t plan held heq
      rw [heq] at hk
      exact hk

/-- Up to its next line end a job touches the line, the roles of the banks and the counters only. -/
theorem keeps_advance (j : Job) (s : State) : ShaperKeeps s (j.advance s).state := by
  unfold Job.advance
  dsimp only
  split
  · exact (keeps_setLine s _).trans (keeps_afterCarryOver j _)
  · exact keeps_setLine s _

theorem keeps_makeLineEnd (plan : EndPlan) (s : State) : ShaperKeeps s (makeLineEnd plan s) := by
  unfold makeLineEnd
  dsimp only
  exact (((keeps_countIf _ _ s).trans (keeps_countIf _ _ _)).trans (keeps_countIf _ _ _)).trans (keeps_setShaper _ _)

theorem keeps_joinPacket (p : PacketBody) (s : State) : ShaperKeeps s (joinPacket p s) := by
  unfold joinPacket
  exact ((keeps_setBus s _).trans (keeps_count _ _)).trans (keeps_applyPending _)

/-- R19, R120: all the work of one entry, whatever room the exposure queue has. -/
theorem keeps_runJob (room : Nat) (j : Job) (s : State) : ShaperKeeps s (runJob room j s) := by
  induction room generalizing j s with
  | zero =>
    unfold runJob
    have hk := keeps_advance j s
    split
    · rename_i t heq
      rw [heq] at hk
      exact hk
    · rename_i t plan next heq
      rw [heq] at hk
      exact (hk.trans (keeps_makeLineEnd plan t)).trans (keeps_setShaper _ _)
  | succ r ih =>
    unfold runJob
    have hk := keeps_advance j s
    split
    · rename_i t heq
      rw [heq] at hk
      exact hk
    · rename_i t plan next heq
      rw [heq] at hk
      exact ((hk.trans (keeps_makeLineEnd plan t)).trans (keeps_joinPacket _ _)).trans (ih _ _)

theorem keeps_doJob (j : Job) (s : State) : ShaperKeeps s (doJob j s) := keeps_runJob _ j s

theorem keeps_handArrival (a : Arrival) (s : State) : ShaperKeeps s (handArrival a s) := keeps_doJob _ s

theorem keeps_handMark (mark : Nat) (s : State) : ShaperKeeps s (handMark mark s) := by
  unfold handMark
  split
  · exact keeps_setLine s _
  · exact (keeps_setLine s _).trans (keeps_count _ _)
  · split
    · exact keeps_handArrival _ s
    · exact keeps_count _ s

/-- Up to its next line end a job puts no packet into the exposure queue. -/
theorem advance_bus (j : Job) (s : State) : (j.advance s).state.bus.queue = s.bus.queue := by
  have settled : ∀ {offers : Bool} {u : State} {r : State × Nat}, settleProvisional offers u = some r →
      r.1.bus.queue = u.bus.queue := by
    intro offers u r h
    unfold settleProvisional at h
    split at h
    · cases h
    · cases h
      unfold ligateAt
      dsimp only
      split <;> rfl
  have ended : ∀ (k : ControlEnd) (j : Job) (u : State), (endByControl k j u).state.bus.queue = u.bus.queue := by
    intro k j u
    unfold endByControl
    split
    · show (emptyEnd k.kind u).bus.queue = _
      cases k.kind <;> rfl
    · rfl
  have controlled : ∀ (j : Job) (u : State), (afterArrival j u).state.bus.queue = u.bus.queue := by
    intro j u
    unfold afterArrival controlEnd
    split
    · split
      · exact ended _ _ _
      · rename_i v i heq
        have hv := settled heq
        split
        · exact hv
        · exact (ended _ _ _).trans hv
    · show (if j.exchange = true then exchangeBanks u else u).bus.queue = _
      split <;> rfl
  have appended : ∀ (a : Arrival) (u : State), (admitArrival a u).state.bus.queue = u.bus.queue := by
    intro a u
    have fit : ∀ (i : Nat) (v : State), (fitTest i v).state.bus.queue = v.bus.queue := by
      intro i v
      unfold fitTest
      split <;> rfl
    unfold admitArrival
    split
    · rfl
    · cases a with
      | letter g =>
        unfold appendArrival ligateAt
        dsimp only
        split
        · rw [fit]
          split <;> rfl
        · rfl
      | space => exact fit _ _
      | disc => rfl
      | tab => exact fit _ _
      | link k => rfl
      | carrier g m => exact fit _ _
  have taken : ∀ (a : Arrival) (u : State), (takeArrival a u).state.bus.queue = u.bus.queue := by
    intro a u
    unfold takeArrival
    split
    · rfl
    · split
      · exact appended a u
      · split
        · exact appended a u
        · rename_i v i heq
          have hv := settled heq
          split
          · exact hv
          · exact (appended a v).trans hv
  unfold Job.advance
  dsimp only
  split
  · unfold afterCarryOver
    split
    · exact controlled _ _
    · rename_i a _
      have ht := taken a (s.setLine (remeasure s.bank s.copy (reformFirst s.bank j.carried) s.shaper.line).1)
      split
      · rename_i t heq
        rw [heq] at ht
        exact (controlled j t).trans ht
      · rename_i t plan held heq
        rw [heq] at ht
        exact ht
  · rfl

theorem join_length (gap : Nat) (p : PacketBody) (b : Bus) : (b.join gap p).queue.length = b.queue.length + 1 := by
  unfold Bus.join
  dsimp only
  split <;> simp [Bus.startWait]

theorem makeLineEnd_bus (plan : EndPlan) (s : State) : (makeLineEnd plan s).bus = s.bus := by
  have h : ∀ (b : Bool) (name : CounterName) (u : State), (countIf b name u).bus = u.bus := by
    intro b name u
    cases b <;> rfl
  unfold makeLineEnd
  dsimp only
  show (countIf _ _ _).bus = _
  rw [h, h, h]

/-- R157: the exposure queue grows by no more packets than the room given. -/
theorem runJob_queue_length_le (room : Nat) (j : Job) (s : State) :
    (runJob room j s).bus.queue.length ≤ s.bus.queue.length + room := by
  induction room generalizing j s with
  | zero =>
    have hb := advance_bus j s
    unfold runJob
    split
    · rename_i t heq
      rw [heq] at hb
      exact Nat.le_of_eq (congrArg List.length hb)
    · rename_i t plan next heq
      rw [heq] at hb
      show (makeLineEnd plan t).bus.queue.length ≤ _
      rw [makeLineEnd_bus]
      exact Nat.le_of_eq (congrArg List.length hb)
  | succ r ih =>
    have hb := advance_bus j s
    unfold runJob
    split
    · rename_i t heq
      rw [heq] at hb
      exact Nat.le_trans (Nat.le_of_eq (congrArg List.length hb)) (Nat.le_add_right _ _)
    · rename_i t plan next heq
      rw [heq] at hb
      have hj : (joinPacket (linePacket j.priority plan t) (makeLineEnd plan t)).bus.queue.length =
          s.bus.queue.length + 1 := by
        show ((makeLineEnd plan t).bus.join _ _).queue.length = _
        rw [join_length, makeLineEnd_bus]
        exact congrArg (· + 1) (congrArg List.length hb)
      have hr := ih next (joinPacket (linePacket j.priority plan t) (makeLineEnd plan t))
      rw [hj] at hr
      exact Nat.le_trans hr (by omega)

/-! ### A job with nothing carried, and the series of line ends (R19, R108, R120) -/

/-- With nothing carried the work goes straight to the arrival. -/
theorem advance_of_carried_nil (j : Job) (s : State) (h : j.carried = []) : j.advance s = afterCarryOver j s := by
  simp [Job.advance, h, reformFirst, remeasure]

/-- A job that stops at no line end leaves its state. -/
theorem runJob_of_done {j : Job} {s t : State} (room : Nat) (h : j.advance s = .done t) : runJob room j s = t := by
  cases room <;> unfold runJob <;> rw [h]

/-- A job that stops at a line end ends the line there, as `Safety.lineEnds` says. -/
theorem runJob_of_ends {j next : Job} {s t : State} {plan : EndPlan} (room : Nat) (h : j.advance s = .ends t plan next) :
    runJob room j s = Safety.lineEnds room j.priority plan next t := by
  cases room <;> unfold runJob <;> rw [h] <;> rfl

/-- With nothing else left to do, a job makes its exchange of banks or nothing. -/
theorem runJob_idle (room : Nat) (priority : Priority) (exchange : Bool) (s : State) :
    runJob room ⟨priority, [], none, none, exchange⟩ s = if exchange then exchangeBanks s else s := by
  refine runJob_of_done room ?_
  rw [advance_of_carried_nil _ _ rfl]
  rfl

/-! ### The provisional letter (R91, R98) -/

/-- Cells that are all settled hold no provisional letter, from whatever place they are counted. -/
theorem provisionalFrom_of_settled (cells : List Cell) (i : Nat) (h : Safety.allSettled cells = true) :
    provisionalFrom i cells = none := by
  induction cells generalizing i with
  | nil => rfl
  | cons x r ih =>
    simp only [Safety.allSettled, List.all_cons, Bool.and_eq_true] at h
    cases x <;> simp_all [provisionalFrom, Safety.allSettled]

/-- The first unsettled LETTER is the provisional letter. -/
theorem provisionalIndex_append (before after : List Cell) (l : Letter) (h : Safety.allSettled before = true)
    (hl : l.settled = false) : provisionalIndex (before ++ .letter l :: after) = some before.length := by
  have key : ∀ (cells : List Cell) (i : Nat), Safety.allSettled cells = true →
      provisionalFrom i (cells ++ .letter l :: after) = some (i + cells.length) := by
    intro cells
    induction cells with
    | nil => intro i _; simp [provisionalFrom, hl]
    | cons x r ih =>
      intro i hs
      simp only [Safety.allSettled, List.all_cons, Bool.and_eq_true] at hs
      cases x <;> simp_all [provisionalFrom, Safety.allSettled] <;> omega
  simpa [provisionalIndex] using key before 0 h

/-- With every letter settled nothing settles. -/
theorem settleProvisional_of_settled (offers : Bool) (s : State) (h : Safety.allSettled s.shaper.line.cells = true) :
    settleProvisional offers s = none := by
  simp [settleProvisional, provisionalIndex, provisionalFrom_of_settled _ 0 h]

end Sys2Proof.Machine
end

