-- ==== Sys2Proof/Tests/Slice0.lean ====
section
/-! SUPPORT. The model's own tests: one step or one operation each, on the spec's worked examples. -/

namespace Sys2Proof.Tests

/- One theorem at a time: each `decide +kernel` holds a thread of Lean's while it waits. -/
set_option Elab.async false

open Sys2Proof.Machine Sys2Proof.Safety

/-! ### Small states -/

/-- The state after an accepted step. -/
def nextOf : Host.Outcome State Fault Refusal → Option State
  | .next s => some s
  | .fault _ => none
  | .refused _ => none

def faultOf : Host.Outcome State Fault Refusal → Option Fault
  | .next _ => none
  | .fault f => some f
  | .refused _ => none

def refusalOf : Host.Outcome State Fault Refusal → Option Refusal
  | .next _ => none
  | .fault _ => none
  | .refused r => some r

/-- What a view shows of the state after a command. -/
def see {α : Type} (c : Instr) (view : State → α) (s : State) : Option α := (nextOf (exec c s)).map view

/-- Unit 3, as the spec's examples have it. -/
def unit3 : State := { State.reset with port := { State.reset.port with unitNumber := 3 } }

/-- Unit 3's port in a condition with a queue. -/
def portAt (condition : PortCondition) (priority : Priority) (queue : List Entry) : State :=
  { unit3 with port := { unit3.port with condition := condition, priority := priority, queue := queue } }

/-- A full queue: own hold drive high. -/
def fullPort (condition : PortCondition) (loss : Option Loss) : State :=
  { unit3 with
    port :=
      { unit3.port with
        condition := condition, priority := 1, queue := List.replicate 1024 (.plain 0x41), loss := loss
        ownHold := true } }

/-- The decoder in a state, with one entry to take. -/
def feed (d : DecoderState) (e : Entry) (s : State) : State :=
  { s with port := { s.port with queue := [e] }, decoder := { s.decoder with state := d, priority := 1 } }

/-- The last byte of a control code at the head. -/
def feedArgs (code : ControlCode) (bytes : List Byte) (b : Byte) (s : State) : State := feed (.args code bytes) (.plain b) s

/-- A line store. -/
def withCells (cells : List Cell) (acc items : Nat) (s : State) : State :=
  { s with shaper := { s.shaper with line := { s.shaper.line with cells := cells, acc := acc, items := items } } }

/-- The active bank. -/
def withBank (b : Bank) (s : State) : State := { s with tables := { s.tables with bankA := b } }

/-- A glyph entry's ten bytes (section 11.2). -/
def glyph (face char advance cls joining extendable above below forms : Nat) : List Byte :=
  [128 + face, char, advance, cls * 32 + joining * 4 + extendable * 2, above, below].map (BitVec.ofNat 8)
    ++ twoBytes (forms / 65536) ++ twoBytes (forms % 65536)

/-- Glyph entries written into a cleared bank. -/
def bankOf (entries : List (Nat × List Byte)) : Bank := entries.foldl (fun b e => b.writeItem .glyphs e.1 e.2) Bank.cleared

/-- A settled letter. -/
def letter (glyph setGlyph width : Nat) (form : Form) : Letter :=
  { glyph := glyph, second := none, setGlyph := setGlyph, form := form, settled := true, above := [], below := []
    width := width, strokes := 0 }

/-- A queue of one packet from this unit. -/
def packetOf (sequence : BitVec 8) (galley : Nat) : Packet :=
  let body : PacketBody :=
    { priority := 1, unit := 3, galley := galley, size := 36, leading := 200, flags := LineFlags.none, items := [] }
  ⟨body, sequence, packetCheck body sequence⟩

/-- The bus port in a state with packets; a port in WAITING has seen the gap of 8 bit times. -/
def busAt (st : BusState) (queue : List Packet) : State :=
  { unit3 with
    bus :=
      { unit3.bus with
        state := st, queue := queue, ownership := if st = .sending ∨ st = .awaiting then some ⟨2, 0⟩ else none
        holdTimer := if st = .awaiting then some 50 else none
        deferTimer := if st = .deferring then some 20 else none
        idleCount := if st = .waiting then 8 else 0
        othersDrive := decide (st = .awaiting), answerDue := decide (st = .awaiting) } }

/-- The reply unit with records. -/
def repliesAt (queue : List Record) (s : State) : State := { s with reply := { s.reply with queue := queue } }

def notice (kind : NoticeKind) : Record := .notice kind 1 0

/-! ### Operands that no row allows, and the characters of the lines -/

theorem test_illFormed_ignored_flagged :
    Instr.wellFormed (.ignoredFlaggedByte 0x40) = false
      ∧ faultOf (exec (.ignoredFlaggedByte 0x40) unit3) = some .illFormedOperand := by decide

theorem test_illFormed_invalid_answer :
    Instr.wellFormed (.invalidAnswer 0x25) = false
      ∧ faultOf (exec (.invalidAnswer 0x25) unit3) = some .illFormedOperand := by decide

theorem test_illFormed_return_line_hold :
    Instr.wellFormed (.returnLineHold 30) = false
      ∧ faultOf (exec (.returnLineHold 30) unit3) = some .illFormedOperand := by decide

/-- Section 11.1: 0x13 is priority 1, address 3; 0x05 and 0x20 likewise; 0x40 is TAKE_END. -/
theorem test_characters :
    commandOfCharacter true 0x13 = .takeStart 1 3 ∧ commandOfCharacter true 0x05 = .takeStart 0 5
      ∧ commandOfCharacter true 0x20 = .takeStart 2 0 ∧ commandOfCharacter true 0x40 = .takeEnd
      ∧ commandOfCharacter true 0x41 = .ignoredFlaggedByte 0x41 ∧ commandOfCharacter false 0x41 = .plain 0x41
      ∧ takeStartValue 1 3 = 0x13 := by decide

theorem test_answers :
    commandOfAnswer 0xA5 = .accept ∧ commandOfAnswer 0x96 = .defer ∧ commandOfAnswer 0xC3 = .reject
      ∧ commandOfAnswer 0xFF = .invalidAnswer 0xFF := by decide

theorem test_no_row_gives_bits (nbits w : Nat) (s : State) :
    decodeTableWord nbits w = none ∧ s.withFetchWord nbits w = s := ⟨rfl, rfl⟩

/-! ### Power-on and the step -/

theorem test_powerOn_reads_straps :
    see (.powerOn 0 true) (fun t => (t.port.unitNumber, t.port.acceptAll)) (fullPort .accepting none) = some (1, true)
      ∧ see (.powerOn 7 false) (fun t => (t.port.unitNumber, t.port.queue)) (fullPort .deaf none) = some (7, []) := by
  decide +kernel

theorem test_step_takes_the_front :
    (nextOf (step { unit3 with pending := [.takeStart 1 3, .plain 0x61] })).map (fun t => (t.port.condition, t.pending))
      = some (.accepting, [.plain 0x61]) := by decide

theorem test_step_without_a_command_is_a_bit_time :
    (nextOf (step unit3)).map (fun t => t.bus.idleCount) = some 1
      ∧ (nextOf (step (busAt .sending [packetOf 7 0]))).map (fun t => t.bus.idleCount) = some 0 := by decide

/-! ### The setting line (section 1.3 to 1.7) -/

theorem test_takeStart_opens :
    see (.takeStart 1 3) (fun t => (t.port.condition, t.port.queue, t.port.takeTimer)) unit3
      = some (.accepting, [.takeStart 1], some 10) := by decide

theorem test_takeStart_for_another_unit_cuts :
    see (.takeStart 0 5) (fun t => (t.port.condition, t.port.queue))
        (portAt .accepting 1 [.takeStart 1, .plain 0x61, .plain 0x62])
      = some (.deaf, [.takeStart 1, .plain 0x61, .plain 0x62, .cut]) := by decide

theorem test_plain_stored_or_discarded :
    see (.plain 0x62) (fun t => t.port.queue) (portAt .accepting 1 [.takeStart 1]) = some [.takeStart 1, .plain 0x62]
      ∧ see (.plain 0x78) (fun t => t.port.queue) (portAt .deaf 1 [.cut]) = some [.cut] := by decide

theorem test_plain_lost :
    see (.plain 0x70) (fun t => (t.port.queue.length, t.port.loss)) (fullPort .accepting (some ⟨1, none⟩))
      = some (1024, some ⟨2, none⟩) := by decide +kernel

theorem test_takeEnd_lost :
    see .takeEnd (fun t => (t.port.condition, t.port.loss)) (fullPort .accepting (some ⟨2, none⟩))
      = some (.closed, some ⟨3, some .takeEnd⟩) := by decide +kernel

theorem test_takeStart_lost :
    see (.takeStart 0 3) (fun t => (t.port.condition, t.port.priority, t.port.loss)) (fullPort .closed (some ⟨3, some .takeEnd⟩))
      = some (.accepting, 0, some ⟨4, some (.takeStart 0)⟩) := by decide +kernel

/-- Section 1.6: the place a removal frees goes to the GAP. -/
theorem test_gap_fills_the_freed_place :
    (let p := (fullPort .accepting (some ⟨5, some (.takeStart 0)⟩)).port.removeHead 10;
      (p.queue.length, p.queue.getLast?, p.loss, p.ownHold)) = (1024, some (.gap 5 (some (.takeStart 0))), none, true) := by
  decide +kernel

/-- R13: the report of a loss of 255 arrivals, with OVERRUN close to its end. -/
theorem test_loss_is_reported :
    (let near : ReplyUnit :=
        { unit3.reply with counters := { unit3.reply.counters with overrun := 65500 }, queue := [.notice .overrun 1 7] };
      let t := reportLoss ⟨255, none⟩ { unit3 with reply := near };
      (t.reply.counters.overrun, t.reply.queue)) = (65535, [.notice .overrun 2 255]) := by decide

/-- R10: the 960th entry raises the own drive, which makes the line high and stops the timer. -/
theorem test_hold_rises_at_960 :
    (let p := ({ unit3.port with queue := List.replicate 959 .cut, takeTimer := some 10 } : Port).store .cut;
      (p.ownHold, p.holdLine, p.takeTimer)) = (true, true, none) := by decide +kernel

/-- R10, R11, R14: the removal that leaves 512 lowers the own drive. It makes the line fall, and the timer restarts, unless
another unit drives the line. -/
theorem test_hold_falls_at_512 :
    (let p (othersHold : Bool) := ({ unit3.port with
          condition := .accepting, queue := List.replicate 513 .cut, ownHold := true, othersHold := othersHold } : Port).removeHead 10;
      ((p false).holdLine, (p false).takeTimer, (p true).holdLine, (p true).takeTimer)) = (false, some 10, true, none) := by
  decide +kernel

theorem test_takeEnd_closes :
    see .takeEnd (fun t => (t.port.condition, t.port.queue, t.port.takeTimer)) (portAt .accepting 2 [.plain 0x63])
      = some (.closed, [.plain 0x63, .takeEnd], none) := by decide

theorem test_ignoredFlaggedByte : (see (.ignoredFlaggedByte 0xFF) id unit3) = some unit3 := by decide

theorem test_holdLineRise_stops_the_timer :
    see .holdLineRise (fun t => (t.port.holdLine, t.port.takeTimer))
        { unit3 with port := { unit3.port with condition := .accepting, takeTimer := some 10 } }
      = some (true, none) := by decide

theorem test_holdLineFall_restarts_the_timer :
    see .holdLineFall (fun t => (t.port.holdLine, t.port.takeTimer))
        { unit3 with port := { unit3.port with condition := .accepting, othersHold := true } }
      = some (false, some 10)
      ∧ see .holdLineFall (fun t => (t.port.holdLine, t.port.takeTimer))
          { unit3 with port := { unit3.port with condition := .accepting, ownHold := true, othersHold := true } }
        = some (true, none) := by decide

theorem test_takeTimerExpiry :
    see .takeTimerExpiry (fun t => (t.port.condition, t.port.queue, t.port.takeTimer))
        { unit3 with port := { unit3.port with condition := .accepting, takeTimer := some 10 } }
      = some (.closed, [.stalled], none) := by decide

/-! ### Entries (sections 2.1 to 2.3) -/

theorem test_takeStartEntry :
    see .takeStartEntry (fun t => (t.decoder, t.reply.counters.takes)) (feed .idle (.takeStart 2) unit3)
      = some (⟨.text, 0, 2, 0⟩, 1) := by decide

theorem test_takeEndEntry_ends_the_line :
    see .takeEndEntry (fun t => (t.decoder.state, t.bus.queue.map (fun p => (p.body.priority, p.body.flags.cut))))
        (feed .text .takeEnd (withCells [.space 20] 3600 0 unit3))
      = some (.idle, [(1, false)]) := by decide +kernel

theorem test_cutEntry_raises_a_notice :
    see .cutEntry (fun t => (t.decoder.state, t.reply.queue, t.bus.queue.map (fun p => p.body.flags.cut)))
        { feed .text .cut (withCells [.space 20] 3600 0 unit3) with decoder := ⟨.text, 0, 1, 232⟩ }
      = some (.idle, [.notice .takeCut 1 232], [true]) := by decide +kernel

theorem test_stalledEntry_raises_a_notice :
    see .stalledEntry (fun t => (t.decoder.state, t.reply.queue, t.bus.queue)) (feed .skip .stalled unit3)
      = some (.idle, [.notice .takeStalled 1 0], []) := by decide

/-- Section 2.3: a GAP with a TAKE_END, taken in LOAD after one item, with cells in the line store. -/
def loadBroken : State :=
  let s := feed (.load ⟨.glyphs, 100, 3, 1, [0, 0, 0, 0], []⟩) (.gap 7 (some .takeEnd)) (withCells [.space 20] 3600 0 unit3);
  { s with tables := { s.tables with record := some ⟨.glyphs, true, 1, 0⟩ } }

theorem test_gapEntry_aborts_a_load :
    see .gapEntry (fun t => (t.decoder.state, t.reply.queue, t.tables.bankB.valid)) loadBroken
      = some (.idle, [.notice .loadAborted 1 1], false) := by decide +kernel

theorem test_gapEntry_applies_its_boundary :
    see .gapEntry (fun t => t.bus.queue.map (fun p => (p.body.flags.gap, p.body.flags.cut, p.body.priority))) loadBroken
      = some [(true, false, 1)] := by decide +kernel

theorem test_gapEntry_flags_the_line :
    see .gapEntry (fun t => (t.decoder.state, t.shaper.line.flags.gap, t.reply.counters.stray))
        (feed (.args .plane []) (.gap 3 none) unit3)
      = some (.text, true, 1) := by decide

theorem test_plainDiscarded_counts_in_skip :
    see .plainDiscarded (fun t => (t.port.queue, t.decoder.byteCount)) (feed .skip (.plain 0x41) unit3) = some ([], 1)
      ∧ see .plainDiscarded (fun t => t.decoder.byteCount) (feed .idle (.plain 0x41) unit3) = some 0 := by decide

/-- R18: no decoder event happens while the decoder waits, and only the head entry's does. -/
theorem test_decoder_waits :
    refusalOf (exec .takeEndEntry
        (let s := feed .text .takeEnd unit3;
          { s with reply := { s.reply with offered := some .counts } })) = some (.cannotOccur .decoderWaiting)
      ∧ refusalOf (exec .cutEntry (feed .text .takeEnd unit3)) = some (.cannotOccur .otherEntryAtHead)
      ∧ refusalOf (exec .cutEntry unit3) = some (.cannotOccur .inputQueueEmpty) := by decide

/-! ### Copy (section 2.4, chapter 6) -/

/-- The bank of section 6.10, with the code map of section 2.4 and a substitute. -/
def wordBank : Bank :=
  let b := bankOf
    [(12, glyph 3 0x41 37 1 1 1 70 10 13645824), (13, glyph 3 0x42 30 0 0 1 60 10 0), (14, glyph 3 0x43 28 4 0 0 55 10 0),
      (20, glyph 3 0x44 25 1 2 0 64 12 21), (21, glyph 3 0x45 22 0 0 0 60 12 0), (40, glyph 3 0x46 55 0 0 0 65 10 0),
      (85, glyph 3 0x70 20 5 0 0 24 5 0), (87, glyph 67 0x71 16 5 0 0 0 12 0)]
  let map := (b.writeItem .codeMap 33 (twoBytes 0x400C)).writeItem .codeMap 34 (twoBytes 0x4014)
  let map := (map.writeItem .codeMap 64 (twoBytes 0x4055)).writeItem .codeMap 0 (twoBytes 0x8000);
  (map.writeItem .ligatures 5 (twoBytes 13 ++ twoBytes 14 ++ twoBytes 40)).writeItem .header 0
    (twoBytes 0 ++ twoBytes 20 ++ twoBytes 0 ++ twoBytes 0)

/-- R188, section 11.2: the item of glyph 12 written out, and its fields. -/
theorem test_glyph_item :
    glyph 3 0x41 37 1 1 1 70 10 13645824 = [0x83, 0x41, 0x25, 0x26, 0x46, 0x0A, 0x00, 0xD0, 0x38, 0x00]
      ∧ byteSum (glyph 3 0x41 37 1 1 1 70 10 13645824) = 615
      ∧ (faceOf wordBank 12, charOf wordBank 12, advanceOf wordBank 12, classOf wordBank 12) = (3, 0x41, 37, .r)
      ∧ (joiningOf wordBank 12, extendableOf wordBank 12, aboveExtentOf wordBank 12, belowExtentOf wordBank 12)
        = (.dual, true, 70, 10)
      ∧ (sideOf wordBank 12, sideOf wordBank 87) = (.above, .below)
      ∧ (setGlyphFor wordBank 12 .initial, setGlyphFor wordBank 12 .medial, setGlyphFor wordBank 12 .final) = (13, 14, 12) := by
  decide +kernel

/-- Section 6.10: the second letter 12 settles the first, INITIAL. -/
theorem test_textByte_settles_the_first_letter :
    see .textByte (fun t => (t.shaper.line.cells, t.shaper.line.acc, t.shaper.line.items))
        (feed .text (.plain 0x41) (withBank wordBank (withCells [.letter (provisionalLetter 12)] 0 1 unit3)))
      = some ([.letter (letter 12 13 30 .initial), .letter (provisionalLetter 12)], 5400, 2) := by decide +kernel

/-- Section 6.10: letter 20 settles the second letter 12, which merges into the ligature 40 with its marks. -/
theorem test_textByte_makes_a_ligature :
    see .textByte (fun t => (t.shaper.line.cells, t.shaper.line.acc, t.shaper.line.items))
        (feed .text (.plain 0x42)
          (withBank wordBank
            (withCells [.letter (letter 12 13 30 .initial), .letter { provisionalLetter 12 with above := [85, 86] }] 5400 4
              unit3)))
      = some
          ([.letter { letter 12 40 55 .initial with second := some 12, above := [85, 86] }, .letter (provisionalLetter 20)],
            9900, 4) := by decide +kernel

/-- Section 6.10: the space settles letter 20, FINAL, as its neighbour's second glyph offers forward. -/
theorem test_space_settles_final :
    see .textByte (fun t => (t.shaper.line.cells.drop 1, t.shaper.line.acc))
        (feed .text (.plain 0x20)
          (withBank wordBank
            (withCells
              [.letter { letter 12 40 55 .initial with second := some 12, above := [85, 86] }, .letter (provisionalLetter 20)]
              9900 5 unit3)))
      = some ([.letter (letter 20 21 22 .final), .space 20], 17460) := by decide +kernel

theorem test_mark_attaches_or_is_dropped :
    see .textByte (fun t => t.shaper.line.cells)
        (feed .text (.plain 0x60) (withBank wordBank (withCells [.letter (provisionalLetter 12)] 0 1 unit3)))
      = some [.letter { provisionalLetter 12 with above := [85] }]
      ∧ see .textByte (fun t => (t.shaper.line.cells, t.reply.counters.orphans))
          (feed .text (.plain 0x60) (withBank wordBank unit3)) = some ([], 1) := by decide +kernel

/-- Section 2.4: an unmapped byte gives the substitute, here letter 20. -/
theorem test_unmapped_byte_is_replaced :
    see .textByte (fun t => (t.shaper.line.cells, t.reply.counters.unmapped, t.shaper.line.flags.unmapped))
        (feed .text (.plain 0x7E) (withBank wordBank unit3))
      = some ([.letter (provisionalLetter 20)], 1, true) := by decide +kernel

theorem test_strayCode :
    see .strayCode (fun t => t.reply.counters.stray) (feed .text (.plain 0x1F) unit3) = some 1 := by decide

/-- Section 6.11: the DISC's broken width, 21,600; the break glyph is an item. -/
def hyphenBank : Bank :=
  (bankOf
    [(30, glyph 1 0x30 40 1 1 0 0 0 (31 * 1048576 + 32 * 1024)), (31, glyph 1 0x31 36 0 0 0 0 0 0),
      (32, glyph 1 0x32 34 0 0 0 0 0 0), (50, glyph 1 0x2D 10 4 0 0 0 0 0)]).writeItem .header 0
    (twoBytes 0 ++ twoBytes 0 ++ twoBytes 50 ++ twoBytes 0)

def narrow (s : State) : State := { s with format := { s.format with line := { s.format.line with measure := 240 } } }

theorem test_disc :
    see .disc (fun t => (t.shaper.line.cells.drop 2, t.shaper.line.acc, t.shaper.line.items, t.shaper.line.lastBreak))
        (feed .text (.plain 0x02)
          (withBank hyphenBank (narrow
            (withCells [.letter (letter 30 31 36 .initial), .letter (letter 30 32 34 .medial), .letter (provisionalLetter 30)]
              12600 3 unit3))))
      = some ([.letter (provisionalLetter 30), .brk 21600 false 0], 12600, 4, some (3, 21600)) := by decide +kernel

/-- Section 6.11: the seventh arrival overflows; the line ends at the BREAK and the pending SIZE 32 comes into force. -/
def afterBreak : State :=
  let s := withBank hyphenBank (narrow unit3)
  handArrival (.letter 30)
    (withCells
      [.letter (letter 30 31 36 .initial), .letter (letter 30 32 34 .medial), .letter (letter 30 32 34 .medial),
        .brk 21600 false 0, .letter (provisionalLetter 30)] 18720 5
      { s with
        shaper := { s.shaper with line := { s.shaper.line with lastBreak := some (3, 21600) } }
        format := { s.format with pending := { s.format.pending with size := some 32 } } })

theorem test_overflow_at_a_break :
    afterBreak.shaper.line.cells = [.letter (letter 30 31 36 .initial), .letter (provisionalLetter 30)]
      ∧ (afterBreak.shaper.line.acc, afterBreak.format.line.size) = (5760, 32) := by decide +kernel

theorem test_packet_of_the_broken_line :
    afterBreak.bus.queue.map (fun p => p.body.size) = [36]
      ∧ afterBreak.bus.queue.map (fun p => p.body.items.map (fun i => (i.char.toNat, i.x)))
        = [[(0x30, 0), (0x32, 75), (0x31, 138), (0x2D, 206)]] := by decide +kernel

/-- R105, R116, with the cells of section 6.11: the line cut at the BREAK is as wide as its broken width, the break glyph's 10 du counted. -/
theorem test_broken_line_width :
    (let cells : List Cell :=
        [.letter (letter 30 31 36 .initial), .letter (letter 30 32 34 .medial), .letter (letter 30 32 34 .medial)];
      (sumFine LineCopy.default (reformBreakLetter hyphenBank cells ++ [.brk 21600 true (breakAdvance hyphenBank)]),
        brokenWidthAfter hyphenBank LineCopy.default cells, breakAdvance hyphenBank)) = (21600, 21600, 10) := by decide +kernel

/-- Section 7.3: SIZE 384 sets the first letter overset. -/
theorem test_overset_letter :
    (let s := withBank (bankOf [(9, glyph 1 0x61 40 0 0 0 0 0 0)]) unit3
      let s := { s with format := { s.format with line := { s.format.line with size := 384, measure := 600 } } }
      let t := handArrival (.letter 9) (withCells [.letter (provisionalLetter 9)] 0 1 s);
      (t.shaper.line.cells, t.reply.counters.forced, t.reply.counters.overset,
        t.bus.queue.map (fun p => (p.body.flags.forced, p.body.flags.overset))))
      = ([.letter (provisionalLetter 9)], 1, 1, [(true, true)]) := by decide +kernel

/-- Section 7.3: a word without a break ends just before the letter that does not fit. -/
theorem test_forced_end :
    (let s := withBank (bankOf [(9, glyph 1 0x61 40 0 0 0 0 0 0)]) unit3
      let s := { s with format := { s.format with line := { s.format.line with measure := 600 } } }
      let t := handArrival (.letter 9)
        (withCells (List.replicate 8 (.letter (letter 9 9 40 .isolated)) ++ [.letter (provisionalLetter 9)]) 57600 9 s);
      (t.shaper.line.cells.length, t.shaper.line.acc, t.reply.counters.forced, t.reply.counters.overset,
        t.bus.queue.map (fun p => p.body.items.length)))
      = (2, 7200, 1, 0, [8]) := by decide +kernel

theorem test_tab :
    see .tab (fun t => (t.shaper.line.cells, t.shaper.line.acc, t.shaper.line.lastBreak))
        (feed .text (.plain 0x03)
          (let s := withCells [.space 20] 96000 0 unit3;
            { s with
              shaper := { s.shaper with line := { s.shaper.line with lastBreak := some (0, 0) } }
              format :=
                { s.format with
                  line := { s.format.line with tabs := [2000, 800, 14400, 3000] ++ List.replicate 12 0 } } }))
      = some ([.space 20, .tab 96000 [] 0], 192000, none) := by decide +kernel

theorem test_join_and_nojoin :
    see .join (fun t => t.shaper.line.cells) (feed .text (.plain 0x06) unit3) = some [.link .join]
      ∧ see .nojoin (fun t => t.shaper.line.cells) (feed .text (.plain 0x07) unit3) = some [.link .nojoin] := by
  decide +kernel

/-! ### The worked line of section 8.8 -/

def priceBank : Bank :=
  bankOf
    [(60, glyph 3 0x50 37 1 0 0 70 0 0), (61, glyph 3 0x51 48 1 0 0 0 0 0), (70, glyph 1 0x61 30 0 0 0 0 0 0),
      (71, glyph 1 0x62 25 0 0 0 0 0 0), (80, glyph 1 0x31 27 2 0 0 0 0 0), (82, glyph 1 0x2E 13 3 0 0 0 0 0),
      (81, glyph 1 0x35 27 2 0 0 0 0 0), (85, glyph 3 0x70 20 5 0 0 24 0 0), (301, glyph 1 0xB7 12 4 0 0 0 0 0)]

def priceLine (d : Direction) : State :=
  let s := withBank priceBank unit3
  withCells
    [.letter { letter 60 60 37 .isolated with above := [85] }, .letter (letter 61 61 48 .isolated), .space 24,
      .letter (letter 70 70 30 .isolated), .letter (letter 71 71 25 .isolated), .tab 44000 [] 0,
      .letter (letter 80 80 27 .isolated), .letter (letter 82 82 13 .isolated), .letter (provisionalLetter 81)] 84800 8
    { s with
      format :=
        { s.format with
          line :=
            { s.format.line with
              size := 40, measure := 1200, mode := .flushStart, direction := d, galley := 2
              tabs := 800 :: List.replicate 15 0, leader := [301] } } }

/-- What is compared of an item. -/
def place (i : Item) : Nat × Nat × Int := (i.char.toNat, i.x, i.y)

theorem test_endline_rtl :
    see .endline (fun t => t.bus.queue.flatMap (fun p => p.body.items.map place)) (feed .text (.plain 0x04) (priceLine .rtl))
      = some
          ([(0x31, 260, 0), (0x2E, 316, 0), (0x35, 343, 0)]
            ++ (List.range 18).map (fun i => (0xB7, 400 + 25 * i, 0))
            ++ [(0x61, 858, 0), (0x62, 920, 0), (0x51, 1022, 0), (0x50, 1122, 0), (0x70, 1140, 145)]) := by decide +kernel

theorem test_endline_ltr :
    see .endline (fun t => t.bus.queue.flatMap (fun p => p.body.items.map place)) (feed .text (.plain 0x04) (priceLine .ltr))
      = some
          ([(0x51, 0, 0), (0x50, 100, 0), (0x70, 117, 145), (0x61, 227, 0), (0x62, 289, 0)]
            ++ (List.range 18).map (fun i => (0xB7, 350 + 25 * i, 0))
            ++ [(0x31, 800, 0), (0x2E, 856, 0), (0x35, 883, 0)]) := by decide +kernel

/-- Section 7.4: ENDLINE on an empty line store, with paragraph space due. -/
theorem test_endline_empty :
    see .endline (fun t => (t.bus.queue.map (fun p => (p.body.leading, p.body.items)), t.shaper.paraDue, t.reply.counters.lines))
        (feed .text (.plain 0x04)
          { unit3 with
            shaper := { unit3.shaper with paraDue := true }
            format := { unit3.format with line := { unit3.format.line with paraSpace := 120 } } })
      = some ([(320, [])], false, 1) := by decide +kernel

theorem test_endpara_empty :
    see .endpara (fun t => (t.bus.queue, t.shaper.paraDue)) (feed .text (.plain 0x05) unit3) = some ([], true) := by
  decide +kernel

/-- Section 3.7: the packet of the line that ENDPARA ends has its own leading; the pending PARA_SPACE comes into force. -/
theorem test_endpara_makes_a_packet :
    see .endpara (fun t => (t.bus.queue.map (fun p => p.body.leading), t.shaper.paraDue, t.format.line.paraSpace))
        (feed .text (.plain 0x05)
          (let s := withCells [.space 20] 3600 0 unit3;
            { s with format := { s.format with pending := { s.format.pending with paraSpace := some 120 } } }))
      = some ([200], true, 120) := by decide +kernel

/-! ### Control codes with arguments (sections 2.5, 3.2) -/

theorem test_controlCode_and_argument :
    see .controlCodeWithArguments (fun t => t.decoder.state) (feed .text (.plain 0x09) unit3) = some (.args .leader [])
      ∧ see .argumentByte (fun t => t.decoder.state) (feedArgs .leader [] 5 unit3) = some (.args .leader [5]) := by decide

theorem test_plane :
    see .plane (fun t => (t.decoder.plane, t.reply.counters.stray)) (feedArgs .plane [] 1 unit3) = some (1, 0)
      ∧ see .plane (fun t => (t.decoder.plane, t.reply.counters.stray)) (feedArgs .plane [] 7 unit3) = some (0, 1) := by
  decide

theorem test_format_line_parameter :
    see .format (fun t => (t.format.line.size, t.format.pending.size)) (feedArgs .format [0, 0x01] 0x90 unit3) = some (384, none)
      ∧ see .format (fun t => (t.format.line.size, t.format.pending.size))
          (feedArgs .format [0, 0x01] 0x90 (withCells [.space 20] 3600 0 unit3)) = some (36, some 384) := by decide

theorem test_format_unit_parameter_or_stray :
    see .format (fun t => t.format.unit.burstLimit) (feedArgs .format [32, 0] 20 unit3) = some 16
      ∧ see .format (fun t => t.reply.counters.stray) (feedArgs .format [12, 0] 1 unit3) = some 1
      ∧ see .format (fun t => t.reply.counters.stray) (feedArgs .format [4, 0] 9 unit3) = some 1 := by decide

theorem test_leader :
    see .leader (fun t => t.format.line.leader)
        (feedArgs .leader [5, 0x01, 0x2D, 0x01, 0x2E, 0, 0, 0x01, 0x2F, 0x01] 0x30 unit3) = some [301, 302, 0, 303] := by decide

theorem test_reset :
    see .reset (fun t => (t.decoder, t.format.line.measure, t.format.pending, t.shaper, t.bus.queue.length))
        (let s := withCells [.space 20] 3600 0 (busAt .waiting [packetOf 7 0, packetOf 8 0]);
          { s with
            decoder := ⟨.text, 2, 1, 5⟩
            port := { s.port with queue := [.plain 0x0D] }
            format := { s.format with line := { s.format.line with measure := 3000 } } })
      = some (⟨.text, 0, 1, 6⟩, 2640, PendingSet.empty, Shaper.empty, 2) := by decide +kernel

/-! ### Tables and loads (chapters 4 and 5) -/

/-- Section 5.1: the range tests. -/
theorem test_range_tests :
    [rangeAccepted .codeMap 890 6, rangeAccepted .codeMap 890 10, rangeAccepted .glyphs 0 4, rangeAccepted .glyphs 1020 4,
      rangeAccepted .ligatures 255 0, rangeAccepted .ligatures 256 0, rangeAccepted .header 0 1, rangeAccepted .header 0 2,
      rangeAccepted .glyphs 65535 65535]
      = [true, false, false, true, true, false, true, false, false] := by decide

theorem test_load_opens :
    see .load (fun t => (t.decoder.state, t.tables.record)) (feedArgs .load [2, 0, 40, 0] 2 unit3)
      = some (.load ⟨.ligatures, 40, 2, 0, [], []⟩, some ⟨.ligatures, true, 0, 0⟩) := by decide

theorem test_load_of_unknown_kind :
    see .load (fun t => (t.decoder.state, t.reply.queue)) (feedArgs .load [7, 0, 40, 0] 2 unit3)
      = some (.skip, [.notice .loadRefused 1 0x0701]) := by decide

/-- Section 5.8, step 4: the last data byte of ligature 5 and then the wrong sum. -/
def loading (d : DecoderState) (b : Byte) (r : LoadRecord) : State :=
  { feed d (.plain b) unit3 with tables := { unit3.tables with record := some r } }

theorem test_loadDataByte_writes_the_item :
    see .loadDataByte (fun t => (t.decoder.state, t.tables.record, t.tables.bankB.item .ligatures 5))
        (loading (.load ⟨.ligatures, 5, 1, 0, [0, 13, 0, 14, 0], []⟩) 41 ⟨.ligatures, true, 0, 0⟩)
      = some (.sum ⟨.ligatures, 5, 1, 1, [], []⟩, some ⟨.ligatures, true, 1, 68⟩, [0, 13, 0, 14, 0, 41]) := by decide +kernel

theorem test_loadSumByte_differs :
    see .loadSumByte (fun t => (t.decoder.state, t.tables.bankB.valid, t.reply.queue, t.tables.record))
        (loading (.sum ⟨.ligatures, 5, 1, 1, [], [0]⟩) 0x45 ⟨.ligatures, true, 1, 68⟩)
      = some (.text, false, [.notice .loadSum 1 68], none) := by decide

theorem test_loadSumByte_agrees :
    see .loadSumByte (fun t => (t.decoder.state, t.tables.bankB.valid, t.reply.queue))
        (loading (.sum ⟨.ligatures, 5, 1, 1, [], [0]⟩) 0x44 ⟨.ligatures, true, 1, 68⟩)
      = some (.text, true, []) := by decide

/-- Section 4.8: lookups in one list, whose entry 31 is not consulted. -/
def listBank : Bank :=
  let b := bankOf [(40, glyph 1 1 55 0 0 0 0 0 0), (41, glyph 1 2 50 0 0 0 0 0 0)]
  let b := b.writeItem .ligatures 5 (twoBytes 13 ++ twoBytes 14 ++ twoBytes 40)
  let b := b.writeItem .ligatures 9 (twoBytes 13 ++ twoBytes 14 ++ twoBytes 41)
  let b := b.writeItem .ligatures 20 (twoBytes 14 ++ twoBytes 12 ++ twoBytes 0)
  b.writeItem .ligatures 31 (twoBytes 14 ++ twoBytes 12 ++ twoBytes 41)

theorem test_ligature_lookups :
    [ligatureOf listBank 13 14, ligatureOf listBank 14 12, ligatureOf listBank 12 13] = [some 40, none, none] := by
  decide +kernel

theorem test_copy :
    see .copy (fun t => (decide (t.tables.bankB = t.tables.bankA), t.tables.active))
        (feedArgs .bank [] 0 (withBank hyphenBank { unit3 with tables := { unit3.tables with bankB := ⟨[], [], [], [], false⟩ } }))
      = some (true, .a) := by decide +kernel

theorem test_clear :
    see .clear (fun t => (t.tables.bankB, t.tables.active))
        (feedArgs .bank [] 1 { unit3 with tables := { unit3.tables with bankB := { hyphenBank with valid := false } } })
      = some (Bank.cleared, .a) := by decide +kernel

theorem test_swap_refused :
    see .swap (fun t => (t.tables.active, t.reply.queue))
        (feedArgs .bank [] 2 { unit3 with tables := { unit3.tables with bankB := ⟨[], [], [], [], false⟩ } })
      = some (.a, [.notice .swapRefused 1 0]) := by decide +kernel

/-- Section 2.5, BANK: with cells the line ends with kind SWAP and flag CUT; at a full exposure queue the exchange waits. -/
theorem test_swap_waits_with_its_line :
    see .swap (fun t => (t.tables.active, t.shaper.waiting.map (fun w => (w.packet.flags.cut, w.job.exchange))))
        (feedArgs .bank [] 2 (withCells [.space 20] 3600 0 (busAt .waiting (List.replicate 8 (packetOf 7 0)))))
      = some (.a, some (true, true)) := by decide +kernel

theorem test_packetJoin_finishes_the_swap :
    see .packetJoin (fun t => (t.tables.active, t.shaper.waiting, t.bus.queue.length, t.reply.counters.lines))
        (let s := busAt .waiting (List.replicate 7 (packetOf 7 0));
          { s with
            shaper := { s.shaper with waiting := some ⟨(packetOf 0 0).body, [.space 20], ⟨1, [], none, none, true⟩⟩ } })
      = some (.b, none, 8, 1) := by decide +kernel

theorem test_invalidBankOp :
    see .invalidBankOp (fun t => (t.decoder.state, t.reply.counters.stray)) (feedArgs .bank [] 3 unit3)
      = some (.text, 1) := by decide

/-! ### Breaking, justifying and placing (chapters 7 and 8) -/

/-- Section 7.7: how strokes are shared over three points, x = 2,160. -/
def strokeBank : Bank :=
  (bankOf [(12, glyph 1 1 37 1 1 1 0 0 0), (50, glyph 1 2 12 1 1 0 0 0 0)]).writeItem .header 0
    (twoBytes 0 ++ twoBytes 0 ++ twoBytes 0 ++ twoBytes 50)

def extend (n : Nat) : LineCopy := { LineCopy.default with extend := n }

theorem test_stroke_totals :
    [strokeTotal strokeBank (extend 3) 3 7200 40, strokeTotal strokeBank (extend 3) 3 16000 40,
      strokeTotal strokeBank (extend 3) 3 25000 40, strokeTotal strokeBank (extend 3) 3 16000 5,
      strokeTotal strokeBank (extend 3) 3 2000 40, strokeTotal strokeBank (extend 0) 3 7200 40]
      = [3, 7, 9, 5, 0, 0] := by decide +kernel

theorem test_strokes_shared :
    (withStrokes strokeBank 7 (List.replicate 4 (.letter (letter 12 12 37 .medial)))).map
        (fun x => match x with | .letter l => l.strokes | _ => 0)
      = [3, 2, 2, 0] := by decide +kernel

/-- Section 7.7: E = 5,760 over 7 spaces of 3,600; section 7.8, line 5. -/
theorem test_spaces_share :
    ((share 3600 5760 (List.replicate 7 (.space 20))).map (·.2), (share 3600 1440 (List.replicate 5 (.space 20))).map (·.2))
      = ([4423, 4423, 4423, 4423, 4423, 4423, 4422], [3888, 3888, 3888, 3888, 3888]) := by decide

/-- Section 7.7: the loose line, and section 7.8: offsets. -/
theorem test_loose_and_offsets :
    (threePhases strokeBank (extend 1) 10080 9 [.space 20]).2 = true
      ∧ [modeOffset { LineCopy.default with mode := .flushStart } 13500,
          modeOffset { LineCopy.default with mode := .flushEnd } 13500,
          modeOffset { LineCopy.default with mode := .centre } 13500] = [0, 13500, 6750] := by decide +kernel

/-- Section 7.6: leader fills of a gap of 54,240. -/
theorem test_leader_fills :
    (let b := bankOf [(301, glyph 1 1 20 4 0 0 0 0 0), (302, glyph 1 2 8 4 0 0 0 0 0)]
      let fill (pattern : List Nat) (budget : Nat) : Nat × Nat :=
        let c : LineCopy := { LineCopy.default with leader := pattern }
        let f := fillLeaders b c (leaderGlyphs b c) budget [] 54240;
        (f.1.length, f.2)
      [fill [301] 255, fill [301, 0, 302] 255, fill [301] 12, fill [0, 900] 255])
      = [(15, 240), (21, 240), (12, 11040), (0, 54240)] := by decide +kernel

/-- R139: starting classes, a substitute of class M and a ligature of class R first. -/
theorem test_starting_classes :
    startClass wordBank (.letter (letter 85 85 20 .isolated)) = some .w
      ∧ startClass wordBank (.letter { letter 12 40 55 .initial with second := some 20 }) = some .r
      ∧ startClass hyphenBank (.brk 0 true 10) = some .w ∧ startClass wordBank (.brk 0 true 0) = none
      ∧ startClass hyphenBank (.brk 0 false 0) = none ∧ startClass wordBank (.tab 0 [] 0) = none
      ∧ startClass wordBank (.link .join) = none ∧ startClass wordBank (.space 20) = some .w := by decide +kernel

/-- Section 8.2: one field in each base. -/
theorem test_levels :
    levels .ltr [.l, .l, .w, .r, .r, .w, .n, .n] = [0, 0, 0, 1, 1, 1, 2, 2]
      ∧ levels .rtl [.l, .l, .w, .r, .r, .w, .n, .n] = [2, 2, 1, 1, 1, 1, 2, 2] := by decide

theorem test_visual_order :
    (visualOrder ([0, 0, 0, 1, 1, 1, 2, 2].zip [1, 2, 3, 4, 5, 6, 7, 8])).map (·.2) = [1, 2, 3, 7, 8, 6, 5, 4]
      ∧ (visualOrder ([2, 2, 1, 1, 1, 1, 2, 2].zip [1, 2, 3, 4, 5, 6, 7, 8])).map (·.2) = [7, 8, 6, 5, 4, 3, 1, 2] := by decide

/-- Section 8.4: the residue carried, and section 8.5: a stack of two marks. -/
theorem test_residue_and_marks :
    (let p := ((Pen.start 0).advance 7400).advance 7400;
      (p, p.advance 9600)) = (⟨154, 16⟩, ⟨254, 16⟩)
      ∧ (markItems priceBank { LineCopy.default with size := 40 } .above 14800 48 70 [85, 85]).map (fun i => (i.x, i.y))
        = [(183, 145), (183, 195)]
      ∧ (markItems priceBank { LineCopy.default with size := 40 } .below 14800 48 10 [85]).map (fun i => (i.x, i.y))
        = [(183, -20)] := by decide +kernel

/-! ### The exposure queue and bus (chapter 9) -/

/-- Section 9.1: sequence numbers across the wrap. -/
theorem test_join_takes_the_next_number :
    (let b := (unit3.bus.join 8 (packetOf 0 0).body)
      let b := ({ b with nextSequence := 255 } : Bus).join 8 (packetOf 0 0).body;
      (b.queue.map (fun p => p.sequence), b.nextSequence, b.state)) = ([0, 255], 0, .waiting) := by decide +kernel

theorem test_busFree :
    see .busFree (fun t => (t.bus.state, t.bus.idleCount)) (busAt .waiting [packetOf 7 0]) = some (.contending, 0)
      ∧ refusalOf (exec .busFree unit3) = some (.cannotOccur .busStateOther) := by decide +kernel

/-- R160, R161: the gap in force is 8, so at an idle count of 7 the port still waits; at 8 the next bit time begins the header. -/
theorem test_gap_in_force :
    (let s (n : Nat) : State :=
        { busAt .waiting [packetOf 7 0] with bus := { (busAt .waiting [packetOf 7 0]).bus with idleCount := n } };
      (refusalOf (exec .busFree (s 7)), (nextOf (step (s 7))).map (fun t => (t.bus.state, t.bus.idleCount)),
        (nextOf (step (s 8))).map (fun t => (t.bus.state, t.bus.idleCount))))
      = (some (.cannotOccur .gapNotReached), some (.waiting, 8), some (.contending, 0)) := by decide +kernel

theorem test_busFoundBusy :
    see .busFoundBusy (fun t => (t.bus.state, t.bus.othersDrive, t.bus.idleCount))
        (let s := busAt .waiting [packetOf 7 0];
          { s with bus := { s.bus with idleCount := 5 } })
      = some (.waiting, true, 0) := by decide +kernel

theorem test_contest :
    see .contestLost (fun t => (t.bus.state, t.reply.counters.contestsLost)) (busAt .contending [packetOf 7 0])
      = some (.waiting, 1)
      ∧ see .contestWon (fun t => (t.bus.state, t.bus.ownership)) (busAt .contending [packetOf 7 0])
      = some (.sending, some ⟨4, 0⟩) := by decide +kernel

theorem test_sending :
    see .collision (fun t => (t.bus.state, t.bus.ownership, t.reply.queue)) (busAt .sending [packetOf 7 0])
      = some (.waiting, none, [.notice .collision 1 7])
      ∧ see .packetSent (fun t => (t.bus.state, t.bus.ownership, t.bus.holdTimer)) (busAt .sending [packetOf 7 0])
      = some (.awaiting, some ⟨2, 1⟩, some 50) := by decide +kernel

/-- Section 9.8: the owner goes on while its burst limit and its queue allow. -/
theorem test_accept :
    see .accept (fun t => (t.bus.state, t.bus.queue.map (fun p => p.sequence))) (busAt .awaiting [packetOf 40 0, packetOf 41 0])
      = some (.sending, [41])
      ∧ see .accept (fun t => (t.bus.state, t.bus.ownership)) (busAt .awaiting [packetOf 7 0]) = some (.busIdle, none) := by
  decide +kernel

theorem test_accept_ignored_elsewhere :
    see .accept (fun t => t.bus.queue.length) (busAt .deferring [packetOf 200 0]) = some 1
      ∧ see (.invalidAnswer 0xFF) (fun t => t.bus.state) (busAt .awaiting [packetOf 200 0]) = some .awaiting := by
  decide +kernel

/-- Section 10.7: a REJECT of packet 201, galley 2. -/
theorem test_reject :
    see .reject (fun t => (t.bus.queue, t.reply.queue, t.reply.counters.rejected)) (busAt .awaiting [packetOf 201 2])
      = some ([], [.notice .packetRejected 1 0xC902], 1) := by decide +kernel

theorem test_defer :
    see .defer (fun t => (t.bus.state, t.bus.queue.length, t.bus.deferTimer, t.reply.counters.deferred))
        (busAt .awaiting [packetOf 7 0])
      = some (.deferring, 1, some 20, 1) := by decide +kernel

theorem test_holdExpiry :
    see .holdExpiry (fun t => (t.bus.state, t.reply.queue, t.bus.othersDrive)) (busAt .awaiting [packetOf 200 0])
      = some (.deferring, [.notice .holdExpired 1 200], true) := by decide +kernel

theorem test_deferExpiry :
    see .deferExpiry (fun t => (t.bus.state, t.bus.gap, t.bus.deferTimer)) (busAt .deferring [packetOf 200 0])
      = some (.waiting, 8, none) := by decide +kernel

theorem test_imagingUnitRelease :
    see .imagingUnitRelease (fun t => (t.bus.othersDrive, t.bus.answerDue)) (busAt .awaiting [packetOf 7 0])
      = some (false, false) := by decide +kernel

/-! ### Replies and the return line (chapter 10) -/

theorem test_status :
    see .status (fun t => t.reply.queue.drop 2) (feedArgs .query [0, 0, 0] 0 (repliesAt [notice .holdExpired, notice .overrun] unit3))
      = some
          [.status
            { unitNumber := 3, acceptAll := false, takeOpen := false, portPriority := 0, activeBank := .a, standbyValid := true
              pendingNonEmpty := false, cells := 0, items := 0, exposureDepth := 0, busState := .busIdle, inputLevel := 0
              hold := false, returnDepth := 2 }] := by decide +kernel

/-- Six records: the reply waits, and the decoder with it. -/
theorem test_counts_waits :
    see .counts (fun t => (t.reply.queue.length, t.decoderWaiting))
        (feedArgs .query [1, 0, 0] 0 (repliesAt (List.replicate 6 (.counts Counters.zero)) unit3))
      = some (6, true) := by decide

theorem test_countsAndClear :
    see .countsAndClear (fun t => (t.reply.queue, t.reply.counters))
        (feedArgs .query [2, 0, 0] 0 (count .overrun unit3))
      = some ([.counts { Counters.zero with overrun := 1 }], Counters.zero) := by decide

/-- Section 4.10: glyph 12 of the active bank, and an index outside the table. -/
theorem test_entry :
    see .entry (fun t => t.reply.queue) (feedArgs .query [3, 0x09, 0] 12 (withBank wordBank unit3))
      = some [.entry .glyphs false 12 true (glyph 3 0x41 37 1 1 1 70 10 13645824)]
      ∧ see .entry (fun t => t.reply.queue) (feedArgs .query [3, 0x00, 0x03] 0x80 (withBank wordBank unit3))
      = some [.entry .codeMap false 896 false [0, 0]] := by decide +kernel

theorem test_invalidQueryKind :
    see .invalidQueryKind (fun t => (t.reply.queue, t.reply.counters.stray)) (feedArgs .query [4, 0, 0] 0 unit3)
      = some ([], 1) := by decide

theorem test_offeredReplyJoin :
    see .offeredReplyJoin (fun t => (t.reply.queue.length, t.reply.offered))
        (let s := repliesAt (List.replicate 5 (.counts Counters.zero)) unit3;
          { s with reply := { s.reply with offered := some .counts } })
      = some (6, none)
      ∧ refusalOf (exec .offeredReplyJoin
          (let s := repliesAt (List.replicate 6 (.counts Counters.zero)) unit3;
            { s with reply := { s.reply with offered := some .counts } })) = some (.cannotOccur .returnQueueDeep)
      ∧ see .offeredReplyJoin id unit3 = some unit3 := by decide

theorem test_recordDeparture :
    see .recordDeparture (fun t => (t.reply.queue, t.reply.sender.map (fun r => r.unsent)))
        (repliesAt [.notice .loadSum 1 68] unit3)
      = some ([], some [(true, 0x04), (false, 0x05), (false, 0x01), (false, 0x00), (false, 0x44)]) := by decide

/-- R20, R180: a departure from depth 6 joins the reply that waits in the same step. -/
theorem test_departure_joins_a_waiting_reply :
    see .recordDeparture (fun t => (t.reply.queue.getLast?, t.reply.queue.length, t.decoderWaiting))
        (let s := repliesAt (List.replicate 6 (notice .overrun)) unit3;
          { s with reply := { s.reply with offered := some .counts } })
      = some (some (.counts Counters.zero), 6, false) := by decide

theorem test_recordSent :
    see .recordSent (fun t => t.reply.sender) { unit3 with reply := { unit3.reply with sender := some ⟨notice .overrun, []⟩ } }
      = some none := by decide

theorem test_returnLineHold_and_release :
    see (.returnLineHold 2) (fun t => (t.reply.held, t.reply.sender.map (fun r => r.unsent.length)))
        { unit3 with reply := { unit3.reply with sender := some ⟨notice .overrun, (notice .overrun).characters⟩ } }
      = some (true, some 3)
      ∧ see .returnLineRelease (fun t => t.reply.held) { unit3 with reply := { unit3.reply with held := true } }
      = some false := by decide

/-- Section 10.7: a second OVERRUN merges and keeps its place. -/
theorem test_notices_merge :
    (raise .overrun 3 (repliesAt [.notice .holdExpired 1 200, .notice .overrun 1 5] unit3)).reply.queue
      = [.notice .holdExpired 1 200, .notice .overrun 2 3] := by decide

/-! ### Layouts (chapter 11) -/

/-- Section 11.3: two checks. -/
theorem test_checks :
    packetCheck
        { priority := 1, unit := 3, galley := 0, size := 36, leading := 320, flags := LineFlags.none, items := [] } 7 = 127
      ∧ packetCheck
          { priority := 0, unit := 5, galley := 2, size := 40, leading := 200, flags := { LineFlags.none with gap := true }
            items := [⟨3, 0x50, 1122, 0⟩] } 255 = 720
      ∧ signedBytes 145 = [0x00, 0x91] ∧ signedBytes (-20) = [0xFF, 0xEC] := by decide +kernel

/-- Section 9.8: the header of unit 3's packet, and the bits of a packet. -/
theorem test_header_bits :
    headerBits (packetOf 7 0) = [false, true, false, false, true, true]
      ∧ (packetBits (packetOf 7 0)).length = 6 + 8 * 10 := by decide +kernel

/-- Section 11.4: the characters of each record. -/
theorem test_record_lengths :
    [(Record.status (statusFields unit3)).characters.length, (Record.counts Counters.zero).characters.length,
      (Record.entry .codeMap true 3 true [0, 1]).characters.length, (Record.notice .loadRefused 1 0x0202).characters.length]
      = [16, 29, 8, 5]
      ∧ (Record.notice .loadRefused 1 0x0202).plainBytes = [0x04, 0x01, 0x02, 0x02] := by decide

/-! ### Every hypothesis of a statement is met by some state and operands

`witness_X` meets the hypotheses of `Obligations.X`, clause by clause, at the clauses' boundary values. -/

theorem witness_StepRunsFrontCommand : ({ unit3 with pending := [.takeEnd] } : State).pending = .takeEnd :: [] := rfl

theorem witness_TakeStartStoresOrLoses_here :
    (let s := portAt .deaf 0 (List.replicate 1023 .cut);
      s.port.forThisUnit 3 = true ∧ s.port.condition ≠ .accepting ∧ s.port.queue.length < 1024)
    ∧ (let s := portAt .accepting 0 (List.replicate 1022 .cut);
      s.port.forThisUnit 0 = true ∧ s.port.condition = .accepting ∧ s.port.queue.length < 1023)
    ∧ (let s := portAt .accepting 0 (List.replicate 1023 .cut);
      s.port.forThisUnit 3 = true ∧ s.port.condition = .accepting ∧ s.port.queue.length = 1023)
    ∧ (let s := fullPort .closed none;
      s.port.forThisUnit 3 = true ∧ 1024 ≤ s.port.queue.length) := by decide +kernel

theorem witness_TakeStartStoresOrLoses_elsewhere :
    (unit3.port.forThisUnit 5 = false ∧ unit3.port.condition ≠ .accepting)
    ∧ (let s := portAt .accepting 0 (List.replicate 1023 .cut);
      s.port.forThisUnit 5 = false ∧ s.port.condition = .accepting ∧ s.port.queue.length < 1024)
    ∧ (let s := fullPort .accepting none;
      s.port.forThisUnit 5 = false ∧ s.port.condition = .accepting ∧ 1024 ≤ s.port.queue.length) := by decide +kernel

theorem witness_PlainAndTakeEndArrivals :
    (portAt .deaf 0 []).port.condition ≠ .accepting
    ∧ (let s := portAt .accepting 0 (List.replicate 1023 .cut);
      s.port.condition = .accepting ∧ s.port.queue.length < 1024)
    ∧ (let s := fullPort .accepting none;
      s.port.condition = .accepting ∧ 1024 ≤ s.port.queue.length) := by decide +kernel

theorem witness_QueueStoresLosesAndRemoves_stores :
    (let p := (portAt .accepting 0 (List.replicate 1023 .cut)).port;
      p.queue.length < 1024 ∧ p.queue.length ≠ 959)
    ∧ (portAt .accepting 0 (List.replicate 959 .cut)).port.queue.length = 959
    ∧ (fullPort .accepting none).port.loss = none
    ∧ (fullPort .accepting (some ⟨255, none⟩)).port.loss = some ⟨255, none⟩ := by decide +kernel

theorem witness_QueueStoresLosesAndRemoves_removes :
    (let p := (portAt .accepting 0 (List.replicate 514 .cut)).port;
      p.queue = .cut :: List.replicate 513 .cut ∧ p.loss = none ∧ 512 < (List.replicate 513 Entry.cut).length)
    ∧ (let p := (portAt .accepting 0 (List.replicate 513 .cut)).port;
      p.queue = .cut :: List.replicate 512 .cut ∧ p.loss = none ∧ (List.replicate 512 Entry.cut).length ≤ 512
        ∧ p.ownHold = false)
    ∧ (let p : Port := { (portAt .accepting 0 (List.replicate 513 .cut)).port with ownHold := true, othersHold := true };
      p.queue = .cut :: List.replicate 512 .cut ∧ p.loss = none ∧ p.othersHold = true)
    ∧ (let p : Port := { (portAt .accepting 0 (List.replicate 513 .cut)).port with ownHold := true };
      p.queue = .cut :: List.replicate 512 .cut ∧ p.loss = none ∧ p.ownHold = true ∧ p.othersHold = false)
    ∧ (let p := (fullPort .accepting (some ⟨5, some .cut⟩)).port;
      p.queue = .plain 0x41 :: List.replicate 1023 (.plain 0x41) ∧ p.loss = some ⟨5, some .cut⟩
        ∧ (List.replicate 1023 (Entry.plain 0x41)).length = 1023) := by decide +kernel

theorem witness_HoldLineAndTakeTimer :
    (∀ own ∈ [false, true],
      let p : Port := { unit3.port with ownHold := own, othersHold := true };
      p.othersHold = true ∧ p.ownHold = own)
    ∧ unit3.port.othersHold = false
    ∧ ({ unit3.port with takeTimer := some 10 } : Port).takeTimer.isSome = true
    ∧ unit3.port.takeTimer = none ∧ (0x40 : Byte).toNat < 0x41 := by decide

theorem witness_FlaggedByteReading :
    (0x3F : Byte).toNat ≤ 0x3F ∧ (0x40 : Byte).toNat = 0x40 ∧ 0x41 ≤ (0x41 : Byte).toNat := by decide

theorem witness_DecoderTakesExactlyTheHeadEntry :
    Ready .takeEnd (feed .idle .takeEnd unit3)
    ∧ ∃ t : State, exec .takeEndEntry (feed .idle .takeEnd unit3) = .next t := ⟨by decide, _, rfl⟩

theorem witness_EntriesTakenInIdleOrSkip :
    (∀ e ∈ [Entry.takeStart 2, .takeEnd, .cut, .stalled, .gap 255 none, .gap 1 (some .takeEnd), .gap 1 (some .cut),
        .gap 1 (some (.takeStart 2)), .plain 0x41],
      Ready e (feed .idle e unit3) ∧ (feed .idle e unit3).decoder.state = .idle)
    ∧ Ready (.plain 0x41) (feed .skip (.plain 0x41) unit3) ∧ (feed .skip (.plain 0x41) unit3).decoder.state = .skip := by
  decide

/-- R18: the take byte count in each state, at its end too. -/
theorem witness_EntriesTakenInIdleOrSkip_counts :
    (∀ d ∈ [DecoderState.text, .args .plane [], .load ⟨.glyphs, 12, 1, 0, [], []⟩, .sum ⟨.glyphs, 12, 1, 1, [], []⟩, .skip],
      (feed d (.plain 0x41) unit3).decoder.state ≠ .idle)
    ∧ (∀ e ∈ [Entry.takeEnd, .gap 255 none], ∀ b, e ≠ .plain b) ∧ unit3.decoder.state = .idle := by
  refine ⟨by decide, fun e he b => ?_, rfl⟩
  simp only [List.mem_cons, List.not_mem_nil, or_false] at he
  rcases he with rfl | rfl <;> simp

theorem witness_BoundariesCloseAnOpenTake :
    (∀ e ∈ [Entry.takeEnd, .cut, .stalled, .takeStart 2],
      Ready e (feed .text e unit3) ∧ (feed .text e unit3).decoder.state ≠ .idle)
    ∧ unit3.decoder.state = .idle := by decide

def inLoad (accepted : Bool) (active : BankName) : State :=
  let s := feed (.load ⟨.glyphs, 12, 1, 0, [], []⟩) .cut unit3;
  { s with tables := { s.tables with active := active, record := some ⟨.glyphs, accepted, 0, 0⟩ } }

theorem witness_InHandIsCleared :
    (feed .skip .cut unit3).decoder.state = .skip
    ∧ (feed (.args .plane []) .cut unit3).decoder.state = .args .plane []
    ∧ (inLoad true .a).decoder.state = .load ⟨.glyphs, 12, 1, 0, [], []⟩
    ∧ ((inLoad true .a).tables.record = some ⟨.glyphs, true, 0, 0⟩ ∧ (inLoad true .a).tables.active = .a)
    ∧ ((inLoad true .b).tables.record = some ⟨.glyphs, true, 0, 0⟩ ∧ (inLoad true .b).tables.active = .b)
    ∧ (inLoad false .a).tables.record = some ⟨.glyphs, false, 0, 0⟩ := by decide

theorem witness_GapActsByState : Ready (.gap 7 (some .takeEnd)) loadBroken := by decide

theorem witness_TextByteHandsOnItsItem :
    (∀ c ∈ [(0x20 : Byte), 0xFF],
      Ready (.plain c) (feed .text (.plain c) unit3) ∧ (feed .text (.plain c) unit3).decoder.state = .text
        ∧ 0x20 ≤ c.toNat)
    ∧ wordBank.item .codeMap 33 = [0x40, 0x0C] ∧ wordBank.item .header 0 = [0, 0, 0, 20, 0, 0, 0, 0]
    ∧ wordBank.item .glyphs 12 = 0x83 :: 0x41 :: 0x25 :: 0x26 :: [0x46, 0x0A, 0x00, 0xD0, 0x38, 0x00] := by decide +kernel

theorem witness_ControlCodesAndPlane_codes :
    (∀ b ∈ [(0x00 : Byte), 0x0E, 0x1F],
      Ready (.plain b) (feed .text (.plain b) unit3) ∧ (b.toNat = 0 ∨ (0x0E ≤ b.toNat ∧ b.toNat ≤ 0x1F)))
    ∧ (∀ x ∈ [((0x01 : Byte), ControlCode.plane), (0x0C, .query)],
      Ready (.plain x.1) (feed .text (.plain x.1) unit3)
        ∧ (x.1.toNat, x.2) ∈ [(0x01, ControlCode.plane), (0x08, .format), (0x09, .leader), (0x0A, .load), (0x0B, .bank),
          (0x0C, .query)]) := by decide

theorem witness_ControlCodesAndPlane_arguments :
    (Ready (.plain 1) (feedArgs .format [0] 1 unit3) ∧ (feedArgs .format [0] 1 unit3).decoder.state = .args .format [0]
      ∧ [(0 : Byte)].length + 1 < 3)
    ∧ (Ready (.plain 1) (feedArgs .leader [] 1 unit3) ∧ ([] : List Byte).length + 1 < 1 + 2 * (1 : Byte).toNat)
    ∧ (Ready (.plain 3) (feedArgs .plane [] 3 unit3) ∧ (feedArgs .plane [] 3 unit3).decoder.state = .args .plane []
      ∧ (3 : Byte).toNat ≤ 3)
    ∧ (Ready (.plain 4) (feedArgs .plane [] 4 unit3) ∧ 3 < (4 : Byte).toNat) := by decide

theorem witness_CopyControlsHandOn :
    ∀ b ∈ [(0x02 : Byte), 0x03, 0x04, 0x05, 0x06, 0x07],
      Ready (.plain b) (feed .text (.plain b) unit3) ∧ (feed .text (.plain b) unit3).decoder.state = .text := by decide

theorem witness_LineEndsByControl_empty :
    (unit3.shaper.line.cells = [] ∧ unit3.shaper.waiting = none)
    ∧ (busAt .waiting (List.replicate 7 (packetOf 7 0))).bus.queue.length < 8
    ∧ (8 ≤ (busAt .waiting (List.replicate 8 (packetOf 7 0))).bus.queue.length
      ∧ (busAt .waiting (List.replicate 8 (packetOf 7 0))).shaper.line.cells = []) := by decide +kernel

/-- A store whose letter 12 is provisional, on a line at a place. -/
def provisionalAt (acc : Nat) : State := withBank wordBank (withCells [.space 20, .letter (provisionalLetter 12)] acc 1 unit3)

/-- The cells and the accumulator once the provisional letter has settled. -/
def settledAt (acc : Nat) : Option (List Cell × Nat) :=
  (settleProvisional false (provisionalAt acc)).map (fun r => (r.1.shaper.line.cells, r.1.shaper.line.acc))

theorem witness_LineEndsByControl_cells :
    ((withCells [.space 20] 3600 0 unit3).shaper.line.cells ≠ []
      ∧ allSettled (withCells [.space 20] 3600 0 unit3).shaper.line.cells = true)
    ∧ (∀ acc ∈ [246780, 246781],
      settledAt acc = some ([.space 20, .letter (letter 12 12 37 .isolated)], acc + 6660))
    ∧ 246780 + 6660 = unit3.format.line.measure * 96 := by decide +kernel

/-- A letter that joins with nothing and one that cells look past. -/
def clearBank : Bank := bankOf [(5, glyph 1 1 30 0 0 0 0 0 0), (6, glyph 1 2 10 4 4 0 0 0 0)]

theorem witness_ArrivalsAppend_line :
    ([.letter (letter 5 5 30 .isolated), .brk 0 false 0]
        = [] ++ .letter (letter 5 5 30 .isolated) :: [Cell.brk 0 false 0]
      ∧ [Cell.brk 0 false 0].all (fun x => x.transparent clearBank) = true
      ∧ (letter 5 5 30 .isolated).transparent clearBank = false ∧ (letter 5 5 30 .isolated).second = none)
    ∧ ([Cell.space 20] = [] ++ .space 20 :: [] ∧ (Cell.space 20).transparent clearBank = false
      ∧ ∀ l, Cell.space 20 = .letter l → l.second ≠ none)
    ∧ [Cell.brk 0 false 0].all (fun x => x.transparent clearBank) = true :=
  ⟨by decide +kernel, ⟨rfl, rfl, fun _ h => Cell.noConfusion h⟩, by decide⟩

theorem witness_ArrivalsAppend_settled :
    (let s := withBank clearBank (withCells (List.replicate 191 (.link .join)) 0 253 unit3);
      glyphTransparent s.tables.activeBank 6 = true ∧ glyphTransparent s.tables.activeBank 5 = false
        ∧ s.shaper.line.cells.length < 192 ∧ s.shaper.line.cells ≠ [] ∧ s.shaper.line.items < 254
        ∧ allSettled s.shaper.line.cells = true ∧ (headerGlyph s.tables.activeBank .breakGlyph).isSome = false)
    ∧ unit3.shaper.line.cells = [] := by decide +kernel

theorem witness_ArrivalsAppend_provisional :
    (∀ a ∈ [Arrival.letter 12, .space, .tab, .link .join, .carrier 12 85], a.transparent wordBank = false)
    ∧ (∀ acc ∈ [246780, 246781],
      settledAt acc = some ([.space 20, .letter (letter 12 12 37 .isolated)], acc + 6660))
    ∧ allSettled [.space 20, .letter (letter 12 12 37 .isolated)] = true := by decide +kernel

theorem witness_ArrivalsAppend_capacity :
    (∀ a ∈ [Arrival.letter 12, .space, .tab, .link .join, .carrier 12 85, .disc],
      a ≠ .space ∨ (withCells (List.replicate 192 (.link .join)) 0 0 unit3).shaper.line.cells ≠ [])
    ∧ 192 ≤ (withCells (List.replicate 192 (.link .join)) 0 0 unit3).shaper.line.cells.length
    ∧ allSettled (withCells (List.replicate 192 (.link .join)) 0 0 unit3).shaper.line.cells = true
    ∧ 255 < (withCells [.link .join] 0 255 unit3).shaper.line.items + 1
    ∧ 255 < (withCells [.link .join] 0 254 unit3).shaper.line.items + 2
    ∧ Arrival.transparent wordBank .disc = true := by decide +kernel

/-- A store whose last cell has two marks on each side, or three. -/
def marked (marks : List Nat) (items : Nat) : State :=
  withBank wordBank (withCells ([] ++ [.letter { provisionalLetter 12 with above := marks, below := marks }]) 0 items unit3)

/-- A bank whose header names a carrier. -/
def carrierBank : Bank := clearBank.writeItem .header 0 (twoBytes 5 ++ twoBytes 0 ++ twoBytes 0 ++ twoBytes 0)

theorem witness_MarksAttachOrDrop :
    (sideOf wordBank 85 = .above ∧ sideOf wordBank 87 = .below)
    ∧ ((marked [85, 85] 254).shaper.line.cells = [] ++ [.letter { provisionalLetter 12 with above := [85, 85], below := [85, 85] }]
      ∧ (marked [85, 85] 254).tables.activeBank = wordBank ∧ [85, 85].length < 3 ∧ (marked [85, 85] 254).shaper.line.items < 255)
    ∧ (3 ≤ [85, 85, 85].length ∧ 255 ≤ (marked [] 255).shaper.line.items)
    ∧ ((let cell (above below : List Nat) : Cell := .carrier { carrierCell wordBank 20 85 with above := above, below := below };
        (withCells ([] ++ [cell [85] []]) 0 2 unit3).shaper.line.cells = [] ++ [cell [85] []]))
    ∧ (∀ cells ∈ [[], [Cell.space 20], [.tab 0 [] 0], [.brk 0 false 0], [.link .join]],
      cells.getLast?.any (fun x => !x.isSpace && !x.isTab && x.isContent) = false)
    ∧ headerGlyph unit3.tables.activeBank .carrier = none ∧ headerGlyph carrierBank .carrier = some 5 := by decide +kernel

theorem witness_SettlementChoosesForm :
    wordBank.item .glyphs 12 = [0x83, 0x41, 0x25, 0x26, 0x46, 0x0A, 0x00, 0xD0, 0x38, 0x00]
    ∧ (marked [] 1).shaper.line.cells = [] ++ .letter (provisionalLetter 12) :: []
    ∧ allSettled ([] : List Cell) = true ∧ (provisionalLetter 12).settled = false
    ∧ allSettled unit3.shaper.line.cells = true := by decide +kernel

/-- A line store with a last eligible break. -/
def breaksAt (cells : List Cell) (lastBreak : Option (Nat × Nat)) : Line :=
  { Line.empty with cells := cells, lastBreak := lastBreak }

theorem witness_LigatureLookupAndMerge :
    wordBank.item .ligatures 5 = [0, 13, 0, 14, 0, 40]
    ∧ (let e := letter 12 13 30 .initial
      let l := letter 12 14 28 .medial;
      (breaksAt ([.link .join] ++ .letter e :: .letter l :: []) none).cells = [.link .join] ++ .letter e :: .letter l :: []
        ∧ e.settled = true ∧ e.second = none
        ∧ (([] : List Cell).takeWhile (fun x => x.transparent wordBank)).any Cell.isUnbrokenBreak = false
        ∧ ligatureOf wordBank e.setGlyph l.setGlyph = some 40)
    ∧ ([Cell.brk 0 false 0].takeWhile (fun x => x.transparent wordBank)).any Cell.isUnbrokenBreak = true
    ∧ ligatureOf wordBank 12 13 = none
    ∧ (∀ e, [Cell.link .join].getLast? ≠ some (.letter e)) ∧ (∀ e, ([] : List Cell).getLast? ≠ some (.letter e)) := by
  refine ⟨by decide +kernel, by decide +kernel, by decide +kernel, by decide +kernel, ?_, ?_⟩
  · intro e h
    cases h
  · intro e h
    cases h

theorem witness_TabGoesToTheNextStop :
    (let c : LineCopy := { LineCopy.default with tabs := 800 :: List.replicate 15 0 };
      (76800 ≤ 76800 ∧ ∀ t ∈ c.tabs, t ≠ 0 → min t c.measure * 96 ≤ 76800)
      ∧ (∃ t ∈ c.tabs, t ≠ 0 ∧ 76799 < min t c.measure * 96)) := by decide

theorem witness_OverflowEndsAndCarriesOver_overflow :
    (breaksAt [.link .join, .space 20] (some (1, 0))).lastBreak = some (1, 0)
    ∧ (breaksAt [.link .join, .space 20] (some (1, 0))).cells[1]? = some (.space 20)
    ∧ (breaksAt [.link .join, .brk 7 false 0] (some (1, 7))).cells[1]? = some (.brk 7 false 0)
    ∧ ((breaksAt [.space 20, .space 20] none).lastBreak = none
      ∧ ((breaksAt [.space 20, .space 20] none).cells.take 1).any Cell.isContent = true)
    ∧ ((breaksAt [.link .join, .space 20] none).lastBreak = none
      ∧ ((breaksAt [.link .join, .space 20] none).cells.take 1).any Cell.isContent = false) := by decide

theorem witness_OverflowEndsAndCarriesOver_capacity :
    (let before : List Cell := [.space 20];
      allSettled before = true ∧ (provisionalLetter 12).settled = false
        ∧ provisionalIndex (before ++ Cell.letter (provisionalLetter 12) :: []) = some 1
        ∧ ((before ++ Cell.letter (provisionalLetter 12) :: []).take 1).any Cell.isContent = true)
    ∧ provisionalIndex [.letter (provisionalLetter 12)] = some 0
    ∧ (([Cell.letter (provisionalLetter 12)]).take 0).any Cell.isContent = false
    ∧ provisionalIndex [Cell.space 20] = none := by decide

theorem witness_OverflowEndsAndCarriesOver_reforms :
    ([Cell.brk 0 false 0].all (fun y => y.transparent wordBank) = true
      ∧ (letter 12 14 28 .medial).transparent wordBank = false ∧ (letter 12 14 28 .medial).second = none
      ∧ (letter 12 14 28 .medial).settled = true)
    ∧ (Cell.space 20).transparent wordBank = false
    ∧ (∀ l, Cell.space 20 = .letter l → l.second ≠ none) ∧ (∀ l, Cell.space 20 ≠ .letter l) :=
  ⟨by decide +kernel, rfl, fun _ h => Cell.noConfusion h, fun _ h => Cell.noConfusion h⟩

/-- The carried cells fit the new line, or the first of them overflows it. -/
theorem witness_OverflowEndsAndCarriesOver_remeasures :
    (remeasure wordBank LineCopy.default [.letter (letter 12 12 37 .isolated)] Line.empty).2 = none
    ∧ (remeasure wordBank LineCopy.default [.letter (letter 12 12 37 .isolated), .link .join]
        { Line.empty with acc := 253440 }).2 = some [.link .join] := by decide +kernel

theorem witness_SpacesShareTheExtra : 0 < spaceCount [.link .join, .space 20] := by decide

theorem witness_StrokesAreShared :
    (let cells := List.replicate 2 (Cell.letter (letter 12 12 37 .medial));
      (∀ x ∈ cells, x = .letter (letter 12 12 37 .medial)) ∧ (letter 12 12 37 .medial).strokes = 0
        ∧ 0 < pointCount strokeBank cells)
    ∧ (1 ≤ (extend 1).extend ∧ 0 < strokeWidth strokeBank (extend 1) ∧ strokeWidth strokeBank (extend 1) ≤ 2160)
    ∧ (extend 0).extend = 0 ∧ strokeWidth Bank.cleared (extend 1) = 0 ∧ 2159 < strokeWidth strokeBank (extend 1) := by
  decide +kernel

theorem witness_LeadersFillTheGap :
    leaderGlyphs priceBank LineCopy.default = []
    ∧ leaderGlyphs priceBank { LineCopy.default with leader := [0, 301] } = 301 :: []
    ∧ [Cell.space 20, .link .join].any Cell.isTab = false := by decide +kernel

theorem witness_JustifiedByModeAndKind :
    (∀ mode ∈ [Mode.justify, .flushStart, .flushEnd, .centre], ({ LineCopy.default with mode := mode } : LineCopy).mode = mode)
    ∧ spaceCount (lastField (fillTabs strokeBank LineCopy.default [.link .join] 255).1) = 0
    ∧ 0 < spaceCount (lastField (fillTabs strokeBank LineCopy.default [.space 20] 255).1)
    ∧ sumFine LineCopy.default [.space 20] ≤ LineCopy.default.measure * 96
    ∧ firstFields [.tab 0 [] 0, .space 20] ≠ [] ∧ EndKind.endline ≠ .overflow := by decide +kernel

/-- Section 7.7: a line that an overflow ended is loose where its one space passes the maximum, or where it has no space. -/
theorem test_loose_lines :
    (justify strokeBank { LineCopy.default with measure := 240 } .overflow false
      [.letter (letter 12 12 37 .isolated)]).loose = true
    ∧ (justify strokeBank { LineCopy.default with measure := 240 } .overflow false [.space 20]).loose = true
    ∧ (justify strokeBank { LineCopy.default with measure := 240 } .endline false [.space 20]).loose = false := by decide +kernel

theorem witness_LevelsByClassAndBase :
    DirClass.m ∉ [DirClass.l, .s, .n, .w, .r]
    ∧ 0 ∈ levels .ltr [.l] ∧ 2 ∈ levels .ltr [.r, .n] ∧ 1 ∈ levels .rtl [.w] := by decide

theorem witness_LinePlacedAtExactEdges :
    (∀ d ∈ [Direction.ltr, .rtl], ({ LineCopy.default with direction := d } : LineCopy).direction = d)
    ∧ [(Cell.space 20, 0)].any (fun x => x.1.isTab) = false := by decide

theorem witness_VisualOrderReversesRuns :
    (∀ e ∈ [(0, Cell.space 1), (0, .space 2)], e.1 = 0) ∧ (∀ e ∈ [(1, Cell.space 1), (2, .space 2)], 1 ≤ e.1)
    ∧ (∀ e ∈ [(1, Cell.space 1), (1, .space 2)], e.1 = 1) ∧ (∀ e ∈ [(2, Cell.space 1), (2, .space 2)], e.1 = 2) := by decide

/-- Two runs with a cell between them, and a run at either end of the field. -/
theorem witness_VisualOrderReversesRuns_pass :
    (∀ k ∈ [1, 2],
      (∀ e ∈ [(2, Cell.space 1), (2, .space 2)], k ≤ e.1)
      ∧ (∀ before ∈ [([] : List (Nat × Cell)), [(2, .space 3), (0, .space 4)]], ∀ e, before.getLast? = some e → e.1 < k)
      ∧ (∀ after ∈ [([] : List (Nat × Cell)), [(0, .space 4), (1, .space 3)]], ∀ e, after.head? = some e → e.1 < k)
      ∧ (0, Cell.space 4).1 < k)
    ∧ [(2, Cell.space 1), (0, .space 4)][1]? = some (0, .space 4) := by
  refine ⟨fun k hk => ?_, rfl⟩
  simp only [List.mem_cons, List.not_mem_nil, or_false] at hk
  rcases hk with rfl | rfl <;> simp

/-- Section 8.2: two runs at level 2 in one field, each reversed in place. -/
theorem test_runs_reverse_in_place :
    (reverseRuns (fun e => decide (2 ≤ e.1)) [] ([2, 2, 1, 1, 1, 1, 2, 2].zip [1, 2, 3, 4, 5, 6, 7, 8])).map (·.2)
      = [2, 1, 3, 4, 5, 6, 8, 7] := by decide

theorem witness_PacketJoinsWithNumberAndCheck :
    (let s := busAt .waiting (List.replicate 7 (packetOf 7 0));
      let t : State := { s with shaper := { s.shaper with waiting := some ⟨(packetOf 0 0).body, [], ⟨1, [], none, none, true⟩⟩ } };
      t.shaper.waiting = some ⟨(packetOf 0 0).body, [], ⟨1, [], none, none, true⟩⟩ ∧ t.bus.queue.length < 8)
    ∧ unit3.shaper.waiting = none ∧ 8 ≤ (busAt .waiting (List.replicate 8 (packetOf 7 0))).bus.queue.length
    ∧ PendingSet.empty.tabs.length = LineCopy.default.tabs.length := by decide +kernel

/-- Section 3.2: pending writes side by side, applied together, tab stop 15 among them. -/
theorem test_pending_set_applied :
    (((PendingSet.empty.write (.size 40)).write (.tab 15 480)).write (.leader [7])).applyTo LineCopy.default
      = { LineCopy.default with size := 40, tabs := LineCopy.default.tabs.set 15 480, leader := [7] } := by decide

theorem witness_ContestAndSending :
    (∀ st ∈ [BusState.waiting, .contending, .sending],
      (busAt st [packetOf 7 0]).bus.queue = packetOf 7 0 :: [] ∧ (busAt st [packetOf 7 0]).bus.state = st
        ∧ (busAt st [packetOf 7 0]).bus.othersDrive = false
        ∧ (st = .sending → (busAt st [packetOf 7 0]).bus.ownership = some ⟨2, 0⟩))
    ∧ (busAt .waiting [packetOf 7 0]).bus.gap ≤ (busAt .waiting [packetOf 7 0]).bus.idleCount := by decide +kernel

theorem witness_ContestAndSending_refused :
    (busAt .awaiting [packetOf 7 0]).bus.othersDrive = true
    ∧ (let b : Bus := { (busAt .waiting [packetOf 7 0]).bus with idleCount := 7 };
      b.othersDrive = false ∧ b.state = .waiting ∧ b.idleCount < b.gap)
    ∧ (unit3.bus.othersDrive = false ∧ unit3.bus.queue = [] ∧ unit3.bus.state ≠ .waiting)
    ∧ (let b := (busAt .waiting []).bus; b.othersDrive = false ∧ b.queue = [] ∧ b.gap ≤ b.idleCount)
    ∧ ((busAt .deferring [packetOf 7 0]).bus.othersDrive = false
      ∧ ∀ st ∈ [BusState.waiting, .contending, .sending], (busAt .deferring [packetOf 7 0]).bus.state ≠ st) := by decide +kernel

theorem witness_BusSensedAndTimersExpire :
    ((busAt .awaiting [packetOf 7 0]).bus.state = .awaiting ∧ (busAt .awaiting [packetOf 7 0]).bus.holdTimer.isSome = true)
    ∧ ((busAt .deferring [packetOf 7 0]).bus.state = .deferring
      ∧ (busAt .deferring [packetOf 7 0]).bus.deferTimer.isSome = true)
    ∧ (unit3.bus.state ≠ .awaiting ∧ unit3.bus.deferTimer = none)
    ∧ unit3.pending = [] := by decide +kernel

theorem witness_AnswersTakenOrIgnored :
    (let s := busAt .awaiting [packetOf 7 0];
      s.bus.state = .awaiting ∧ s.bus.answerDue = true ∧ s.bus.queue = packetOf 7 0 :: [] ∧ s.bus.ownership = some ⟨2, 0⟩)
    ∧ ((busAt .deferring [packetOf 7 0]).bus.state ≠ .awaiting ∧ unit3.bus.answerDue = false)
    ∧ (0x80 ≤ (0x80 : Byte).toNat ∧ (0x80 : Byte) ≠ 0xA5 ∧ (0x80 : Byte) ≠ 0x96 ∧ (0x80 : Byte) ≠ 0xC3)
    ∧ (0x7F : Byte).toNat < 0x80 := by decide +kernel

theorem witness_FormatClampsAndFiles :
    Ready (.plain 0x90) (feedArgs .format [0, 1] 0x90 unit3)
    ∧ (feedArgs .format [0, 1] 0x90 unit3).decoder.state = .args .format [0, 1] := by decide

theorem witness_LeaderFilesThePattern :
    (Ready (.plain 0) (feedArgs .leader [] 0 unit3) ∧ ([] : List Byte) ++ [0] = 0 :: []
      ∧ ([] : List Byte).length = 2 * (0 : Byte).toNat)
    ∧ (Ready (.plain 0x2D) (feedArgs .leader [1, 1] 0x2D unit3) ∧ [(1 : Byte), 1] ++ [0x2D] = 1 :: [1, 0x2D]
      ∧ [(1 : Byte), 0x2D].length = 2 * (1 : Byte).toNat) := by decide

theorem witness_ResetRestartsCopy :
    Ready (.plain 0x0D) (feed .text (.plain 0x0D) unit3) ∧ (feed .text (.plain 0x0D) unit3).decoder.state = .text := by decide

theorem witness_WrittenItemReadsBack :
    [(0 : Byte), 12].length = TableKind.codeMap.itemSize ∧ (wordBank.table .codeMap).wf = true ∧ (34 : Nat) ≠ 33
    ∧ TableKind.glyphs ≠ .codeMap := by decide +kernel

theorem witness_LoadHeaderOpensOrRefuses :
    Ready (.plain 0) (feedArgs .load [4, 0, 0, 0] 0 unit3) ∧ 3 < (4 : Byte).toNat
    ∧ (feedArgs .load [4, 0, 0, 0] 0 unit3).decoder.state = .args .load [4, 0, 0, 0]
    ∧ ∀ x ∈ [((0 : Byte), TableKind.codeMap, 0, 895), (1, .glyphs, 1, 1023), (2, .ligatures, 0, 255), (3, .header, 0, 0)],
        Ready (.plain 0) (feedArgs .load [x.1, 0, 0, 0] 0 unit3)
        ∧ (x.1.toNat, x.2) ∈ [(0, TableKind.codeMap, 0, 895), (1, .glyphs, 1, 1023), (2, .ligatures, 0, 255),
            (3, .header, 0, 0)] := by decide

theorem witness_LoadDataByteFillsTheItem :
    (let s := loading (.load ⟨.codeMap, 5, 1, 0, [], []⟩) 0 ⟨.codeMap, true, 0, 0⟩;
      Ready (.plain 0) s ∧ s.decoder.state = .load ⟨.codeMap, 5, 1, 0, [], []⟩ ∧ ([] : List Byte).length + 1 < TableKind.codeMap.itemSize)
    ∧ (let s := loading (.load ⟨.codeMap, 5, 1, 0, [0], []⟩) 0 ⟨.codeMap, true, 0, 0⟩;
      Ready (.plain 0) s ∧ s.decoder.state = .load ⟨.codeMap, 5, 1, 0, [0], []⟩
        ∧ [(0 : Byte)].length + 1 = TableKind.codeMap.itemSize ∧ s.tables.record = some ⟨.codeMap, true, 0, 0⟩) := by decide

theorem witness_LoadSumEndsTheLoad :
    (let s := loading (.sum ⟨.codeMap, 5, 0, 0, [], []⟩) 0 ⟨.codeMap, true, 0, 0⟩;
      Ready (.plain 0) s ∧ s.decoder.state = .sum ⟨.codeMap, 5, 0, 0, [], []⟩)
    ∧ (let s := loading (.sum ⟨.codeMap, 5, 0, 0, [], [0]⟩) 0 ⟨.codeMap, false, 0, 0⟩;
      Ready (.plain 0) s ∧ s.decoder.state = .sum ⟨.codeMap, 5, 0, 0, [], [0]⟩
        ∧ s.tables.record = some ⟨.codeMap, false, 0, 0⟩) := by decide

def roles (active : BankName) (standbyValid : Bool) : State :=
  { unit3 with
    tables :=
      { bankA := ⟨[], [], [], [], standbyValid || decide (active = .a)⟩
        bankB := ⟨[], [], [], [], standbyValid || decide (active = .b)⟩, active := active, record := none } }

theorem witness_BankOperations :
    ∀ b ∈ [(0 : Byte), 1, 2, 3], ∀ active ∈ [BankName.a, .b], ∀ valid ∈ [true, false],
      Ready (.plain b) (feedArgs .bank [] b (roles active valid))
        ∧ (feedArgs .bank [] b (roles active valid)).decoder.state = .args .bank []
        ∧ (roles active valid).tables.active = active ∧ (roles active valid).tables.standbyBank.valid = valid := by decide

theorem witness_QueriesOfferReplies :
    (∀ kind ∈ [(0 : Byte), 1, 2, 3, 4],
      Ready (.plain 0) (feedArgs .query [kind, 0, 0] 0 unit3)
        ∧ (feedArgs .query [kind, 0, 0] 0 unit3).decoder.state = .args .query [kind, 0, 0])
    ∧ ∀ x ∈ [((0 : Byte), TableKind.codeMap), (1, .glyphs), (2, .ligatures), (7, .header)],
        (x.1.toNat % 4, x.2) ∈ [(0, TableKind.codeMap), (1, .glyphs), (2, .ligatures), (3, .header)] := by decide

theorem witness_ReturnLineEvents :
    (let s := repliesAt (List.replicate 5 (notice .overrun)) unit3;
      let t : State := { s with reply := { s.reply with offered := some .status } };
      t.reply.offered = some .status ∧ t.reply.queue.length ≤ 5)
    ∧ (let s := repliesAt [notice .overrun] unit3;
      s.reply.queue = notice .overrun :: [] ∧ s.reply.sender = none ∧ s.reply.held = false ∧ s.reply.offered = none)
    ∧ (∀ n ∈ [5, 6],
      let s := repliesAt (notice .overrun :: List.replicate n (notice .overrun)) unit3
      let t : State := { s with reply := { s.reply with offered := some .countsAndClear } };
      t.reply.queue = notice .overrun :: List.replicate n (notice .overrun) ∧ t.reply.offered = some .countsAndClear
        ∧ ((List.replicate n (notice .overrun)).length ≤ 5 ↔ n = 5))
    ∧ (let r : ReplyUnit := { unit3.reply with sender := some ⟨notice .overrun, []⟩ };
      r.sender = some ⟨notice .overrun, []⟩ ∧ r.held = false)
    ∧ 29 ≤ 29 ∧ ({ unit3.reply with held := true } : ReplyUnit).held = true := by decide

theorem witness_ReturnLineEvents_refused :
    (let s := repliesAt (List.replicate 6 (notice .overrun)) unit3
      let t : State := { s with reply := { s.reply with offered := some .status } };
      t.reply.offered.isSome = true ∧ 5 < t.reply.queue.length)
    ∧ unit3.reply.queue = [] ∧ unit3.reply.sender = none
    ∧ (let r : ReplyUnit := { unit3.reply with sender := some ⟨notice .overrun, [(false, 1)]⟩, held := true };
      r.sender = some ⟨notice .overrun, [(false, 1)]⟩ ∧ r.held = true ∧ [(false, (1 : Byte))] ≠ [])
    ∧ 29 < 30 := by decide

theorem witness_NoticesMerge :
    (NoticeKind.overrun ∉ noticeKinds (repliesAt [notice .takeCut] unit3).reply.queue)
    ∧ ((repliesAt [notice .takeCut, .notice .overrun 255 5] unit3).reply.queue
        = [notice .takeCut] ++ .notice .overrun 255 5 :: []
      ∧ NoticeKind.overrun ∉ noticeKinds [notice .takeCut]) := by decide

theorem witness_CountersNeverDecrease :
    (∃ t : State, exec .recordDeparture (repliesAt [notice .overrun] unit3) = .next t)
    ∧ (∀ strap acceptAll, Instr.recordDeparture ≠ .powerOn strap acceptAll)
    ∧ Instr.recordDeparture ≠ .countsAndClear ∧ (repliesAt [notice .overrun] unit3).reply.offered ≠ some .countsAndClear
    ∧ unit3.reply.counters.get .stray ≤ 65535 :=
  ⟨⟨_, rfl⟩, fun _ _ h => Instr.noConfusion h, by decide, by decide, by decide⟩

theorem witness_ActiveBankIsNeverWritten :
    ∃ t : State, exec .clear (feedArgs .bank [] 1 unit3) = .next t ∧ t.tables.activeBank = unit3.tables.activeBank :=
  ⟨_, rfl, rfl⟩

theorem witness_FramesOfTheBlocks :
    (∃ t : State, exec .imagingUnitRelease (busAt .awaiting [packetOf 7 0]) = .next t)
    ∧ Instr.imagingUnitRelease ∈ [Instr.busFree, .imagingUnitRelease] := ⟨⟨_, rfl⟩, by decide⟩

/-- A unit with a line, packets and records, and a command to take. -/
def busy (c : Instr) : State :=
  { withCells [.space 20] 3600 0 (busAt .waiting [packetOf 7 0]) with
    bus := { (busAt .waiting [packetOf 7 0]).bus with nextSequence := 8 }
    reply := { unit3.reply with queue := [notice .overrun] }
    pending := [c] }

theorem witness_StepKeepsPortInv : PortInv (busy (.takeStart 1 3)) ∧ ∃ t, step (busy (.takeStart 1 3)) = .next t :=
  ⟨by decide, _, rfl⟩

theorem witness_StepKeepsFormatAndWaitInv :
    FormatInv (busy .busFree) ∧ WaitInv (busy .busFree) ∧ ∃ t, step (busy .busFree) = .next t :=
  ⟨by decide, by decide, _, rfl⟩

theorem witness_StepKeepsTableInv : TableInv (busy .busFree) ∧ ∃ t, step (busy .busFree) = .next t := ⟨by decide, _, rfl⟩

theorem witness_StepKeepsLoadInv : LoadInv (busy .busFree) ∧ ∃ t, step (busy .busFree) = .next t := ⟨by decide, _, rfl⟩

theorem witness_StepKeepsLineSumsInv : LineSumsInv (busy .busFree) ∧ ∃ t, step (busy .busFree) = .next t :=
  ⟨by decide, _, rfl⟩

theorem witness_StepKeepsLineStoreInv : LineStoreInv (busy .busFree) ∧ ∃ t, step (busy .busFree) = .next t :=
  ⟨by decide, _, rfl⟩

theorem witness_StepKeepsBreakInv : BreakInv (busy .busFree) ∧ ∃ t, step (busy .busFree) = .next t := ⟨by decide, _, rfl⟩

theorem witness_StepKeepsBusInv : BusInv (busy .busFree) ∧ ∃ t, step (busy .busFree) = .next t :=
  ⟨by decide +kernel, _, rfl⟩

theorem witness_StepKeepsReplyInv : ReplyInv (busy .busFree) ∧ ∃ t, step (busy .busFree) = .next t := ⟨by decide, _, rfl⟩

end Sys2Proof.Tests
end

section
/-! SUPPORT. What each command does to the setting port, said once, and the two statements that rest on it: the frames of the
blocks (O51) and the port's invariant (O52). -/

namespace Sys2Proof.Proofs

open Sys2Proof.Machine Sys2Proof.Safety

/-! ### Work that leaves the setting port and the queue of commands alone -/

/-- What the decoder's work for an entry, the exposure bus and the return line all leave as it is. -/
structure PortKept (s t : State) : Prop where
  port : t.port = s.port
  pending : t.pending = s.pending

theorem PortKept.refl (s : State) : PortKept s s := ⟨rfl, rfl⟩

theorem PortKept.trans {s t u : State} (h : PortKept s t) (k : PortKept t u) : PortKept s u :=
  ⟨k.port.trans h.port, k.pending.trans h.pending⟩

theorem PortKept.of_shaperKeeps {s t : State} (h : ShaperKeeps s t) : PortKept s t := ⟨h.port, h.pending⟩

theorem portKept_doJob (j : Job) (s : State) : PortKept s (doJob j s) := .of_shaperKeeps (keeps_doJob j s)

theorem portKept_handArrival (a : Arrival) (s : State) : PortKept s (handArrival a s) := portKept_doJob _ s

theorem portKept_reportLoss (l : Loss) (s : State) : PortKept s (reportLoss l s) := ⟨rfl, rfl⟩

theorem portKept_count (name : CounterName) (s : State) : PortKept s (count name s) := ⟨rfl, rfl⟩

theorem portKept_setDecoderState (d : DecoderState) (s : State) : PortKept s (setDecoderState d s) := ⟨rfl, rfl⟩

theorem portKept_abortLoad (s : State) : PortKept s (abortLoad s) := by
  unfold abortLoad
  cases s.tables.record with
  | none => exact .refl s
  | some r => dsimp only; split <;> exact ⟨rfl, rfl⟩

theorem portKept_clearInHand (s : State) : PortKept s (clearInHand s) := by
  unfold clearInHand
  cases s.decoder.state with
  | idle => exact .refl s
  | text => exact .refl s
  | args code bytes => exact ⟨rfl, rfl⟩
  | load ctx => exact portKept_abortLoad s
  | sum ctx => exact portKept_abortLoad s
  | skip => exact .refl s

theorem portKept_closeTake (notice : Option NoticeKind) (s : State) : PortKept s (closeTake notice s) := by
  have closed := (portKept_clearInHand s).trans (portKept_setDecoderState .idle _)
  cases notice with
  | none => exact closed
  | some k => exact closed.trans ⟨rfl, rfl⟩

theorem portKept_openTake (priority : Priority) (s : State) : PortKept s (openTake priority s) := ⟨rfl, rfl⟩

theorem portKept_closingBoundary (notice : Option NoticeKind) (s : State) : PortKept s (closingBoundary notice s) := by
  unfold closingBoundary
  split
  · exact .refl s
  · exact (portKept_closeTake notice s).trans (portKept_doJob _ _)

theorem portKept_openingBoundary (priority : Priority) (s : State) : PortKept s (openingBoundary priority s) := by
  unfold openingBoundary
  split
  · exact portKept_openTake priority s
  · exact ((portKept_closeTake _ s).trans (portKept_openTake priority _)).trans (portKept_doJob _ _)

theorem portKept_applyBoundary (boundary : Option Boundary) (s : State) : PortKept s (applyBoundary boundary s) := by
  unfold applyBoundary
  split
  · exact .refl s
  · exact portKept_openingBoundary _ s
  · exact portKept_closingBoundary _ s
  · exact portKept_closingBoundary _ s

theorem portKept_actOnLoss (s : State) : PortKept s (actOnLoss s) := by
  have cleared (d : DecoderState) : PortKept s (flagGap (setDecoderState d (clearInHand s))) :=
    (portKept_clearInHand s).trans ⟨rfl, rfl⟩
  unfold actOnLoss
  cases s.decoder.state with
  | idle => exact .refl s
  | text => exact ⟨rfl, rfl⟩
  | args code bytes => exact cleared .text
  | load ctx => exact cleared .skip
  | sum ctx => exact cleared .skip
  | skip => exact .refl s

theorem portKept_openControl (e : Entry) (s : State) : PortKept s (openControl e s) := by
  unfold openControl
  split
  · exact portKept_setDecoderState _ s
  · exact .refl s

theorem portKept_addArgument (e : Entry) (s : State) : PortKept s (addArgument e s) := by
  unfold addArgument
  split <;> exact ⟨rfl, rfl⟩

/-- A control that is carried out leaves what its own work leaves. -/
theorem portKept_carryOut {work : List Byte → State → State} (h : ∀ bytes u, PortKept u (work bytes u)) (e : Entry)
    (s : State) : PortKept s (carryOut work e s) :=
  (portKept_setDecoderState .text s).trans (h _ _)

theorem portKept_setPlane (bytes : List Byte) (s : State) : PortKept s (setPlane bytes s) := by
  unfold setPlane
  split <;> exact ⟨rfl, rfl⟩

theorem portKept_writeFormat (bytes : List Byte) (s : State) : PortKept s (writeFormat bytes s) := by
  unfold writeFormat
  split <;> exact ⟨rfl, rfl⟩

theorem portKept_writeLeader (bytes : List Byte) (s : State) : PortKept s (writeLeader bytes s) := ⟨rfl, rfl⟩

theorem portKept_unitReset (s : State) : PortKept s (unitReset s) := ⟨rfl, rfl⟩

theorem portKept_handUnmapped (s : State) : PortKept s (handUnmapped s) := by
  unfold handUnmapped
  have flagged : PortKept s (count .unmapped (s.setLine s.shaper.line.flagUnmapped)) := ⟨rfl, rfl⟩
  dsimp only
  split
  · exact flagged.trans (portKept_handArrival _ _)
  · exact flagged

theorem portKept_takeText (c : Byte) (s : State) : PortKept s (takeText c s) := by
  unfold takeText
  split
  · exact portKept_handArrival _ s
  · exact .of_shaperKeeps (keeps_handMark _ s)
  · exact portKept_handArrival _ s
  · exact portKept_handUnmapped s

theorem portKept_openLoad (bytes : List Byte) (s : State) : PortKept s (openLoad bytes s) := by
  unfold openLoad
  split <;> exact ⟨rfl, rfl⟩

theorem portKept_takeItem (k : TableKind) (index : Nat) (bytes : List Byte) (s : State) :
    PortKept s (takeItem k index bytes s) := by
  unfold takeItem
  split
  · exact .refl s
  · split <;> exact ⟨rfl, rfl⟩

theorem portKept_takeLoadByte (e : Entry) (s : State) : PortKept s (takeLoadByte e s) := by
  unfold takeLoadByte
  split
  · dsimp only
    split
    · exact portKept_setDecoderState _ s
    · exact (portKept_setDecoderState _ s).trans (portKept_takeItem _ _ _ _)
  all_goals exact .refl s

theorem portKept_takeSum (sent : Nat) (s : State) : PortKept s (takeSum sent s) := by
  unfold takeSum
  cases s.tables.record with
  | none => exact .refl s
  | some r =>
    dsimp only
    split
    · split <;> exact ⟨rfl, rfl⟩
    · exact ⟨rfl, rfl⟩

theorem portKept_takeSumByte (e : Entry) (s : State) : PortKept s (takeSumByte e s) := by
  unfold takeSumByte
  split
  · split
    · exact portKept_setDecoderState _ s
    · exact (portKept_setDecoderState _ s).trans (portKept_takeSum _ _)
  all_goals exact .refl s

theorem portKept_copyBank (s : State) : PortKept s (copyBank s) := ⟨rfl, rfl⟩

theorem portKept_clearBank (s : State) : PortKept s (clearBank s) := ⟨rfl, rfl⟩

theorem portKept_swapBanks (s : State) : PortKept s (swapBanks s) := by
  unfold swapBanks
  split
  · exact portKept_doJob _ s
  · exact ⟨rfl, rfl⟩

theorem portKept_offerReply (q : Query) (s : State) : PortKept s (offerReply q s) := by
  unfold offerReply
  split <;> exact ⟨rfl, rfl⟩

/-! ### The exposure bus and the return line touch their own blocks only -/

/-- What a command that works on the exposure bus or the return line alone leaves as it is. -/
structure FrontKept (s t : State) : Prop where
  port : t.port = s.port
  decoder : t.decoder = s.decoder
  format : t.format = s.format
  tables : t.tables = s.tables
  shaper : t.shaper = s.shaper
  pending : t.pending = s.pending

theorem FrontKept.refl (s : State) : FrontKept s s := ⟨rfl, rfl, rfl, rfl, rfl, rfl⟩

theorem frontKept_setBus (s : State) (b : Bus) : FrontKept s (s.setBus b) := ⟨rfl, rfl, rfl, rfl, rfl, rfl⟩

theorem frontKept_setReply (s : State) (r : ReplyUnit) : FrontKept s (s.setReply r) := ⟨rfl, rfl, rfl, rfl, rfl, rfl⟩

theorem frontKept_setBus_setReply (s : State) (b : Bus) (r : ReplyUnit) : FrontKept s ((s.setBus b).setReply r) :=
  ⟨rfl, rfl, rfl, rfl, rfl, rfl⟩

theorem frontKept_joinReply (q : Query) (s : State) : FrontKept s (joinReply q s) := frontKept_setReply s _

/-- An event of one bus state leaves what its own work leaves. -/
theorem frontKept_inBusState {st : BusState} {s t : State} {f : Packet → State} (hf : ∀ p, FrontKept s (f p))
    (h : inBusState st s f = .next t) : FrontKept s t := by
  unfold inBusState at h
  split at h
  · cases h
  · split at h
    · cases h; exact hf _
    · cases h

theorem frontKept_busFree {s t : State} (h : execBusFree s = .next t) : FrontKept s t := by
  unfold execBusFree at h
  split at h
  · cases h
  · split at h
    · cases h
    · exact frontKept_inBusState (fun _ => frontKept_setBus s _) h

theorem frontKept_accept {s t : State} (h : execAccept s = .next t) : FrontKept s t := by
  unfold execAccept at h
  split at h <;> cases h
  · exact frontKept_setBus s _
  · exact .refl s

theorem frontKept_reject {s t : State} (h : execReject s = .next t) : FrontKept s t := by
  unfold execReject at h
  split at h <;> cases h
  · exact frontKept_setBus_setReply s _ _
  · exact .refl s

theorem frontKept_defer {s t : State} (h : execDefer s = .next t) : FrontKept s t := by
  unfold execDefer at h
  split at h <;> cases h
  · exact frontKept_setBus_setReply s _ _
  · exact .refl s

theorem frontKept_holdExpiry {s t : State} (h : execHoldExpiry s = .next t) : FrontKept s t := by
  unfold execHoldExpiry at h
  split at h <;> cases h
  exact frontKept_setBus_setReply s _ _

theorem frontKept_deferExpiry {s t : State} (h : execDeferExpiry s = .next t) : FrontKept s t := by
  unfold execDeferExpiry at h
  split at h <;> cases h
  exact frontKept_setBus s _

theorem frontKept_offeredReplyJoin {s t : State} (h : execOfferedReplyJoin s = .next t) : FrontKept s t := by
  unfold execOfferedReplyJoin at h
  split at h
  · cases h; exact .refl s
  · split at h <;> cases h
    exact frontKept_joinReply _ s

theorem frontKept_retestReply_setReply (s : State) (r : ReplyUnit) : FrontKept s (retestReply (s.setReply r)) := by
  rw [retestReply_eq]
  split
  · split
    · exact frontKept_setReply s _
    · exact frontKept_setReply s r
  · exact frontKept_setReply s r

theorem frontKept_recordDeparture {s t : State} (h : execRecordDeparture s = .next t) : FrontKept s t := by
  unfold execRecordDeparture at h
  split at h
  · cases h
  · split at h <;> cases h
    exact frontKept_retestReply_setReply s _

theorem frontKept_recordSent {s t : State} (h : execRecordSent s = .next t) : FrontKept s t := by
  unfold execRecordSent at h
  split at h
  · cases h
  · split at h <;> cases h
    exact frontKept_setReply s _

/-- The commands of the exposure bus and the return line that touch nothing else, as O51 lists them. -/
def busAndReturnCommands : List Instr :=
  [.busFree, .busFoundBusy, .contestLost, .contestWon, .collision, .packetSent, .accept, .reject, .defer, .holdExpiry,
    .deferExpiry, .imagingUnitRelease, .offeredReplyJoin, .recordDeparture, .recordSent, .returnLineRelease]

/-- The cases stand in the order of the list. -/
theorem exec_frontKept {c : Instr} (hc : c ∈ busAndReturnCommands) {s t : State} (h : exec c s = .next t) :
    FrontKept s t := by
  simp only [busAndReturnCommands, List.mem_cons, List.not_mem_nil, or_false] at hc
  rcases hc with rfl | rfl | rfl | rfl | rfl | rfl | rfl | rfl | rfl | rfl | rfl | rfl | rfl | rfl | rfl | rfl
  · exact frontKept_busFree h
  · cases h; exact frontKept_setBus s _
  · exact frontKept_inBusState (fun _ => frontKept_setBus_setReply s _ _) h
  · exact frontKept_inBusState (fun _ => frontKept_setBus s _) h
  · exact frontKept_inBusState (fun _ => frontKept_setBus_setReply s _ _) h
  · exact frontKept_inBusState (fun _ => frontKept_setBus s _) h
  · exact frontKept_accept h
  · exact frontKept_reject h
  · exact frontKept_defer h
  · exact frontKept_holdExpiry h
  · exact frontKept_deferExpiry h
  · cases h; exact frontKept_setBus s _
  · exact frontKept_offeredReplyJoin h
  · exact frontKept_recordDeparture h
  · exact frontKept_recordSent h
  · cases h; exact frontKept_setReply s _

/-! ### What a command can do to the port -/

/-- One event of the port: everything a command other than POWER_ON can make of it. -/
inductive PortEvent (timeout : Nat) (p : Port) : Port → Prop
  | kept : PortEvent timeout p p
  | takeStartHere (priority : Priority) : PortEvent timeout p (p.takeStartHere timeout priority)
  | takeStartElsewhere : PortEvent timeout p (p.takeStartElsewhere timeout)
  | endTake : PortEvent timeout p (p.endTake timeout)
  | plainByte (b : Byte) : PortEvent timeout p (p.plainByte timeout b)
  | othersRise : PortEvent timeout p { p with othersHold := true, takeTimer := none }
  | othersLower : PortEvent timeout p (p.othersLower timeout)
  | stall : PortEvent timeout p { p.store .stalled with condition := .closed, takeTimer := none }
  | removeHead : PortEvent timeout p (p.removeHead timeout)

/-- A command's whole effect on the port and the queue of commands. -/
structure PortMoved (s t : State) : Prop where
  event : PortEvent s.format.unit.takeTimeout s.port t.port
  pending : t.pending = s.pending

theorem PortMoved.setPort {s : State} {p : Port} (h : PortEvent s.format.unit.takeTimeout s.port p) :
    PortMoved s (s.setPort p) := ⟨h, rfl⟩

theorem PortKept.moved {s t : State} (h : PortKept s t) : PortMoved s t := ⟨h.port ▸ .kept, h.pending⟩

theorem FrontKept.moved {s t : State} (h : FrontKept s t) : PortMoved s t := ⟨h.port ▸ .kept, h.pending⟩

/-- A decoder event whose work keeps the port removes the head entry, and that is all the port sees. -/
theorem takeHead_moved {c : Instr} {work : Entry → State → State} (hwork : ∀ e u, PortKept u (work e u)) {s t : State}
    (h : takeHead c work s = .next t) : PortMoved s t := by
  obtain ⟨e, -, -, rfl⟩ := takeHead_next h
  refine withRemoval_keeps (P := PortMoved s) ?_ ?_ fun _ => ⟨.removeHead, rfl⟩
  · exact fun u hu => ⟨(hwork e u).port ▸ hu.event, (hwork e u).pending.trans hu.pending⟩
  · exact fun _ _ hu => ⟨hu.event, hu.pending⟩

theorem packetJoin_moved {s t : State} (h : execPacketJoin s = .next t) : PortMoved s t := by
  unfold execPacketJoin at h
  split at h
  · cases h
  · split at h
    · cases h
    · cases h
      exact (PortKept.of_shaperKeeps
        (((keeps_setShaper s _).trans (keeps_joinPacket _ _)).trans (keeps_runJob _ _ _))).moved

theorem invalidAnswer_moved {b : Byte} {s t : State} (h : execInvalidAnswer b s = .next t) : PortMoved s t := by
  unfold execInvalidAnswer at h
  split at h
  · split at h <;> cases h
    exact (PortKept.refl s).moved
  · cases h

theorem returnLineHold_moved {n : Nat} {s t : State} (h : execReturnLineHold n s = .next t) : PortMoved s t := by
  unfold execReturnLineHold at h
  split at h
  · split at h <;> cases h
    · exact (PortKept.refl s).moved
    · exact (frontKept_setReply s _).moved
  · cases h

theorem takeStart_moved {priority : Priority} {address : Nibble} {s t : State}
    (h : execTakeStart priority address s = .next t) : PortMoved s t := by
  unfold execTakeStart at h
  cases h
  split
  · exact .setPort (.takeStartHere priority)
  · exact .setPort .takeStartElsewhere

theorem ignoredFlaggedByte_moved {b : Byte} {s t : State} (h : execIgnoredFlaggedByte b s = .next t) : PortMoved s t := by
  unfold execIgnoredFlaggedByte at h
  split at h <;> cases h
  exact (PortKept.refl s).moved

theorem holdLineFall_moved {s t : State} (h : execHoldLineFall s = .next t) : PortMoved s t := by
  unfold execHoldLineFall at h
  split at h <;> cases h
  exact .setPort .othersLower

theorem takeTimerExpiry_moved {s t : State} (h : execTakeTimerExpiry s = .next t) : PortMoved s t := by
  unfold execTakeTimerExpiry at h
  split at h <;> cases h
  exact .setPort .stall

/-- What every command but POWER_ON can do to the port. -/
theorem exec_moved {c : Instr} {s t : State} (hc : ∀ strap acceptAll, c ≠ .powerOn strap acceptAll)
    (h : exec c s = .next t) : PortMoved s t := by
  have front (hm : c ∈ busAndReturnCommands) : PortMoved s t := (exec_frontKept hm h).moved
  cases c with
  | powerOn strap acceptAll => exact absurd rfl (hc strap acceptAll)
  | takeStart priority address => exact takeStart_moved h
  | takeEnd => cases h; exact .setPort .endTake
  | plain b => cases h; exact .setPort (.plainByte b)
  | ignoredFlaggedByte b => exact ignoredFlaggedByte_moved h
  | holdLineRise => cases h; exact .setPort .othersRise
  | holdLineFall => exact holdLineFall_moved h
  | takeTimerExpiry => exact takeTimerExpiry_moved h
  | takeStartEntry => exact takeHead_moved (fun e u => portKept_openingBoundary e.priority u) h
  | takeEndEntry => exact takeHead_moved (fun _ u => portKept_closingBoundary none u) h
  | cutEntry => exact takeHead_moved (fun _ u => portKept_closingBoundary _ u) h
  | stalledEntry => exact takeHead_moved (fun _ u => portKept_closingBoundary _ u) h
  | gapEntry => exact takeHead_moved (fun e u => (portKept_actOnLoss u).trans (portKept_applyBoundary e.boundary _)) h
  | plainDiscarded => exact takeHead_moved (fun _ u => .refl u) h
  | textByte => exact takeHead_moved (fun e u => portKept_takeText e.byte u) h
  | strayCode => exact takeHead_moved (fun _ u => portKept_count .stray u) h
  | argumentByte => exact takeHead_moved portKept_addArgument h
  | plane => exact takeHead_moved (portKept_carryOut portKept_setPlane) h
  | disc => exact takeHead_moved (fun _ u => portKept_handArrival _ u) h
  | tab => exact takeHead_moved (fun _ u => portKept_handArrival _ u) h
  | endline => exact takeHead_moved (fun _ u => portKept_doJob _ u) h
  | endpara => exact takeHead_moved (fun _ u => portKept_doJob _ u) h
  | join => exact takeHead_moved (fun _ u => portKept_handArrival _ u) h
  | nojoin => exact takeHead_moved (fun _ u => portKept_handArrival _ u) h
  | format => exact takeHead_moved (portKept_carryOut portKept_writeFormat) h
  | leader => exact takeHead_moved (portKept_carryOut portKept_writeLeader) h
  | load => exact takeHead_moved (portKept_carryOut portKept_openLoad) h
  | loadDataByte => exact takeHead_moved portKept_takeLoadByte h
  | loadSumByte => exact takeHead_moved portKept_takeSumByte h
  | copy => exact takeHead_moved (portKept_carryOut fun _ u => portKept_copyBank u) h
  | clear => exact takeHead_moved (portKept_carryOut fun _ u => portKept_clearBank u) h
  | swap => exact takeHead_moved (portKept_carryOut fun _ u => portKept_swapBanks u) h
  | invalidBankOp => exact takeHead_moved (portKept_carryOut fun _ u => portKept_count .stray u) h
  | status => exact takeHead_moved (portKept_carryOut fun _ u => portKept_offerReply _ u) h
  | counts => exact takeHead_moved (portKept_carryOut fun _ u => portKept_offerReply _ u) h
  | countsAndClear => exact takeHead_moved (portKept_carryOut fun _ u => portKept_offerReply _ u) h
  | entry => exact takeHead_moved (portKept_carryOut fun _ u => portKept_offerReply _ u) h
  | invalidQueryKind => exact takeHead_moved (portKept_carryOut fun _ u => portKept_count .stray u) h
  | reset => exact takeHead_moved (fun _ u => portKept_unitReset u) h
  | controlCodeWithArguments => exact takeHead_moved portKept_openControl h
  | packetJoin => exact packetJoin_moved h
  | invalidAnswer b => exact invalidAnswer_moved h
  | returnLineHold n => exact returnLineHold_moved h
  | busFree => exact front (by decide)
  | busFoundBusy => exact front (by decide)
  | contestLost => exact front (by decide)
  | contestWon => exact front (by decide)
  | collision => exact front (by decide)
  | packetSent => exact front (by decide)
  | accept => exact front (by decide)
  | reject => exact front (by decide)
  | defer => exact front (by decide)
  | holdExpiry => exact front (by decide)
  | deferExpiry => exact front (by decide)
  | imagingUnitRelease => exact front (by decide)
  | offeredReplyJoin => exact front (by decide)
  | recordDeparture => exact front (by decide)
  | recordSent => exact front (by decide)
  | returnLineRelease => exact front (by decide)

/-! ### A removal in two moves (R9, R10, R13) -/

/-- The port with its head entry gone and a pending loss stored as a GAP in the freed place, before the hold drive is
looked at. -/
def refilled (p : Port) : Port :=
  match p.loss with
  | none => { p with queue := p.queue.tail }
  | some l => { ({ p with queue := p.queue.tail } : Port).store l.gapEntry with loss := none }

/-- The removal refills the freed place, and at 512 or below lowers the own drive. -/
theorem removeHead_eq (timeout : Nat) (p : Port) :
    p.removeHead timeout =
      if (refilled p).queue.length ≤ 512 then (refilled p).lowerHold timeout else refilled p := rfl

theorem refilled_of_no_loss {p : Port} (h : p.loss = none) : refilled p = { p with queue := p.queue.tail } := by
  unfold refilled
  split
  · rfl
  · next l hsome => exact absurd (h.symm.trans hsome) nofun

/-- Storing an entry and clearing the loss record do not disturb each other. -/
theorem store_clear_loss (e : Entry) (p : Port) :
    ({ p.store e with loss := none } : Port) = ({ p with loss := none } : Port).store e := by
  unfold Port.store
  dsimp only
  split
  · split <;> rfl
  · rfl

theorem refilled_of_loss {p : Port} {l : Loss} (h : p.loss = some l) :
    refilled p = ({ p with queue := p.queue.tail, loss := none } : Port).store l.gapEntry := by
  unfold refilled
  split
  · next hnone => exact absurd (hnone.symm.trans h) nofun
  · next l' hsome =>
    obtain rfl : l' = l := Option.some.inj (hsome.symm.trans h)
    exact store_clear_loss l'.gapEntry { p with queue := p.queue.tail }

/-! ### The settings no event of the port touches (O51) -/

/-- The unit number and the accept-all setting, and the pins they were read from (R1). -/
structure SettingsKept (p q : Port) : Prop where
  unitNumber : q.unitNumber = p.unitNumber
  acceptAll : q.acceptAll = p.acceptAll
  strapPins : q.strapPins = p.strapPins
  acceptAllPin : q.acceptAllPin = p.acceptAllPin

theorem SettingsKept.refl (p : Port) : SettingsKept p p := ⟨rfl, rfl, rfl, rfl⟩

theorem SettingsKept.trans {p q r : Port} (h : SettingsKept p q) (k : SettingsKept q r) : SettingsKept p r :=
  ⟨k.unitNumber.trans h.unitNumber, k.acceptAll.trans h.acceptAll, k.strapPins.trans h.strapPins,
    k.acceptAllPin.trans h.acceptAllPin⟩

theorem settingsKept_store (e : Entry) (p : Port) : SettingsKept p (p.store e) := by
  unfold Port.store
  split
  · split <;> exact ⟨rfl, rfl, rfl, rfl⟩
  · exact .refl p

theorem settingsKept_lose (b : Option Boundary) (p : Port) : SettingsKept p (p.lose b) := ⟨rfl, rfl, rfl, rfl⟩

theorem settingsKept_storeOrLose (e : Entry) (b : Option Boundary) (p : Port) : SettingsKept p (p.storeOrLose e b) := by
  unfold Port.storeOrLose
  split
  · exact settingsKept_lose b p
  · exact settingsKept_store e p

theorem settingsKept_restartTimer (timeout : Nat) (p : Port) : SettingsKept p (p.restartTimer timeout) :=
  ⟨rfl, rfl, rfl, rfl⟩

theorem settingsKept_lowerHold (timeout : Nat) (p : Port) : SettingsKept p (p.lowerHold timeout) := by
  rw [lowerHold_eq]
  exact ⟨rfl, rfl, rfl, rfl⟩

theorem settingsKept_refilled (p : Port) : SettingsKept p (refilled p) := by
  cases h : p.loss with
  | none => rw [refilled_of_no_loss h]; exact ⟨rfl, rfl, rfl, rfl⟩
  | some l =>
    rw [refilled_of_loss h]
    exact .trans (q := { p with queue := p.queue.tail, loss := none }) ⟨rfl, rfl, rfl, rfl⟩ (settingsKept_store _ _)

theorem settingsKept_removeHead (timeout : Nat) (p : Port) : SettingsKept p (p.removeHead timeout) := by
  rw [removeHead_eq]
  split
  · exact (settingsKept_refilled p).trans (settingsKept_lowerHold timeout _)
  · exact settingsKept_refilled p

/-- The condition and the priority are no settings. -/
theorem settingsKept_setCondition (c : PortCondition) (priority : Priority) (p : Port) :
    SettingsKept p { p with condition := c, priority := priority } := ⟨rfl, rfl, rfl, rfl⟩

theorem settingsKept_takeStartHere (timeout : Nat) (priority : Priority) (p : Port) :
    SettingsKept p (p.takeStartHere timeout priority) := by
  unfold Port.takeStartHere
  refine .trans ?_ ((settingsKept_setCondition .accepting priority _).trans (settingsKept_restartTimer timeout _))
  split
  · split
    · exact settingsKept_lose _ p
    · exact (settingsKept_store _ p).trans (settingsKept_storeOrLose _ _ _)
  · exact settingsKept_storeOrLose _ _ p

theorem settingsKept_event {timeout : Nat} {p q : Port} (h : PortEvent timeout p q) : SettingsKept p q := by
  have stored (e : Entry) (b : Option Boundary) (c : PortCondition) :
      SettingsKept p (({ p.storeOrLose e b with condition := c } : Port).restartTimer timeout) :=
    (settingsKept_storeOrLose e b p).trans ⟨rfl, rfl, rfl, rfl⟩
  cases h with
  | kept => exact .refl p
  | takeStartHere priority => exact settingsKept_takeStartHere timeout priority p
  | takeStartElsewhere =>
    unfold Port.takeStartElsewhere
    split
    · exact stored .cut _ .deaf
    · exact ⟨rfl, rfl, rfl, rfl⟩
  | endTake =>
    unfold Port.endTake
    split
    · exact stored .takeEnd _ .closed
    · exact .refl p
    · exact .refl p
  | plainByte b =>
    unfold Port.plainByte
    split
    · exact (settingsKept_storeOrLose _ _ p).trans (settingsKept_restartTimer timeout _)
    · exact .refl p
    · exact .refl p
  | othersRise => exact ⟨rfl, rfl, rfl, rfl⟩
  | othersLower => unfold Port.othersLower; split <;> exact ⟨rfl, rfl, rfl, rfl⟩
  | stall => exact (settingsKept_store _ p).trans ⟨rfl, rfl, rfl, rfl⟩
  | removeHead => exact settingsKept_removeHead timeout p

/-- Settles O51: an event of the port touches no setting, and the bus and the return line touch no block before them. -/
theorem framesOfTheBlocks : Obligations.FramesOfTheBlocks := by
  intro c s t h
  refine ⟨fun hc => ?_, fun hc => ?_⟩
  · obtain ⟨hevent, hpending⟩ := exec_moved hc h
    obtain ⟨hu, ha, hs, hp⟩ := settingsKept_event hevent
    exact ⟨hu, ha, hs, hp, hpending⟩
  · obtain ⟨hp, hd, hf, ht, hs, -⟩ := exec_frontKept hc h
    exact ⟨hp, hd, hf, ht, hs⟩

/-! ### The invariant of the queue and the hold drive (R8, R10, R12) -/

/-- The part of the port's invariant that speaks of the queue, the loss record and the own hold drive alone. -/
structure QueueOk (queue : List Entry) (loss : Option Loss) (ownHold : Bool) : Prop where
  length_le : queue.length ≤ 1024
  inRange : queue.all entryInRange = true
  loss_full : loss.isSome = true → queue.length = 1024
  loss_range : loss.all (fun l => decide (1 ≤ l.count ∧ l.count ≤ 255)) = true
  ownLow : ownHold = false → queue.length < 960

/-- R14: the take timer runs only in ACCEPTING with the line low. -/
def TimerOk (p : Port) : Prop := p.takeTimer.isSome = true → p.condition = .accepting ∧ p.holdLine = false

/-- The port's invariant in its two parts, beside the unit number. -/
structure PortOk (p : Port) : Prop where
  queue : QueueOk p.queue p.loss p.ownHold
  timer : TimerOk p

theorem portInv_iff (s : State) : PortInv s ↔ PortOk s.port ∧ s.port.unitNumber ≠ 0 := by
  constructor
  · rintro ⟨hlen, hall, hfull, hrange, hlow, htimer, hunit⟩
    exact ⟨⟨⟨hlen, hall, hfull, hrange, hlow⟩, htimer⟩, hunit⟩
  · rintro ⟨⟨⟨hlen, hall, hfull, hrange, hlow⟩, htimer⟩, hunit⟩
    exact ⟨hlen, hall, hfull, hrange, hlow, htimer, hunit⟩

theorem TimerOk.of_stopped {p : Port} (h : p.takeTimer = none) : TimerOk p := by simp [TimerOk, h]

theorem timerOk_restartTimer (timeout : Nat) (p : Port) : TimerOk (p.restartTimer timeout) := by
  intro h
  rw [restartTimer_eq] at h ⊢
  by_cases hrun : p.condition = .accepting ∧ p.holdLine = false ∧ timeout ≠ 0
  · exact ⟨hrun.1, hrun.2.1⟩
  · simp [hrun] at h

/-- A store that raises the own drive stops the timer; any other leaves the timer, the condition and the line. -/
theorem TimerOk.store {p : Port} (h : TimerOk p) (e : Entry) : TimerOk (p.store e) := by
  unfold Port.store
  split
  · split
    · exact .of_stopped rfl
    · exact h
  · exact h

/-- An entry in range joins a queue with room, and then no loss is pending; a full queue stays as it is. -/
theorem QueueOk.store {p : Port} {loss : Option Loss} (h : QueueOk p.queue loss p.ownHold) {e : Entry}
    (he : entryInRange e = true) : QueueOk (p.store e).queue loss (p.store e).ownHold := by
  by_cases room : p.queue.length < 1024
  · have hall : (p.queue ++ [e]).all entryInRange = true := by simp [h.inRange, he]
    have noLoss : ¬ loss.isSome = true := fun hl => by have := h.loss_full hl; omega
    rw [store_eq e p room]
    split
    · exact ⟨by simp; omega, hall, fun hl => absurd hl noLoss, h.loss_range, fun hown => by cases hown⟩
    · refine ⟨by simp; omega, hall, fun hl => absurd hl noLoss, h.loss_range, fun hown => ?_⟩
      have := h.ownLow hown
      simp only [List.length_append, List.length_singleton]
      omega
  · unfold Port.store
    rw [if_neg room]
    exact h

/-- R12: a lost count starts at 1 and stops at 255. -/
theorem QueueOk.lose {p : Port} (h : QueueOk p.queue p.loss p.ownHold) (hfull : 1024 ≤ p.queue.length)
    (b : Option Boundary) : QueueOk (p.lose b).queue (p.lose b).loss (p.lose b).ownHold := by
  refine ⟨h.length_le, h.inRange, fun _ => Nat.le_antisymm h.length_le hfull, ?_, h.ownLow⟩
  have hrange := h.loss_range
  unfold Port.lose
  cases hl : p.loss with
  | none => simp
  | some l =>
    simp only [hl, Option.all_some, decide_eq_true_eq] at hrange ⊢
    omega

theorem QueueOk.storeOrLose {p : Port} (h : QueueOk p.queue p.loss p.ownHold) {e : Entry} (he : entryInRange e = true)
    (b : Option Boundary) :
    QueueOk (p.storeOrLose e b).queue (p.storeOrLose e b).loss (p.storeOrLose e b).ownHold := by
  unfold Port.storeOrLose
  split
  · next hfull => exact h.lose (by simpa [Port.full] using hfull) b
  · rw [store_loss]
    exact h.store he

/-- A shorter queue without a loss record. -/
theorem QueueOk.tail {queue : List Entry} {loss : Option Loss} {ownHold : Bool} (h : QueueOk queue loss ownHold) :
    QueueOk queue.tail none ownHold := by
  have hlen := h.length_le
  refine ⟨by simp; omega, ?_, by simp, rfl, fun hown => ?_⟩
  · exact List.all_eq_true.2 fun e he => List.all_eq_true.1 h.inRange e (List.mem_of_mem_tail he)
  · have := h.ownLow hown
    simp only [List.length_tail]
    omega

/-! ### Every event of the port keeps its invariant (O52) -/

theorem PortOk.refilled {p : Port} (h : PortOk p) : PortOk (refilled p) := by
  have tail := h.queue.tail
  cases hl : p.loss with
  | none =>
    rw [refilled_of_no_loss hl]
    exact ⟨hl ▸ tail, h.timer⟩
  | some l =>
    rw [refilled_of_loss hl]
    have hgap : entryInRange l.gapEntry = true := by
      simpa [Loss.gapEntry, entryInRange, hl] using h.queue.loss_range
    refine ⟨?_, TimerOk.store (p := { p with queue := p.queue.tail, loss := none }) h.timer _⟩
    rw [store_loss]
    exact QueueOk.store (p := { p with queue := p.queue.tail, loss := none }) tail hgap

/-- R10, R14: at 512 or below the own drive may be low; the timer restarts only where the line falls. -/
theorem PortOk.lowerHold {p : Port} (h : PortOk p) (hlow : p.queue.length ≤ 512) (timeout : Nat) :
    PortOk (p.lowerHold timeout) := by
  refine ⟨?_, ?_⟩
  · rw [lowerHold_queue, lowerHold_loss, lowerHold_ownHold]
    exact ⟨h.queue.length_le, h.queue.inRange, h.queue.loss_full, h.queue.loss_range, fun _ => by omega⟩
  · unfold Port.lowerHold
    split
    · exact timerOk_restartTimer timeout _
    · next hstays =>
      intro hrun
      obtain ⟨hcond, hline⟩ := h.timer hrun
      rw [holdLine_eq, Bool.or_eq_false_iff] at hline
      exact ⟨hcond, by rw [holdLine_eq, hline.2]; rfl⟩

theorem PortOk.removeHead {p : Port} (h : PortOk p) (timeout : Nat) : PortOk (p.removeHead timeout) := by
  rw [removeHead_eq]
  split
  · next hlow => exact h.refilled.lowerHold hlow timeout
  · exact h.refilled

theorem PortOk.takeStartHere {p : Port} (h : PortOk p) (timeout : Nat) (priority : Priority) :
    PortOk (p.takeStartHere timeout priority) := by
  have hcut : QueueOk (p.store .cut).queue (p.store .cut).loss (p.store .cut).ownHold := by
    rw [store_loss]
    exact h.queue.store rfl
  unfold Port.takeStartHere
  refine ⟨?_, timerOk_restartTimer timeout _⟩
  dsimp only [restartTimer_eq]
  split
  · split
    · next hfull => exact h.queue.lose (by simpa [Port.full] using hfull) _
    · exact hcut.storeOrLose rfl _
  · exact h.queue.storeOrLose rfl _

theorem PortOk.event {timeout : Nat} {p q : Port} (h : PortOk p) (hevent : PortEvent timeout p q) : PortOk q := by
  cases hevent with
  | kept => exact h
  | takeStartHere priority => exact h.takeStartHere timeout priority
  | takeStartElsewhere =>
    unfold Port.takeStartElsewhere
    split
    · exact ⟨h.queue.storeOrLose rfl _, timerOk_restartTimer timeout _⟩
    · next hclosed => exact ⟨h.queue, fun hrun => absurd (h.timer hrun).1 hclosed⟩
  | endTake =>
    unfold Port.endTake
    split
    · exact ⟨h.queue.storeOrLose rfl _, timerOk_restartTimer timeout _⟩
    · exact h
    · exact h
  | plainByte b =>
    unfold Port.plainByte
    split
    · exact ⟨h.queue.storeOrLose rfl _, timerOk_restartTimer timeout _⟩
    · exact h
    · exact h
  | othersRise => exact ⟨h.queue, .of_stopped rfl⟩
  | othersLower =>
    unfold Port.othersLower
    split
    · next hown =>
      refine ⟨h.queue, fun hrun => ?_⟩
      have hline := (h.timer hrun).2
      simp [holdLine_eq, hown] at hline
    · exact ⟨h.queue, timerOk_restartTimer timeout _⟩
  | stall =>
    refine ⟨?_, .of_stopped rfl⟩
    show QueueOk (p.store .stalled).queue (p.store .stalled).loss (p.store .stalled).ownHold
    rw [store_loss]
    exact h.queue.store rfl
  | removeHead => exact h.removeHead timeout

theorem unitNumberOf_ne_zero (strap : Nibble) : unitNumberOf strap ≠ 0 := by
  unfold unitNumberOf
  split
  · decide
  · assumption

/-- R1, R17: the port right after power-on has its invariant, whatever it was before. -/
theorem portOk_powerOn (strap : Nibble) (acceptAll : Bool) (p : Port) : PortOk (p.powerOn strap acceptAll) :=
  ⟨⟨by simp [Port.powerOn], rfl, by simp [Port.powerOn], rfl, fun _ => by simp [Port.powerOn]⟩, .of_stopped rfl⟩

theorem exec_keeps_portInv {c : Instr} {s t : State} (hs : PortInv s) (h : exec c s = .next t) : PortInv t := by
  by_cases hc : ∃ strap acceptAll, c = .powerOn strap acceptAll
  · obtain ⟨strap, acceptAll, rfl⟩ := hc
    cases h
    exact (portInv_iff _).2 ⟨portOk_powerOn strap acceptAll s.port, unitNumberOf_ne_zero strap⟩
  · have hevent := (exec_moved (fun strap acceptAll e => hc ⟨strap, acceptAll, e⟩) h).event
    obtain ⟨hok, hunit⟩ := (portInv_iff s).1 hs
    exact (portInv_iff t).2 ⟨hok.event hevent, (settingsKept_event hevent).unitNumber ▸ hunit⟩

/-- Settles O52: a command makes one event of the port or powers it on, and a bit time leaves it. -/
theorem stepKeepsPortInv : Obligations.StepKeepsPortInv := by
  intro s t hs h
  unfold step at h
  split at h
  · cases h
    exact hs
  · next rest _ => exact exec_keeps_portInv (s := s.setPending rest) hs h

end Sys2Proof.Proofs
end

section
/-! SUPPORT. The setting line's commands one by one: power-on and reset (O2, O3), arrivals (O4 to O6, O9), the queue's
operations (O7), the hold line and the take timer (O8). -/

namespace Sys2Proof.Proofs

open Sys2Proof.Machine Sys2Proof.Safety

/-! ### Power-on and reset -/

/-- Settles O2: the blocks' power-on values, written out. -/
theorem powerOnRestartsEveryBlock : Obligations.PowerOnRestartsEveryBlock := by
  intro strap acceptAll s
  rfl

/-- Settles O3: each invariant is decided on the one state. -/
theorem resetHoldsEveryInvariant : Obligations.ResetHoldsEveryInvariant := by
  unfold Obligations.ResetHoldsEveryInvariant
  refine ⟨?port, ?format, ?wait, ?tables, ?loads, ?lineStore, ?breaks, ?bus, ?reply, rfl⟩
  case port => decide
  case format => decide
  case wait => decide
  case tables => decide
  case loads => decide
  case lineStore => decide
  case breaks => decide
  case bus => decide
  case reply => decide

/-! ### A TAKE_START (R3 to R5, R12) -/

theorem forThisUnit_iff (p : Port) (address : Nibble) :
    p.forThisUnit address = true ↔ address = p.unitNumber ∨ address = 0 ∨ p.acceptAll = true := by
  simp [Port.forThisUnit, or_assoc]

theorem takeStartHere_condition (timeout : Nat) (priority : Priority) (p : Port) :
    (p.takeStartHere timeout priority).condition = .accepting := rfl

theorem takeStartElsewhere_condition (timeout : Nat) (p : Port) : (p.takeStartElsewhere timeout).condition = .deaf := by
  unfold Port.takeStartElsewhere
  split <;> rfl

theorem exec_takeStart_here {priority : Priority} {address : Nibble} {s : State} (h : s.port.forThisUnit address = true) :
    exec (.takeStart priority address) s =
      .next { s with port := s.port.takeStartHere s.format.unit.takeTimeout priority } := by
  show execTakeStart priority address s = _
  rw [execTakeStart, if_pos h]
  rfl

theorem exec_takeStart_elsewhere {priority : Priority} {address : Nibble} {s : State}
    (h : s.port.forThisUnit address = false) :
    exec (.takeStart priority address) s =
      .next { s with port := s.port.takeStartElsewhere s.format.unit.takeTimeout } := by
  show execTakeStart priority address s = _
  rw [execTakeStart, if_neg (by simp [h])]
  rfl

/-- Settles O4: a TAKE_START for this unit ends in ACCEPTING, any other in DEAF. -/
theorem takeStartAddressTest : Obligations.TakeStartAddressTest := by
  intro priority address s
  rw [← forThisUnit_iff]
  cases h : s.port.forThisUnit address with
  | true => exact ⟨_, exec_takeStart_here h, by simp [takeStartHere_condition]⟩
  | false => exact ⟨_, exec_takeStart_elsewhere h, by simp [takeStartElsewhere_condition]⟩

/-! ### Stored or lost -/

theorem storeOrLose_of_room {p : Port} (h : p.queue.length < 1024) (e : Entry) (b : Option Boundary) :
    p.storeOrLose e b = p.store e := by
  have : p.full = false := by simpa [Port.full] using h
  simp [Port.storeOrLose, this]

theorem storeOrLose_of_full {p : Port} (h : 1024 ≤ p.queue.length) (e : Entry) (b : Option Boundary) :
    p.storeOrLose e b = p.lose b := by
  have : p.full = true := by simpa [Port.full] using h
  simp [Port.storeOrLose, this]

theorem takeStartHere_of_not_accepting {p : Port} (h : p.condition ≠ .accepting) (timeout : Nat) (priority : Priority) :
    p.takeStartHere timeout priority =
      ({ p.storeOrLose (.takeStart priority) (some (.takeStart priority)) with
          condition := .accepting, priority := priority } : Port).restartTimer timeout := by
  rw [Port.takeStartHere, if_neg h]

theorem takeStartHere_of_accepting {p : Port} (h : p.condition = .accepting) (room : p.queue.length < 1024)
    (timeout : Nat) (priority : Priority) :
    p.takeStartHere timeout priority =
      ({ (p.store .cut).storeOrLose (.takeStart priority) (some (.takeStart priority)) with
          condition := .accepting, priority := priority } : Port).restartTimer timeout := by
  have : p.full = false := by simpa [Port.full] using room
  simp [Port.takeStartHere, h, this]

/-- R12: at a full queue the one lost arrival stands for the CUT and the TAKE_START, in every port condition. -/
theorem takeStartHere_of_full {p : Port} (full : 1024 ≤ p.queue.length) (timeout : Nat) (priority : Priority) :
    p.takeStartHere timeout priority =
      ({ p.lose (some (.takeStart priority)) with
          condition := .accepting, priority := priority } : Port).restartTimer timeout := by
  have hfull : p.full = true := by simpa [Port.full] using full
  simp [Port.takeStartHere, Port.storeOrLose, hfull]

/-- R14: outside ACCEPTING a restart stops the timer. -/
theorem restartTimer_of_not_accepting {p : Port} (h : p.condition ≠ .accepting) (timeout : Nat) :
    p.restartTimer timeout = { p with takeTimer := none } := by
  simp [restartTimer_eq, h]

theorem takeStartElsewhere_of_accepting {p : Port} (h : p.condition = .accepting) (timeout : Nat) :
    p.takeStartElsewhere timeout =
      { p.storeOrLose .cut (some .cut) with condition := .deaf, takeTimer := none } := by
  rw [Port.takeStartElsewhere, if_pos h]
  exact restartTimer_of_not_accepting (by simp) timeout

theorem takeStartElsewhere_of_not_accepting {p : Port} (h : p.condition ≠ .accepting) (timeout : Nat) :
    p.takeStartElsewhere timeout = { p with condition := .deaf } := by
  rw [Port.takeStartElsewhere, if_neg h]

/-- Settles O5: for this unit, by the port condition and the queue's level; for another, likewise. -/
theorem takeStartStoresOrLoses : Obligations.TakeStartStoresOrLoses := by
  refine ⟨fun priority address s h => ?_, fun priority address s h => ?_⟩
  · rw [exec_takeStart_here h]
    refine ⟨fun hc room => ?_, fun hc room => ?_, fun hc last => ?_, fun full => ?_⟩
    · rw [takeStartHere_of_not_accepting hc, storeOrLose_of_room room]
    · have behind : (s.port.store .cut).queue.length < 1024 := by rw [store_length _ _ (by omega)]; omega
      rw [takeStartHere_of_accepting hc (by omega), storeOrLose_of_room behind]
    · have filled : 1024 ≤ (s.port.store .cut).queue.length := by rw [store_length _ _ (by omega)]; omega
      rw [takeStartHere_of_accepting hc (by omega), storeOrLose_of_full filled]
    · rw [takeStartHere_of_full full]
  · rw [exec_takeStart_elsewhere h]
    refine ⟨fun hc => ?_, fun hc room => ?_, fun hc full => ?_⟩
    · rw [takeStartElsewhere_of_not_accepting hc]
    · rw [takeStartElsewhere_of_accepting hc, storeOrLose_of_room room]
    · rw [takeStartElsewhere_of_accepting hc, storeOrLose_of_full full]

/-! ### A plain byte and a TAKE_END (R6, R7) -/

theorem exec_plain (b : Byte) (s : State) :
    exec (.plain b) s = .next { s with port := s.port.plainByte s.format.unit.takeTimeout b } := rfl

theorem exec_takeEnd (s : State) :
    exec .takeEnd s = .next { s with port := s.port.endTake s.format.unit.takeTimeout } := rfl

theorem plainByte_of_accepting {p : Port} (h : p.condition = .accepting) (timeout : Nat) (b : Byte) :
    p.plainByte timeout b = (p.storeOrLose (.plain b) none).restartTimer timeout := by
  simp [Port.plainByte, h]

theorem plainByte_of_not_accepting {p : Port} (h : p.condition ≠ .accepting) (timeout : Nat) (b : Byte) :
    p.plainByte timeout b = p := by
  unfold Port.plainByte
  split
  · contradiction
  · rfl
  · rfl

theorem endTake_of_accepting {p : Port} (h : p.condition = .accepting) (timeout : Nat) :
    p.endTake timeout =
      { p.storeOrLose .takeEnd (some .takeEnd) with condition := .closed, takeTimer := none } := by
  unfold Port.endTake
  simp only [h]
  exact restartTimer_of_not_accepting (by simp) timeout

theorem endTake_of_not_accepting {p : Port} (h : p.condition ≠ .accepting) (timeout : Nat) : p.endTake timeout = p := by
  unfold Port.endTake
  split
  · contradiction
  · rfl
  · rfl

/-- Settles O6: by the port condition and the queue's level. -/
theorem plainAndTakeEndArrivals : Obligations.PlainAndTakeEndArrivals := by
  intro b s
  rw [exec_plain, exec_takeEnd]
  refine ⟨fun hc => ?_, fun hc room => ?_, fun hc full => ?_⟩
  · rw [plainByte_of_not_accepting hc, endTake_of_not_accepting hc]
    exact ⟨rfl, rfl⟩
  · rw [plainByte_of_accepting hc, endTake_of_accepting hc, storeOrLose_of_room room, storeOrLose_of_room room]
    exact ⟨rfl, rfl⟩
  · rw [plainByte_of_accepting hc, endTake_of_accepting hc, storeOrLose_of_full full, storeOrLose_of_full full]
    exact ⟨rfl, rfl⟩

/-! ### The queue's operations (R8 to R13) -/

theorem reportLoss_eq (l : Loss) (s : State) :
    reportLoss l s =
      raise .overrun l.count
        { s with
          reply :=
            { s.reply with
              counters := { s.reply.counters with overrun := min 65535 (s.reply.counters.overrun + l.count) } } } := rfl

theorem store_of_ne {p : Port} (room : p.queue.length < 1024) (h : p.queue.length ≠ 959) (e : Entry) :
    p.store e = { p with queue := p.queue ++ [e] } := by
  rw [store_eq e p room, if_neg (by omega)]

theorem store_at_raise {p : Port} (h : p.queue.length = 959) (e : Entry) :
    p.store e = { p with queue := p.queue ++ [e], ownHold := true, takeTimer := none } := by
  rw [store_eq e p (by omega), if_pos (by omega)]

theorem lose_of_none {p : Port} (h : p.loss = none) (b : Option Boundary) :
    p.lose b = { p with loss := some ⟨1, b⟩ } := by
  simp [Port.lose, h]

theorem lose_of_some {p : Port} {l : Loss} (h : p.loss = some l) :
    p.lose none = { p with loss := some ⟨min 255 (l.count + 1), l.boundary⟩ }
      ∧ ∀ b, p.lose (some b) = { p with loss := some ⟨min 255 (l.count + 1), some b⟩ } := by
  simp [Port.lose, h]

theorem refilled_of_cons {p : Port} {e : Entry} {rest : List Entry} (hq : p.queue = e :: rest) (hl : p.loss = none) :
    refilled p = { p with queue := rest } := by
  rw [refilled_of_no_loss hl, hq, List.tail_cons]

theorem removeHead_above {p : Port} {e : Entry} {rest : List Entry} (hq : p.queue = e :: rest) (hl : p.loss = none)
    (h : 512 < rest.length) (timeout : Nat) : p.removeHead timeout = { p with queue := rest } := by
  rw [removeHead_eq, refilled_of_cons hq hl, if_neg (Nat.not_le.2 h)]

theorem removeHead_below {p : Port} {e : Entry} {rest : List Entry} (hq : p.queue = e :: rest) (hl : p.loss = none)
    (h : rest.length ≤ 512) (timeout : Nat) :
    p.removeHead timeout = ({ p with queue := rest } : Port).lowerHold timeout := by
  rw [removeHead_eq, refilled_of_cons hq hl, if_pos h]

/-- R13: the GAP takes the freed place of a full queue, far above the level that lowers the drive. -/
theorem removeHead_with_loss {p : Port} {e : Entry} {rest : List Entry} {l : Loss} (hq : p.queue = e :: rest)
    (hl : p.loss = some l) (h : rest.length = 1023) (timeout : Nat) :
    p.removeHead timeout = { p with queue := rest ++ [.gap l.count l.boundary], loss := none } := by
  have gapStored : refilled p = { p with queue := rest ++ [.gap l.count l.boundary], loss := none } := by
    rw [refilled_of_loss hl, hq, List.tail_cons, store_of_ne (by simp [h]) (by simp [h])]
    rfl
  rw [removeHead_eq, gapStored, if_neg (by simp [h])]

/-- Settles O7: the operations' equations, a removal by the level it leaves and by who drives the line. -/
theorem queueStoresLosesAndRemoves : Obligations.QueueStoresLosesAndRemoves := by
  refine ⟨reportLoss_eq, fun p e rest boundary b timeout => ?_⟩
  refine ⟨holdLine_eq p, restartTimer_eq timeout p, fun room h => store_of_ne room h e, fun h => store_at_raise h e,
    fun h => lose_of_none h boundary, fun l h => ⟨(lose_of_some h).1, (lose_of_some h).2 b⟩,
    fun hq hl h => removeHead_above hq hl h timeout, fun hq hl h drive => ?_, fun hq hl h own others => ?_,
    fun l hq hl h => removeHead_with_loss hq hl h timeout⟩
  · have stays : ¬ (p.ownHold = true ∧ p.othersHold = false) := by
      rcases drive with own | others
      · simp [own]
      · simp [others]
    rw [removeHead_below hq hl h, lowerHold_eq, if_neg stays]
  · rw [removeHead_below hq hl h, lowerHold_eq, if_pos ⟨own, others⟩]

/-! ### The hold line and the take timer (R11, R14, R15) -/

theorem exec_holdLineFall {s : State} (h : s.port.othersHold = true) :
    exec .holdLineFall s = .next { s with port := s.port.othersLower s.format.unit.takeTimeout } := by
  show execHoldLineFall s = _
  rw [execHoldLineFall, if_pos h]
  rfl

theorem othersLower_of_ownHold {p : Port} (h : p.ownHold = true) (timeout : Nat) :
    p.othersLower timeout = { p with othersHold := false } := by
  rw [Port.othersLower, if_pos h]

/-- R14: with no drive left the line falls, and a port in ACCEPTING restarts its timer. -/
theorem othersLower_of_last {p : Port} (h : p.ownHold = false) (timeout : Nat) :
    p.othersLower timeout =
      { p with
        othersHold := false
        takeTimer := if p.condition = .accepting ∧ timeout ≠ 0 then some timeout else none } := by
  rw [Port.othersLower, if_neg (by simp [h]), restartTimer_eq]
  simp [holdLine_eq, h]

theorem exec_ignoredFlaggedByte {b : Byte} (h : 0x41 ≤ b.toNat) (s : State) : exec (.ignoredFlaggedByte b) s = .next s := by
  show execIgnoredFlaggedByte b s = _
  rw [execIgnoredFlaggedByte, if_pos (by simpa [isIgnoredFlagged] using h)]

theorem exec_ignoredFlaggedByte_fault {b : Byte} (h : b.toNat < 0x41) (s : State) :
    exec (.ignoredFlaggedByte b) s = .fault .illFormedOperand := by
  show execIgnoredFlaggedByte b s = _
  rw [execIgnoredFlaggedByte, if_neg (by simpa [isIgnoredFlagged] using h)]

/-- Settles O8: each command by who drives the line, or by whether the timer runs. -/
theorem holdLineAndTakeTimer : Obligations.HoldLineAndTakeTimer := by
  intro s
  refine ⟨rfl, fun others own => ?_, fun others own => ?_, fun others => ?_, fun running => ?_, fun stopped => ?_,
    fun b h => exec_ignoredFlaggedByte_fault h s⟩
  · rw [exec_holdLineFall others, othersLower_of_last own]
  · rw [exec_holdLineFall others, othersLower_of_ownHold own]
  · show execHoldLineFall s = _
    rw [execHoldLineFall, if_neg (by simp [others])]
  · show execTakeTimerExpiry s = _
    rw [execTakeTimerExpiry, if_pos running]
    rfl
  · show execTakeTimerExpiry s = _
    rw [execTakeTimerExpiry, if_neg (by simp [stopped])]

/-! ### Flagged bytes (R2, section 11.1) -/

theorem extractLsb'_eq_ofNat_div (b : Byte) (start len : Nat) :
    b.extractLsb' start len = BitVec.ofNat len (b.toNat / 2 ^ start) := by
  rw [BitVec.extractLsb', Nat.shiftRight_eq_div_pow]

/-- Settles O9: the value's three ranges. -/
theorem flaggedByteReading : Obligations.FlaggedByteReading := by
  intro b
  refine ⟨fun h => ?_, fun h => ?_, fun h => ⟨?_, exec_ignoredFlaggedByte h⟩⟩
  · have low : b.toNat < 0x40 := by omega
    have address : BitVec.ofNat 4 b.toNat = BitVec.ofNat 4 (b.toNat % 16) := by
      apply BitVec.eq_of_toNat_eq
      simp
    simp [commandOfCharacter, low, extractLsb'_eq_ofNat_div, address]
  · obtain rfl : b = 0x40 := BitVec.eq_of_toNat_eq h
    rfl
  · have high : ¬ b.toNat < 0x40 := by omega
    have notEnd : b ≠ 0x40 := by rintro rfl; simp at h
    simp only [commandOfCharacter, if_true, if_neg high, if_neg notEnd]

end Sys2Proof.Proofs
end

section
/-! SUPPORT. Queries and their replies (O46). -/

namespace Sys2Proof.Proofs

open Sys2Proof.Machine Sys2Proof.Safety

/-! ### What a reply holds (R181 to R183) -/

theorem inRange_eq (table : TableKind) (index : Nat) :
    table.inRange index =
      match table with
      | .codeMap => decide (index ≤ 895)
      | .glyphs => decide (1 ≤ index ∧ index ≤ 1023)
      | .ligatures => decide (index ≤ 255)
      | .header => decide (index = 0) := by
  have fromZero (last : Nat) : (decide (0 ≤ index) && decide (index ≤ last)) = decide (index ≤ last) := by simp
  cases table with
  | codeMap => exact fromZero 895
  | glyphs => exact (Bool.decide_and _ _).symm
  | ligatures => exact fromZero 255
  | header => exact (fromZero 0).trans (by simp)

/-- R69, R183: an ENTRY reply by whether the index is one of the table's. -/
theorem entryRecord_of_inRange {table : TableKind} {index : Nat} {present : Bool} (h : table.inRange index = present)
    (standby : Bool) (s : State) :
    entryRecord table standby index s =
      .entry table standby index present
        (if present = true then (if standby = true then s.tables.standbyBank else s.tables.activeBank).item table index
          else List.replicate table.itemSize 0) := by
  subst h
  rfl

/-! ### An argument byte that completes a control (R27) -/

theorem countByte_state (e : Entry) (d : Decoder) : (d.countByte e).state = d.state := by
  unfold Decoder.countByte
  split
  · split <;> rfl
  all_goals rfl

theorem carryOut_of_args {u : State} {code : ControlCode} {bytes : List Byte} (h : u.decoder.state = .args code bytes)
    (work : List Byte → State → State) (b : Byte) :
    carryOut work (.plain b) u = work (bytes ++ [b]) (setDecoderState .text u) := by
  simp [carryOut, Decoder.argumentBytes, h, Entry.byte]

theorem commandFor_of_args {d : Decoder} {code : ControlCode} {bytes : List Byte} (h : d.state = .args code bytes)
    {b : Byte} (hlast : argumentCount code (bytes ++ [b]) ≤ (bytes ++ [b]).length) :
    commandFor d (.plain b) = completedCommand code (bytes ++ [b]) := by
  simp only [commandFor, h, if_neg (Nat.not_lt.2 hlast)]

/-- A control's last argument byte taken: the decoder is back in TEXT and the control's work is done with all its bytes. -/
theorem takes_of_carryOut {c : Instr} {s : State} {code : ControlCode} {bytes : List Byte} {b : Byte}
    {work : List Byte → State → State} {work' : State → State} (hexec : exec c s = takeHead c (carryOut work) s)
    (hready : Ready (.plain b) s) (hstate : s.decoder.state = .args code bytes)
    (hlast : argumentCount code (bytes ++ [b]) ≤ (bytes ++ [b]).length) (hc : completedCommand code (bytes ++ [b]) = c)
    (hwork : ∀ u, work (bytes ++ [b]) (setDecoderState .text u) = work' u) : Takes c (.plain b) work' s := by
  have taken (u : State) (hu : u.decoder = s.decoder.countByte (.plain b)) : carryOut work (.plain b) u = work' u := by
    rw [carryOut_of_args (by rw [hu, countByte_state, hstate]), hwork]
  exact takes_of_takeHead hexec hready ((commandFor_of_args hstate hlast).trans hc) (fun _ => taken _ rfl)
    (fun _ _ => taken _ rfl)

/-! ### A QUERY's last byte (R20, R38) -/

/-- R38: which command a QUERY's kind makes of its last byte. -/
def queryCommand : Nat → Instr
  | 0 => .status
  | 1 => .counts
  | 2 => .countsAndClear
  | 3 => .entry
  | _ + 4 => .invalidQueryKind

theorem completedCommand_query (kind : Byte) (rest : List Byte) :
    completedCommand .query (kind :: rest) = queryCommand kind.toNat := by
  show (match kind.toNat with | 0 => _ | 1 => _ | 2 => _ | 3 => _ | _ => _) = _
  generalize kind.toNat = k
  match k with
  | 0 => rfl
  | 1 => rfl
  | 2 => rfl
  | 3 => rfl
  | _ + 4 => rfl

theorem queryCommand_above {k : Nat} (h : 3 < k) : queryCommand k = .invalidQueryKind := by
  obtain ⟨n, rfl⟩ : ∃ n, k = n + 4 := ⟨k - 4, by omega⟩
  rfl

/-- R20, R180: the reply offered in TEXT joins at a depth of 5 or fewer, and otherwise stays offered. -/
theorem offerReply_in_text (q : Query) (u : State) :
    offerReply q (setDecoderState .text u) =
      if u.reply.queue.length ≤ 5 then
        { setDecoderState .text u with
          reply :=
            { u.reply with
              queue := u.reply.queue ++ [buildReply q (setDecoderState .text u)], offered := none
              counters := q.countersAfter u.reply.counters } }
      else { setDecoderState .text u with reply := { u.reply with offered := some q } } := rfl

/-- R38, R187: the arguments of an ENTRY query name a table, a bank and an index. -/
theorem entryQuery_eq {a : Byte} {table : TableKind}
    (h : (a.toNat % 4, table) ∈ [(0, TableKind.codeMap), (1, .glyphs), (2, .ligatures), (3, .header)])
    (kind b1 b0 : Byte) :
    entryQuery [kind, a, b1, b0] = .entry table (decide (a.toNat / 4 % 2 = 1)) (b1.toNat * 256 + b0.toNat) := by
  have htable : (tableKindOf (a.toNat % 4)).getD .header = table := by
    simp only [List.mem_cons, Prod.mk.injEq, List.not_mem_nil, or_false] at h
    rcases h with ⟨hn, rfl⟩ | ⟨hn, rfl⟩ | ⟨hn, rfl⟩ | ⟨hn, rfl⟩ <;> rw [hn] <;> rfl
  have hbank : a.getLsbD 2 = decide (a.toNat / 4 % 2 = 1) := Nat.testBit_eq_decide_div_mod_eq
  show Query.entry ((tableKindOf (a.toNat % 4)).getD .header) (a.getLsbD 2) _ = _
  rw [htable, hbank]
  rfl

/-- Settles O46: what each reply holds, and for each kind the event of its last byte. -/
theorem queriesOfferReplies : Obligations.QueriesOfferReplies := by
  refine ⟨fun s table standby index => ⟨?_, ?_, rfl, rfl, rfl, rfl⟩, ?_⟩
  · unfold statusFields TableBlock.standbyBank
    cases s.tables.active <;> rfl
  · exact entryRecord_of_inRange (inRange_eq table index) standby s
  · intro s kind a b1 b0 hready hstate toText joins
    have completed {n : Nat} (hk : kind.toNat = n) : completedCommand .query [kind, a, b1, b0] = queryCommand n :=
      (completedCommand_query kind _).trans (congrArg queryCommand hk)
    have offered (q : Query) (record : Record) (u : State) (hrecord : buildReply q (setDecoderState .text u) = record)
        (hcounters : q.countersAfter u.reply.counters = if kind.toNat = 2 then Counters.zero else u.reply.counters) :
        offerReply q (setDecoderState .text u) = joins record q u := by
      rw [offerReply_in_text, hrecord, hcounters]
      rfl
    refine ⟨fun hk => ?_, fun hk => ?_, fun hk => ?_, ?_, fun hk => ?_⟩
    · exact takes_of_carryOut rfl hready hstate (Nat.le_refl 4) (completed hk)
        fun u => offered .status _ u rfl (by simp [Query.countersAfter, hk])
    · exact takes_of_carryOut rfl hready hstate (Nat.le_refl 4) (completed hk)
        fun u => offered .counts _ u rfl (by simp [Query.countersAfter, hk])
    · exact takes_of_carryOut rfl hready hstate (Nat.le_refl 4) (completed hk)
        fun u => offered .countsAndClear _ u rfl (by simp [Query.countersAfter, hk])
    · intro table htable standby index hk
      refine takes_of_carryOut rfl hready hstate (Nat.le_refl 4) (completed hk) fun u => ?_
      show offerReply (entryQuery [kind, a, b1, b0]) _ = _
      rw [entryQuery_eq htable]
      exact offered (.entry table standby index) _ u rfl (by simp [Query.countersAfter, hk])
    · exact takes_of_carryOut rfl hready hstate (Nat.le_refl 4) ((completed rfl).trans (queryCommand_above hk))
        fun _ => rfl

end Sys2Proof.Proofs
end

section
/-! SUPPORT. What each entry taken is, once for all statements about the decoder: the commands that take entries, their work,
and which of them an entry is in a decoder state (O10). -/

namespace Sys2Proof.Proofs

open Sys2Proof.Machine Sys2Proof.Safety

/-! ### The commands that take an entry -/

/-- The decoder's commands, as O10 lists them. -/
def decoderCommands : List Instr :=
  [.takeStartEntry, .takeEndEntry, .cutEntry, .stalledEntry, .gapEntry, .plainDiscarded, .textByte, .strayCode,
    .controlCodeWithArguments, .argumentByte, .plane, .disc, .tab, .endline, .endpara, .join, .nojoin, .format, .leader,
    .load, .loadDataByte, .loadSumByte, .copy, .clear, .swap, .invalidBankOp, .status, .counts, .countsAndClear, .entry,
    .invalidQueryKind, .reset]

/-- What a decoder command does with the entry it has removed; any other command does nothing with one. -/
def decoderWork (c : Instr) (e : Entry) : State → State :=
  match c with
  | .takeStartEntry => openingBoundary e.priority
  | .takeEndEntry => closingBoundary none
  | .cutEntry => closingBoundary (some .takeCut)
  | .stalledEntry => closingBoundary (some .takeStalled)
  | .gapEntry => fun u => applyBoundary e.boundary (actOnLoss u)
  | .textByte => takeText e.byte
  | .strayCode => count .stray
  | .controlCodeWithArguments => openControl e
  | .argumentByte => addArgument e
  | .plane => carryOut setPlane e
  | .disc => handArrival .disc
  | .tab => handArrival .tab
  | .endline => handLineEnd .endline
  | .endpara => handLineEnd .endpara
  | .join => handArrival (.link .join)
  | .nojoin => handArrival (.link .nojoin)
  | .format => carryOut writeFormat e
  | .leader => carryOut writeLeader e
  | .load => carryOut openLoad e
  | .loadDataByte => takeLoadByte e
  | .loadSumByte => takeSumByte e
  | .copy => carryOut (fun _ => copyBank) e
  | .clear => carryOut (fun _ => clearBank) e
  | .swap => carryOut (fun _ => swapBanks) e
  | .invalidBankOp => carryOut (fun _ => count .stray) e
  | .status => carryOut (fun _ => offerReply .status) e
  | .counts => carryOut (fun _ => offerReply .counts) e
  | .countsAndClear => carryOut (fun _ => offerReply .countsAndClear) e
  | .entry => carryOut (fun bytes => offerReply (entryQuery bytes)) e
  | .invalidQueryKind => carryOut (fun _ => count .stray) e
  | .reset => unitReset
  | _ => fun u => u

/-- Every decoder command is the taking of the head entry with its work. -/
theorem exec_decoderCommand {c : Instr} (hc : c ∈ decoderCommands) (s : State) :
    exec c s = takeHead c (decoderWork c) s := by
  simp only [decoderCommands, List.mem_cons, List.not_mem_nil, or_false] at hc
  rcases hc with rfl | rfl | rfl | rfl | rfl | rfl | rfl | rfl | rfl | rfl | rfl | rfl | rfl | rfl | rfl | rfl | rfl | rfl |
    rfl | rfl | rfl | rfl | rfl | rfl | rfl | rfl | rfl | rfl | rfl | rfl | rfl | rfl
  all_goals rfl

/-! ### Which command an entry is -/

/-- The work of a control with arguments that is carried out, from its bytes. -/
inductive ControlWork : (List Byte → State → State) → Prop
  | plane : ControlWork setPlane
  | format : ControlWork writeFormat
  | leader : ControlWork writeLeader
  | load : ControlWork openLoad
  | copy : ControlWork fun _ => copyBank
  | clear : ControlWork fun _ => clearBank
  | swap : ControlWork fun _ => swapBanks
  | query (asked : List Byte → Query) : ControlWork fun bytes => offerReply (asked bytes)
  | stray : ControlWork fun _ => count .stray

/-- The event that an entry is in a decoder state, by the work it makes (R21 to R39). -/
inductive DecoderEvent : DecoderState → Entry → (State → State) → Prop
  | takeStart (d : DecoderState) (p : Priority) : DecoderEvent d (.takeStart p) (openingBoundary p)
  | takeEnd (d : DecoderState) : DecoderEvent d .takeEnd (closingBoundary none)
  | cut (d : DecoderState) : DecoderEvent d .cut (closingBoundary (some .takeCut))
  | stalled (d : DecoderState) : DecoderEvent d .stalled (closingBoundary (some .takeStalled))
  | gap (d : DecoderState) (n : Nat) (lost : Option Boundary) :
      DecoderEvent d (.gap n lost) fun u => applyBoundary lost (actOnLoss u)
  | idle (b : Byte) : DecoderEvent .idle (.plain b) fun u => u
  | skip (b : Byte) : DecoderEvent .skip (.plain b) fun u => u
  | text (b : Byte) : DecoderEvent .text (.plain b) (takeText b)
  | stray (b : Byte) : DecoderEvent .text (.plain b) (count .stray)
  | opened (b : Byte) : DecoderEvent .text (.plain b) (openControl (.plain b))
  | arrival (b : Byte) (a : Arrival) : DecoderEvent .text (.plain b) (handArrival a)
  | lineEnd (b : Byte) (kind : EndKind) : DecoderEvent .text (.plain b) (handLineEnd kind)
  | reset (b : Byte) : DecoderEvent .text (.plain b) unitReset
  | argument (code : ControlCode) (bytes : List Byte) (b : Byte) :
      DecoderEvent (.args code bytes) (.plain b) (addArgument (.plain b))
  | carriedOut (code : ControlCode) (bytes : List Byte) (b : Byte) {work : List Byte → State → State} :
      ControlWork work → DecoderEvent (.args code bytes) (.plain b) (carryOut work (.plain b))
  | loadByte (ctx : LoadContext) (b : Byte) : DecoderEvent (.load ctx) (.plain b) (takeLoadByte (.plain b))
  | sumByte (ctx : LoadContext) (b : Byte) : DecoderEvent (.sum ctx) (.plain b) (takeSumByte (.plain b))

/-- A command that takes an entry, with the event that the entry then is. -/
structure IsEvent (d : DecoderState) (e : Entry) (c : Instr) : Prop where
  mem : c ∈ decoderCommands
  event : DecoderEvent d e (decoderWork c e)

theorem isEvent_textCommand (b : Byte) : IsEvent .text (.plain b) (textCommand b) := by
  unfold textCommand
  split
  · exact ⟨by decide, .text b⟩
  · have opened : IsEvent .text (.plain b) .controlCodeWithArguments := ⟨by decide, .opened b⟩
    split
    · exact opened
    · exact ⟨by decide, .arrival b .disc⟩
    · exact ⟨by decide, .arrival b .tab⟩
    · exact ⟨by decide, .lineEnd b .endline⟩
    · exact ⟨by decide, .lineEnd b .endpara⟩
    · exact ⟨by decide, .arrival b (.link .join)⟩
    · exact ⟨by decide, .arrival b (.link .nojoin)⟩
    · exact opened
    · exact opened
    · exact opened
    · exact opened
    · exact opened
    · exact ⟨by decide, .reset b⟩
    · exact ⟨by decide, .stray b⟩

theorem isEvent_completedCommand (code : ControlCode) (bytes : List Byte) (b : Byte) :
    IsEvent (.args code bytes) (.plain b) (completedCommand code (bytes ++ [b])) := by
  cases code with
  | plane => exact (⟨by decide, .carriedOut _ _ b .plane⟩ : IsEvent _ _ .plane)
  | format => exact (⟨by decide, .carriedOut _ _ b .format⟩ : IsEvent _ _ .format)
  | leader => exact (⟨by decide, .carriedOut _ _ b .leader⟩ : IsEvent _ _ .leader)
  | load => exact (⟨by decide, .carriedOut _ _ b .load⟩ : IsEvent _ _ .load)
  | bank =>
    unfold completedCommand
    dsimp only
    split
    · exact ⟨by decide, .carriedOut _ _ b .copy⟩
    · exact ⟨by decide, .carriedOut _ _ b .clear⟩
    · exact ⟨by decide, .carriedOut _ _ b .swap⟩
    · exact ⟨by decide, .carriedOut _ _ b .stray⟩
  | query =>
    unfold completedCommand
    dsimp only
    split
    · exact ⟨by decide, .carriedOut _ _ b (.query fun _ => .status)⟩
    · exact ⟨by decide, .carriedOut _ _ b (.query fun _ => .counts)⟩
    · exact ⟨by decide, .carriedOut _ _ b (.query fun _ => .countsAndClear)⟩
    · exact ⟨by decide, .carriedOut _ _ b (.query entryQuery)⟩
    · exact ⟨by decide, .carriedOut _ _ b .stray⟩

/-- Whatever entry stands at the head, in whatever decoder state, is one of the decoder's events. -/
theorem isEvent_commandFor (d : Decoder) (e : Entry) : IsEvent d.state e (commandFor d e) := by
  cases e with
  | takeStart p => exact (⟨by decide, .takeStart _ p⟩ : IsEvent _ _ .takeStartEntry)
  | takeEnd => exact (⟨by decide, .takeEnd _⟩ : IsEvent _ _ .takeEndEntry)
  | cut => exact (⟨by decide, .cut _⟩ : IsEvent _ _ .cutEntry)
  | stalled => exact (⟨by decide, .stalled _⟩ : IsEvent _ _ .stalledEntry)
  | gap n lost => exact (⟨by decide, .gap _ n lost⟩ : IsEvent _ _ .gapEntry)
  | plain b =>
    unfold commandFor
    cases hd : d.state with
    | idle => exact (⟨by decide, .idle b⟩ : IsEvent _ _ .plainDiscarded)
    | skip => exact (⟨by decide, .skip b⟩ : IsEvent _ _ .plainDiscarded)
    | text => exact isEvent_textCommand b
    | args code bytes =>
      dsimp only
      split
      · exact ⟨by decide, .argument code bytes b⟩
      · exact isEvent_completedCommand code bytes b
    | load ctx => exact (⟨by decide, .loadByte ctx b⟩ : IsEvent _ _ .loadDataByte)
    | sum ctx => exact (⟨by decide, .sumByte ctx b⟩ : IsEvent _ _ .loadSumByte)

/-- A decoder command that answers a next state: the entry it took, the event that entry is, and the state after it. -/
theorem exec_decoder_next {c : Instr} (hc : c ∈ decoderCommands) {s t : State} (h : exec c s = .next t) :
    ∃ e work, Ready e s ∧ commandFor s.decoder e = c ∧ DecoderEvent s.decoder.state e work ∧ t = withRemoval e work s := by
  rw [exec_decoderCommand hc] at h
  obtain ⟨e, hready, rfl, ht⟩ := takeHead_next h
  exact ⟨e, _, hready, rfl, (isEvent_commandFor s.decoder e).event, ht⟩

/-- Settles O10: the head entry's own command takes it, and a decoder command takes no other. -/
theorem decoderTakesExactlyTheHeadEntry : Obligations.DecoderTakesExactlyTheHeadEntry := by
  refine ⟨fun e s hready => ?_, fun c s t hc h => ?_⟩
  · rw [exec_decoderCommand (isEvent_commandFor s.decoder e).mem]
    exact ⟨_, takeHead_ready hready rfl⟩
  · obtain ⟨e, -, hready, hcommand, -, -⟩ := exec_decoder_next hc h
    exact ⟨e, hready, hcommand⟩

end Sys2Proof.Proofs
end

section
/-! SUPPORT. What one step can make of a state, said once for every invariant: one event of one block, with the condition
under which it happens. -/

namespace Sys2Proof.Proofs

open Sys2Proof.Machine Sys2Proof.Safety

/-! ### The exposure bus's events (R159 to R173) -/

/-- One event of the exposure bus but a packet's joining. -/
inductive BusEvent (u : UnitParams) (b : Bus) : Bus → Prop
  | bitTime : BusEvent u b b.bitTime
  | header : b.othersDrive = false → b.state = .waiting → b.gapReached = true → b.queue ≠ [] → BusEvent u b b.beginHeader
  | sensedBusy : BusEvent u b b.senseBusy
  | contestLost : b.state = .contending → b.queue ≠ [] → BusEvent u b (b.senseBusy.startWait u.busGap)
  | contestWon : b.state = .contending → b.queue ≠ [] →
      BusEvent u b { b with state := .sending, ownership := some ⟨u.burstLimit, 0⟩ }
  | collided : b.state = .sending → b.queue ≠ [] → BusEvent u b { b.senseBusy.startWait u.busGap with ownership := none }
  | packetSent : b.state = .sending → b.queue ≠ [] →
      BusEvent u b
        { b.senseBusy with
          state := .awaiting, ownership := b.ownership.map (fun o => { o with sent := o.sent + 1 })
          holdTimer := some u.holdLimit, answerDue := true }
  | answered : b.takesAnswer = true → BusEvent u b (b.endAnswer.removeHead.goOnOrRelease u.busGap)
  | deferred : b.takesAnswer = true → BusEvent u b (b.endAnswer.enterDeferring u.deferWait)
  | holdExpired : b.state = .awaiting → b.holdTimer.isSome = true → BusEvent u b (b.enterDeferring u.deferWait)
  | deferExpired : b.state = .deferring → b.deferTimer.isSome = true →
      BusEvent u b { b.startWait u.busGap with deferTimer := none }
  | released : BusEvent u b b.imagingRelease

/-- What a bus event leaves with the reply unit: a count, a notice, both or nothing. -/
inductive Noted (s : State) : State → Prop
  | nothing : Noted s s
  | counted (name : CounterName) : Noted s (count name s)
  | raised (kind : NoticeKind) (detail : Nat) : Noted s (raise kind detail s)
  | both (name : CounterName) (kind : NoticeKind) (detail : Nat) : Noted s (raise kind detail (count name s))

/-! ### The unit's events -/

/-- What a command, or a bit time, makes of a state. -/
inductive Event (s : State) : State → Prop
  | kept : Event s s
  | powerOn (strap : Nibble) (acceptAll : Bool) :
      Event s
        { s with
          port := s.port.powerOn strap acceptAll, decoder := Decoder.powerOn, format := FormatSet.default
          tables := TableBlock.powerOn, shaper := Shaper.empty, bus := s.bus.powerOn, reply := s.reply.powerOn }
  | port {p : Port} : PortEvent s.format.unit.takeTimeout s.port p → Event s (s.setPort p)
  | decoder {e : Entry} {work : State → State} :
      Ready e s → DecoderEvent s.decoder.state e work → Event s (withRemoval e work s)
  | packetJoin {w : WaitingEnd} {r : Nat} : s.shaper.waiting = some w → s.room = r + 1 →
      Event s (runJob r w.job (joinPacket w.packet (s.setShaper { s.shaper with waiting := none })))
  | bus {b : Bus} {t : State} : BusEvent s.format.unit s.bus b → Noted (s.setBus b) t → Event s t
  | replyJoin {q : Query} : s.reply.offered = some q → s.reply.queue.length ≤ 5 → Event s (joinReply q s)
  | departure {r : Record} {rest : List Record} : s.reply.queue = r :: rest → s.reply.sender = none → s.reply.held = false →
      Event s (retestReply (s.setReply { s.reply with queue := rest, sender := some ⟨r, r.characters⟩ }))
  | sent : Event s (s.setReply { s.reply with sender := none })
  | lineHeld (begun : Nat) :
      Event s (s.setReply { s.reply with held := true, sender := s.reply.sender.map (Sending.advance begun) })
  | lineReleased : Event s (s.setReply { s.reply with held := false })

/-! ### Each command is its event -/

theorem event_takeStart {priority : Priority} {address : Nibble} {s t : State}
    (h : execTakeStart priority address s = .next t) : Event s t := by
  unfold execTakeStart at h
  cases h
  split
  · exact .port (.takeStartHere priority)
  · exact .port .takeStartElsewhere

theorem event_ignoredFlaggedByte {b : Byte} {s t : State} (h : execIgnoredFlaggedByte b s = .next t) : Event s t := by
  unfold execIgnoredFlaggedByte at h
  split at h <;> cases h
  exact .kept

theorem event_holdLineFall {s t : State} (h : execHoldLineFall s = .next t) : Event s t := by
  unfold execHoldLineFall at h
  split at h <;> cases h
  exact .port .othersLower

theorem event_takeTimerExpiry {s t : State} (h : execTakeTimerExpiry s = .next t) : Event s t := by
  unfold execTakeTimerExpiry at h
  split at h <;> cases h
  exact .port .stall

theorem event_packetJoin {s t : State} (h : execPacketJoin s = .next t) : Event s t := by
  unfold execPacketJoin at h
  split at h
  · cases h
  · next w hw =>
    split at h
    · cases h
    · next r hr => cases h; exact .packetJoin hw hr

/-- An event of one bus state happens in that state, with a packet at the head. -/
theorem inBusState_next {st : BusState} {s t : State} {f : Packet → State} (h : inBusState st s f = .next t) :
    s.bus.state = st ∧ s.bus.queue ≠ [] ∧ ∃ p, t = f p := by
  unfold inBusState at h
  split at h
  · cases h
  · next p rest hq =>
    split at h
    · next hst => cases h; exact ⟨hst, by simp [hq], p, rfl⟩
    · cases h

theorem event_busFree {s t : State} (h : execBusFree s = .next t) : Event s t := by
  unfold execBusFree at h
  split at h
  · cases h
  · next hothers =>
    split at h
    · cases h
    · next hgap =>
      obtain ⟨hstate, hqueue, -, rfl⟩ := inBusState_next h
      exact .bus (.header (by simpa using hothers) hstate (by simpa [hstate] using hgap) hqueue) .nothing

theorem event_contestLost {s t : State} (h : execContestLost s = .next t) : Event s t := by
  obtain ⟨hstate, hqueue, -, rfl⟩ := inBusState_next h
  exact .bus (.contestLost hstate hqueue) (.counted _)

theorem event_contestWon {s t : State} (h : execContestWon s = .next t) : Event s t := by
  obtain ⟨hstate, hqueue, -, rfl⟩ := inBusState_next h
  exact .bus (.contestWon hstate hqueue) .nothing

theorem event_collision {s t : State} (h : execCollision s = .next t) : Event s t := by
  obtain ⟨hstate, hqueue, p, rfl⟩ := inBusState_next h
  exact .bus (.collided hstate hqueue) (.raised .collision p.sequence.toNat)

theorem event_packetSent {s t : State} (h : execPacketSent s = .next t) : Event s t := by
  obtain ⟨hstate, hqueue, -, rfl⟩ := inBusState_next h
  exact .bus (.packetSent hstate hqueue) .nothing

theorem event_accept {s t : State} (h : execAccept s = .next t) : Event s t := by
  unfold execAccept at h
  split at h <;> cases h
  · next ht => exact .bus (.answered ht) .nothing
  · exact .kept

theorem event_reject {s t : State} (h : execReject s = .next t) : Event s t := by
  unfold execReject at h
  split at h <;> cases h
  · next ht => exact .bus (.answered ht) (.both .rejected .packetRejected _)
  · exact .kept

theorem event_defer {s t : State} (h : execDefer s = .next t) : Event s t := by
  unfold execDefer at h
  split at h <;> cases h
  · next ht => exact .bus (.deferred ht) (.counted .deferred)
  · exact .kept

theorem event_invalidAnswer {b : Byte} {s t : State} (h : execInvalidAnswer b s = .next t) : Event s t := by
  unfold execInvalidAnswer at h
  split at h
  · split at h <;> cases h
    exact .kept
  · cases h

theorem event_holdExpiry {s t : State} (h : execHoldExpiry s = .next t) : Event s t := by
  unfold execHoldExpiry at h
  split at h <;> cases h
  next hs => exact .bus (.holdExpired hs.1 hs.2) (.both .holdExpiries .holdExpired _)

theorem event_deferExpiry {s t : State} (h : execDeferExpiry s = .next t) : Event s t := by
  unfold execDeferExpiry at h
  split at h <;> cases h
  next hs => exact .bus (.deferExpired hs.1 hs.2) .nothing

theorem event_offeredReplyJoin {s t : State} (h : execOfferedReplyJoin s = .next t) : Event s t := by
  unfold execOfferedReplyJoin at h
  split at h
  · cases h; exact .kept
  · next q hq =>
    split at h <;> cases h
    next hdepth => exact .replyJoin hq hdepth

theorem event_recordDeparture {s t : State} (h : execRecordDeparture s = .next t) : Event s t := by
  unfold execRecordDeparture at h
  split at h
  · cases h
  · next r rest hq =>
    split at h <;> cases h
    next hidle =>
      simp only [Bool.and_eq_true, Option.isNone_iff_eq_none, Bool.not_eq_true'] at hidle
      exact .departure hq hidle.1 hidle.2

theorem event_recordSent {s t : State} (h : execRecordSent s = .next t) : Event s t := by
  unfold execRecordSent at h
  split at h
  · cases h
  · split at h <;> cases h
    exact .sent

theorem event_returnLineHold {n : Nat} {s t : State} (h : execReturnLineHold n s = .next t) : Event s t := by
  unfold execReturnLineHold at h
  split at h
  · split at h <;> cases h
    · exact .kept
    · exact .lineHeld n
  · cases h

/-- The cases stand in the order of `exec`; the decoder's commands share their one event. -/
theorem exec_event {c : Instr} {s t : State} (h : exec c s = .next t) : Event s t := by
  by_cases hc : c ∈ decoderCommands
  · obtain ⟨e, work, hready, -, hevent, rfl⟩ := exec_decoder_next hc h
    exact .decoder hready hevent
  · cases c with
    | powerOn strap acceptAll => cases h; exact .powerOn strap acceptAll
    | takeStart priority address => exact event_takeStart h
    | takeEnd => cases h; exact .port .endTake
    | plain b => cases h; exact .port (.plainByte b)
    | ignoredFlaggedByte b => exact event_ignoredFlaggedByte h
    | holdLineRise => cases h; exact .port .othersRise
    | holdLineFall => exact event_holdLineFall h
    | takeTimerExpiry => exact event_takeTimerExpiry h
    | packetJoin => exact event_packetJoin h
    | busFree => exact event_busFree h
    | busFoundBusy => cases h; exact .bus .sensedBusy .nothing
    | contestLost => exact event_contestLost h
    | contestWon => exact event_contestWon h
    | collision => exact event_collision h
    | packetSent => exact event_packetSent h
    | accept => exact event_accept h
    | reject => exact event_reject h
    | defer => exact event_defer h
    | invalidAnswer b => exact event_invalidAnswer h
    | holdExpiry => exact event_holdExpiry h
    | deferExpiry => exact event_deferExpiry h
    | offeredReplyJoin => exact event_offeredReplyJoin h
    | recordDeparture => exact event_recordDeparture h
    | recordSent => exact event_recordSent h
    | returnLineHold n => exact event_returnLineHold h
    | returnLineRelease => cases h; exact .lineReleased
    | imagingUnitRelease => cases h; exact .bus .released .nothing
    | _ => exact absurd (by decide) hc

/-- What every event keeps, and does not ask of the queue of commands, every step keeps. -/
theorem step_keeps {P : State → Prop} (hpending : ∀ s q, P s → P (s.setPending q))
    (hevent : ∀ s t, Event s t → P s → P t) {s t : State} (hs : P s) (h : step s = .next t) : P t := by
  unfold step at h
  split at h
  · cases h
    exact hevent s _ (.bus .bitTime .nothing) hs
  · exact hevent _ t (exec_event h) (hpending s _ hs)

end Sys2Proof.Proofs
end

section
/-! SUPPORT. The induction over the shaper's work and the decoder's work, packaged once: what the few changes that they are made
of keep, a job and a decoder event keep. -/

namespace Sys2Proof.Proofs

open Sys2Proof.Machine Sys2Proof.Safety

/-! ### A line that holds cells goes on holding some -/

/-- The line of `m` is not emptied where that of `ln` holds cells. -/
def HoldsOn (ln m : Line) : Prop := ln.cells ≠ [] → m.cells ≠ []

theorem HoldsOn.refl (ln : Line) : HoldsOn ln ln := id

theorem HoldsOn.of_eq {ln m : Line} (h : m.cells = ln.cells) : HoldsOn ln m := fun hln => h ▸ hln

theorem HoldsOn.trans {ln m n : Line} (h : HoldsOn ln m) (k : HoldsOn m n) : HoldsOn ln n := fun hln => k (h hln)

theorem append_holds (b : Bank) (c : LineCopy) (x : Cell) (ln : Line) : (ln.append b c x).cells ≠ [] := by
  simp [Line.append]

theorem appendSpace_holds (b : Bank) (c : LineCopy) (ln : Line) : (ln.appendSpace b c).cells ≠ [] := append_holds b c _ _

theorem appendTab_holds (b : Bank) (c : LineCopy) (ln : Line) : (ln.appendTab b c).cells ≠ [] := append_holds b c _ ln

theorem appendBreak_holds (b : Bank) (c : LineCopy) (ln : Line) : (ln.appendBreak b c).cells ≠ [] := append_holds b c _ _

theorem holdsOn_settleAt (b : Bank) (c : LineCopy) (offers : Bool) (i : Nat) (ln : Line) :
    HoldsOn ln (ln.settleAt b c offers i) := by
  unfold Line.settleAt
  split
  · exact .refl ln
  · intro h
    simpa using h

/-- A ligature lookup that finds a glyph stands between two letters. -/
theorem ligatureResult_length {b : Bank} {cells : List Cell} {i : Nat} {r : Nat × Letter × Letter}
    (h : ligatureResult b cells i = some r) : 0 < i ∧ i < cells.length := by
  unfold ligatureResult at h
  split at h
  · cases h
  · next j =>
    split at h
    · next e l he hl =>
      refine ⟨Nat.succ_pos j, ?_⟩
      by_contra hlong
      simp [letterAt, List.getElem?_eq_none (Nat.not_lt.1 hlong)] at hl
    · cases h

theorem holdsOn_ligate (b : Bank) (c : LineCopy) (i : Nat) (ln : Line) : HoldsOn ln (ln.ligate b c i).1 := by
  unfold Line.ligate
  split
  · exact .refl ln
  · next g e l hr =>
    obtain ⟨hpos, hlt⟩ := ligatureResult_length hr
    intro _ hnil
    have hlen : ((ln.cells.set (i - 1) (.letter (mergeLetters b g e l).1)).eraseIdx i).length = 0 := by
      rw [← List.length_nil (α := Cell), ← hnil]
      dsimp only
      split <;> rfl
    rw [List.length_eraseIdx, List.length_set, if_pos hlt] at hlen
    omega

theorem holdsOn_remeasureCell (b : Bank) (c : LineCopy) (x : Cell) (ln : Line) : HoldsOn ln (ln.remeasureCell b c x) := by
  intro h
  cases x with
  | letter l => exact append_holds b c _ ln
  | space w =>
    unfold Line.remeasureCell
    dsimp only
    split
    · exact h
    · exact appendSpace_holds b c ln
  | tab gap leaders left => exact appendTab_holds b c ln
  | brk w broken d => exact appendBreak_holds b c ln
  | link k => exact append_holds b c _ ln
  | carrier k => exact append_holds b c _ ln

theorem holdsOn_remeasure (b : Bank) (c : LineCopy) (cells : List Cell) (ln : Line) :
    HoldsOn ln (remeasure b c cells ln).1 := by
  induction cells generalizing ln with
  | nil => exact .refl ln
  | cons x rest ih =>
    unfold remeasure
    split
    · exact holdsOn_remeasureCell b c x ln
    · exact (holdsOn_remeasureCell b c x ln).trans (ih _)

theorem holdsOn_attachMark (b : Bank) (mark : Nat) (ln : Line) : HoldsOn ln (ln.attachMark b mark) := by
  intro h hnil
  have := congrArg List.length hnil
  simp only [Line.attachMark, List.length_modify, List.length_nil, List.length_eq_zero_iff] at this
  exact h this

/-! ### A job (R19, R106, R108, R120) -/

/-- What the changes that a job is made of all keep: the line, the paragraph space due and the counters, an exchange of banks,
and at a line end a packet that joins or waits. -/
structure JobKeeps (P : State → Prop) : Prop where
  setLine : ∀ {s : State} {ln : Line}, HoldsOn s.shaper.line ln → P s → P (s.setLine ln)
  paraDue : ∀ {s : State}, P s → P (s.setShaper { s.shaper with paraDue := true })
  count : ∀ {s : State} (name : CounterName) (n : Nat), P s → P (countBy name n s)
  exchange : ∀ {s : State}, P s → P (exchangeBanks s)
  joins : ∀ {s : State} (priority : Priority) (plan : EndPlan), P s →
    P (joinPacket (linePacket priority plan s) (makeLineEnd plan s))
  waits : ∀ {s : State} (plan : EndPlan) (w : WaitingEnd), P s →
    P ((makeLineEnd plan s).setShaper { (makeLineEnd plan s).shaper with waiting := some w })

namespace JobKeeps

variable {P : State → Prop} (h : JobKeeps P)

include h

theorem append (b : Bank) (c : LineCopy) (x : Cell) {s : State} (hs : P s) : P (s.setLine (s.shaper.line.append b c x)) :=
  h.setLine (fun _ => append_holds b c x _) hs

theorem ligateAt (i : Nat) {s : State} (hs : P s) : P (Machine.ligateAt i s).1 := by
  have ligated := h.setLine (holdsOn_ligate s.bank s.copy i s.shaper.line) hs
  unfold Machine.ligateAt
  dsimp only
  split
  · exact ligated
  · exact h.count _ _ ligated

theorem settleProvisional {offers : Bool} {s : State} {r : State × Nat} (hr : settleProvisional offers s = some r)
    (hs : P s) : P r.1 := by
  unfold Machine.settleProvisional at hr
  split at hr <;> cases hr
  exact h.ligateAt _ (h.setLine (holdsOn_settleAt _ _ _ _ _) hs)

omit h in
theorem fitTest (i : Nat) {s : State} (hs : P s) : P (fitTest i s).state := by
  unfold Machine.fitTest
  split <;> exact hs

theorem appendArrival (a : Arrival) {s : State} (hs : P s) : P (appendArrival a s).state := by
  cases a with
  | letter g =>
    unfold Machine.appendArrival
    dsimp only
    split
    · exact fitTest _ (h.ligateAt _ (h.append _ _ _ hs))
    · exact h.append _ _ _ hs
  | space => exact fitTest _ (h.setLine (fun _ => appendSpace_holds _ _ _) hs)
  | disc => exact h.setLine (fun _ => appendBreak_holds _ _ _) hs
  | tab => exact fitTest _ (h.setLine (fun _ => appendTab_holds _ _ _) hs)
  | link k => exact h.append _ _ _ hs
  | carrier g mark => exact fitTest _ (h.append _ _ _ hs)

theorem admitArrival (a : Arrival) {s : State} (hs : P s) : P (admitArrival a s).state := by
  unfold Machine.admitArrival
  split
  · exact hs
  · exact h.appendArrival a hs

theorem takeArrival (a : Arrival) {s : State} (hs : P s) : P (takeArrival a s).state := by
  unfold Machine.takeArrival
  split
  · exact hs
  · split
    · exact h.admitArrival a hs
    · split
      · exact h.admitArrival a hs
      · next settled offending heq =>
        have hsettled := h.settleProvisional heq hs
        split
        · exact hsettled
        · exact h.admitArrival a hsettled

theorem emptyEnd (kind : EndKind) {s : State} (hs : P s) : P (emptyEnd kind s) := by
  have dropped : P (dropFlags s) := h.setLine (.of_eq rfl) hs
  cases kind with
  | overflow => exact hs
  | endline => exact hs
  | endpara => exact h.paraDue dropped
  | take => exact dropped
  | swap => exact h.exchange hs

theorem endByControl (k : ControlEnd) (j : Job) {s : State} (hs : P s) : P (endByControl k j s).state := by
  unfold Machine.endByControl
  split
  · exact h.emptyEnd k.kind hs
  · exact hs

theorem controlEnd (k : ControlEnd) (j : Job) {s : State} (hs : P s) : P (controlEnd k j s).state := by
  unfold Machine.controlEnd
  split
  · exact h.endByControl k j hs
  · next settled offending heq =>
    have hsettled := h.settleProvisional heq hs
    split
    · exact hsettled
    · exact h.endByControl k j hsettled

theorem afterArrival (j : Job) {s : State} (hs : P s) : P (afterArrival j s).state := by
  unfold Machine.afterArrival
  split
  · exact h.controlEnd _ j hs
  · show P (if j.exchange = true then exchangeBanks s else s)
    split
    · exact h.exchange hs
    · exact hs

theorem afterCarryOver (j : Job) {s : State} (hs : P s) : P (afterCarryOver j s).state := by
  unfold Machine.afterCarryOver
  split
  · exact h.afterArrival j hs
  · next a _ =>
    have taken := h.takeArrival a hs
    split
    · next heq => rw [heq] at taken; exact h.afterArrival j taken
    · next heq => rw [heq] at taken; exact taken

theorem advance (j : Job) {s : State} (hs : P s) : P (j.advance s).state := by
  have measured := h.setLine (holdsOn_remeasure s.bank s.copy (reformFirst s.bank j.carried) s.shaper.line) hs
  unfold Job.advance
  dsimp only
  split
  · exact h.afterCarryOver j measured
  · exact measured

/-- All the work of one entry, whatever room the exposure queue has. -/
theorem runJob (room : Nat) (j : Job) {s : State} (hs : P s) : P (runJob room j s) := by
  induction room generalizing j s with
  | zero =>
    have advanced := h.advance j hs
    unfold Machine.runJob
    split
    · next heq => rw [heq] at advanced; exact advanced
    · next heq => rw [heq] at advanced; exact h.waits _ _ advanced
  | succ r ih =>
    have advanced := h.advance j hs
    unfold Machine.runJob
    split
    · next heq => rw [heq] at advanced; exact advanced
    · next heq => rw [heq] at advanced; exact ih _ (h.joins _ _ advanced)

theorem doJob (j : Job) {s : State} (hs : P s) : P (doJob j s) := h.runJob _ j hs

end JobKeeps

/-! ### The work of a decoder event (chapter 2) -/

/-- What the work makes of the state with the entry removed, the decoder event makes, with a loss reported in either place. -/
theorem withRemoval_of {P₀ P : State → Prop} {e : Entry} {work : State → State} {s : State}
    (hremoved : ∀ n, P₀ { removed e s with freeIndex := n }) (hbefore : ∀ l u, P₀ u → P₀ (reportLoss l u))
    (hwork : ∀ u, P₀ u → P (work u)) (hafter : ∀ l u, P u → P (reportLoss l u)) : P (withRemoval e work s) := by
  rw [withRemoval_eq]
  cases s.port.loss with
  | none => exact hwork _ (hremoved s.freeIndex)
  | some l =>
    dsimp only
    split
    · exact hwork _ (hbefore l _ (hremoved _))
    · exact hafter l _ (hwork _ (hremoved _))

/-- R49: at most four glyph numbers, each of two bytes. -/
def leaderInRange (glyphs : List Nat) : Bool := decide (glyphs.length ≤ 4) && glyphs.all (within 0 65535)

/-- A FORMAT or LEADER write of a line parameter stays in the parameter's range (R42, R49). -/
def lineWriteInRange : LineWrite → Bool
  | .size v => within 16 384 v
  | .measure v => within 240 14400 v
  | .leading v => within 0 2880 v
  | .paraSpace v => within 0 1440 v
  | .mode _ => true
  | .direction _ => true
  | .spaceMin v => within 0 255 v
  | .spaceOpt v => within 0 255 v
  | .spaceMax v => within 0 255 v
  | .extend v => within 0 8 v
  | .galley v => within 0 15 v
  | .tab _ v => within 0 14400 v
  | .leader glyphs => leaderInRange glyphs

/-- A FORMAT write of a unit parameter stays in the parameter's range (R50). -/
def unitWriteInRange : UnitWrite → Bool
  | .burstLimit v => within 1 16 v
  | .busGap v => within 4 64 v
  | .holdLimit v => within 1 255 v
  | .deferWait v => within 1 255 v
  | .takeTimeout v => within 0 60 v

/-- What a FORMAT writes, if anything, is in range. -/
def formatWriteInRange : FormatWrite → Bool
  | .line w => lineWriteInRange w
  | .unit w => unitWriteInRange w
  | .stray => true

theorem within_clamp {lo hi : Nat} (h : lo ≤ hi) (v : Nat) : within lo hi (clamp lo hi v) = true := by
  simp only [within, Bool.and_eq_true, decide_eq_true_eq]
  unfold clamp
  omega

/-- R43, R44: what FORMAT k, v writes is clamped into its parameter's range. -/
theorem formatWrite_inRange (k v : Nat) : formatWriteInRange (formatWrite k v) = true := by
  unfold formatWrite
  split
  case h_5 => split <;> rfl
  case h_6 => split <;> rfl
  case h_17 =>
    split
    · exact within_clamp (Nat.zero_le 14400) v
    · rfl
  all_goals simp [formatWriteInRange, lineWriteInRange, unitWriteInRange, within_clamp]

/-- A field of two bytes holds at most 65535. -/
theorem pairValue_le (hi lo : Byte) : pairValue hi lo ≤ 65535 := by
  have := hi.isLt
  have := lo.isLt
  simp only [pairValue]
  omega

theorem pairFields_le (bytes : List Byte) : ∀ n ∈ pairFields bytes, n ≤ 65535 := by
  induction bytes using pairFields.induct with
  | case1 hi lo rest ih =>
    intro n hn
    rcases List.mem_cons.1 hn with rfl | hn
    · exact pairValue_le hi lo
    · exact ih n hn
  | case2 bytes hshort =>
    intro n hn
    unfold pairFields at hn
    split at hn
    · exact absurd rfl (hshort _ _ _)
    · cases hn

/-- R49: LEADER files at most four glyph numbers, each of two bytes. -/
theorem leader_inRange (bytes : List Byte) : lineWriteInRange (.leader ((pairFields bytes).take 4)) = true := by
  have fields : ((pairFields bytes).take 4).all (within 0 65535) = true :=
    List.all_eq_true.2 fun n hn => by simpa using pairFields_le bytes n (List.mem_of_mem_take hn)
  simp [lineWriteInRange, leaderInRange, fields]

/-- What the changes that the decoder's work is made of keep: `P₀` while the decoder does its own part, `P` once the shaper has
been handed its job or a reply has been offered. -/
structure WorkKeeps (P₀ P : State → Prop) : Prop where
  done : ∀ {s : State}, P₀ s → P s
  report : ∀ {s : State} (l : Loss), P s → P (reportLoss l s)
  setDecoder : ∀ {s : State} (d : Decoder), P₀ s → P₀ (s.setDecoder d)
  setTables : ∀ {s : State} (t : TableBlock), P₀ s → P₀ (s.setTables t)
  setLine : ∀ {s : State} {ln : Line}, HoldsOn s.shaper.line ln → P₀ s → P₀ (s.setLine ln)
  count : ∀ {s : State} (name : CounterName) (n : Nat), P₀ s → P₀ (countBy name n s)
  raise : ∀ {s : State} (kind : NoticeKind) (detail : Nat), P₀ s → P₀ (raise kind detail s)
  fileLine : ∀ {s : State} {w : LineWrite}, lineWriteInRange w = true → P₀ s → P₀ (fileLineWrite w s)
  writeUnit : ∀ {s : State} {w : UnitWrite}, unitWriteInRange w = true → P₀ s →
    P₀ (s.setFormat { s.format with unit := s.format.unit.write w })
  reset : ∀ {s : State}, P₀ s → P₀ (unitReset s)
  offer : ∀ {s : State} (q : Query), P₀ s → P (offerReply q s)
  job : ∀ {s : State} (j : Job), P₀ s → P (doJob j s)

namespace WorkKeeps

variable {P₀ P : State → Prop} (h : WorkKeeps P₀ P)

include h

theorem abortLoad {s : State} (hs : P₀ s) : P₀ (abortLoad s) := by
  unfold Machine.abortLoad
  split
  · exact hs
  · dsimp only
    split
    · exact h.raise _ _ (h.setTables _ (h.setTables _ hs))
    · exact h.raise _ _ (h.setTables _ hs)

theorem clearInHand {s : State} (hs : P₀ s) : P₀ (clearInHand s) := by
  unfold Machine.clearInHand
  split
  · exact h.count _ _ hs
  · exact h.abortLoad hs
  · exact h.abortLoad hs
  all_goals exact hs

theorem closeTake (notice : Option NoticeKind) {s : State} (hs : P₀ s) : P₀ (closeTake notice s) := by
  have closed : P₀ (setDecoderState .idle (Machine.clearInHand s)) := h.setDecoder _ (h.clearInHand hs)
  cases notice with
  | none => exact closed
  | some k => exact h.raise _ _ closed

theorem openTake (p : Priority) {s : State} (hs : P₀ s) : P₀ (openTake p s) := h.count _ _ (h.setDecoder _ hs)

theorem closingBoundary (notice : Option NoticeKind) {s : State} (hs : P₀ s) : P (closingBoundary notice s) := by
  unfold Machine.closingBoundary
  split
  · exact h.done hs
  · exact h.job _ (h.closeTake notice hs)

theorem openingBoundary (p : Priority) {s : State} (hs : P₀ s) : P (openingBoundary p s) := by
  unfold Machine.openingBoundary
  split
  · exact h.done (h.openTake p hs)
  · exact h.job _ (h.openTake p (h.closeTake _ hs))

theorem applyBoundary (lost : Option Boundary) {s : State} (hs : P₀ s) : P (applyBoundary lost s) := by
  unfold Machine.applyBoundary
  split
  · exact h.done hs
  · exact h.openingBoundary _ hs
  · exact h.closingBoundary _ hs
  · exact h.closingBoundary _ hs

theorem actOnLoss {s : State} (hs : P₀ s) : P₀ (actOnLoss s) := by
  have flagged {u : State} (hu : P₀ u) : P₀ (flagGap u) := h.setLine (.of_eq rfl) hu
  have cleared (d : DecoderState) : P₀ (setDecoderState d (Machine.clearInHand s)) := h.setDecoder _ (h.clearInHand hs)
  unfold Machine.actOnLoss
  split
  · exact hs
  · exact flagged hs
  · exact flagged (cleared .text)
  · exact flagged (cleared .skip)
  · exact flagged (cleared .skip)
  · exact hs

theorem handMark (mark : Nat) {s : State} (hs : P₀ s) : P (handMark mark s) := by
  unfold Machine.handMark
  split
  · exact h.done (h.setLine (holdsOn_attachMark _ _ _) hs)
  · exact h.done (h.count _ _ (h.setLine (.of_eq rfl) hs))
  · split
    · exact h.job _ hs
    · exact h.done (h.count _ _ hs)

theorem takeText (c : Byte) {s : State} (hs : P₀ s) : P (takeText c s) := by
  have flagged : P₀ (Machine.count .unmapped (s.setLine s.shaper.line.flagUnmapped)) :=
    h.count _ _ (h.setLine (.of_eq rfl) hs)
  unfold Machine.takeText
  split
  · exact h.job _ hs
  · exact h.handMark _ hs
  · exact h.job _ hs
  · unfold handUnmapped
    dsimp only
    split
    · exact h.job _ flagged
    · exact h.done flagged

theorem openControl (e : Entry) {s : State} (hs : P₀ s) : P₀ (openControl e s) := by
  unfold Machine.openControl
  split
  · exact h.setDecoder _ hs
  · exact hs

theorem addArgument (e : Entry) {s : State} (hs : P₀ s) : P₀ (addArgument e s) := by
  unfold Machine.addArgument
  split
  · exact h.setDecoder _ hs
  all_goals exact hs

theorem setPlane (bytes : List Byte) {s : State} (hs : P₀ s) : P₀ (setPlane bytes s) := by
  unfold Machine.setPlane
  split
  · exact h.setDecoder _ hs
  · exact h.count _ _ hs

theorem writeFormat (bytes : List Byte) {s : State} (hs : P₀ s) : P₀ (writeFormat bytes s) := by
  have inRange := formatWrite_inRange (byteAt bytes 0).toNat (fieldAt bytes 1)
  unfold Machine.writeFormat
  split
  · next heq => rw [heq] at inRange; exact h.fileLine inRange hs
  · next heq => rw [heq] at inRange; exact h.writeUnit inRange hs
  · exact h.count _ _ hs

theorem openLoad (bytes : List Byte) {s : State} (hs : P₀ s) : P₀ (openLoad bytes s) := by
  unfold Machine.openLoad
  split
  · exact h.raise _ _ (h.setDecoder _ hs)
  · exact h.setDecoder _ (h.setTables _ hs)

theorem swapBanks {s : State} (hs : P₀ s) : P (swapBanks s) := by
  unfold Machine.swapBanks
  split
  · exact h.job _ hs
  · exact h.done (h.raise _ _ hs)

theorem controlWork {work : List Byte → State → State} (hwork : ControlWork work) (bytes : List Byte) {s : State}
    (hs : P₀ s) : P (work bytes s) := by
  cases hwork with
  | plane => exact h.done (h.setPlane bytes hs)
  | format => exact h.done (h.writeFormat bytes hs)
  | leader => exact h.done (h.fileLine (leader_inRange _) hs)
  | load => exact h.done (h.openLoad bytes hs)
  | copy => exact h.done (h.setTables _ hs)
  | clear => exact h.done (h.setTables _ hs)
  | swap => exact h.swapBanks hs
  | query asked => exact h.offer _ hs
  | stray => exact h.done (h.count _ _ hs)

theorem takeItem (k : TableKind) (index : Nat) (bytes : List Byte) {s : State} (hs : P₀ s) :
    P₀ (takeItem k index bytes s) := by
  unfold Machine.takeItem
  split
  · exact hs
  · split <;> exact h.setTables _ hs

theorem takeLoadByte (e : Entry) {s : State} (hs : P₀ s) : P₀ (takeLoadByte e s) := by
  unfold Machine.takeLoadByte
  split
  · dsimp only
    split
    · exact h.setDecoder _ hs
    · exact h.takeItem _ _ _ (h.setDecoder _ hs)
  all_goals exact hs

theorem takeSum (sent : Nat) {s : State} (hs : P₀ s) : P₀ (takeSum sent s) := by
  unfold Machine.takeSum
  split
  · exact hs
  · dsimp only
    split
    · split
      · exact h.setTables _ hs
      · exact h.raise _ _ (h.setTables _ (h.setTables _ hs))
    · exact h.raise _ _ (h.setTables _ hs)

theorem takeSumByte (e : Entry) {s : State} (hs : P₀ s) : P₀ (takeSumByte e s) := by
  unfold Machine.takeSumByte
  split
  · split
    · exact h.setDecoder _ hs
    · exact h.takeSum _ (h.setDecoder _ hs)
  all_goals exact hs

/-- The work of every decoder event. -/
theorem work {d : DecoderState} {e : Entry} {work : State → State} (hwork : DecoderEvent d e work) {s : State}
    (hs : P₀ s) : P (work s) := by
  cases hwork with
  | takeStart _ p => exact h.openingBoundary p hs
  | takeEnd => exact h.closingBoundary none hs
  | cut => exact h.closingBoundary _ hs
  | stalled => exact h.closingBoundary _ hs
  | gap _ n lost => exact h.applyBoundary lost (h.actOnLoss hs)
  | idle b => exact h.done hs
  | skip b => exact h.done hs
  | text b => exact h.takeText b hs
  | stray b => exact h.done (h.count _ _ hs)
  | opened b => exact h.done (h.openControl _ hs)
  | arrival b a => exact h.job _ hs
  | lineEnd b kind => exact h.job _ hs
  | reset b => exact h.done (h.reset hs)
  | argument code bytes b => exact h.done (h.addArgument _ hs)
  | carriedOut code bytes b hcontrol => exact h.controlWork hcontrol _ (h.setDecoder _ hs)
  | loadByte ctx b => exact h.done (h.takeLoadByte _ hs)
  | sumByte ctx b => exact h.done (h.takeSumByte _ hs)

/-- A decoder event with its removal, and with the report of a loss in either place. -/
theorem event {e : Entry} {work : State → State} {s : State} (hwork : DecoderEvent s.decoder.state e work)
    (hremoved : ∀ n, P₀ { removed e s with freeIndex := n }) : P (withRemoval e work s) :=
  withRemoval_of hremoved (fun _ _ hu => h.raise _ _ (h.count _ _ hu)) (fun _ hu => h.work hwork hu)
    (fun l _ hu => h.report l hu)

end WorkKeeps

end Sys2Proof.Proofs
end

section
/-! SUPPORT. The reply unit's invariant (O60). -/

namespace Sys2Proof.Proofs

open Sys2Proof.Machine Sys2Proof.Safety

/-! ### The return queue (R177 to R180, R184) -/

/-- The part of the invariant that speaks of the return queue alone. -/
structure ReturnQueueOk (q : List Record) : Prop where
  length_le : q.length ≤ 16
  nodup : (noticeKinds q).Nodup
  replies : replyCount q ≤ 6
  repeats : q.all repeatsInRange = true

/-- There are ten kinds of notice. -/
theorem kinds_length_le {kinds : List NoticeKind} (h : kinds.Nodup) : kinds.length ≤ 10 := by
  have complete (k : NoticeKind) : k ∈ [NoticeKind.overrun, .takeCut, .takeStalled, .loadRefused, .loadSum, .loadAborted,
      .swapRefused, .packetRejected, .holdExpired, .collision] := by cases k <;> decide
  exact (h.subperm fun k _ => complete k).length_le

/-- One notice of each kind and six replies make at most 16 records. -/
theorem returnQueueOk_of {q : List Record} (nodup : (noticeKinds q).Nodup) (replies : replyCount q ≤ 6)
    (repeats : q.all repeatsInRange = true) : ReturnQueueOk q := by
  have := kinds_length_le nodup
  exact ⟨by unfold replyCount at replies; omega, nodup, replies, repeats⟩

theorem returnQueueOk_nil : ReturnQueueOk [] := returnQueueOk_of .nil (Nat.zero_le 6) rfl

theorem raiseIn_repeats (kind : NoticeKind) (detail : Nat) {q : List Record} (h : q.all repeatsInRange = true) :
    (raiseIn kind detail q).all repeatsInRange = true := by
  induction q with
  | nil => rfl
  | cons r rest ih =>
    rw [List.all_cons, Bool.and_eq_true] at h
    obtain ⟨hr, hrest⟩ := h
    cases r with
    | notice k n d =>
      unfold raiseIn
      split
      · have merged : repeatsInRange (.notice kind (min 255 (n + 1)) detail) = true := by
          simp only [repeatsInRange, within, Bool.and_eq_true, decide_eq_true_eq]
          omega
        rw [List.all_cons, merged, hrest]
        rfl
      · rw [List.all_cons, hr, ih hrest]
        rfl
    | status f => exact ih hrest
    | counts c => exact ih hrest
    | entry t b i p v => exact ih hrest

/-- A notice raised leaves the number of replies. -/
theorem replyCount_raiseIn (kind : NoticeKind) (detail : Nat) (q : List Record) :
    replyCount (raiseIn kind detail q) = replyCount q := by
  unfold replyCount
  rw [length_raiseIn, noticeKinds_raiseIn]
  split
  · rfl
  · simp

theorem ReturnQueueOk.raise {q : List Record} (h : ReturnQueueOk q) (kind : NoticeKind) (detail : Nat) :
    ReturnQueueOk (raiseIn kind detail q) := by
  refine returnQueueOk_of ?_ ((replyCount_raiseIn kind detail q).trans_le h.replies) (raiseIn_repeats kind detail h.repeats)
  rw [noticeKinds_raiseIn]
  split
  · exact h.nodup
  · next hnew => simpa [List.nodup_append] using ⟨h.nodup, fun k hk => (ne_of_mem_of_not_mem hk hnew)⟩

/-- A record that is no notice is a reply. -/
def Record.isReply (r : Record) : Prop := noticeKinds [r] = []

theorem buildReply_isReply (q : Query) (s : State) : Record.isReply (buildReply q s) := by cases q <;> rfl

theorem repeatsInRange_of_isReply {r : Record} (h : Record.isReply r) : repeatsInRange r = true := by
  cases r with
  | notice k n d => cases h
  | status f => rfl
  | counts c => rfl
  | entry t b i p v => rfl

/-- R20, R180: a reply joins at a depth of 5 or fewer, so there are at most six. -/
theorem ReturnQueueOk.reply {q : List Record} (h : ReturnQueueOk q) (hdepth : q.length ≤ 5) {r : Record}
    (hr : Record.isReply r) : ReturnQueueOk (q ++ [r]) := by
  have kinds : noticeKinds (q ++ [r]) = noticeKinds q := by rw [noticeKinds_append, hr, List.append_nil]
  refine returnQueueOk_of (kinds ▸ h.nodup) ?_ (by simp [h.repeats, repeatsInRange_of_isReply hr])
  unfold replyCount
  rw [List.length_append, List.length_singleton]
  omega

theorem ReturnQueueOk.tail {r : Record} {rest : List Record} (h : ReturnQueueOk (r :: rest)) : ReturnQueueOk rest := by
  have hlen := noticeKinds_length_le rest
  have kinds : (noticeKinds rest).Nodup ∧ replyCount rest ≤ replyCount (r :: rest) := by
    have nodup := h.nodup
    unfold replyCount
    cases r with
    | notice k n d => exact ⟨nodup.of_cons, by simp [noticeKinds]⟩
    | status f => exact ⟨nodup, by simp only [noticeKinds, List.length_cons]; omega⟩
    | counts c => exact ⟨nodup, by simp only [noticeKinds, List.length_cons]; omega⟩
    | entry t b i p v => exact ⟨nodup, by simp only [noticeKinds, List.length_cons]; omega⟩
  have repeats := h.repeats
  rw [List.all_cons, Bool.and_eq_true] at repeats
  exact returnQueueOk_of kinds.1 (kinds.2.trans h.replies) repeats.2

/-! ### Counters and the sender (R178, R185) -/

/-- Every counter holds at most 65535. -/
def CountersOk (c : Counters) : Prop := ∀ name, c.get name ≤ 65535

theorem countersOk_iff (c : Counters) : CountersOk c ↔ c.inOrder.all (within 0 65535) = true := by
  have inOrder : c.inOrder = [CounterName.takes, .lines, .forced, .overset, .loose, .unmapped, .orphans, .markOverflow,
      .stray, .overrun, .contestsLost, .deferred, .rejected, .holdExpiries].map c.get := rfl
  rw [inOrder]
  simp only [List.all_map, List.all_eq_true, Function.comp_apply, within, Bool.and_eq_true, decide_eq_true_eq, Nat.zero_le,
    true_and]
  exact ⟨fun h name _ => h name, fun h name => h name (by cases name <;> decide)⟩

theorem CountersOk.add {c : Counters} (h : CountersOk c) (name : CounterName) (k : Nat) : CountersOk (c.add name k) := by
  intro name'
  rw [add_get]
  split
  · exact saturate_le _ _
  · exact h name'

theorem countersOk_zero : CountersOk Counters.zero := fun name => by cases name <;> exact Nat.zero_le _

theorem CountersOk.after {c : Counters} (h : CountersOk c) (q : Query) : CountersOk (q.countersAfter c) := by
  cases q with
  | countsAndClear => exact countersOk_zero
  | status => exact h
  | counts => exact h
  | entry k standby index => exact h

/-- The characters not yet begun are the last part of the record's. -/
def SendingOk (r : Sending) : Prop := r.unsent <:+ r.record.characters

theorem sendingOk_iff (r : Sending) :
    SendingOk r ↔ (decide (r.unsent.length ≤ r.record.characters.length)
      && decide (r.unsent = r.record.characters.drop (r.record.characters.length - r.unsent.length))) = true := by
  rw [Bool.and_eq_true, decide_eq_true_eq, decide_eq_true_eq, SendingOk, List.suffix_iff_eq_drop]
  constructor
  · intro h
    exact ⟨(List.suffix_iff_eq_drop.2 h).length_le, h⟩
  · exact And.right

theorem SendingOk.advance {r : Sending} (h : SendingOk r) (begun : Nat) : SendingOk (r.advance begun) :=
  (List.drop_suffix begun r.unsent).trans h

/-! ### The invariant -/

/-- The reply unit's invariant in its parts. -/
structure ReplyOk (r : ReplyUnit) : Prop where
  queue : ReturnQueueOk r.queue
  offered : r.offered.isSome = true → 6 ≤ r.queue.length
  counters : CountersOk r.counters
  sender : ∀ x, r.sender = some x → SendingOk x

theorem replyInv_iff (s : State) : ReplyInv s ↔ ReplyOk s.reply := by
  have senders : (∀ x, s.reply.sender = some x → SendingOk x) ↔
      s.reply.sender.all (fun r => decide (r.unsent.length ≤ r.record.characters.length)
        && decide (r.unsent = r.record.characters.drop (r.record.characters.length - r.unsent.length))) = true := by
    simp only [sendingOk_iff]
    cases s.reply.sender <;> simp
  constructor
  · rintro ⟨hlen, hnodup, hreplies, hoffered, hrepeats, hcounters, hsender⟩
    exact ⟨⟨hlen, hnodup, hreplies, hrepeats⟩, hoffered, (countersOk_iff _).2 hcounters, senders.2 hsender⟩
  · rintro ⟨⟨hlen, hnodup, hreplies, hrepeats⟩, hoffered, hcounters, hsender⟩
    exact ⟨hlen, hnodup, hreplies, hoffered, hrepeats, (countersOk_iff _).1 hcounters, senders.1 hsender⟩

/-- The state's reply unit has its invariant. -/
def ReplyHolds (s : State) : Prop := ReplyOk s.reply

theorem ReplyHolds.countBy {s : State} (h : ReplyHolds s) (name : CounterName) (n : Nat) : ReplyHolds (countBy name n s) :=
  ⟨h.queue, h.offered, h.counters.add name n, h.sender⟩

theorem ReplyHolds.raise {s : State} (h : ReplyHolds s) (kind : NoticeKind) (detail : Nat) :
    ReplyHolds (raise kind detail s) := by
  refine ⟨h.queue.raise kind detail, fun hoffered => ?_, h.counters, h.sender⟩
  have := h.offered hoffered
  rw [raise_queue, length_raiseIn]
  split <;> omega

theorem ReplyHolds.countIf {s : State} (h : ReplyHolds s) (b : Bool) (name : CounterName) :
    ReplyHolds (countIf b name s) := by
  cases b
  · exact h
  · exact h.countBy name 1

theorem ReplyHolds.makeLineEnd {s : State} (h : ReplyHolds s) (plan : EndPlan) : ReplyHolds (makeLineEnd plan s) :=
  ((h.countIf _ _).countIf _ _).countIf _ _

theorem ReplyHolds.joinReply {s : State} (h : ReplyHolds s) (hdepth : s.reply.queue.length ≤ 5) (q : Query) :
    ReplyHolds (joinReply q s) :=
  ⟨h.queue.reply hdepth (buildReply_isReply q s), nofun, h.counters.after q, h.sender⟩

theorem ReplyHolds.offerReply {s : State} (h : ReplyHolds s) (q : Query) : ReplyHolds (offerReply q s) := by
  unfold Machine.offerReply
  split
  · next hdepth => exact h.joinReply hdepth q
  · next hdeep => exact ⟨h.queue, fun _ => Nat.not_le.1 hdeep, h.counters, h.sender⟩

/-- R178: the head record leaves, and the reply that waits is tested against the depth left. -/
theorem ReplyHolds.departure {s : State} (h : ReplyHolds s) {r : Record} {rest : List Record}
    (hq : s.reply.queue = r :: rest) :
    ReplyHolds (retestReply (s.setReply { s.reply with queue := rest, sender := some ⟨r, r.characters⟩ })) := by
  have tail : ReturnQueueOk rest := ReturnQueueOk.tail (hq ▸ h.queue)
  have whole : ∀ x, some (⟨r, r.characters⟩ : Sending) = some x → SendingOk x := by
    rintro x ⟨⟩
    exact List.suffix_rfl
  rw [retestReply_eq]
  cases hoffered : s.reply.offered with
  | none =>
    simp only [setReply_reply, hoffered]
    exact ⟨tail, nofun, h.counters, whole⟩
  | some q =>
    simp only [setReply_reply, hoffered]
    split
    · next hdepth => exact ⟨tail.reply hdepth (buildReply_isReply q _), nofun, h.counters.after q, whole⟩
    · next hdeep => exact ⟨tail, fun _ => Nat.not_le.1 hdeep, h.counters, whole⟩

theorem replyHolds_jobKeeps : JobKeeps ReplyHolds where
  setLine _ hs := hs
  paraDue hs := hs
  count name n hs := hs.countBy name n
  exchange hs := hs
  joins _ plan hs := (hs.makeLineEnd plan).countBy .lines 1
  waits plan _ hs := hs.makeLineEnd plan

theorem replyHolds_workKeeps : WorkKeeps ReplyHolds ReplyHolds where
  done hs := hs
  report _ hs := (hs.countBy _ _).raise _ _
  setDecoder _ hs := hs
  setTables _ hs := hs
  setLine _ hs := hs
  count name n hs := hs.countBy name n
  raise kind detail hs := hs.raise kind detail
  fileLine _ hs := hs
  writeUnit _ hs := hs
  reset hs := hs
  offer q hs := hs.offerReply q
  job j hs := replyHolds_jobKeeps.doJob j hs

theorem ReplyHolds.noted {s t : State} (h : ReplyHolds s) (ht : Noted s t) : ReplyHolds t := by
  cases ht with
  | nothing => exact h
  | counted name => exact h.countBy name 1
  | raised kind detail => exact h.raise kind detail
  | both name kind detail => exact ReplyHolds.raise (h.countBy name 1) kind detail

theorem event_keeps_replyHolds {s t : State} (h : Event s t) (hs : ReplyHolds s) : ReplyHolds t := by
  cases h with
  | kept => exact hs
  | powerOn strap acceptAll => exact ⟨returnQueueOk_nil, nofun, countersOk_zero, nofun⟩
  | port _ => exact hs
  | decoder _ hwork => exact replyHolds_workKeeps.event hwork fun _ => hs
  | packetJoin _ _ => exact replyHolds_jobKeeps.runJob _ _ (hs.countBy .lines 1)
  | @bus b _ _ hnoted => exact ReplyHolds.noted (s := s.setBus b) hs hnoted
  | replyJoin _ hdepth => exact hs.joinReply hdepth _
  | departure hq _ _ => exact hs.departure hq
  | sent => exact ⟨hs.queue, hs.offered, hs.counters, nofun⟩
  | lineHeld begun =>
    refine ⟨hs.queue, hs.offered, hs.counters, fun x hx => ?_⟩
    obtain ⟨r, hr, rfl⟩ := Option.map_eq_some_iff.1 hx
    exact (hs.sender r hr).advance begun
  | lineReleased => exact ⟨hs.queue, hs.offered, hs.counters, hs.sender⟩

/-- Settles O60: every event leaves the return queue, the counters and the sender within bounds. -/
theorem stepKeepsReplyInv : Obligations.StepKeepsReplyInv := by
  intro s t hs h
  rw [replyInv_iff] at hs ⊢
  exact step_keeps (P := ReplyHolds) (fun _ _ hs => hs) (fun _ _ => event_keeps_replyHolds) hs h

end Sys2Proof.Proofs
end

section
/-! SUPPORT. Parameters in their ranges, and pending writes and waits apart (O53). -/

namespace Sys2Proof.Proofs

open Sys2Proof.Machine Sys2Proof.Safety

/-! ### The line copy and the pending set (R42 to R46, R49) -/

/-- The line copy in its ranges, parameter by parameter. -/
structure CopyOk (c : LineCopy) : Prop where
  size : within 16 384 c.size = true
  measure : within 240 14400 c.measure = true
  leading : within 0 2880 c.leading = true
  paraSpace : within 0 1440 c.paraSpace = true
  spaceMin : within 0 255 c.spaceMin = true
  spaceOpt : within 0 255 c.spaceOpt = true
  spaceMax : within 0 255 c.spaceMax = true
  extend : within 0 8 c.extend = true
  galley : within 0 15 c.galley = true
  stops : c.tabs.length = 16
  tabs : c.tabs.all (within 0 14400) = true
  leader : leaderInRange c.leader = true

/-- The pending set's entries in their ranges, parameter by parameter. -/
structure PendingOk (p : PendingSet) : Prop where
  size : p.size.all (within 16 384) = true
  measure : p.measure.all (within 240 14400) = true
  leading : p.leading.all (within 0 2880) = true
  paraSpace : p.paraSpace.all (within 0 1440) = true
  spaceMin : p.spaceMin.all (within 0 255) = true
  spaceOpt : p.spaceOpt.all (within 0 255) = true
  spaceMax : p.spaceMax.all (within 0 255) = true
  extend : p.extend.all (within 0 8) = true
  galley : p.galley.all (within 0 15) = true
  stops : p.tabs.length = 16
  tabs : p.tabs.all (fun t => t.all (within 0 14400)) = true
  leader : p.leader.all leaderInRange = true

theorem within_zero_iff {hi n : Nat} : within 0 hi n = true ↔ n ≤ hi := by simp [within]

theorem leaderInRange_iff {glyphs : List Nat} :
    leaderInRange glyphs = true ↔ glyphs.length ≤ 4 ∧ glyphs.all (within 0 65535) = true := by
  rw [leaderInRange, Bool.and_eq_true, decide_eq_true_eq]

theorem copyInRange_iff (c : LineCopy) : copyInRange c ↔ CopyOk c := by
  constructor
  · rintro ⟨hsize, hmeasure, hleading, hpara, hmin, hopt, hmax, hextend, hgalley, hstops, htabs, hlen, hleader⟩
    exact ⟨hsize, hmeasure, within_zero_iff.2 hleading, within_zero_iff.2 hpara, within_zero_iff.2 hmin,
      within_zero_iff.2 hopt, within_zero_iff.2 hmax, within_zero_iff.2 hextend, within_zero_iff.2 hgalley, hstops, htabs,
      leaderInRange_iff.2 ⟨hlen, hleader⟩⟩
  · rintro ⟨hsize, hmeasure, hleading, hpara, hmin, hopt, hmax, hextend, hgalley, hstops, htabs, hleader⟩
    exact ⟨hsize, hmeasure, within_zero_iff.1 hleading, within_zero_iff.1 hpara, within_zero_iff.1 hmin,
      within_zero_iff.1 hopt, within_zero_iff.1 hmax, within_zero_iff.1 hextend, within_zero_iff.1 hgalley, hstops, htabs,
      leaderInRange_iff.1 hleader⟩

theorem pendingInRange_iff (p : PendingSet) : pendingInRange p ↔ PendingOk p := by
  constructor
  · rintro ⟨hsize, hmeasure, hleading, hpara, hmin, hopt, hmax, hextend, hgalley, hstops, htabs, hleader⟩
    exact ⟨hsize, hmeasure, hleading, hpara, hmin, hopt, hmax, hextend, hgalley, hstops, htabs, hleader⟩
  · rintro ⟨hsize, hmeasure, hleading, hpara, hmin, hopt, hmax, hextend, hgalley, hstops, htabs, hleader⟩
    exact ⟨hsize, hmeasure, hleading, hpara, hmin, hopt, hmax, hextend, hgalley, hstops, htabs, hleader⟩

theorem copyOk_default : CopyOk LineCopy.default := (copyInRange_iff _).1 (by decide)

theorem pendingOk_empty : PendingOk PendingSet.empty := (pendingInRange_iff _).1 (by decide)

/-- A list whose members all pass a test, with one replaced by another that passes. -/
theorem all_set {α : Type} {p : α → Bool} {l : List α} {x : α} (h : l.all p = true) (hx : p x = true) (i : Nat) :
    (l.set i x).all p = true := by
  rw [List.all_eq_true] at h ⊢
  intro y hy
  rcases List.mem_or_eq_of_mem_set hy with hy | rfl
  · exact h y hy
  · exact hx

theorem CopyOk.write {c : LineCopy} (h : CopyOk c) {w : LineWrite} (hw : lineWriteInRange w = true) :
    CopyOk (c.write w) := by
  cases w with
  | size v => exact { h with size := hw }
  | measure v => exact { h with measure := hw }
  | leading v => exact { h with leading := hw }
  | paraSpace v => exact { h with paraSpace := hw }
  | mode m => exact { h with }
  | direction d => exact { h with }
  | spaceMin v => exact { h with spaceMin := hw }
  | spaceOpt v => exact { h with spaceOpt := hw }
  | spaceMax v => exact { h with spaceMax := hw }
  | extend v => exact { h with extend := hw }
  | galley v => exact { h with galley := hw }
  | tab i v => exact { h with stops := (List.length_set ..).trans h.stops, tabs := all_set h.tabs hw i }
  | leader g => exact { h with leader := hw }

theorem PendingOk.write {p : PendingSet} (h : PendingOk p) {w : LineWrite} (hw : lineWriteInRange w = true) :
    PendingOk (p.write w) := by
  cases w with
  | size v => exact { h with size := hw }
  | measure v => exact { h with measure := hw }
  | leading v => exact { h with leading := hw }
  | paraSpace v => exact { h with paraSpace := hw }
  | mode m => exact { h with }
  | direction d => exact { h with }
  | spaceMin v => exact { h with spaceMin := hw }
  | spaceOpt v => exact { h with spaceOpt := hw }
  | spaceMax v => exact { h with spaceMax := hw }
  | extend v => exact { h with extend := hw }
  | galley v => exact { h with galley := hw }
  | tab i v => exact { h with stops := (List.length_set ..).trans h.stops, tabs := all_set (x := some v) h.tabs hw i }
  | leader g => exact { h with leader := hw }

/-- An entry in range, or else the value in range that it would replace. -/
theorem getD_inRange {α : Type} {p : α → Bool} {entry : Option α} {x : α} (h : entry.all p = true) (hx : p x = true) :
    p (entry.getD x) = true := by
  cases entry with
  | none => exact hx
  | some y => exact h

theorem applyTabs_length (stops : List Nat) (entries : List (Option Nat)) :
    (applyTabs stops entries).length = stops.length := by
  induction stops generalizing entries with
  | nil => cases entries <;> rfl
  | cons t ts ih =>
    cases entries with
    | nil => rfl
    | cons e es => exact congrArg (· + 1) (ih es)

theorem applyTabs_inRange {p : Nat → Bool} {stops : List Nat} {entries : List (Option Nat)} (hstops : stops.all p = true)
    (hentries : entries.all (fun e => e.all p) = true) : (applyTabs stops entries).all p = true := by
  induction stops generalizing entries with
  | nil => cases entries <;> rfl
  | cons t ts ih =>
    cases entries with
    | nil => exact hstops
    | cons e es =>
      rw [List.all_cons, Bool.and_eq_true] at hstops hentries
      rw [applyTabs, List.all_cons, getD_inRange hentries.1 hstops.1, ih hstops.2 hentries.2]
      rfl

/-- R46: a pending set in range applied to a line copy in range. -/
theorem PendingOk.applyTo {p : PendingSet} {c : LineCopy} (hp : PendingOk p) (hc : CopyOk c) : CopyOk (p.applyTo c) where
  size := getD_inRange hp.size hc.size
  measure := getD_inRange hp.measure hc.measure
  leading := getD_inRange hp.leading hc.leading
  paraSpace := getD_inRange hp.paraSpace hc.paraSpace
  spaceMin := getD_inRange hp.spaceMin hc.spaceMin
  spaceOpt := getD_inRange hp.spaceOpt hc.spaceOpt
  spaceMax := getD_inRange hp.spaceMax hc.spaceMax
  extend := getD_inRange hp.extend hc.extend
  galley := getD_inRange hp.galley hc.galley
  stops := (applyTabs_length _ _).trans hc.stops
  tabs := applyTabs_inRange hc.tabs hp.tabs
  leader := getD_inRange hp.leader hc.leader

/-! ### The format set (R50, R54) -/

/-- The unit parameters in their ranges. -/
structure UnitOk (u : UnitParams) : Prop where
  burstLimit : within 1 16 u.burstLimit = true
  busGap : within 4 64 u.busGap = true
  holdLimit : within 1 255 u.holdLimit = true
  deferWait : within 1 255 u.deferWait = true
  takeTimeout : within 0 60 u.takeTimeout = true

theorem unitOk_default : UnitOk UnitParams.default := ⟨rfl, rfl, rfl, rfl, rfl⟩

theorem UnitOk.write {u : UnitParams} (h : UnitOk u) {w : UnitWrite} (hw : unitWriteInRange w = true) :
    UnitOk (u.write w) := by
  cases w with
  | burstLimit v => exact { h with burstLimit := hw }
  | busGap v => exact { h with busGap := hw }
  | holdLimit v => exact { h with holdLimit := hw }
  | deferWait v => exact { h with deferWait := hw }
  | takeTimeout v => exact { h with takeTimeout := hw }

/-- The whole format set in its ranges. -/
structure FormatOk (f : FormatSet) : Prop where
  line : CopyOk f.line
  pending : PendingOk f.pending
  unit : UnitOk f.unit

theorem formatOk_default : FormatOk FormatSet.default := ⟨copyOk_default, pendingOk_empty, unitOk_default⟩

theorem FormatOk.fileLine {f : FormatSet} (h : FormatOk f) {w : LineWrite} (hw : lineWriteInRange w = true)
    (storeEmpty : Bool) : FormatOk (f.fileLine storeEmpty w) := by
  cases storeEmpty
  · exact { h with pending := h.pending.write hw }
  · exact { h with line := h.line.write hw }

theorem FormatOk.applyPending {f : FormatSet} (h : FormatOk f) : FormatOk f.applyPending :=
  ⟨h.pending.applyTo h.line, pendingOk_empty, h.unit⟩

/-! ### Values read from a parameter (R14, R51, R160, R163, R164, R170) -/

/-- What the exposure bus has read from the unit parameters. -/
structure BusReadOk (b : Bus) : Prop where
  gap : within 4 64 b.gap = true
  holdTimer : b.holdTimer.all (within 1 255) = true
  deferTimer : b.deferTimer.all (within 1 255) = true
  ownership : b.ownership.all (fun o => within 1 16 o.burstLimit) = true

theorem busReadOk_powerOn (b : Bus) : BusReadOk b.powerOn := ⟨rfl, rfl, rfl, rfl⟩

theorem BusReadOk.startWait {b : Bus} (h : BusReadOk b) {busGap : Nat} (hgap : within 4 64 busGap = true) :
    BusReadOk (b.startWait busGap) := { h with gap := hgap }

theorem BusReadOk.join {b : Bus} (h : BusReadOk b) {busGap : Nat} (hgap : within 4 64 busGap = true) (p : PacketBody) :
    BusReadOk (b.join busGap p) := by
  unfold Bus.join
  dsimp only
  split
  · exact { h with gap := hgap }
  · exact { h with }

theorem BusReadOk.goOnOrRelease {b : Bus} (h : BusReadOk b) {busGap : Nat} (hgap : within 4 64 busGap = true) :
    BusReadOk (b.goOnOrRelease busGap) := by
  unfold Bus.goOnOrRelease
  split
  · exact { h with }
  · split
    · exact { h with ownership := rfl }
    · exact { h.startWait hgap with ownership := rfl }

theorem BusReadOk.enterDeferring {b : Bus} (h : BusReadOk b) {deferWait : Nat} (hwait : within 1 255 deferWait = true) :
    BusReadOk (b.enterDeferring deferWait) :=
  { h with ownership := rfl, holdTimer := rfl, deferTimer := hwait }

theorem BusReadOk.endAnswer {b : Bus} (h : BusReadOk b) : BusReadOk b.endAnswer := { h with holdTimer := rfl }

theorem BusReadOk.event {u : UnitParams} {b b' : Bus} (hu : UnitOk u) (h : BusReadOk b) (he : BusEvent u b b') :
    BusReadOk b' := by
  cases he with
  | bitTime => rw [bitTime_eq]; exact { h with }
  | header => exact { h with }
  | sensedBusy => exact { h with }
  | contestLost => exact BusReadOk.startWait (b := b.senseBusy) { h with } hu.busGap
  | contestWon => exact { h with ownership := hu.burstLimit }
  | collided => exact { h with gap := hu.busGap, ownership := rfl }
  | packetSent =>
    refine { h with holdTimer := hu.holdLimit, ownership := ?_ }
    simpa [Option.all_map, Function.comp_def] using h.ownership
  | answered => exact BusReadOk.goOnOrRelease (b := b.endAnswer.removeHead) { h.endAnswer with } hu.busGap
  | deferred => exact h.endAnswer.enterDeferring hu.deferWait
  | holdExpired => exact h.enterDeferring hu.deferWait
  | deferExpired => exact { h with gap := hu.busGap, deferTimer := rfl }
  | released => exact { h with }

/-- R14: a running take timer was started with a TAKE_TIMEOUT of 1 to 60. -/
def TimerReadOk (p : Port) : Prop := p.takeTimer.all (within 1 60) = true

theorem TimerReadOk.of_stopped {p : Port} (h : p.takeTimer = none) : TimerReadOk p := by simp [TimerReadOk, h]

theorem timerReadOk_restartTimer {timeout : Nat} (h : within 0 60 timeout = true) (p : Port) :
    TimerReadOk (p.restartTimer timeout) := by
  rw [within_zero_iff] at h
  unfold TimerReadOk
  rw [restartTimer_eq]
  dsimp only
  split
  · next hrun => simp only [Option.all_some, within, Bool.and_eq_true, decide_eq_true_eq]; omega
  · rfl

theorem TimerReadOk.store {p : Port} (h : TimerReadOk p) (e : Entry) : TimerReadOk (p.store e) := by
  unfold Port.store
  split
  · split
    · exact .of_stopped rfl
    · exact h
  · exact h

theorem TimerReadOk.refilled {p : Port} (h : TimerReadOk p) : TimerReadOk (refilled p) := by
  cases hl : p.loss with
  | none => rw [refilled_of_no_loss hl]; exact h
  | some l =>
    rw [refilled_of_loss hl]
    exact TimerReadOk.store (p := { p with queue := p.queue.tail, loss := none }) h _

theorem TimerReadOk.removeHead {p : Port} (h : TimerReadOk p) {timeout : Nat} (ht : within 0 60 timeout = true) :
    TimerReadOk (p.removeHead timeout) := by
  rw [removeHead_eq]
  split
  · unfold Port.lowerHold
    split
    · exact timerReadOk_restartTimer ht _
    · exact h.refilled
  · exact h.refilled

theorem TimerReadOk.event {timeout : Nat} (ht : within 0 60 timeout = true) {p q : Port} (h : TimerReadOk p)
    (he : PortEvent timeout p q) : TimerReadOk q := by
  have restarted (q : Port) : TimerReadOk (q.restartTimer timeout) := timerReadOk_restartTimer ht q
  cases he with
  | kept => exact h
  | takeStartHere priority => exact restarted _
  | takeStartElsewhere =>
    unfold Port.takeStartElsewhere
    split
    · exact restarted _
    · exact h
  | endTake =>
    unfold Port.endTake
    split
    · exact restarted _
    · exact h
    · exact h
  | plainByte b =>
    unfold Port.plainByte
    split
    · exact restarted _
    · exact h
    · exact h
  | othersRise => exact .of_stopped rfl
  | othersLower =>
    unfold Port.othersLower
    split
    · exact h
    · exact restarted _
  | stall => exact .of_stopped rfl
  | removeHead => exact h.removeHead ht

/-! ### Every event keeps the parameters and the values read from them -/

/-- The format invariant in its parts. -/
structure FormatHolds (s : State) : Prop where
  format : FormatOk s.format
  bus : BusReadOk s.bus
  timer : TimerReadOk s.port

theorem formatInv_iff (s : State) : FormatInv s ↔ FormatHolds s := by
  constructor
  · rintro ⟨hline, hpending, hburst, hgap, hhold, hdefer, htimeout, hbusGap, hholdTimer, hdeferTimer, htimer, hownership⟩
    exact ⟨⟨(copyInRange_iff _).1 hline, (pendingInRange_iff _).1 hpending,
      ⟨hburst, hgap, hhold, hdefer, within_zero_iff.2 htimeout⟩⟩, ⟨hbusGap, hholdTimer, hdeferTimer, hownership⟩, htimer⟩
  · rintro ⟨⟨hline, hpending, ⟨hburst, hgap, hhold, hdefer, htimeout⟩⟩, ⟨hbusGap, hholdTimer, hdeferTimer, hownership⟩,
      htimer⟩
    exact ⟨(copyInRange_iff _).2 hline, (pendingInRange_iff _).2 hpending, hburst, hgap, hhold, hdefer,
      within_zero_iff.1 htimeout, hbusGap, hholdTimer, hdeferTimer, htimer, hownership⟩

theorem FormatHolds.joinPacket {s : State} (h : FormatHolds s) (p : PacketBody) : FormatHolds (joinPacket p s) :=
  ⟨h.format.applyPending, h.bus.join h.format.unit.busGap p, h.timer⟩

theorem FormatHolds.countIf {s : State} (h : FormatHolds s) (b : Bool) (name : CounterName) :
    FormatHolds (countIf b name s) := by
  cases b <;> exact { h with }

theorem FormatHolds.makeLineEnd {s : State} (h : FormatHolds s) (plan : EndPlan) : FormatHolds (makeLineEnd plan s) :=
  { ((h.countIf _ _).countIf _ _).countIf _ _ with }

theorem formatHolds_jobKeeps : JobKeeps FormatHolds where
  setLine _ hs := { hs with }
  paraDue hs := { hs with }
  count _ _ hs := { hs with }
  exchange hs := { hs with }
  joins _ plan hs := (hs.makeLineEnd plan).joinPacket _
  waits plan _ hs := { hs.makeLineEnd plan with }

theorem formatHolds_workKeeps : WorkKeeps FormatHolds FormatHolds where
  done hs := hs
  report _ hs := { hs with }
  setDecoder _ hs := { hs with }
  setTables _ hs := { hs with }
  setLine _ hs := { hs with }
  count _ _ hs := { hs with }
  raise _ _ hs := { hs with }
  fileLine hw hs := { hs with format := hs.format.fileLine hw _ }
  writeUnit hw hs := { hs with format := { hs.format with unit := hs.format.unit.write hw } }
  reset hs := { hs with format := formatOk_default }
  offer q hs := by unfold offerReply; split <;> exact { hs with }
  job j hs := formatHolds_jobKeeps.doJob j hs

theorem FormatHolds.retestReply {s : State} (hs : FormatHolds s) : FormatHolds (retestReply s) := by
  rw [retestReply_eq]
  split
  · split <;> exact { hs with }
  · exact hs

theorem FormatHolds.noted {s t : State} (hs : FormatHolds s) (h : Noted s t) : FormatHolds t := by
  cases h <;> exact { hs with }

theorem event_keeps_formatHolds {s t : State} (h : Event s t) (hs : FormatHolds s) : FormatHolds t := by
  have timeout := hs.format.unit.takeTimeout
  cases h with
  | kept => exact hs
  | powerOn strap acceptAll => exact ⟨formatOk_default, busReadOk_powerOn s.bus, .of_stopped rfl⟩
  | port hport => exact { hs with timer := hs.timer.event timeout hport }
  | decoder _ hwork =>
    exact formatHolds_workKeeps.event hwork fun _ => { hs with timer := hs.timer.removeHead timeout }
  | packetJoin _ _ =>
    have released (x : Shaper) : FormatHolds (s.setShaper x) := { hs with }
    exact formatHolds_jobKeeps.runJob _ _ ((released _).joinPacket _)
  | @bus b _ hbus hnoted =>
    exact FormatHolds.noted (s := s.setBus b) { hs with bus := hs.bus.event hs.format.unit hbus } hnoted
  | replyJoin _ _ => exact { hs with }
  | departure _ _ _ =>
    have left (r : ReplyUnit) : FormatHolds (s.setReply r) := { hs with }
    exact (left _).retestReply
  | sent => exact { hs with }
  | lineHeld begun => exact { hs with }
  | lineReleased => exact { hs with }

/-! ### Pending writes and waits (R18 to R20, R45, R46) -/

/-- R45: a pending entry stands beside cells, or beside those of a line end that waits. -/
def PendingPlaced (s : State) : Prop :=
  s.format.pending ≠ PendingSet.empty → s.shaper.line.cells ≠ [] ∨ s.shaper.waiting.isSome = true

/-- The wait invariant in its parts. -/
structure WaitHolds (s : State) : Prop where
  placed : PendingPlaced s
  apart : s.shaper.waiting.isSome = true → s.reply.offered = none

/-- The shaper at work: no reply waits, so a packet may. -/
structure ShaperMayWait (s : State) : Prop where
  placed : PendingPlaced s
  noReply : s.reply.offered = none

/-- The decoder at work: neither a packet nor a reply waits. -/
structure NoneWaits (s : State) : Prop where
  placed : s.format.pending ≠ PendingSet.empty → s.shaper.line.cells ≠ []
  noPacket : s.shaper.waiting = none
  noReply : s.reply.offered = none

theorem ShaperMayWait.waitHolds {s : State} (h : ShaperMayWait s) : WaitHolds s := ⟨h.placed, fun _ => h.noReply⟩

theorem NoneWaits.shaperMayWait {s : State} (h : NoneWaits s) : ShaperMayWait s :=
  ⟨fun hp => .inl (h.placed hp), h.noReply⟩

theorem decoderWaiting_eq_false_iff (s : State) :
    s.decoderWaiting = false ↔ s.shaper.waiting = none ∧ s.reply.offered = none := by
  simp [State.decoderWaiting, State.waitingAtLineEnd, State.waitingAtQuery]

theorem WaitHolds.noneWaits {s : State} (h : WaitHolds s) (hw : s.decoderWaiting = false) : NoneWaits s := by
  obtain ⟨noPacket, noReply⟩ := (decoderWaiting_eq_false_iff s).1 hw
  exact ⟨fun hp => by simpa [noPacket] using h.placed hp, noPacket, noReply⟩

theorem makeLineEnd_offered (plan : EndPlan) (s : State) : (makeLineEnd plan s).reply.offered = s.reply.offered :=
  (keeps_makeLineEnd plan s).offered

/-- R46: a packet that joins leaves no entry pending. -/
theorem pendingPlaced_joinPacket (p : PacketBody) (s : State) : PendingPlaced (joinPacket p s) := fun hp => absurd rfl hp

theorem shaperMayWait_jobKeeps : JobKeeps ShaperMayWait where
  setLine holds hs := ⟨fun hp => (hs.placed hp).imp_left holds, hs.noReply⟩
  paraDue hs := { hs with }
  count _ _ hs := { hs with }
  exchange hs := { hs with }
  joins _ plan hs := ⟨pendingPlaced_joinPacket _ _, (makeLineEnd_offered plan _).trans hs.noReply⟩
  waits plan _ hs := ⟨fun _ => .inr rfl, (makeLineEnd_offered plan _).trans hs.noReply⟩

theorem NoneWaits.fileLineWrite {s : State} (h : NoneWaits s) (w : LineWrite) : NoneWaits (fileLineWrite w s) := by
  refine ⟨fun hp => ?_, h.noPacket, h.noReply⟩
  show s.shaper.line.cells ≠ []
  intro hnil
  apply h.placed _ hnil
  simpa [Machine.fileLineWrite, FormatSet.fileLine, hnil] using hp

theorem noneWaits_workKeeps : WorkKeeps NoneWaits WaitHolds where
  done hs := hs.shaperMayWait.waitHolds
  report _ hs := { hs with }
  setDecoder _ hs := { hs with }
  setTables _ hs := { hs with }
  setLine holds hs := { hs with placed := fun hp => holds (hs.placed hp) }
  count _ _ hs := { hs with }
  raise _ _ hs := { hs with }
  fileLine _ hs := hs.fileLineWrite _
  writeUnit _ hs := { hs with }
  reset hs := ⟨fun hp => absurd rfl hp, rfl, hs.noReply⟩
  offer q hs := by
    unfold offerReply
    split <;> exact ⟨fun hp => .inl (hs.placed hp), fun hw => absurd (hs.noPacket ▸ hw) nofun⟩
  job j hs := (shaperMayWait_jobKeeps.doJob j hs.shaperMayWait).waitHolds

theorem WaitHolds.retestReply {s : State} (h : WaitHolds s) : WaitHolds (retestReply s) := by
  rw [retestReply_eq]
  split
  · split
    · exact ⟨h.placed, fun _ => rfl⟩
    · exact h
  · exact h

theorem WaitHolds.noted {s t : State} (hs : WaitHolds s) (h : Noted s t) : WaitHolds t := by
  cases h <;> exact { hs with }

theorem event_keeps_waitHolds {s t : State} (h : Event s t) (hs : WaitHolds s) : WaitHolds t := by
  have replied (r : ReplyUnit) (hr : r.offered = s.reply.offered) : WaitHolds (s.setReply r) :=
    ⟨hs.placed, fun hw => hr.trans (hs.apart hw)⟩
  cases h with
  | kept => exact hs
  | powerOn strap acceptAll => exact ⟨fun hp => absurd rfl hp, nofun⟩
  | port _ => exact { hs with }
  | decoder hready hwork => exact noneWaits_workKeeps.event hwork fun _ => { hs.noneWaits hready.2 with }
  | @packetJoin w _ hw _ =>
    have joined : ShaperMayWait (joinPacket w.packet (s.setShaper { s.shaper with waiting := none })) :=
      ⟨pendingPlaced_joinPacket _ _, hs.apart (by simp [hw])⟩
    exact (shaperMayWait_jobKeeps.runJob _ _ joined).waitHolds
  | @bus b _ _ hnoted => exact WaitHolds.noted (s := s.setBus b) { hs with } hnoted
  | replyJoin _ _ => exact ⟨hs.placed, fun _ => rfl⟩
  | departure _ _ _ => exact WaitHolds.retestReply (s := s.setReply _) (replied _ rfl)
  | sent => exact replied _ rfl
  | lineHeld begun => exact replied _ rfl
  | lineReleased => exact replied _ rfl

/-- Settles O53: the parameters and the values read from them, and by itself the waits. -/
theorem stepKeepsFormatAndWaitInv : Obligations.StepKeepsFormatAndWaitInv := by
  intro s t h
  refine ⟨fun hs => ?_, fun ⟨placed, apart⟩ => ?_⟩
  · rw [formatInv_iff] at hs ⊢
    exact step_keeps (P := FormatHolds) (fun _ _ hs => { hs with }) (fun _ _ => event_keeps_formatHolds) hs h
  · obtain ⟨placed', apart'⟩ := step_keeps (P := WaitHolds) (fun _ _ hs => { hs with })
      (fun _ _ => event_keeps_waitHolds) ⟨placed, apart⟩ h
    exact ⟨placed', apart'⟩

end Sys2Proof.Proofs
end

section
/-! SUPPORT. Loads stay inside their tables (O55). -/

namespace Sys2Proof.Proofs

open Sys2Proof.Machine Sys2Proof.Safety

/-! ### Stored bytes at indexes in range (R69, R73, R74) -/

theorem itemSize_pos (k : TableKind) : 0 < k.itemSize := by cases k <;> decide

/-- A write keeps what every listed byte satisfies, where the new byte does. -/
theorem memWrite_all {p : Host.Cell → Bool} {m : Memory} (h : m.all p = true) {a : Nat} {v : Byte} (hp : p (a, v) = true) :
    (memWrite m a v).all p = true := by
  induction m with
  | nil => unfold memWrite; split <;> simp [hp]
  | cons c rest ih =>
    obtain ⟨k, w⟩ := c
    rw [List.all_cons, Bool.and_eq_true] at h
    unfold memWrite
    split
    · split <;> simp [hp, h.1, h.2]
    · split
      · split <;> simp [hp, h.2]
      · rw [List.all_cons, h.1, ih h.2]
        rfl

/-- Bytes written inside an item of the table's range, from a place in the item on. -/
theorem tableInRange_memWriteBytes {k : TableKind} {m : Memory} (h : tableInRange k m = true) {i : Nat}
    (hi : k.inRange i = true) {place : Nat} {bytes : List Byte} (hlen : place + bytes.length ≤ k.itemSize) :
    tableInRange k (memWriteBytes m (i * k.itemSize + place) bytes) = true := by
  induction bytes generalizing m place with
  | nil => exact h
  | cons v rest ih =>
    rw [List.length_cons] at hlen
    have index : (i * k.itemSize + place) / k.itemSize = i := by
      rw [Nat.mul_comm, Nat.mul_add_div (itemSize_pos k), Nat.div_eq_of_lt (by omega), Nat.add_zero]
    refine ih (m := memWrite m (i * k.itemSize + place) v) (place := place + 1) ?_ (by omega)
    exact memWrite_all h (by simpa only [index] using hi)

theorem bankInRange_iff (b : Bank) : bankInRange b = true ↔ ∀ k, tableInRange k (b.table k) = true := by
  simp only [bankInRange, Bool.and_eq_true]
  constructor
  · rintro ⟨⟨⟨hmap, hglyphs⟩, hligatures⟩, hheader⟩ k
    cases k
    · exact hmap
    · exact hglyphs
    · exact hligatures
    · exact hheader
  · exact fun h => ⟨⟨⟨h .codeMap, h .glyphs⟩, h .ligatures⟩, h .header⟩

/-- R74: an item written at an index in range. -/
theorem bankInRange_writeItem {b : Bank} (h : bankInRange b = true) {k : TableKind} {i : Nat} (hi : k.inRange i = true)
    {bytes : List Byte} (hlen : bytes.length = k.itemSize) : bankInRange (b.writeItem k i bytes) = true := by
  rw [bankInRange_iff] at h ⊢
  intro k'
  rw [writeItem_table]
  split
  · next hk =>
    subst hk
    simpa using tableInRange_memWriteBytes (h k') hi (place := 0) (by omega)
  · exact h k'

/-- Both banks hold bytes at indexes in range only. -/
structure BanksOk (t : TableBlock) : Prop where
  bankA : bankInRange t.bankA = true
  bankB : bankInRange t.bankB = true

theorem BanksOk.activeBank {t : TableBlock} (h : BanksOk t) : bankInRange t.activeBank = true := by
  unfold TableBlock.activeBank
  split
  · exact h.bankA
  · exact h.bankB

theorem BanksOk.standbyBank {t : TableBlock} (h : BanksOk t) : bankInRange t.standbyBank = true := by
  unfold TableBlock.standbyBank
  split
  · exact h.bankB
  · exact h.bankA

theorem BanksOk.setStandby {t : TableBlock} (h : BanksOk t) {k : Bank} (hk : bankInRange k = true) :
    BanksOk (t.setStandby k) := by
  unfold TableBlock.setStandby
  split
  · exact ⟨h.bankA, hk⟩
  · exact ⟨hk, h.bankB⟩

theorem setStandby_record (t : TableBlock) (k : Bank) : (t.setStandby k).record = t.record := by
  unfold TableBlock.setStandby
  split <;> rfl

/-! ### The load record and the load context (R35, R36, R73) -/

/-- The decoder reads a load: LOAD or SUM. -/
def readsLoad : DecoderState → Bool
  | .load _ => true
  | .sum _ => true
  | .idle => false
  | .text => false
  | .args _ _ => false
  | .skip => false

/-- Outside LOAD and SUM the record is closed. -/
theorem loadOpen_iff_none {d : DecoderState} (hd : readsLoad d = false) (r : Option LoadRecord) :
    loadOpen d r = true ↔ r = none := by
  cases d with
  | load ctx => cases hd
  | sum ctx => cases hd
  | idle => exact Option.isNone_iff_eq_none
  | text => exact Option.isNone_iff_eq_none
  | args code bytes => exact Option.isNone_iff_eq_none
  | skip => exact Option.isNone_iff_eq_none

/-- The record's agreement with the context, named. -/
structure Agrees (ctx : LoadContext) (r : LoadRecord) : Prop where
  kind : r.kind = ctx.kind
  accepted : r.accepted = rangeAccepted ctx.kind ctx.start ctx.count
  written : r.written = if r.accepted then ctx.taken else 0
  sum : r.sum < 65536
  start : ctx.start ≤ 65535
  count : ctx.count ≤ 65535

theorem loadAgrees_iff (ctx : LoadContext) (r : LoadRecord) : loadAgrees ctx r = true ↔ Agrees ctx r := by
  simp only [loadAgrees, Bool.and_eq_true, decide_eq_true_eq]
  constructor
  · rintro ⟨⟨⟨⟨⟨hkind, haccepted⟩, hwritten⟩, hsum⟩, hstart⟩, hcount⟩
    exact ⟨hkind, haccepted, hwritten, hsum, hstart, hcount⟩
  · rintro ⟨hkind, haccepted, hwritten, hsum, hstart, hcount⟩
    exact ⟨⟨⟨⟨⟨hkind, haccepted⟩, hwritten⟩, hsum⟩, hstart⟩, hcount⟩

theorem loadOpen_load_iff (ctx : LoadContext) (record : Option LoadRecord) :
    loadOpen (.load ctx) record = true ↔
      ∃ r, record = some r ∧ Agrees ctx r ∧ ctx.taken < ctx.count ∧ ctx.item.length < ctx.kind.itemSize ∧ ctx.sum = [] := by
  cases record with
  | none => simp [loadOpen]
  | some r => simp [loadOpen, loadAgrees_iff, and_assoc]

theorem loadOpen_sum_iff (ctx : LoadContext) (record : Option LoadRecord) :
    loadOpen (.sum ctx) record = true ↔
      ∃ r, record = some r ∧ Agrees ctx r ∧ ctx.taken = ctx.count ∧ ctx.item = [] ∧ ctx.sum.length ≤ 1 := by
  cases record with
  | none => simp [loadOpen]
  | some r => simp [loadOpen, loadAgrees_iff, and_assoc]

/-- R73: every index that an accepted load writes lies in its table's range. -/
theorem inRange_of_accepted {k : TableKind} {start count taken : Nat} (h : rangeAccepted k start count = true)
    (ht : taken < count) : k.inRange (start + taken) = true := by
  simp only [rangeAccepted, TableKind.inRange, Bool.and_eq_true, Bool.or_eq_true, decide_eq_true_eq] at h ⊢
  omega

/-! ### The invariant -/

/-- The load invariant in its parts. -/
structure LoadHolds (s : State) : Prop where
  record : loadOpen s.decoder.state s.tables.record = true
  banks : BanksOk s.tables

/-- No load is open. -/
structure NoLoad (s : State) : Prop where
  record : s.tables.record = none
  banks : BanksOk s.tables

theorem LoadHolds.noLoad {s : State} (h : LoadHolds s) (hd : readsLoad s.decoder.state = false) : NoLoad s :=
  ⟨(loadOpen_iff_none hd _).1 h.record, h.banks⟩

theorem NoLoad.loadHolds {s : State} (h : NoLoad s) (hd : readsLoad s.decoder.state = false) : LoadHolds s :=
  ⟨(loadOpen_iff_none hd _).2 h.record, h.banks⟩

theorem NoLoad.setDecoder {s : State} (h : NoLoad s) {d : Decoder} (hd : readsLoad d.state = false) :
    LoadHolds (s.setDecoder d) := NoLoad.loadHolds (s := s.setDecoder d) { h with } hd

/-- What touches no decoder state, no bank's bytes and no load record. -/
theorem LoadHolds.of_shaperKeeps {s t : State} (hs : LoadHolds s) (h : ShaperKeeps s t) : LoadHolds t :=
  ⟨by rw [h.decoder, h.record]; exact hs.record, ⟨h.bankA ▸ hs.banks.bankA, h.bankB ▸ hs.banks.bankB⟩⟩

/-- The standby bank made not valid keeps its bytes. -/
theorem BanksOk.spoil {t : TableBlock} (h : BanksOk t) : BanksOk (t.setStandby { t.standbyBank with valid := false }) :=
  h.setStandby h.standbyBank

/-! ### Aborts and boundaries (R22 to R24, R78) -/

theorem noLoad_abortLoad {s : State} (h : BanksOk s.tables) : NoLoad (abortLoad s) := by
  have cleared : BanksOk { s.tables with record := none } := { h with }
  unfold abortLoad
  split
  · next hr => exact ⟨hr, h⟩
  · dsimp only
    split
    · exact ⟨setStandby_record _ _, cleared.spoil⟩
    · exact ⟨rfl, cleared⟩

theorem noLoad_clearInHand {s : State} (h : LoadHolds s) : NoLoad (clearInHand s) := by
  unfold clearInHand
  cases hd : s.decoder.state with
  | args code bytes => exact { h.noLoad (by rw [hd]; rfl) with }
  | load ctx => exact noLoad_abortLoad h.banks
  | sum ctx => exact noLoad_abortLoad h.banks
  | idle => exact h.noLoad (by rw [hd]; rfl)
  | text => exact h.noLoad (by rw [hd]; rfl)
  | skip => exact h.noLoad (by rw [hd]; rfl)

theorem noLoad_closeTake (notice : Option NoticeKind) {s : State} (h : LoadHolds s) : NoLoad (closeTake notice s) := by
  have cleared := noLoad_clearInHand h
  cases notice <;> exact { cleared with }

theorem closeTake_state (notice : Option NoticeKind) (s : State) : (closeTake notice s).decoder.state = .idle := by
  cases notice <;> rfl

theorem NoLoad.openTake {s : State} (h : NoLoad s) (p : Priority) : LoadHolds (openTake p s) :=
  { h.setDecoder (d := ⟨.text, 0, p, 0⟩) rfl with }

theorem LoadHolds.closingBoundary {s : State} (h : LoadHolds s) (notice : Option NoticeKind) :
    LoadHolds (closingBoundary notice s) := by
  unfold Machine.closingBoundary
  split
  · exact h
  · have closed : LoadHolds (closeTake notice s) := (noLoad_closeTake notice h).loadHolds (by rw [closeTake_state]; rfl)
    exact closed.of_shaperKeeps (keeps_doJob _ _)

theorem LoadHolds.openingBoundary {s : State} (h : LoadHolds s) (p : Priority) : LoadHolds (openingBoundary p s) := by
  unfold Machine.openingBoundary
  split
  · next hidle => exact (h.noLoad (by rw [hidle]; rfl)).openTake p
  · exact ((noLoad_closeTake _ h).openTake p).of_shaperKeeps (keeps_doJob _ _)

theorem LoadHolds.applyBoundary {s : State} (h : LoadHolds s) (lost : Option Boundary) :
    LoadHolds (applyBoundary lost s) := by
  unfold Machine.applyBoundary
  split
  · exact h
  · exact h.openingBoundary _
  · exact h.closingBoundary _
  · exact h.closingBoundary _

theorem LoadHolds.actOnLoss {s : State} (h : LoadHolds s) : LoadHolds (actOnLoss s) := by
  have cleared (d : DecoderState) (hd : readsLoad d = false) : LoadHolds (flagGap (setDecoderState d (clearInHand s))) :=
    { (noLoad_clearInHand h).setDecoder hd with }
  unfold Machine.actOnLoss
  split
  · exact h
  · exact { h with }
  · exact cleared .text rfl
  · exact cleared .skip rfl
  · exact cleared .skip rfl
  · exact h

/-! ### Copy and controls (R25 to R39) -/

theorem keeps_takeText (c : Byte) (s : State) : ShaperKeeps s (takeText c s) := by
  have flagged : ShaperKeeps s (count .unmapped (s.setLine s.shaper.line.flagUnmapped)) :=
    (keeps_setLine s _).trans (keeps_count _ _)
  unfold takeText
  split
  · exact keeps_handArrival _ s
  · exact keeps_handMark _ s
  · exact keeps_handArrival _ s
  · unfold handUnmapped
    dsimp only
    split
    · exact flagged.trans (keeps_handArrival _ _)
    · exact flagged

theorem NoLoad.openLoad {s : State} (h : NoLoad s) (bytes : List Byte) : LoadHolds (openLoad bytes s) := by
  unfold Machine.openLoad
  split
  · exact { h.setDecoder (d := { s.decoder with state := .skip }) rfl with }
  · next k _ =>
    dsimp only
    refine ⟨?_, { h.banks with }⟩
    have agrees : Agrees ⟨k, fieldAt bytes 1, fieldAt bytes 3, 0, [], []⟩
        ⟨k, rangeAccepted k (fieldAt bytes 1) (fieldAt bytes 3), 0, 0⟩ :=
      ⟨rfl, rfl, (ite_self 0).symm, Nat.zero_lt_succ _, pairValue_le _ _, pairValue_le _ _⟩
    show loadOpen (if fieldAt bytes 3 = 0 then _ else _) (some _) = true
    split
    · next hcount => exact (loadOpen_sum_iff _ _).2 ⟨_, rfl, agrees, hcount.symm, rfl, Nat.zero_le 1⟩
    · next hcount =>
      exact (loadOpen_load_iff _ _).2 ⟨_, rfl, agrees, Nat.pos_of_ne_zero hcount, itemSize_pos k, rfl⟩

theorem LoadHolds.swapBanks {s : State} (h : LoadHolds s) : LoadHolds (swapBanks s) := by
  unfold Machine.swapBanks
  split
  · exact h.of_shaperKeeps (keeps_doJob _ _)
  · exact { h with }

theorem LoadHolds.offerReply {s : State} (h : LoadHolds s) (q : Query) : LoadHolds (offerReply q s) := by
  unfold Machine.offerReply
  split <;> exact { h with }

/-- A control carried out in TEXT, with no load open before it. -/
theorem loadHolds_controlWork {work : List Byte → State → State} (hwork : ControlWork work) (bytes : List Byte) {s : State}
    (h : NoLoad s) (hd : readsLoad s.decoder.state = false) : LoadHolds (work bytes s) := by
  have hs := h.loadHolds hd
  cases hwork with
  | plane => unfold setPlane; split <;> exact { hs with }
  | format => unfold writeFormat; split <;> exact { hs with }
  | leader => exact { hs with }
  | load => exact h.openLoad bytes
  | copy => exact NoLoad.loadHolds ⟨(setStandby_record _ _).trans h.record, h.banks.setStandby h.banks.activeBank⟩ hd
  | clear => exact NoLoad.loadHolds ⟨(setStandby_record _ _).trans h.record, h.banks.setStandby rfl⟩ hd
  | swap => exact hs.swapBanks
  | query asked => exact hs.offerReply _
  | stray => exact { hs with }

/-! ### The bytes of a load (R36, R74, R76, R77) -/

/-- R36: a byte that does not fill the item joins it. -/
theorem takeLoadByte_of_room {s : State} {ctx : LoadContext} (hd : s.decoder.state = .load ctx) {e : Entry}
    (h : ctx.item.length + 1 < ctx.kind.itemSize) :
    takeLoadByte e s = setDecoderState (.load { ctx with item := ctx.item ++ [e.byte] }) s := by
  have taken : ctx.takeByte e.byte = ({ ctx with item := ctx.item ++ [e.byte] }, none) := by simp [LoadContext.takeByte, h]
  simp only [takeLoadByte, hd, taken]

/-- The context after an item is full. -/
def LoadContext.afterItem (ctx : LoadContext) : LoadContext := { ctx with item := [], taken := ctx.taken + 1 }

/-- R36: the byte that fills the item hands it to the table block; the decoder goes on to the next item or to SUM. -/
theorem takeLoadByte_of_full {s : State} {ctx : LoadContext} (hd : s.decoder.state = .load ctx) {e : Entry}
    (h : ctx.kind.itemSize ≤ ctx.item.length + 1) :
    takeLoadByte e s =
      takeItem ctx.kind (ctx.start + ctx.taken) (ctx.item ++ [e.byte])
        (setDecoderState
          (if ctx.taken + 1 < ctx.count then .load (LoadContext.afterItem ctx) else .sum (LoadContext.afterItem ctx)) s) := by
  have taken : ctx.takeByte e.byte = (LoadContext.afterItem ctx, some (ctx.item ++ [e.byte])) := by
    simp [LoadContext.takeByte, Nat.not_lt.2 h, LoadContext.afterItem]
  simp only [takeLoadByte, hd, taken, LoadContext.afterItem]

/-- R74: an item handed to the table block with the record open for it, the decoder going on to the next item or to SUM. -/
theorem loadHolds_takeItem {s : State} {ctx : LoadContext} {r : LoadRecord} (hbanks : BanksOk s.tables)
    (hrecord : s.tables.record = some r) (agrees : Agrees ctx r) (ht : ctx.taken < ctx.count) (hsum : ctx.sum = [])
    {item : List Byte} (hitem : item.length = ctx.kind.itemSize)
    (hd : s.decoder.state =
      if ctx.taken + 1 < ctx.count then .load (LoadContext.afterItem ctx) else .sum (LoadContext.afterItem ctx)) :
    LoadHolds (takeItem ctx.kind (ctx.start + ctx.taken) item s) := by
  obtain ⟨hkind, haccepted, hwritten, -, hstart, hcount⟩ := agrees
  have opened (r' : LoadRecord) (h : Agrees (LoadContext.afterItem ctx) r') :
      loadOpen s.decoder.state (some r') = true := by
    rw [hd]
    split
    · next hlt => exact (loadOpen_load_iff _ _).2 ⟨r', rfl, h, hlt, itemSize_pos _, hsum⟩
    · next hge =>
      exact (loadOpen_sum_iff _ _).2 ⟨r', rfl, h, Nat.le_antisymm ht (Nat.not_lt.1 hge), rfl, by simp [LoadContext.afterItem, hsum]⟩
  have sumOk : (r.sum + byteSum item) % 65536 < 65536 := Nat.mod_lt _ (by decide)
  unfold takeItem
  rw [hrecord]
  dsimp only
  split
  · next hacc =>
    have hi := inRange_of_accepted (haccepted ▸ hacc) ht
    refine ⟨opened _ ?_, { hbanks.setStandby (bankInRange_writeItem hbanks.standbyBank hi hitem) with }⟩
    exact ⟨hkind, haccepted, by simpa [hacc, LoadContext.afterItem] using hwritten, sumOk, hstart, hcount⟩
  · next hacc =>
    refine ⟨opened _ ?_, { hbanks with }⟩
    exact ⟨hkind, haccepted, by simpa [hacc, LoadContext.afterItem] using hwritten, sumOk, hstart, hcount⟩

theorem LoadHolds.takeLoadByte {s : State} (h : LoadHolds s) {ctx : LoadContext} (hd : s.decoder.state = .load ctx)
    (e : Entry) : LoadHolds (takeLoadByte e s) := by
  have hopen := h.record
  rw [hd, loadOpen_load_iff] at hopen
  obtain ⟨r, hrecord, agrees, ht, hlen, hsum⟩ := hopen
  by_cases hroom : ctx.item.length + 1 < ctx.kind.itemSize
  · rw [takeLoadByte_of_room hd hroom]
    exact ⟨(loadOpen_load_iff _ _).2 ⟨r, hrecord, { agrees with }, ht, by simpa using hroom, hsum⟩, h.banks⟩
  · rw [takeLoadByte_of_full hd (Nat.not_lt.1 hroom)]
    have hitem : (ctx.item ++ [e.byte]).length = ctx.kind.itemSize := by
      rw [List.length_append, List.length_singleton]
      omega
    refine loadHolds_takeItem ?_ ?_ agrees ht hsum hitem ?_
    · exact h.banks
    · exact hrecord
    · rfl

theorem NoLoad.of_takeSum {s : State} (h : BanksOk s.tables) (sent : Nat) : NoLoad (takeSum sent s) := by
  have cleared : BanksOk { s.tables with record := none } := { h with }
  unfold takeSum
  split
  · next hr => exact ⟨hr, h⟩
  · dsimp only
    split
    · split
      · exact ⟨rfl, cleared⟩
      · exact ⟨setStandby_record _ _, cleared.spoil⟩
    · exact ⟨rfl, cleared⟩

theorem takeSum_decoder (sent : Nat) (s : State) : (takeSum sent s).decoder = s.decoder := by
  unfold takeSum
  split
  · rfl
  · dsimp only
    split
    · split <;> rfl
    · rfl

theorem LoadHolds.takeSumByte {s : State} (h : LoadHolds s) {ctx : LoadContext} (hd : s.decoder.state = .sum ctx)
    (e : Entry) : LoadHolds (takeSumByte e s) := by
  have hopen := h.record
  rw [hd, loadOpen_sum_iff] at hopen
  obtain ⟨r, hrecord, agrees, ht, hitem, -⟩ := hopen
  simp only [Machine.takeSumByte, hd]
  split
  · exact ⟨(loadOpen_sum_iff _ _).2 ⟨r, hrecord, { agrees with }, ht, hitem, Nat.le_refl 1⟩, h.banks⟩
  · exact (NoLoad.of_takeSum (s := setDecoderState .text s) h.banks _).loadHolds (by rw [takeSum_decoder]; rfl)

/-! ### Every event -/

theorem loadHolds_work {d : DecoderState} {e : Entry} {work : State → State} (hwork : DecoderEvent d e work) {s : State}
    (hd : s.decoder.state = d) (hs : LoadHolds s) : LoadHolds (work s) := by
  cases hwork with
  | takeStart _ p => exact hs.openingBoundary p
  | takeEnd => exact hs.closingBoundary none
  | cut => exact hs.closingBoundary _
  | stalled => exact hs.closingBoundary _
  | gap _ n lost => exact hs.actOnLoss.applyBoundary lost
  | idle b => exact hs
  | skip b => exact hs
  | text b => exact hs.of_shaperKeeps (keeps_takeText b s)
  | stray b => exact { hs with }
  | opened b =>
    unfold openControl
    split
    · exact (hs.noLoad (by rw [hd]; rfl)).setDecoder rfl
    · exact hs
  | arrival b a => exact hs.of_shaperKeeps (keeps_doJob _ s)
  | lineEnd b kind => exact hs.of_shaperKeeps (keeps_doJob _ s)
  | reset b => exact { hs with }
  | argument code bytes b =>
    simp only [addArgument, hd]
    exact (hs.noLoad (by rw [hd]; rfl)).setDecoder rfl
  | carriedOut code bytes b hcontrol =>
    exact loadHolds_controlWork hcontrol _ { hs.noLoad (by rw [hd]; rfl) with } rfl
  | loadByte ctx b => exact hs.takeLoadByte hd _
  | sumByte ctx b => exact hs.takeSumByte hd _

theorem LoadHolds.noted {s t : State} (hs : LoadHolds s) (h : Noted s t) : LoadHolds t := by
  cases h <;> exact { hs with }

theorem event_keeps_loadHolds {s t : State} (h : Event s t) (hs : LoadHolds s) : LoadHolds t := by
  cases h with
  | kept => exact hs
  | powerOn strap acceptAll => exact ⟨rfl, rfl, rfl⟩
  | port _ => exact { hs with }
  | @decoder e work _ hwork =>
    refine withRemoval_of (P₀ := fun u => u.decoder.state = s.decoder.state ∧ LoadHolds u) (P := LoadHolds) (fun n => ?_)
      (fun _ _ hu => ⟨hu.1, { hu.2 with }⟩) (fun _ hu => loadHolds_work hwork hu.1 hu.2) (fun _ _ hu => { hu with })
    have state : (s.decoder.countByte e).state = s.decoder.state := countByte_state e s.decoder
    exact ⟨state, ⟨state ▸ hs.record, hs.banks⟩⟩
  | packetJoin _ _ =>
    exact hs.of_shaperKeeps (((keeps_setShaper s _).trans (keeps_joinPacket _ _)).trans (keeps_runJob _ _ _))
  | @bus b _ _ hnoted => exact LoadHolds.noted (s := s.setBus b) { hs with } hnoted
  | replyJoin _ _ => exact { hs with }
  | departure _ _ _ =>
    have front := frontKept_retestReply_setReply s
    exact ⟨by rw [(front _).decoder, (front _).tables]; exact hs.record, by rw [(front _).tables]; exact hs.banks⟩
  | sent => exact { hs with }
  | lineHeld begun => exact { hs with }
  | lineReleased => exact { hs with }

/-- Settles O55: the load record follows the decoder, and its items are written inside their table. -/
theorem stepKeepsLoadInv : Obligations.StepKeepsLoadInv := by
  intro s t ⟨hrecord, hbankA, hbankB⟩ h
  obtain ⟨hrecord', hbankA', hbankB'⟩ := step_keeps (P := LoadHolds) (fun _ _ hs => { hs with })
    (fun _ _ => event_keeps_loadHolds) ⟨hrecord, hbankA, hbankB⟩ h
  exact ⟨hrecord', hbankA', hbankB'⟩

end Sys2Proof.Proofs
end

section
/-! SUPPORT. Entries taken one by one: boundaries and gaps (O11 to O14). -/

namespace Sys2Proof.Proofs

open Sys2Proof.Machine Sys2Proof.Safety

/-! ### The state in which an entry's work is done -/

/-- What the work of a taken entry finds: the decoder with the byte counted, the tables as they were. -/
structure AfterRemoval (e : Entry) (s u : State) : Prop where
  decoder : u.decoder = s.decoder.countByte e
  tables : u.tables = s.tables

theorem AfterRemoval.state {e : Entry} {s u : State} (h : AfterRemoval e s u) : u.decoder.state = s.decoder.state := by
  rw [h.decoder, countByte_state]

theorem AfterRemoval.priority {e : Entry} {s u : State} (h : AfterRemoval e s u) :
    u.decoder.priority = s.decoder.priority := by
  rw [h.decoder]
  unfold Decoder.countByte
  split
  · split <;> rfl
  all_goals rfl

/-- A decoder command takes the head entry that is its own, with its work. -/
theorem takes_of_work {c : Instr} {e : Entry} {s : State} {work : State → State} (hc : c ∈ decoderCommands)
    (hready : Ready e s) (hcommand : commandFor s.decoder e = c)
    (hwork : ∀ u, AfterRemoval e s u → decoderWork c e u = work u) : Takes c e work s :=
  takes_of_takeHead (work := decoderWork c) (exec_decoderCommand hc s) hready hcommand (fun _ => hwork _ ⟨rfl, rfl⟩)
    (fun _ _ => hwork _ ⟨rfl, rfl⟩)

/-! ### The take byte count (R18) -/

theorem countByte_of_plain {d : Decoder} (h : d.state ≠ .idle) (b : Byte) :
    d.countByte (.plain b) = { d with byteCount := min 65535 (d.byteCount + 1) } := by
  rw [Decoder.countByte, if_neg h]
  rfl

theorem countByte_of_idle {d : Decoder} (h : d.state = .idle) (e : Entry) : d.countByte e = d := by
  cases e with
  | plain b => rw [Decoder.countByte, if_pos h]
  | takeStart p => rfl
  | takeEnd => rfl
  | cut => rfl
  | stalled => rfl
  | gap n lost => rfl

theorem countByte_of_not_plain {e : Entry} (h : ∀ b, e ≠ .plain b) (d : Decoder) : d.countByte e = d := by
  cases e with
  | plain b => exact absurd rfl (h b)
  | takeStart p => rfl
  | takeEnd => rfl
  | cut => rfl
  | stalled => rfl
  | gap n lost => rfl

/-! ### Boundaries (R21 to R23) -/

theorem closingBoundary_of_idle {u : State} (h : u.decoder.state = .idle) (notice : Option NoticeKind) :
    closingBoundary notice u = u := if_pos h

theorem openingBoundary_of_idle {u : State} (h : u.decoder.state = .idle) (p : Priority) :
    openingBoundary p u = openTake p u := if_pos h

theorem closingBoundary_of_open {u : State} (h : u.decoder.state ≠ .idle) (notice : Option NoticeKind) :
    closingBoundary notice u = doJob (controlJob u.decoder.priority .take notice.isSome) (closeTake notice u) := if_neg h

theorem openingBoundary_of_open {u : State} (h : u.decoder.state ≠ .idle) (p : Priority) :
    openingBoundary p u =
      doJob (controlJob u.decoder.priority .take true) (openTake p (closeTake (some .takeCut) u)) := if_neg h

theorem actOnLoss_of_idle {u : State} (h : u.decoder.state = .idle) : actOnLoss u = u := by simp only [actOnLoss, h]

theorem commandFor_of_discarded {d : Decoder} (h : d.state = .idle ∨ d.state = .skip) (b : Byte) :
    commandFor d (.plain b) = .plainDiscarded := by
  rcases h with h | h <;> simp only [commandFor, h]

/-- Settles O11: the count at a removal, then each entry in IDLE, and a PLAIN in SKIP. -/
theorem entriesTakenInIdleOrSkip : Obligations.EntriesTakenInIdleOrSkip := by
  refine ⟨fun s e => ⟨?_, ?_⟩, fun s b p n => ⟨fun hidle => ?_, fun hskip hready => ⟨?_, ?_⟩⟩⟩
  · rintro b rfl hopen
    exact countByte_of_plain hopen b
  · rintro (hplain | hidle)
    · exact countByte_of_not_plain hplain s.decoder
    · exact countByte_of_idle hidle e
  · have idle {e : Entry} {u : State} (h : AfterRemoval e s u) : u.decoder.state = .idle := h.state.trans hidle
    have gap (lost : Option Boundary) {u : State} (h : AfterRemoval (.gap n lost) s u) :
        decoderWork .gapEntry (.gap n lost) u = applyBoundary lost u :=
      congrArg (applyBoundary lost) (actOnLoss_of_idle (idle h))
    refine ⟨fun hready => ?_, fun hready => ?_, fun lost hlost hready => ?_, fun hready => ?_, fun hready => ?_,
      fun hready => ?_, fun hready => ⟨countByte_of_idle hidle (.plain b), ?_⟩⟩
    · exact takes_of_work (by decide) hready rfl fun u hu => openingBoundary_of_idle (idle hu) p
    · exact takes_of_work (by decide) hready rfl fun u hu => (gap _ hu).trans (openingBoundary_of_idle (idle hu) p)
    · refine takes_of_work (by decide) hready rfl fun u hu => (gap lost hu).trans ?_
      simp only [List.mem_cons, List.not_mem_nil, or_false] at hlost
      rcases hlost with rfl | rfl | rfl
      · rfl
      · exact closingBoundary_of_idle (idle hu) none
      · exact closingBoundary_of_idle (idle hu) _
    · exact takes_of_work (by decide) hready rfl fun u hu => closingBoundary_of_idle (idle hu) none
    · exact takes_of_work (by decide) hready rfl fun u hu => closingBoundary_of_idle (idle hu) _
    · exact takes_of_work (by decide) hready rfl fun u hu => closingBoundary_of_idle (idle hu) _
    · exact takes_of_work (by decide) hready (commandFor_of_discarded (.inl hidle) b) fun _ _ => rfl
  · exact countByte_of_plain (by simp [hskip]) b
  · exact takes_of_work (by decide) hready (commandFor_of_discarded (.inr hskip) b) fun _ _ => rfl

/-- Settles O12: the operations, then the four boundary entries, none of which the decoder counts as a byte. -/
theorem boundariesCloseAnOpenTake : Obligations.BoundariesCloseAnOpenTake := by
  refine ⟨fun u p notice => ⟨rfl, fun hidle => ?_, fun hopen => ?_⟩, fun s p hopen => ?_⟩
  · exact ⟨closingBoundary_of_idle hidle notice, openingBoundary_of_idle hidle p⟩
  · exact ⟨closingBoundary_of_open hopen none, fun kind => closingBoundary_of_open hopen (some kind),
      openingBoundary_of_open hopen p⟩
  · have closing (e : Entry) (hplain : ∀ b, e ≠ .plain b) (notice : Option NoticeKind) {u : State}
        (hu : AfterRemoval e s u) : u.decoder = s.decoder ∧ closingBoundary notice u =
          doJob (controlJob u.decoder.priority .take notice.isSome) (closeTake notice u) :=
      ⟨hu.decoder.trans (countByte_of_not_plain hplain _), closingBoundary_of_open (hu.state ▸ hopen) notice⟩
    refine ⟨fun hready => ?_, fun hready => ?_, fun hready => ?_, fun hready => ?_⟩
    · refine takes_of_work (by decide) hready rfl fun u hu => ?_
      obtain ⟨hd, hclose⟩ := closing .takeEnd nofun none hu
      rw [← hd]
      exact hclose
    · refine takes_of_work (by decide) hready rfl fun u hu => ?_
      obtain ⟨hd, hclose⟩ := closing .cut nofun (some .takeCut) hu
      rw [← hd]
      exact hclose
    · refine takes_of_work (by decide) hready rfl fun u hu => ?_
      obtain ⟨hd, hclose⟩ := closing .stalled nofun (some .takeStalled) hu
      rw [← hd]
      exact hclose
    · refine takes_of_work (by decide) hready rfl fun u hu => ?_
      have hd : u.decoder = s.decoder := hu.decoder
      rw [← hd]
      exact openingBoundary_of_open (hu.state ▸ hopen) p

/-! ### What is in hand (R22, R24, R78) -/

theorem setStandby_of_a {t : TableBlock} (h : t.active = .a) (k : Bank) : t.setStandby k = { t with bankB := k } := by
  simp only [TableBlock.setStandby, h]

theorem setStandby_of_b {t : TableBlock} (h : t.active = .b) (k : Bank) : t.setStandby k = { t with bankA := k } := by
  simp only [TableBlock.setStandby, h]

theorem standbyBank_of_a {t : TableBlock} (h : t.active = .a) : t.standbyBank = t.bankB := by
  simp only [TableBlock.standbyBank, h]

theorem standbyBank_of_b {t : TableBlock} (h : t.active = .b) : t.standbyBank = t.bankA := by
  simp only [TableBlock.standbyBank, h]

/-- R78: an accepted load aborted. -/
theorem abortLoad_of_accepted {s : State} {r : LoadRecord} (hr : s.tables.record = some r) (h : r.accepted = true) :
    abortLoad s =
      raise .loadAborted r.written
        (s.setTables { s.tables.setStandby { s.tables.standbyBank with valid := false } with record := none }) := by
  have cleared (k : Bank) : ({ s.tables with record := none } : TableBlock).setStandby k =
      { s.tables.setStandby k with record := none } := by
    unfold TableBlock.setStandby
    dsimp only
    split <;> rfl
  simp only [abortLoad, hr, h, if_true, setTables_tables, cleared]
  rfl

/-- R78: a refused load aborted. -/
theorem abortLoad_of_refused {s : State} {r : LoadRecord} (hr : s.tables.record = some r) (h : r.accepted = false) :
    abortLoad s =
      raise .loadRefused (refusalDetail r.kind.number 2) (s.setTables { s.tables with record := none }) := by
  simp [abortLoad, hr, h]

/-- Settles O13: by the decoder state, and for a load by whether it is accepted. -/
theorem inHandIsCleared : Obligations.InHandIsCleared := by
  intro s
  refine ⟨fun hd => ?_, fun code bytes hd => ?_, fun ctx r hd hr => ?_⟩
  · rcases hd with hd | hd <;> simp only [clearInHand, hd]
  · simp only [clearInHand, hd]
    rfl
  · have aborted : clearInHand s = abortLoad s := by rcases hd with hd | hd <;> simp only [clearInHand, hd]
    rw [aborted]
    refine ⟨fun hacc ha => ?_, fun hacc hb => ?_, fun hrefused => ?_⟩
    · rw [abortLoad_of_accepted hr hacc, setStandby_of_a ha, standbyBank_of_a ha]
      rfl
    · rw [abortLoad_of_accepted hr hacc, setStandby_of_b hb, standbyBank_of_b hb]
      rfl
    · rw [abortLoad_of_refused hr hrefused]
      rfl

/-- Settles O14: the decoder's action by its state, and then the boundary by its kind. -/
theorem gapActsByState : Obligations.GapActsByState := by
  intro s n lost hready
  refine takes_of_work (by decide) hready rfl fun u _ => ?_
  show applyBoundary lost (actOnLoss u) = _
  unfold actOnLoss
  cases u.decoder.state <;> rcases lost with _ | _ | _ | _ <;> rfl

end Sys2Proof.Proofs
end

section
/-! SUPPORT. Bytes taken in TEXT and the controls that hand on copy (O15 to O17). -/

namespace Sys2Proof.Proofs

open Sys2Proof.Machine Sys2Proof.Safety

/-! ### Stored bytes (R60, R68, R188) -/

/-- A stored item's bytes are the table's bytes from the item's address on. -/
theorem memRead_of_item {b : Bank} {k : TableKind} {i : Nat} {bytes : List Byte} (h : b.item k i = bytes) {j : Nat}
    (hj : j < k.itemSize) : memRead (b.table k) (i * k.itemSize + j) = bytes.getD j 0 := by
  subst h
  rw [Bank.item, memReadBytes_eq_map]
  simp [hj]

/-- R59: a code map item by the top two bits of its first byte. -/
theorem codeItemAt_of_item {b : Bank} {i : Nat} {hi lo : Byte} (h : b.item .codeMap i = [hi, lo]) :
    codeItemAt b i =
      if hi.toNat / 64 = 1 then .glyph ((hi.toNat * 256 + lo.toNat) % 1024)
      else if hi.toNat / 64 = 2 then .space else .none := by
  have high : memRead b.codeMap (i * 2) = hi := memRead_of_item h (j := 0) (by decide)
  have low : memRead b.codeMap (i * 2 + 1) = lo := memRead_of_item h (j := 1) (by decide)
  have type : (hi.toNat * 256 + lo.toNat) / 16384 = hi.toNat / 64 := by have := lo.isLt; omega
  simp only [codeItemAt, high, low, pairValue, type]
  split
  · next h1 => rw [h1]; rfl
  · next h2 => rw [h2]; rfl
  · next h1 h2 => rw [if_neg h1, if_neg h2]

theorem glyphByte_of_item {b : Bank} {g : Nat} {bytes : List Byte} (h : b.item .glyphs g = bytes) {j : Nat} (hj : j < 10) :
    glyphByte b g j = bytes.getD j 0 := memRead_of_item h hj

/-- Bit 7 of a byte is its value's half. -/
theorem getLsbD_seven (b : Byte) : b.getLsbD 7 = decide (128 ≤ b.toNat) := BitVec.msb_eq_decide b

/-- R60: a glyph number is usable by its range and bit 7 of its entry's first byte. -/
theorem usable_iff_of_item {b : Bank} {g : Nat} {b0 : Byte} {others : List Byte} (h : b.item .glyphs g = b0 :: others) :
    usable b g = true ↔ 1 ≤ g ∧ g ≤ 1023 ∧ 128 ≤ b0.toNat := by
  have first : glyphByte b g 0 = b0 := glyphByte_of_item h (by decide)
  simp only [usable, holding, first, getLsbD_seven, Bool.and_eq_true, decide_eq_true_eq, and_assoc]

/-- R68: a header field by its two bytes in the stored item. -/
theorem headerGlyph_of_item {b : Bank} {bytes : List Byte} (h : b.item .header 0 = bytes) (f : HeaderField) :
    headerGlyph b f =
      if usable b ((bytes.getD f.offset 0).toNat * 256 + (bytes.getD (f.offset + 1) 0).toNat) = true then
        some ((bytes.getD f.offset 0).toNat * 256 + (bytes.getD (f.offset + 1) 0).toNat)
      else none := by
  have stored {j : Nat} (hj : j < 8) : memRead b.header j = bytes.getD j 0 := by
    have at_zero := memRead_of_item h (j := j) hj
    rwa [Nat.zero_mul, Nat.zero_add] at at_zero
  have high : f.offset < 8 := by cases f <;> decide
  have low : f.offset + 1 < 8 := by cases f <;> decide
  simp only [headerGlyph, stored high, stored low, pairValue]

/-! ### A text byte (R25, R26) -/

theorem textCommand_of_text {b : Byte} (h : 0x20 ≤ b.toNat) : textCommand b = .textByte := if_pos h

theorem commandFor_of_text {d : Decoder} (h : d.state = .text) (b : Byte) : commandFor d (.plain b) = textCommand b := by
  simp only [commandFor, h]

/-- R25, R26: the work of a text byte whose code item is no usable glyph and no SPACE. -/
theorem takeText_of_unmapped {c : Byte} {u : State} (h : textWork u.bank u.decoder.plane c = .unmapped) :
    takeText c u = handUnmapped u := by
  simp only [takeText, h]

theorem takeText_of_space {c : Byte} {u : State} (h : codeItemAt u.bank (codeIndex u.decoder.plane c) = .space) :
    takeText c u = handArrival .space u := by
  simp only [takeText, textWork, h]

/-- R25: the work of a text byte whose code item is a glyph. -/
theorem takeText_of_glyph {c : Byte} {u : State} {g : Nat}
    (h : codeItemAt u.bank (codeIndex u.decoder.plane c) = .glyph g) :
    takeText c u =
      if usable u.bank g = true then (if classOf u.bank g = .m then handMark g u else handArrival (.letter g) u)
      else handUnmapped u := by
  by_cases husable : usable u.bank g = true
  · rw [if_pos husable]
    by_cases hclass : classOf u.bank g = .m
    · simp only [takeText, textWork, h, if_pos husable, if_pos hclass]
    · simp only [takeText, textWork, h, if_pos husable, if_neg hclass]
  · rw [if_neg husable]
    exact takeText_of_unmapped (by simp only [textWork, h, if_neg husable])

/-- Settles O15: the stored bytes' readings, then the byte's work by its code item. -/
theorem textByteHandsOnItsItem : Obligations.TextByteHandsOnItsItem := by
  refine ⟨fun b i g => ⟨fun hi lo h => codeItemAt_of_item h, fun b0 b1 b2 b3 others h => ⟨usable_iff_of_item h, ?_⟩,
    fun k1 k0 s1 s0 g1 g0 e1 e0 h => ?_⟩, fun s c hready hstate hc => ?_⟩
  · have third : glyphByte b g 3 = b3 := glyphByte_of_item h (by decide)
    subst third
    rfl
  · exact ⟨headerGlyph_of_item h .carrier, headerGlyph_of_item h .substitute, headerGlyph_of_item h .breakGlyph,
      headerGlyph_of_item h .extension⟩
  · refine takes_of_work (by decide) hready ((commandFor_of_text hstate c).trans (textCommand_of_text hc)) fun u _ => ?_
    show takeText c u = _
    have item : codeItemAt u.bank (codeIndex u.decoder.plane c) =
        codeItemAt u.tables.activeBank (u.decoder.plane.toNat * 224 + (c.toNat - 0x20)) := rfl
    cases h : codeItemAt u.bank (codeIndex u.decoder.plane c) with
    | space => simp only [takeText_of_space h, ← item, h]
    | none =>
      rw [takeText_of_unmapped (by simp only [textWork, h])]
      simp only [← item, h]
      rfl
    | glyph g =>
      rw [takeText_of_glyph h]
      simp only [← item, h]
      rfl

/-! ### Control codes with arguments (R27, R28) -/

theorem textCommand_of_stray {b : Byte} (h : b.toNat = 0 ∨ (0x0E ≤ b.toNat ∧ b.toNat ≤ 0x1F)) :
    textCommand b = .strayCode := by
  unfold textCommand
  rw [if_neg (by omega)]
  split
  case h_14 => rfl
  all_goals omega

/-- The six codes that take arguments. -/
theorem controlCode_of_mem {b : Byte} {code : ControlCode}
    (h : (b.toNat, code) ∈ [(0x01, ControlCode.plane), (0x08, .format), (0x09, .leader), (0x0A, .load), (0x0B, .bank),
      (0x0C, .query)]) : textCommand b = .controlCodeWithArguments ∧ controlCodeOf b = some code := by
  simp only [List.mem_cons, Prod.mk.injEq, List.not_mem_nil, or_false] at h
  unfold textCommand controlCodeOf
  rcases h with ⟨hb, rfl⟩ | ⟨hb, rfl⟩ | ⟨hb, rfl⟩ | ⟨hb, rfl⟩ | ⟨hb, rfl⟩ | ⟨hb, rfl⟩ <;> rw [hb] <;> exact ⟨rfl, rfl⟩

/-- R27: LEADER's first byte fixes how many follow; the other codes' counts are fixed. -/
theorem argumentCount_append (code : ControlCode) (bytes : List Byte) (b : Byte) :
    argumentCount code (bytes ++ [b]) =
      match code with
      | .plane => 1
      | .format => 3
      | .leader => (match bytes with | [] => 1 + 2 * b.toNat | n :: _ => 1 + 2 * n.toNat)
      | .load => 5
      | .bank => 1
      | .query => 4 := by
  cases code with
  | leader => cases bytes <;> rfl
  | plane => rfl
  | format => rfl
  | load => rfl
  | bank => rfl
  | query => rfl

theorem commandFor_of_argument {d : Decoder} {code : ControlCode} {bytes : List Byte} (h : d.state = .args code bytes)
    {b : Byte} (hmore : bytes.length + 1 < argumentCount code (bytes ++ [b])) :
    commandFor d (.plain b) = .argumentByte := by
  simp [commandFor, h, hmore]

/-- A control's last argument byte taken: the work is done in TEXT with all the bytes, on the tables as they were. -/
theorem takes_of_control {c : Instr} {s : State} {code : ControlCode} {bytes : List Byte} {b : Byte}
    {work : List Byte → State → State} {work' : State → State} (hc : c ∈ decoderCommands)
    (hwork : decoderWork c (.plain b) = carryOut work (.plain b)) (hready : Ready (.plain b) s)
    (hstate : s.decoder.state = .args code bytes) (hlast : argumentCount code (bytes ++ [b]) ≤ (bytes ++ [b]).length)
    (hcommand : completedCommand code (bytes ++ [b]) = c)
    (hdone : ∀ u, AfterRemoval (.plain b) s u → work (bytes ++ [b]) (setDecoderState .text u) = work' u) :
    Takes c (.plain b) work' s := by
  refine takes_of_work hc hready ((commandFor_of_args hstate hlast).trans hcommand) fun u hu => ?_
  rw [hwork, carryOut_of_args (hu.state.trans hstate), hdone u hu]

theorem setPlane_of_le {b : Byte} (h : b.toNat ≤ 3) (u : State) :
    setPlane [b] u = u.setDecoder { u.decoder with plane := BitVec.ofNat 2 b.toNat } := by
  have plane : b.extractLsb' 0 2 = BitVec.ofNat 2 b.toNat := by rw [extractLsb'_eq_ofNat_div, Nat.pow_zero, Nat.div_one]
  rw [← plane]
  exact if_pos h

theorem setPlane_of_gt {b : Byte} (h : 3 < b.toNat) (u : State) : setPlane [b] u = count .stray u := if_neg (Nat.not_le.2 h)

/-- Settles O16: each byte by the decoder state it is taken in. -/
theorem controlCodesAndPlane : Obligations.ControlCodesAndPlane := by
  intro s b hready
  refine ⟨fun hstate hb => ?_, fun code hstate hb => ?_, fun code bytes hstate hmore => ?_, fun hstate hb => ?_,
    fun hstate hb => ?_⟩
  · exact takes_of_work (by decide) hready ((commandFor_of_text hstate b).trans (textCommand_of_stray hb)) fun _ _ => rfl
  · obtain ⟨hcommand, hcode⟩ := controlCode_of_mem hb
    refine takes_of_work (by decide) hready ((commandFor_of_text hstate b).trans hcommand) fun u _ => ?_
    simp only [decoderWork, openControl, Entry.byte, hcode]
    rfl
  · refine takes_of_work (by decide) hready (commandFor_of_argument hstate ?_) fun u hu => ?_
    · exact hmore.trans_eq (argumentCount_append code bytes b).symm
    · simp only [decoderWork, addArgument, hu.state.trans hstate]
      rfl
  · exact takes_of_control (by decide) rfl hready hstate (Nat.le_refl 1) rfl fun u _ => setPlane_of_le hb _
  · exact takes_of_control (by decide) rfl hready hstate (Nat.le_refl 1) rfl fun u _ => setPlane_of_gt hb _

/-- Settles O17: the six codes, each its job under the take's priority. -/
theorem copyControlsHandOn : Obligations.CopyControlsHandOn := by
  intro s b hready hstate
  have command : commandFor s.decoder (.plain b) = textCommand b := commandFor_of_text hstate b
  have arrived (a : Arrival) {u : State} (hu : AfterRemoval (.plain b) s u) :
      handArrival a u = doJob ⟨s.decoder.priority, [], some a, none, false⟩ u := by rw [← hu.priority]; rfl
  have ended (kind : EndKind) {u : State} (hu : AfterRemoval (.plain b) s u) :
      handLineEnd kind u = doJob ⟨s.decoder.priority, [], none, some ⟨kind, false⟩, false⟩ u := by rw [← hu.priority]; rfl
  refine ⟨?_, ?_, ?_, ?_, ?_, ?_⟩ <;> rintro rfl
  · exact takes_of_work (by decide) hready command fun _ hu => arrived .disc hu
  · exact takes_of_work (by decide) hready command fun _ hu => arrived .tab hu
  · exact takes_of_work (by decide) hready command fun _ hu => ended .endline hu
  · exact takes_of_work (by decide) hready command fun _ hu => ended .endpara hu
  · exact takes_of_work (by decide) hready command fun _ hu => arrived (.link .join) hu
  · exact takes_of_work (by decide) hready command fun _ hu => arrived (.link .nojoin) hu

end Sys2Proof.Proofs
end

section
/-! SUPPORT. Controls carried out: FORMAT, LEADER and RESET (O38 to O40), loads (O42 to O44) and bank operations (O45). -/

namespace Sys2Proof.Proofs

open Sys2Proof.Machine Sys2Proof.Safety

/-! ### FORMAT (R33, R43 to R45, R50) -/

/-- R45: a write filed into the copy on an empty line store, and into the pending set otherwise. -/
theorem fileLineWrite_eq (w : LineWrite) (s : State) :
    fileLineWrite w s =
      { s with
        format :=
          if s.shaper.line.cells = [] then { s.format with line := s.format.line.write w }
          else { s.format with pending := s.format.pending.write w } } := by
  unfold fileLineWrite FormatSet.fileLine
  cases s.shaper.line.cells <;> rfl

/-- R44: the four values of MODE. -/
theorem formatWrite_mode (v : Nat) :
    formatWrite 4 v =
      if v = 0 then .line (.mode .justify) else if v = 1 then .line (.mode .flushStart)
      else if v = 2 then .line (.mode .flushEnd) else if v = 3 then .line (.mode .centre) else .stray := by
  match v with
  | 0 => rfl
  | 1 => rfl
  | 2 => rfl
  | 3 => rfl
  | _ + 4 => rfl

/-- R44: the two values of DIRECTION. -/
theorem formatWrite_direction (v : Nat) :
    formatWrite 5 v =
      if v = 0 then .line (.direction .ltr) else if v = 1 then .line (.direction .rtl) else .stray := by
  match v with
  | 0 => rfl
  | 1 => rfl
  | _ + 2 => rfl

theorem clamp_zero (hi v : Nat) : clamp 0 hi v = min hi v := Nat.zero_max _

/-- R42 to R44, R48, R50: the writes by k; any other k, and a MODE or DIRECTION without that value, writes nothing. -/
theorem formatWrite_eq (k v : Nat) :
    formatWrite k v =
      if k = 0 then .line (.size (max 16 (min 384 v)))
      else if k = 1 then .line (.measure (max 240 (min 14400 v)))
      else if k = 2 then .line (.leading (min 2880 v))
      else if k = 3 then .line (.paraSpace (min 1440 v))
      else if k = 4 then
        (if v = 0 then .line (.mode .justify) else if v = 1 then .line (.mode .flushStart)
          else if v = 2 then .line (.mode .flushEnd) else if v = 3 then .line (.mode .centre) else .stray)
      else if k = 5 then
        (if v = 0 then .line (.direction .ltr) else if v = 1 then .line (.direction .rtl) else .stray)
      else if k = 6 then .line (.spaceMin (min 255 v))
      else if k = 7 then .line (.spaceOpt (min 255 v))
      else if k = 8 then .line (.spaceMax (min 255 v))
      else if k = 9 then .line (.extend (min 8 v))
      else if k = 10 then .line (.galley (min 15 v))
      else if 16 ≤ k ∧ k ≤ 31 then .line (.tab (k - 16) (min 14400 v))
      else if k = 32 then .unit (.burstLimit (max 1 (min 16 v)))
      else if k = 33 then .unit (.busGap (max 4 (min 64 v)))
      else if k = 34 then .unit (.holdLimit (max 1 (min 255 v)))
      else if k = 35 then .unit (.deferWait (max 1 (min 255 v)))
      else if k = 36 then .unit (.takeTimeout (min 60 v))
      else .stray := by
  unfold formatWrite
  split
  case h_5 => exact formatWrite_mode v
  case h_6 => exact formatWrite_direction v
  case h_17 h0 h1 h2 h3 h4 h5 h6 h7 h8 h9 h10 h32 h33 h34 h35 h36 =>
    simp only [if_neg h0, if_neg h1, if_neg h2, if_neg h3, if_neg h4, if_neg h5, if_neg h6, if_neg h7, if_neg h8, if_neg h9,
      if_neg h10, if_neg h32, if_neg h33, if_neg h34, if_neg h35, if_neg h36, clamp_zero]
  all_goals
    simp only [clamp, Nat.zero_max]
    rfl

/-- What a FORMAT does once its write is known. -/
def carryFormat (u : State) : FormatWrite → State
  | .line w => fileLineWrite w u
  | .unit w => u.setFormat { u.format with unit := u.format.unit.write w }
  | .stray => count .stray u

theorem writeFormat_eq (bytes : List Byte) (u : State) :
    writeFormat bytes u = carryFormat u (formatWrite (byteAt bytes 0).toNat (fieldAt bytes 1)) := by
  unfold writeFormat
  cases formatWrite (byteAt bytes 0).toNat (fieldAt bytes 1) <;> rfl

/-- Settles O38: each write's one parameter, and FORMAT k, v by k. -/
theorem formatClampsAndFiles : Obligations.FormatClampsAndFiles := by
  refine ⟨fun c p v i m d g => ?_, fun s k hi lo hready hstate => ?_⟩
  · exact ⟨⟨rfl, rfl⟩, ⟨rfl, rfl⟩, ⟨rfl, rfl⟩, ⟨rfl, rfl⟩, ⟨rfl, rfl⟩, ⟨rfl, rfl⟩, ⟨rfl, rfl⟩, ⟨rfl, rfl⟩, ⟨rfl, rfl⟩,
      ⟨rfl, rfl⟩, ⟨rfl, rfl⟩, ⟨rfl, rfl⟩, ⟨rfl, rfl⟩⟩
  · intro v toText stray file
    refine takes_of_control (by decide) rfl hready hstate (Nat.le_refl 3) rfl fun u _ => ?_
    have written := formatWrite_eq k.toNat v
    refine (writeFormat_eq [k, hi, lo] _).trans ((congrArg (carryFormat _) written).trans ?_)
    simp only [apply_ite (carryFormat _)]
    simp only [carryFormat, fileLineWrite_eq]
    rfl

/-! ### LEADER (R34, R49) and RESET (R39, R55) -/

/-- The two-byte fields of a list of 2n bytes, place by place. -/
theorem pairFields_eq_map {n : Nat} {bytes : List Byte} (h : bytes.length = 2 * n) :
    pairFields bytes =
      (List.range n).map (fun i => (bytes.getD (2 * i) 0).toNat * 256 + (bytes.getD (2 * i + 1) 0).toNat) := by
  induction n generalizing bytes with
  | zero =>
    obtain rfl : bytes = [] := List.length_eq_zero_iff.1 h
    rfl
  | succ n ih =>
    obtain ⟨hi, lo, rest, rfl⟩ : ∃ hi lo rest, bytes = hi :: lo :: rest := by
      match bytes, h with
      | hi :: lo :: rest, _ => exact ⟨hi, lo, rest, rfl⟩
    rw [pairFields, ih (by simpa [Nat.mul_succ] using h), List.range_succ_eq_map, List.map_cons, List.map_map]
    rfl

/-- R27: all of a LEADER's bytes are there. -/
theorem leader_complete {n : Byte} {rest : List Byte} (h : rest.length = 2 * n.toNat) :
    argumentCount .leader (n :: rest) ≤ (n :: rest).length := by
  simp [argumentCount, h, Nat.add_comm]

/-- Settles O39: the first four fields of the bytes after the count. -/
theorem leaderFilesThePattern : Obligations.LeaderFilesThePattern := by
  intro s bytes b hready hstate n rest hbytes hlen
  refine takes_of_control (by decide) rfl hready hstate (hbytes ▸ leader_complete hlen) rfl fun u _ => ?_
  rw [hbytes]
  show fileLineWrite (.leader ((pairFields rest).take 4)) _ = _
  rw [fileLineWrite_eq, pairFields_eq_map hlen, ← List.map_take, List.take_range]
  rfl

/-- Settles O40: RESET's own code, and what it sets. -/
theorem resetRestartsCopy : Obligations.ResetRestartsCopy := by
  refine ⟨rfl, ?_⟩
  rintro s b hready hstate rfl
  exact takes_of_work (by decide) hready (commandFor_of_text hstate _) fun _ _ => rfl

/-! ### LOAD (R35, R72, R73) -/

theorem tableKindOf_above {n : Nat} (h : 3 < n) : tableKindOf n = none := by
  obtain ⟨m, rfl⟩ : ∃ m, n = m + 4 := ⟨n - 4, by omega⟩
  rfl

/-- R73: the range test by the first and the last index of a kind. -/
theorem rangeAccepted_eq (k : TableKind) (start count : Nat) :
    rangeAccepted k start count =
      decide (k.first ≤ start ∧ start ≤ k.last ∧ (count = 0 ∨ start + count - 1 ≤ k.last)) := by
  rw [Bool.eq_iff_iff]
  simp only [rangeAccepted, TableKind.inRange, Bool.and_eq_true, Bool.or_eq_true, decide_eq_true_eq]
  omega

theorem openLoad_of_kind {kind s1 s0 c1 c0 : Byte} {k : TableKind} (h : tableKindOf kind.toNat = some k) (u : State) :
    openLoad [kind, s1, s0, c1, c0] u =
      let ctx : LoadContext := ⟨k, pairValue s1 s0, pairValue c1 c0, 0, [], []⟩
      setDecoderState (if ctx.count = 0 then .sum ctx else .load ctx)
        (u.setTables { u.tables with record := some ⟨k, rangeAccepted k ctx.start ctx.count, 0, 0⟩ }) := by
  have kindByte : byteAt [kind, s1, s0, c1, c0] 0 = kind := rfl
  simp only [openLoad, kindByte, h]
  rfl

theorem openLoad_of_no_kind {kind : Byte} (h : tableKindOf kind.toNat = none) (others : List Byte) (u : State) :
    openLoad (kind :: others) u =
      raise .loadRefused (refusalDetail kind.toNat 1) (setDecoderState .skip u) := by
  have kindByte : byteAt (kind :: others) 0 = kind := rfl
  simp only [openLoad, kindByte, h]

/-- Settles O42: a kind above 3, and each of the four kinds. -/
theorem loadHeaderOpensOrRefuses : Obligations.LoadHeaderOpensOrRefuses := by
  intro s kind s1 s0 c1 c0 hready hstate start count
  refine ⟨fun hkind => ?_, fun t first last hkind => ?_⟩
  · exact takes_of_control (by decide) rfl hready hstate (Nat.le_refl 5) rfl
      fun u _ => openLoad_of_no_kind (tableKindOf_above hkind) _ _
  · have known : tableKindOf kind.toNat = some t ∧ t.first = first ∧ t.last = last := by
      simp only [List.mem_cons, Prod.mk.injEq, List.not_mem_nil, or_false] at hkind
      rcases hkind with ⟨hn, rfl, rfl, rfl⟩ | ⟨hn, rfl, rfl, rfl⟩ | ⟨hn, rfl, rfl, rfl⟩ | ⟨hn, rfl, rfl, rfl⟩ <;>
        rw [hn] <;> exact ⟨rfl, rfl, rfl⟩
    obtain ⟨hknown, rfl, rfl⟩ := known
    refine takes_of_control (by decide) rfl hready hstate (Nat.le_refl 5) rfl fun u _ => ?_
    refine (openLoad_of_kind hknown _).trans ?_
    dsimp only
    rw [rangeAccepted_eq]
    rfl

/-! ### The bytes of a load (R36, R74, R76, R77) -/

theorem byteSum_eq_sum (bytes : List Byte) : byteSum bytes = (bytes.map BitVec.toNat).sum := by
  induction bytes with
  | nil => rfl
  | cons b rest ih => rw [byteSum, ih, List.map_cons, List.sum_cons]

/-- R74: an item handed to the table block with a record open. -/
theorem takeItem_of_record {u : State} {r : LoadRecord} (h : u.tables.record = some r) (k : TableKind) (index : Nat)
    (bytes : List Byte) :
    takeItem k index bytes u =
      u.setTables
        (if r.accepted = true then
          { u.tables.setStandby (u.tables.standbyBank.writeItem k index bytes) with
            record := some { r with sum := (r.sum + byteSum bytes) % 65536, written := r.written + 1 } }
        else { u.tables with record := some { r with sum := (r.sum + byteSum bytes) % 65536 } }) := by
  simp only [takeItem, h]
  split <;> rfl

theorem commandFor_of_load {d : Decoder} {ctx : LoadContext} (h : d.state = .load ctx) (b : Byte) :
    commandFor d (.plain b) = .loadDataByte := by simp only [commandFor, h]

theorem commandFor_of_sum {d : Decoder} {ctx : LoadContext} (h : d.state = .sum ctx) (b : Byte) :
    commandFor d (.plain b) = .loadSumByte := by simp only [commandFor, h]

/-- Settles O43: by whether the byte fills the item, and what the table block then does. -/
theorem loadDataByteFillsTheItem : Obligations.LoadDataByteFillsTheItem := by
  intro s b ctx hready hstate
  have command := commandFor_of_load hstate b
  refine ⟨fun hroom => ?_, fun hfull => ⟨?_, fun u r hr => ?_⟩⟩
  · exact takes_of_work (by decide) hready command fun u hu => takeLoadByte_of_room (hu.state.trans hstate) hroom
  · exact takes_of_work (by decide) hready command
      fun u hu => takeLoadByte_of_full (hu.state.trans hstate) (Nat.le_of_eq hfull.symm)
  · rw [takeItem_of_record hr, byteSum_eq_sum]
    rfl

theorem takeSumByte_first {u : State} {ctx : LoadContext} (hd : u.decoder.state = .sum ctx) (hsum : ctx.sum = [])
    (e : Entry) : takeSumByte e u = setDecoderState (.sum { ctx with sum := [e.byte] }) u := by
  simp only [takeSumByte, hd, hsum]

theorem takeSumByte_second {u : State} {ctx : LoadContext} {hi : Byte} (hd : u.decoder.state = .sum ctx)
    (hsum : ctx.sum = [hi]) (e : Entry) :
    takeSumByte e u = takeSum (pairValue hi e.byte) (setDecoderState .text u) := by
  simp only [takeSumByte, hd, hsum]

/-- R76, R77: the sum of a load taken with its record open. -/
theorem takeSum_of_record {s : State} {r : LoadRecord} (h : s.tables.record = some r) (sent : Nat) :
    takeSum sent s =
      let cleared := s.setTables { s.tables with record := none }
      if r.accepted = false then raise .loadRefused (refusalDetail r.kind.number 2) cleared
      else if sent = r.sum then cleared
      else
        raise .loadSum r.sum
          (cleared.setTables (cleared.tables.setStandby { cleared.tables.standbyBank with valid := false })) := by
  simp only [takeSum, h]
  cases r.accepted <;> rfl

/-- Settles O44: the first sum byte, and the second by what the record says. -/
theorem loadSumEndsTheLoad : Obligations.LoadSumEndsTheLoad := by
  intro s b ctx hready hstate
  have command := commandFor_of_sum hstate b
  refine ⟨fun hsum => ?_, fun hi r hsum hr => ?_⟩
  · exact takes_of_work (by decide) hready command fun u hu => takeSumByte_first (hu.state.trans hstate) hsum _
  · refine takes_of_work (by decide) hready command fun u hu => ?_
    have record : (setDecoderState .text u).tables.record = some r := (congrArg TableBlock.record hu.tables).trans hr
    exact (takeSumByte_second (hu.state.trans hstate) hsum _).trans (takeSum_of_record record _)

/-! ### Bank operations (R56, R79 to R83) -/

theorem activeBank_of_a {t : TableBlock} (h : t.active = .a) : t.activeBank = t.bankA := by
  simp only [TableBlock.activeBank, h]

theorem activeBank_of_b {t : TableBlock} (h : t.active = .b) : t.activeBank = t.bankB := by
  simp only [TableBlock.activeBank, h]

theorem completedCommand_bank_above {b : Byte} (h : 2 < b.toNat) : completedCommand .bank [b] = .invalidBankOp := by
  have operation : byteAt [b] 0 = b := rfl
  simp only [completedCommand, operation]
  split
  case h_4 => rfl
  all_goals omega

theorem swapBanks_of_not_valid {u : State} (h : u.tables.standbyBank.valid = false) :
    swapBanks u = raise .swapRefused u.tables.active.number u := if_neg (by simp [h])

theorem swapBanks_of_valid {u : State} (h : u.tables.standbyBank.valid = true) :
    swapBanks u = doJob (controlJob u.decoder.priority .swap true) u := if_pos h

theorem copyBank_of_a {u : State} (h : u.tables.active = .a) :
    copyBank u = u.setTables { u.tables with bankB := { u.tables.bankA with valid := true } } := by
  rw [copyBank, setStandby_of_a h, activeBank_of_a h]

theorem copyBank_of_b {u : State} (h : u.tables.active = .b) :
    copyBank u = u.setTables { u.tables with bankA := { u.tables.bankB with valid := true } } := by
  rw [copyBank, setStandby_of_b h, activeBank_of_b h]

theorem clearBank_of_a {u : State} (h : u.tables.active = .a) :
    clearBank u = u.setTables { u.tables with bankB := Bank.cleared } := by rw [clearBank, setStandby_of_a h]

theorem clearBank_of_b {u : State} (h : u.tables.active = .b) :
    clearBank u = u.setTables { u.tables with bankA := Bank.cleared } := by rw [clearBank, setStandby_of_b h]

/-- The decoder back in TEXT before a control's own work leaves the table block as it was. -/
theorem tables_toText {e : Entry} {s u : State} (h : AfterRemoval e s u) : (setDecoderState .text u).tables = s.tables :=
  h.tables

/-- Settles O45: the roles, then each operation by its number and, for COPY and CLEAR, by which bank is active. -/
theorem bankOperations : Obligations.BankOperations := by
  refine ⟨fun t k => ⟨fun ha => ?_, fun hb => ?_⟩, fun s b hready hstate => ?_⟩
  · exact ⟨activeBank_of_a ha, standbyBank_of_a ha, setStandby_of_a ha k⟩
  · exact ⟨activeBank_of_b hb, standbyBank_of_b hb, setStandby_of_b hb k⟩
  · refine ⟨?_, ?_, ?_, ?_, ?_, ?_, fun hb => ?_⟩
    · rintro rfl ha
      exact takes_of_control (work := fun _ => copyBank) (by decide) rfl hready hstate (Nat.le_refl 1) rfl
        fun u hu => copyBank_of_a (u := setDecoderState .text u) (by rw [tables_toText hu, ha])
    · rintro rfl hb
      exact takes_of_control (work := fun _ => copyBank) (by decide) rfl hready hstate (Nat.le_refl 1) rfl
        fun u hu => copyBank_of_b (u := setDecoderState .text u) (by rw [tables_toText hu, hb])
    · rintro rfl ha
      exact takes_of_control (work := fun _ => clearBank) (by decide) rfl hready hstate (Nat.le_refl 1) rfl
        fun u hu => clearBank_of_a (u := setDecoderState .text u) (by rw [tables_toText hu, ha])
    · rintro rfl hb
      exact takes_of_control (work := fun _ => clearBank) (by decide) rfl hready hstate (Nat.le_refl 1) rfl
        fun u hu => clearBank_of_b (u := setDecoderState .text u) (by rw [tables_toText hu, hb])
    · rintro rfl hvalid
      exact takes_of_control (work := fun _ => swapBanks) (by decide) rfl hready hstate (Nat.le_refl 1) rfl
        fun u hu => swapBanks_of_not_valid (u := setDecoderState .text u) (by rw [tables_toText hu, hvalid])
    · rintro rfl hvalid
      refine takes_of_control (work := fun _ => swapBanks) (by decide) rfl hready hstate (Nat.le_refl 1) rfl fun u hu => ?_
      refine (swapBanks_of_valid (u := setDecoderState .text u) (by rw [tables_toText hu, hvalid])).trans ?_
      rw [← hu.priority]
      rfl
    · exact takes_of_control (work := fun _ => count .stray) (by decide) rfl hready hstate (Nat.le_refl 1)
        (completedCommand_bank_above hb) fun _ _ => rfl

end Sys2Proof.Proofs
end

section
/-! SUPPORT. A packet's bytes and bits and its join to the exposure queue (O34), and the events of the return line (O47). -/

namespace Sys2Proof.Proofs

open Sys2Proof.Machine Sys2Proof.Safety

/-! ### The packet (R154 to R157) -/

/-- R155: the flags byte, flag by flag with its weight. -/
theorem flags_toNat_eq (f : LineFlags) :
    f.toNat =
      (if f.forced = true then 1 else 0) + (if f.overset = true then 2 else 0) + (if f.loose = true then 4 else 0)
        + (if f.unmapped = true then 8 else 0) + (if f.markOverflow = true then 16 else 0)
        + (if f.gap = true then 32 else 0) + (if f.cut = true then 64 else 0) := by
  simp only [LineFlags.toNat, bit, mul_ite, mul_one, mul_zero]

/-- R41, R46: the join of a packet, with the wait that starts at a bus that idles. -/
theorem bus_join_eq (busGap : Nat) (p : PacketBody) (b : Bus) :
    b.join busGap p =
      { b with
        queue := b.queue ++ [⟨p, b.nextSequence, packetCheck p b.nextSequence⟩]
        nextSequence := b.nextSequence + 1
        state := if b.state = .busIdle then .waiting else b.state
        gap := if b.state = .busIdle then busGap else b.gap } := by
  by_cases h : b.state = .busIdle
  · simp only [Bus.join, if_pos h]
    rfl
  · simp only [Bus.join, if_neg h]

theorem applyTo_eq {p : PendingSet} {c : LineCopy} (h : p.tabs.length = c.tabs.length) :
    p.applyTo c =
      { size := p.size.getD c.size, measure := p.measure.getD c.measure, leading := p.leading.getD c.leading
        paraSpace := p.paraSpace.getD c.paraSpace, mode := p.mode.getD c.mode, direction := p.direction.getD c.direction
        spaceMin := p.spaceMin.getD c.spaceMin, spaceOpt := p.spaceOpt.getD c.spaceOpt
        spaceMax := p.spaceMax.getD c.spaceMax, extend := p.extend.getD c.extend, galley := p.galley.getD c.galley
        tabs := c.tabs.zipWith (fun stop entry => entry.getD stop) p.tabs, leader := p.leader.getD c.leader } := by
  rw [PendingSet.applyTo, applyTabs_eq_zipWith c.tabs p.tabs h]

theorem exec_packetJoin_of_room {s : State} {w : WaitingEnd} (hw : s.shaper.waiting = some w)
    (hroom : s.bus.queue.length < 8) :
    exec .packetJoin s =
      .next
        (runJob (7 - s.bus.queue.length) w.job
          (joinPacket w.packet { s with shaper := { s.shaper with waiting := none } })) := by
  have room : s.room = 7 - s.bus.queue.length + 1 := by
    simp only [State.room, Config.exposureCapacity]
    omega
  show execPacketJoin s = _
  simp only [execPacketJoin, hw, room]
  rfl

theorem exec_packetJoin_of_no_room {s : State} (h : s.shaper.waiting = none ∨ 8 ≤ s.bus.queue.length) :
    exec .packetJoin s = .refused (.cannotOccur .noPacketCanJoin) := by
  show execPacketJoin s = _
  unfold execPacketJoin
  rcases hw : s.shaper.waiting with _ | w
  · rfl
  · have room : s.room = 0 := Nat.sub_eq_zero_of_le (h.resolve_left (by simp [hw]))
    simp only [room]

/-- Settles O34: the packet's bytes and bits, the pending set applied, the join, and PACKET_JOIN by the room there is. -/
theorem packetJoinsWithNumberAndCheck : Obligations.PacketJoinsWithNumberAndCheck := by
  refine ⟨fun p sequence check i => ⟨rfl, ?_, rfl, rfl, rfl⟩, fun p c h => applyTo_eq h, rfl, fun p s => ?_, fun s => ?_⟩
  · dsimp only
    rw [← flags_toNat_eq]
    rfl
  · rw [← byteSum_eq_sum, joinPacket, bus_join_eq]
    rfl
  · exact ⟨fun w hw hroom => exec_packetJoin_of_room hw hroom, fun h => exec_packetJoin_of_no_room h⟩

/-! ### The return line (R20, R176 to R180, R188) -/

theorem boolByte_eq (b : Bool) : boolByte b = if b = true then 1 else 0 := by
  cases b <;> rfl

theorem countersAfter_eq (q : Query) (c : Counters) :
    q.countersAfter c = if q = .countsAndClear then ⟨0, 0, 0, 0, 0, 0, 0, 0, 0, 0, 0, 0, 0, 0⟩ else c := by
  cases q <;> rfl

/-- R20: a reply built and joined, with the counters COUNTS_AND_CLEAR zeroes. -/
theorem joinReply_eq (q : Query) (s : State) :
    joinReply q s =
      { s with
        reply :=
          { s.reply with
            queue := s.reply.queue ++ [buildReply q s]
            offered := none
            counters :=
              if q = .countsAndClear then ⟨0, 0, 0, 0, 0, 0, 0, 0, 0, 0, 0, 0, 0, 0⟩ else s.reply.counters } } := by
  rw [joinReply, countersAfter_eq]
  rfl

theorem exec_offeredReplyJoin_of_some {s : State} {q : Query} (hq : s.reply.offered = some q) :
    exec .offeredReplyJoin s =
      if s.reply.queue.length ≤ 5 then .next (joinReply q s) else .refused (.cannotOccur .returnQueueDeep) := by
  show execOfferedReplyJoin s = _
  simp only [execOfferedReplyJoin, hq]

theorem exec_offeredReplyJoin_of_none {s : State} (h : s.reply.offered = none) : exec .offeredReplyJoin s = .next s := by
  show execOfferedReplyJoin s = _
  simp only [execOfferedReplyJoin, h]

/-- R180: a departure, and the retest of the reply that waits. -/
theorem exec_recordDeparture_of_cons {s : State} {r : Record} {rest : List Record} (hqueue : s.reply.queue = r :: rest)
    (hsender : s.reply.sender = none) (hheld : s.reply.held = false) :
    exec .recordDeparture s =
      .next (retestReply { s with reply := { s.reply with queue := rest, sender := some ⟨r, r.characters⟩ } }) := by
  show execRecordDeparture s = _
  simp only [execRecordDeparture, hqueue, hsender, hheld]
  rfl

theorem exec_recordDeparture_of_not {s : State}
    (h : s.reply.queue = [] ∨ s.reply.sender.isSome = true ∨ s.reply.held = true) :
    exec .recordDeparture s = .refused (.cannotOccur .noRecordCanLeave) := by
  show execRecordDeparture s = _
  unfold execRecordDeparture
  rcases hqueue : s.reply.queue with _ | ⟨r, rest⟩
  · rfl
  · have cannot : ¬ (s.reply.sender.isNone && !s.reply.held) = true := by
      rcases h with h | h | h
      · simp [hqueue] at h
      · simp [Option.isSome_iff_ne_none.1 h]
      · simp [h]
    exact if_neg cannot

theorem retestReply_of_not {s : State} (h : s.reply.offered = none ∨ 5 < s.reply.queue.length) : retestReply s = s := by
  unfold retestReply
  rcases hq : s.reply.offered with _ | q
  · rfl
  · exact if_neg (Nat.not_le.2 (h.resolve_left (by simp [hq])))

theorem retestReply_of_some {s : State} {q : Query} (hq : s.reply.offered = some q) (hroom : s.reply.queue.length ≤ 5) :
    retestReply s = joinReply q s := by
  unfold retestReply
  simp only [hq]
  exact if_pos hroom

/-- R176: the character that ends a record leaves when nothing holds it or none is left to send. -/
theorem exec_recordSent_of_some {s : State} {r : Sending} (hr : s.reply.sender = some r) :
    exec .recordSent s =
      if s.reply.held = false ∨ r.unsent = [] then .next { s with reply := { s.reply with sender := none } }
      else .refused (.cannotOccur .recordUnfinished) := by
  show execRecordSent s = _
  simp only [execRecordSent, hr, Bool.or_eq_true, Bool.not_eq_true', List.isEmpty_iff]
  rfl

theorem exec_recordSent_of_none {s : State} (h : s.reply.sender = none) :
    exec .recordSent s = .refused (.cannotOccur .recordUnfinished) := by
  show execRecordSent s = _
  simp only [execRecordSent, h]

theorem exec_returnLineHold (n : Nat) (s : State) :
    exec (.returnLineHold n) s =
      if n ≤ 29 then
        if s.reply.held = true then .next s
        else
          .next
            { s with
              reply :=
                { s.reply with
                  held := true, sender := s.reply.sender.map (fun r => { r with unsent := r.unsent.drop n }) } }
      else .fault .illFormedOperand := by
  show execReturnLineHold n s = _
  simp only [execReturnLineHold, decide_eq_true_eq]
  rfl

/-- Settles O47: the records' bytes kind by kind, then the events one by one. -/
theorem returnLineEvents : Obligations.ReturnLineEvents := by
  refine ⟨fun r => ?_, fun s => ⟨?_, ?_, ?_, ?_, ?_, ?_, ?_, rfl, ?_, ?_, ?_, ?_⟩⟩
  · intro two yes bank portState noticeKind kind plain
    have yesByte (b : Bool) : boolByte b = yes b := boolByte_eq b
    have bankByte (n : BankName) : BitVec.ofNat 8 n.number = bank n := by cases n <;> rfl
    have stateByte (n : BusState) : BitVec.ofNat 8 n.number = portState n := by cases n <;> rfl
    have noticeByte (n : NoticeKind) : BitVec.ofNat 8 n.number = noticeKind n := by cases n <;> rfl
    cases r with
    | status f =>
      simp only [Record.characters, Record.plainBytes, statusBytes, yesByte, bankByte, stateByte]
      rfl
    | counts c => rfl
    | entry table standby index present item =>
      simp only [Record.characters, Record.plainBytes, yesByte]
      cases table <;> rfl
    | notice k repeats detail =>
      simp only [Record.characters, Record.plainBytes, noticeByte]
      rfl
  · intro q hq hroom
    rw [exec_offeredReplyJoin_of_some hq, if_pos hroom, joinReply_eq]
  · exact exec_offeredReplyJoin_of_none
  · intro hq hdeep
    obtain ⟨q, hq⟩ := Option.isSome_iff_exists.1 hq
    rw [exec_offeredReplyJoin_of_some hq, if_neg (Nat.not_le.2 hdeep)]
  · intro r rest hqueue hsender hheld departed
    have leaves := exec_recordDeparture_of_cons hqueue hsender hheld
    refine ⟨fun hnone => ?_, fun q hq hroom => ?_⟩
    · rw [leaves, retestReply_of_not (s := departed) hnone]
    · rw [leaves, retestReply_of_some (s := departed) hq hroom, joinReply_eq]
  · intro r hr hends
    rw [exec_recordSent_of_some hr, if_pos hends]
  · intro n hn hheld
    rw [exec_returnLineHold, if_pos hn, hheld]
    rfl
  · intro n hn hheld
    rw [exec_returnLineHold, if_pos hn, if_pos hheld]
  · exact exec_recordDeparture_of_not
  · exact exec_recordSent_of_none
  · intro r hr hheld hunsent
    rw [exec_recordSent_of_some hr, if_neg (by simp [hheld, hunsent])]
  · intro n hn
    rw [exec_returnLineHold, if_neg (Nat.not_le.2 hn)]

end Sys2Proof.Proofs
end

section
/-! SUPPORT. Line ends by control (O18; R106, R107, R121 to R123, R152). -/

namespace Sys2Proof.Proofs

open Sys2Proof.Machine Sys2Proof.Safety

/-! ### The line end made (R107, R123, R136, R152) -/

theorem countIf_forced (given : Bool) (s : State) :
    countIf given .forced s =
      { s with
        reply :=
          { s.reply with
            counters :=
              { s.reply.counters with
                forced := if given = true then min 65535 (s.reply.counters.forced + 1) else s.reply.counters.forced } } } := by
  cases given <;> rfl

theorem countIf_overset (given : Bool) (s : State) :
    countIf given .overset s =
      { s with
        reply :=
          { s.reply with
            counters :=
              { s.reply.counters with
                overset := if given = true then min 65535 (s.reply.counters.overset + 1) else s.reply.counters.overset } } } := by
  cases given <;> rfl

theorem countIf_loose (given : Bool) (s : State) :
    countIf given .loose s =
      { s with
        reply :=
          { s.reply with
            counters :=
              { s.reply.counters with
                loose := if given = true then min 65535 (s.reply.counters.loose + 1) else s.reply.counters.loose } } } := by
  cases given <;> rfl

/-- R136: FORCED, OVERSET and LOOSE are counted by the plan and the justifier; the line store is left empty. -/
theorem makeLineEnd_eq (plan : EndPlan) (s : State) :
    makeLineEnd plan s =
      { s with
        shaper := { s.shaper with line := Line.empty, paraDue := decide (plan.kind = .endpara) }
        reply :=
          { s.reply with
            counters :=
              { s.reply.counters with
                forced := if plan.forced = true then min 65535 (s.reply.counters.forced + 1) else s.reply.counters.forced
                overset := if plan.overset = true then min 65535 (s.reply.counters.overset + 1) else s.reply.counters.overset
                loose :=
                  if (endingJustified plan s).loose = true then min 65535 (s.reply.counters.loose + 1)
                  else s.reply.counters.loose } } } := by
  rw [makeLineEnd, countIf_forced, countIf_overset, countIf_loose]
  rfl

/-- R152: the flags a plan can add are FORCED, OVERSET and CUT. -/
theorem endingFlags_eq (plan : EndPlan) (s : State) :
    endingFlags plan s =
      { s.shaper.line.flags with
        forced := s.shaper.line.flags.forced || plan.forced
        overset := s.shaper.line.flags.overset || plan.overset
        cut := s.shaper.line.flags.cut || plan.cut } := by
  simp only [endingFlags, LineFlags.union, EndPlan.flags, LineFlags.none, Bool.or_false]

theorem linePacket_eq (priority : Priority) (plan : EndPlan) (s : State) :
    linePacket priority plan s =
      { priority := priority, unit := s.port.unitNumber, galley := s.format.line.galley, size := s.format.line.size
        leading := s.format.line.leading + (if s.shaper.paraDue then s.format.line.paraSpace else 0)
        flags :=
          { s.shaper.line.flags with
            forced := s.shaper.line.flags.forced || plan.forced
            overset := s.shaper.line.flags.overset || plan.overset
            loose := s.shaper.line.flags.loose || (endingJustified plan s).loose
            cut := s.shaper.line.flags.cut || plan.cut }
        items := lineItems s.tables.activeBank s.format.line (endingJustified plan s) } := by
  rw [linePacket, endingFlags_eq]
  rfl

/-! ### An empty line justified (R127 to R135) -/

/-- Away from an overflow an empty line stays without cells and is never LOOSE. -/
theorem justify_nil (b : Bank) (c : LineCopy) {kind : EndKind} (overset : Bool) (h : kind ≠ .overflow) :
    (justify b c kind overset []).cells = [] ∧ (justify b c kind overset []).loose = false := by
  simp only [justify, if_neg h]
  split
  · exact ⟨rfl, rfl⟩
  · split
    · exact ⟨rfl, rfl⟩
    · exact ⟨rfl, rfl⟩

theorem lineItems_of_no_cells (b : Bank) (c : LineCopy) {j : Justified} (h : j.cells = []) : lineItems b c j = [] := by
  unfold lineItems
  rw [h]
  cases c.direction <;> rfl

/-! ### The control's line end (R106, R121, R122) -/

/-- R82: the roles of the banks exchanged. -/
theorem exchangeBanks_eq (s : State) :
    exchangeBanks s = { s with tables := { s.tables with active := if s.tables.active = .a then .b else .a } } := by
  unfold exchangeBanks TableBlock.exchange
  cases s.tables.active <;> rfl

/-- A job with only a control's line end left goes straight to it. -/
theorem advance_control (priority : Priority) (k : ControlEnd) (s : State) :
    (Job.mk priority [] none (some k) false).advance s = controlEnd k ⟨priority, [], none, some k, false⟩ s :=
  advance_of_carried_nil _ _ rfl

theorem controlEnd_of_settled (k : ControlEnd) (j : Job) {s : State} (h : allSettled s.shaper.line.cells = true) :
    controlEnd k j s = endByControl k j s := by
  simp only [controlEnd, settleProvisional_of_settled false s h]

theorem controlEnd_of_provisional (k : ControlEnd) (j : Job) {s t : State} {offending : Nat}
    (h : settleProvisional false s = some (t, offending)) :
    controlEnd k j s =
      if t.overflows then
        .ends t (planOverflow t.bank t.shaper.line offending)
          { j with carried := (planOverflow t.bank t.shaper.line offending).carried, arrival := none, control := some k }
      else endByControl k j t := by
  simp only [controlEnd, h]

theorem endByControl_of_empty {k : ControlEnd} (j : Job) {s : State} (h : s.shaper.line.cells = [])
    (hk : k.kind ≠ .endline) : endByControl k j s = .done (emptyEnd k.kind s) := if_pos ⟨h, hk⟩

theorem endByControl_of_ends {k : ControlEnd} (j : Job) {s : State}
    (h : s.shaper.line.cells ≠ [] ∨ k.kind = .endline) :
    endByControl k j s =
      .ends s (planControl k s.shaper.line)
        { j with carried := [], arrival := none, control := none, exchange := decide (k.kind = .swap) } := by
  refine if_neg ?_
  rintro ⟨hcells, hkind⟩
  exact h.elim (· hcells) hkind

theorem allSettled_of_nil {cells : List Cell} (h : cells = []) : allSettled cells = true := by
  rw [h]
  rfl

/-- R121, R122: a control's line end that makes no packet. -/
theorem doJob_control_of_empty (priority : Priority) {kind : EndKind} (cut : Bool) {s : State}
    (h : s.shaper.line.cells = []) (hkind : kind ≠ .endline) :
    doJob ⟨priority, [], none, some ⟨kind, cut⟩, false⟩ s = emptyEnd kind s := by
  refine runJob_of_done _ ?_
  rw [advance_control, controlEnd_of_settled _ _ (allSettled_of_nil h), endByControl_of_empty _ h hkind]

/-- R106: a control's line end with every letter settled ends the whole line. -/
theorem doJob_control_of_settled (priority : Priority) {k : ControlEnd} {s : State}
    (hends : s.shaper.line.cells ≠ [] ∨ k.kind = .endline) (h : allSettled s.shaper.line.cells = true) :
    doJob ⟨priority, [], none, some k, false⟩ s =
      lineEnds s.room priority (planControl k s.shaper.line) ⟨priority, [], none, none, decide (k.kind = .swap)⟩ s := by
  refine runJob_of_ends _ ?_
  rw [advance_control, controlEnd_of_settled _ _ h, endByControl_of_ends _ hends]

/-- R98: the settling of the provisional letter changes neither the format nor the tables. -/
theorem settleProvisional_keeps {s t : State} {offending : Nat} {offers : Bool}
    (h : settleProvisional offers s = some (t, offending)) : t.format = s.format ∧ t.tables = s.tables := by
  have ligated (i : Nat) (u : State) : (ligateAt i u).1.format = u.format ∧ (ligateAt i u).1.tables = u.tables := by
    unfold ligateAt
    dsimp only
    split <;> exact ⟨rfl, rfl⟩
  unfold settleProvisional at h
  split at h
  · cases h
  · obtain ⟨hformat, htables⟩ := ligated _ _
    cases h
    exact ⟨hformat, htables⟩

/-- R106: a control's line end whose provisional letter settles: the overflow it makes is resolved first. -/
theorem doJob_control_of_provisional (priority : Priority) (k : ControlEnd) {s t : State} {offending : Nat}
    (h : settleProvisional false s = some (t, offending)) (hcells : t.shaper.line.cells ≠ []) :
    doJob ⟨priority, [], none, some k, false⟩ s =
      if t.overflows then
        lineEnds s.room priority (planOverflow t.bank t.shaper.line offending)
          ⟨priority, (planOverflow t.bank t.shaper.line offending).carried, none, some k, false⟩ t
      else lineEnds s.room priority (planControl k t.shaper.line) ⟨priority, [], none, none, decide (k.kind = .swap)⟩ t := by
  have work := (advance_control priority k s).trans (controlEnd_of_provisional k _ h)
  by_cases overflow : t.overflows = true
  · rw [if_pos overflow] at work ⊢
    exact runJob_of_ends _ work
  · rw [if_neg overflow, endByControl_of_ends _ (Or.inl hcells)] at work
    rw [if_neg overflow]
    exact runJob_of_ends _ work

/-! ### ENDLINE on an empty line store (R107, R121) -/

/-- The plan of an ENDLINE that finds no cells. -/
def emptyPlan (cut : Bool) : EndPlan :=
  { kind := .endline, ending := [], carried := [], forced := false, overset := false, cut := cut }

theorem planControl_endline_of_empty (cut : Bool) {ln : Line} (h : ln.cells = []) :
    planControl ⟨.endline, cut⟩ ln = emptyPlan cut := by
  rw [planControl, h]
  rfl

theorem linePacket_emptyPlan (priority : Priority) (cut : Bool) (s : State) :
    linePacket priority (emptyPlan cut) s =
      { priority := priority, unit := s.port.unitNumber, galley := s.format.line.galley, size := s.format.line.size
        leading := s.format.line.leading + (if s.shaper.paraDue then s.format.line.paraSpace else 0)
        flags := { s.shaper.line.flags with cut := s.shaper.line.flags.cut || cut }, items := [] } := by
  obtain ⟨hcells, hloose⟩ : (endingJustified (emptyPlan cut) s).cells = [] ∧ (endingJustified (emptyPlan cut) s).loose = false :=
    justify_nil (kind := .endline) _ _ _ (by decide)
  rw [linePacket_eq, lineItems_of_no_cells _ _ hcells, hloose]
  simp only [emptyPlan, Bool.or_false]

theorem makeLineEnd_emptyPlan (cut : Bool) (s : State) :
    makeLineEnd (emptyPlan cut) s = { s with shaper := { s.shaper with line := Line.empty, paraDue := false } } := by
  have hloose : (endingJustified (emptyPlan cut) s).loose = false := (justify_nil (kind := .endline) _ _ _ (by decide)).2
  rw [makeLineEnd_eq, hloose]
  rfl

/-- R19, R107: the empty line's packet joins when there is room, and waits otherwise. -/
theorem lineEnds_emptyPlan (room : Nat) (priority : Priority) (cut : Bool) (s : State) :
    lineEnds room priority (emptyPlan cut) ⟨priority, [], none, none, false⟩ s =
      let ended : State := { s with shaper := { s.shaper with line := Line.empty, paraDue := false } }
      if room = 0 then
        { ended with
          shaper :=
            { ended.shaper with
              waiting := some ⟨linePacket priority (emptyPlan cut) s, [], ⟨priority, [], none, none, false⟩⟩ } }
      else joinPacket (linePacket priority (emptyPlan cut) s) ended := by
  rw [← makeLineEnd_emptyPlan cut s]
  match room with
  | 0 => rfl
  | r + 1 => exact runJob_idle r priority false _

theorem doJob_endline_of_empty (priority : Priority) (cut : Bool) {s : State} (h : s.shaper.line.cells = []) :
    doJob ⟨priority, [], none, some ⟨.endline, cut⟩, false⟩ s =
      lineEnds s.room priority (emptyPlan cut) ⟨priority, [], none, none, false⟩ s := by
  rw [doJob_control_of_settled priority (Or.inr rfl) (allSettled_of_nil h), planControl_endline_of_empty cut h]
  rfl

/-- Settles O18: the empty line store kind by kind, the line that holds cells, the line end made, and the work left over. -/
theorem lineEndsByControl : Obligations.LineEndsByControl := by
  refine ⟨fun s priority cut hempty hwaiting => ?_, fun s priority kind cut => ⟨fun hcells hsettled => ?_, ?_⟩,
    fun s priority plan => ⟨?_, ?_⟩, fun room priority exchange s => ?_, rfl, rfl⟩
  · intro packet after
    have cleared : ({ s.shaper with line := Line.empty, paraDue := false } : Shaper) = after :=
      congrArg (Shaper.mk Line.empty false) hwaiting
    refine ⟨fun hroom => ?_, fun hfull => ?_, ?_, ?_, ?_⟩
    · have room : s.room ≠ 0 := Nat.sub_ne_zero_of_lt hroom
      rw [doJob_endline_of_empty priority cut hempty, lineEnds_emptyPlan, if_neg room, linePacket_emptyPlan]
      exact congrArg (fun shaper => joinPacket packet { s with shaper := shaper }) cleared
    · have room : s.room = 0 := Nat.sub_eq_zero_of_le hfull
      rw [doJob_endline_of_empty priority cut hempty, lineEnds_emptyPlan, if_pos room, linePacket_emptyPlan]
    · exact doJob_control_of_empty priority cut hempty (by decide)
    · exact doJob_control_of_empty priority cut hempty (by decide)
    · exact (doJob_control_of_empty priority cut hempty (by decide)).trans (exchangeBanks_eq s)
  · exact doJob_control_of_settled priority (Or.inl hcells) hsettled
  · intro t offending ht hcells
    obtain ⟨hformat, htables⟩ := settleProvisional_keeps ht
    have fits : t.shaper.line.acc ≤ s.format.line.measure * 96 ↔ ¬ t.overflows = true := by
      rw [State.overflows, decide_eq_true_iff, Nat.not_lt, ← hformat]
      rfl
    rw [doJob_control_of_provisional priority _ ht hcells, ← htables]
    by_cases overflow : t.overflows = true
    · rw [if_pos overflow, if_neg (fun le => fits.1 le overflow)]
      rfl
    · rw [if_neg overflow, if_pos (fits.2 overflow)]
      rfl
  · exact linePacket_eq priority plan s
  · exact makeLineEnd_eq plan s
  · rw [runJob_idle, exchangeBanks_eq]

end Sys2Proof.Proofs
end

section
/-! SUPPORT. A TAB's gap (O23; R48, R125) and the line justified by its mode and its kind (O28; R47, R88, R105, R124, R127 to
R135). -/

namespace Sys2Proof.Proofs

open Sys2Proof.Machine Sys2Proof.Safety

/-! ### The next tab stop (R48, R125) -/

/-- The set stops' fine positions beyond an accumulator, each stop taken as at most MEASURE. -/
def stopsBeyond (c : LineCopy) (acc : Nat) (stops : List Nat) : List Nat :=
  ((stops.filter (· ≠ 0)).map (fun t => min t c.measure * 96)).filter (acc < ·)

theorem mem_stopsBeyond {c : LineCopy} {acc position : Nat} {stops : List Nat} :
    position ∈ stopsBeyond c acc stops ↔ (∃ t ∈ stops, t ≠ 0 ∧ position = min t c.measure * 96) ∧ acc < position := by
  simp only [stopsBeyond, List.mem_filter, List.mem_map, decide_eq_true_eq, and_assoc, eq_comm (a := position)]

theorem stopsBeyond_cons (c : LineCopy) (acc t : Nat) (rest : List Nat) :
    stopsBeyond c acc (t :: rest) =
      if t ≠ 0 ∧ acc < min t c.measure * 96 then min t c.measure * 96 :: stopsBeyond c acc rest
      else stopsBeyond c acc rest := by
  by_cases cleared : t = 0
  · simp [stopsBeyond, cleared]
  · simp [stopsBeyond, cleared, List.filter_cons]

/-- The search along the stops finds the least of those beyond the accumulator. -/
theorem nextStop_eq_min? (c : LineCopy) (acc : Nat) (stops : List Nat) :
    nextStop c acc stops = (stopsBeyond c acc stops).min? := by
  induction stops with
  | nil => rfl
  | cons t rest ih =>
    rw [nextStop, stopsBeyond_cons, ih]
    by_cases beyond : t ≠ 0 ∧ acc < min t c.measure * 96
    · rw [if_pos beyond, if_pos beyond, List.min?_cons]
      cases (stopsBeyond c acc rest).min? <;> rfl
    · rw [if_neg beyond, if_neg beyond]

/-- Settles O23: the gap runs to the least stop beyond the accumulator, when there is one. -/
theorem tabGoesToTheNextStop : Obligations.TabGoesToTheNextStop := by
  intro c acc
  dsimp only
  rw [tabGap, nextStop_eq_min?]
  refine ⟨fun none_beyond => ?_, fun ⟨position, hstop, hbeyond⟩ => ?_⟩
  · have empty : stopsBeyond c acc c.tabs = [] :=
      List.eq_nil_iff_forall_not_mem.2 fun p hp =>
        Nat.not_lt.2 (none_beyond p (mem_stopsBeyond.1 hp).1) (mem_stopsBeyond.1 hp).2
    rw [empty]
    rfl
  · have some_beyond : position ∈ stopsBeyond c acc c.tabs := mem_stopsBeyond.2 ⟨hstop, hbeyond⟩
    obtain ⟨q, hq⟩ := Option.isSome_iff_exists.1 (List.isSome_min?_of_mem some_beyond)
    obtain ⟨q_mem, q_least⟩ := List.min?_eq_some_iff.1 hq
    obtain ⟨q_stop, q_beyond⟩ := mem_stopsBeyond.1 q_mem
    rw [hq]
    dsimp only
    rw [Nat.add_sub_cancel' (Nat.le_of_lt q_beyond)]
    exact ⟨q_stop, Nat.sub_pos_of_lt q_beyond, fun p p_stop p_beyond => q_least p (mem_stopsBeyond.2 ⟨p_stop, p_beyond⟩)⟩

/-! ### Widths and items, cell by cell (R88, R105) -/

/-- R105: a broken BREAK at the line's end adds the break glyph's advance. -/
theorem sumFine_broken_break (b : Bank) (c : LineCopy) (cells : List Cell) (width : Nat) :
    sumFine c (cells ++ [.brk width true (breakAdvance b)]) = sumFine c cells + breakAdvance b * (5 * c.size) :=
  sumFine_append c cells _

/-! ### The last field (R124) -/

/-- The last field is cut off behind the last TAB. -/
theorem lastField_eq_rtakeWhile (cells : List Cell) : lastField cells = cells.rtakeWhile (fun x => !x.isTab) := rfl

theorem firstFields_append_lastField (cells : List Cell) : firstFields cells ++ lastField cells = cells :=
  List.suffix_iff_eq_append.1 (List.rtakeWhile_suffix _ _)

theorem firstFields_eq_rdropWhile (cells : List Cell) : firstFields cells = cells.rdropWhile (fun x => !x.isTab) :=
  List.append_cancel_right ((firstFields_append_lastField cells).trans List.rdropWhile_append_rtakeWhile.symm)

theorem lastField_no_tab (cells : List Cell) : (lastField cells).any Cell.isTab = false := by
  rw [lastField_eq_rtakeWhile]
  refine List.any_eq_false.2 fun x hx => ?_
  simpa using List.mem_rtakeWhile_imp hx

theorem firstFields_getLast_isTab {cells : List Cell} (h : firstFields cells ≠ []) :
    (firstFields cells).getLast?.any Cell.isTab = true := by
  rw [firstFields_eq_rdropWhile] at h ⊢
  rw [List.getLast?_eq_some_getLast h]
  simpa using List.rdropWhile_last_not _ _ h

/-! ### Strokes leave the spaces alone (R130) -/

theorem isSpace_withStrokes (n : Nat) (x : Cell) : (x.withStrokes n).isSpace = x.isSpace := by cases x <;> rfl

theorem spaceCount_giveStrokes (b : Bank) (each extra : Nat) (cells : List Cell) :
    spaceCount (giveStrokes b each extra cells) = spaceCount cells := by
  induction extra, cells using giveStrokes.induct b with
  | case1 extra x y rest point ih => rw [giveStrokes, if_pos point, spaceCount, spaceCount, isSpace_withStrokes, ih]
  | case2 extra x y rest point ih => rw [giveStrokes, if_neg point, spaceCount, spaceCount, ih]
  | case3 extra cells short => rw [giveStrokes]; exact short

theorem spaceCount_withStrokes (b : Bank) (total : Nat) (cells : List Cell) :
    spaceCount (withStrokes b total cells) = spaceCount cells := spaceCount_giveStrokes b _ _ cells

/-- R130: the strokes fit the slack that phase 2 finds. -/
theorem strokeTotal_mul_strokeWidth_le (b : Bank) (c : LineCopy) (points slack budget : Nat) :
    strokeTotal b c points slack budget * strokeWidth b c ≤ slack := by
  unfold strokeTotal
  split
  · exact (Nat.mul_le_mul_right _ (min_le_left _ _)).trans (Nat.div_mul_le_self _ _)
  · rw [Nat.zero_mul]
    exact Nat.zero_le _

/-! ### The widest space of a shared extra (R131, R132) -/

/-- R131: no space is set wider than the first. -/
theorem spread_space_le {width extra : Nat} {cells : List Cell} {y : Cell × Nat} (hy : y ∈ spread width extra cells)
    (space : y.1.isSpace = true) : y.2 ≤ width + (if 0 < extra then 1 else 0) := by
  induction cells generalizing extra with
  | nil => cases hy
  | cons x rest ih =>
    by_cases hx : x.isSpace = true
    · rw [spread, if_pos hx, List.mem_cons] at hy
      obtain rfl | hy := hy
      · dsimp only
        split <;> omega
      · have rest_le := ih hy
        split at rest_le <;> split <;> omega
    · rw [spread, if_neg hx, List.mem_cons] at hy
      obtain rfl | hy := hy
      · exact absurd space hx
      · exact ih hy

/-- R131: the first space takes the quotient, and one more when there is a remainder. -/
theorem spread_first_space {width extra : Nat} {cells : List Cell} (h : 0 < spaceCount cells) :
    ∃ y ∈ spread width extra cells, y.1.isSpace = true ∧ y.2 = width + (if 0 < extra then 1 else 0) := by
  induction cells with
  | nil => cases h
  | cons x rest ih =>
    by_cases hx : x.isSpace = true
    · rw [spread, if_pos hx]
      refine ⟨_, List.mem_cons_self, hx, ?_⟩
      dsimp only
      split <;> rfl
    · rw [spaceCount, if_neg hx, Nat.zero_add] at h
      obtain ⟨y, hy, widest⟩ := ih h
      rw [spread, if_neg hx]
      exact ⟨y, List.mem_cons_of_mem _ hy, widest⟩

/-- R132: some space passes a width exactly when the first one does. -/
theorem share_passes_iff {least extra greatest : Nat} {cells : List Cell} (h : 0 < spaceCount cells) :
    (∃ y ∈ share least extra cells, y.1.isSpace = true ∧ greatest < y.2) ↔
      greatest < least + extra / spaceCount cells + (if 0 < extra % spaceCount cells then 1 else 0) := by
  constructor
  · rintro ⟨y, hy, space, passes⟩
    exact passes.trans_le (spread_space_le hy space)
  · intro passes
    obtain ⟨y, hy, space, width⟩ := spread_first_space (width := least + extra / spaceCount cells) h
    exact ⟨y, hy, space, width ▸ passes⟩

/-! ### The three phases (R127 to R132) -/

/-- R130: the strokes that phase 2 gives a field. -/
def strokesGiven (b : Bank) (c : LineCopy) (slack budget : Nat) (field : List Cell) : Nat :=
  strokeTotal b c (pointCount b field) (slack - phaseOne c slack field) budget

/-- R130: the slack that phases 1 and 2 leave. -/
def slackAfterStrokes (b : Bank) (c : LineCopy) (slack budget : Nat) (field : List Cell) : Nat :=
  slack - phaseOne c slack field - strokesGiven b c slack budget field * strokeWidth b c

/-- R131: the extra of phase 3. -/
def extraOf (b : Bank) (c : LineCopy) (slack budget : Nat) (field : List Cell) : Nat :=
  phaseOne c slack field + slackAfterStrokes b c slack budget field

/-- R131: strokes and extra take up the slack whole. -/
theorem strokes_and_extra_fill_slack (b : Bank) (c : LineCopy) (slack budget : Nat) (field : List Cell) :
    strokesGiven b c slack budget field * strokeWidth b c + extraOf b c slack budget field = slack := by
  have phase1 : phaseOne c slack field ≤ slack := min_le_left _ _
  have strokes : strokesGiven b c slack budget field * strokeWidth b c ≤ slack - phaseOne c slack field :=
    strokeTotal_mul_strokeWidth_le b c _ _ budget
  rw [extraOf, slackAfterStrokes]
  omega

theorem threePhases_of_no_space {b : Bank} {c : LineCopy} {slack budget : Nat} {field : List Cell}
    (h : spaceCount field = 0) :
    threePhases b c slack budget field =
      (asAppended c (withStrokes b (strokesGiven b c slack budget field) field),
        decide (0 < slackAfterStrokes b c slack budget field)) := if_pos h

/-- R132: with a space in the field, LOOSE is read off the spaces as they are set. -/
theorem threePhases_of_space {b : Bank} {c : LineCopy} {slack budget : Nat} {field : List Cell}
    (h : 0 < spaceCount field) :
    threePhases b c slack budget field =
      let set := share (c.fine c.effMin) (extraOf b c slack budget field)
        (withStrokes b (strokesGiven b c slack budget field) field)
      (set, decide (∃ y ∈ set, y.1.isSpace = true ∧ c.fine c.effMax < y.2)) := by
  have stroked := spaceCount_withStrokes b (strokesGiven b c slack budget field) field
  refine (if_neg h.ne').trans (Prod.ext rfl (decide_eq_decide.2 ?_))
  rw [share_passes_iff (stroked ▸ h), stroked]
  rfl

/-! ### The line justified (R124, R133 to R135) -/

/-- R124, R126: the line's cells with their TABs filled, and the budget left. -/
def filledLine (b : Bank) (c : LineCopy) (cells : List Cell) : List Cell × Nat :=
  fillTabs b c cells (255 - sumItems b cells)

/-- R127: the slack before the three phases. -/
def lineSlack (c : LineCopy) (cells : List Cell) : Nat := c.measure * 96 - sumFine c cells

section
variable {b : Bank} {c : LineCopy} {kind : EndKind} {overset : Bool} {cells : List Cell}

theorem justify_of_overset (h : overset = true) :
    justify b c kind overset cells =
      ⟨asAppended c (firstFields (filledLine b c cells).1) ++ asAppended c (lastField (filledLine b c cells).1), 0, false⟩ :=
  if_pos h

theorem justify_of_other_mode {offset : Nat} (h : overset = false) (hmode : c.mode ≠ .justify)
    (hoffset : modeOffset c (lineSlack c cells) = offset) :
    justify b c kind overset cells =
      ⟨asAppended c (firstFields (filledLine b c cells).1) ++ asAppended c (lastField (filledLine b c cells).1),
        offset, false⟩ := by
  rw [← hoffset]
  exact (if_neg (Bool.eq_false_iff.1 h)).trans (if_pos hmode)

theorem justify_of_overflow {phases : List (Cell × Nat) × Bool} (h : overset = false) (hmode : c.mode = .justify)
    (hkind : kind = .overflow)
    (hphases :
      threePhases b c (lineSlack c cells) (filledLine b c cells).2 (lastField (filledLine b c cells).1) = phases) :
    justify b c kind overset cells =
      ⟨asAppended c (firstFields (filledLine b c cells).1) ++ phases.1, 0, phases.2⟩ := by
  rw [← hphases]
  exact (if_neg (Bool.eq_false_iff.1 h)).trans ((if_neg (not_not.2 hmode)).trans (if_pos hkind))

theorem justify_of_other_kind (h : overset = false) (hmode : c.mode = .justify) (hkind : kind ≠ .overflow) :
    justify b c kind overset cells =
      ⟨asAppended c (firstFields (filledLine b c cells).1)
          ++ share (c.fine c.effMin) (phaseOne c (lineSlack c cells) (lastField (filledLine b c cells).1))
              (lastField (filledLine b c cells).1), 0, false⟩ :=
  (if_neg (Bool.eq_false_iff.1 h)).trans ((if_neg (not_not.2 hmode)).trans (if_neg hkind))

end

/-- Settles O28: the widths and items cell by cell, the line by its mode and its kind, and the cut at the last TAB. -/
theorem justifiedByModeAndKind : Obligations.JustifiedByModeAndKind := by
  refine ⟨fun b c x rest => ?_, fun b c kind overset cells => ⟨?_, ?_, ?_, ?_, ?_, ?_⟩, fun cells => ?_⟩
  · refine ⟨rfl, ?_, rfl, ?_, sumFine_broken_break b c rest, ?_⟩
    · cases x <;> rfl
    · cases x <;> rfl
    · cases x <;> rfl
  · exact justify_of_overset
  · exact fun h hmode => justify_of_other_mode h (by simp [hmode]) (by simp only [modeOffset, hmode])
  · exact fun h hmode => justify_of_other_mode h (by simp [hmode]) (by simp only [modeOffset, hmode, lineSlack])
  · exact fun h hmode => justify_of_other_mode h (by simp [hmode]) (by simp only [modeOffset, hmode, lineSlack])
  · exact justify_of_other_kind
  · intro h hmode hkind
    refine ⟨fun no_space => ?_, fun some_space => ⟨?_, fun fits => ?_⟩⟩
    · exact justify_of_overflow h hmode hkind (threePhases_of_no_space no_space)
    · exact justify_of_overflow h hmode hkind (threePhases_of_space some_space)
    · have filled := strokes_and_extra_fill_slack b c (lineSlack c cells) (filledLine b c cells).2
        (lastField (filledLine b c cells).1)
      rw [Nat.add_assoc]
      exact (congrArg (sumFine c cells + ·) filled).trans (Nat.add_sub_cancel' fits)
  · exact ⟨firstFields_append_lastField cells, lastField_no_tab cells, firstFields_getLast_isTab⟩

end Sys2Proof.Proofs
end

section
/-! SUPPORT. Items written and read back (O41). -/

namespace Sys2Proof.Proofs

open Sys2Proof.Machine Sys2Proof.Safety

/-! ### An item's places in its table (R69, R188) -/

/-- The places of two items overlap only where they are one item. -/
theorem place_in_item_iff {size i j p : Nat} (hp : p < size) :
    (i * size ≤ j * size + p ∧ j * size + p < i * size + size) ↔ j = i := by
  constructor
  · rintro ⟨hlow, hhigh⟩
    have above : ¬ j + 1 ≤ i := fun h => by
      have := Nat.mul_le_mul_right size h
      rw [Nat.succ_mul] at this
      omega
    have below : ¬ i + 1 ≤ j := fun h => by
      have := Nat.mul_le_mul_right size h
      rw [Nat.succ_mul] at this
      omega
    omega
  · rintro rfl
    omega

/-- An item is its table's bytes place by place. -/
theorem item_eq_map (b : Bank) (k : TableKind) (i : Nat) :
    b.item k i = (List.range k.itemSize).map fun p => memRead (b.table k) (i * k.itemSize + p) :=
  memReadBytes_eq_map _ _ _

/-- An item depends on its own table alone. -/
theorem item_congr {b b' : Bank} {k : TableKind} (h : b'.table k = b.table k) (i : Nat) : b'.item k i = b.item k i := by
  rw [Bank.item, h, Bank.item]

section
variable {b : Bank} {k : TableKind} {i : Nat} {bytes : List Byte}

/-- R74: a byte of the table after an item is written: the byte sent inside that item, the byte as it was in any other. -/
theorem memRead_writeItem (hlen : bytes.length = k.itemSize) (hwf : (b.table k).wf = true) {j p : Nat}
    (hp : p < k.itemSize) :
    memRead ((b.writeItem k i bytes).table k) (j * k.itemSize + p) =
      if j = i then bytes.getD p 0 else memRead (b.table k) (j * k.itemSize + p) := by
  rw [writeItem_table, if_pos rfl, memRead_memWriteBytes hwf, hlen]
  simp only [place_in_item_iff hp]
  split
  · next h => rw [h, Nat.add_sub_cancel_left]
  · rfl

/-- R74, R80: the item written reads back as sent. -/
theorem writeItem_item_same (hlen : bytes.length = k.itemSize) (hwf : (b.table k).wf = true) :
    (b.writeItem k i bytes).item k i = bytes := by
  rw [item_eq_map]
  refine List.ext_getElem (by simp [hlen]) fun p _ hp => ?_
  rw [List.getElem_map, List.getElem_range, memRead_writeItem hlen hwf (hlen ▸ hp), if_pos rfl]
  exact List.getD_eq_getElem bytes 0 hp

theorem writeItem_item_of_ne {j : Nat} (hlen : bytes.length = k.itemSize) (hwf : (b.table k).wf = true) (hj : j ≠ i) :
    (b.writeItem k i bytes).item k j = b.item k j := by
  rw [item_eq_map, item_eq_map]
  refine List.map_congr_left fun p hp => ?_
  rw [memRead_writeItem hlen hwf (List.mem_range.1 hp), if_neg hj]

end

/-- A bank without stored bytes reads as zeros in every place. -/
theorem item_of_no_bytes (k : TableKind) (i : Nat) (valid : Bool) :
    (⟨[], [], [], [], valid⟩ : Bank).item k i = List.replicate k.itemSize 0 := by
  have empty : (⟨[], [], [], [], valid⟩ : Bank).table k = [] := by cases k <;> rfl
  have zeros : (List.range k.itemSize).map (fun _ => (0 : Byte)) = List.replicate (List.range k.itemSize).length 0 :=
    List.map_const'
  rw [List.length_range] at zeros
  rw [item_eq_map, empty]
  exact zeros

/-- Settles O41: the written item place by place, another item of its table, and another table. -/
theorem writtenItemReadsBack : Obligations.WrittenItemReadsBack := by
  refine ⟨fun k i valid => ⟨by cases k <;> rfl, item_of_no_bytes k i valid⟩, fun b k i j bytes hlen hwf => ?_⟩
  refine ⟨writeItem_item_same hlen hwf, writeItem_item_of_ne hlen hwf, fun k' hk => ?_, setTable_valid _ _ _⟩
  exact item_congr ((writeItem_table b k k' i bytes).trans (if_neg hk)) j

end Sys2Proof.Proofs
end

section
/-! SUPPORT. A provisional letter settled (O21), and a letter looked up for a ligature and merged (O22). -/

namespace Sys2Proof.Proofs

open Sys2Proof.Machine Sys2Proof.Safety

/-! ### What a glyph entry's bytes say (R61, R63 to R66, R188) -/

/-- A bit of a byte, read off its value. -/
theorem getLsbD_eq_decide (b : Byte) (i : Nat) : b.getLsbD i = decide (b.toNat / 2 ^ i % 2 = 1) :=
  Nat.testBit_eq_decide_div_mod_eq

section
variable {b : Bank} {g : Nat} {b0 b1 b2 b3 b4 b5 b6 b7 b8 b9 : Byte}

theorem faceOf_of_item (h : b.item .glyphs g = [b0, b1, b2, b3, b4, b5, b6, b7, b8, b9]) :
    faceOf b g = BitVec.ofNat 6 (b0.toNat % 64) := by
  have first : glyphByte b g 0 = b0 := glyphByte_of_item h (by decide)
  rw [faceOf, first, extractLsb'_eq_ofNat_div, pow_zero, Nat.div_one]
  exact BitVec.eq_of_toNat_eq (by simp only [BitVec.toNat_ofNat]; omega)

theorem sideOf_of_item (h : b.item .glyphs g = [b0, b1, b2, b3, b4, b5, b6, b7, b8, b9]) :
    sideOf b g = if b0.toNat / 64 % 2 = 1 then .below else .above := by
  have first : glyphByte b g 0 = b0 := glyphByte_of_item h (by decide)
  simp only [sideOf, first, getLsbD_eq_decide, decide_eq_true_eq]
  rfl

theorem extendableOf_of_item (h : b.item .glyphs g = [b0, b1, b2, b3, b4, b5, b6, b7, b8, b9]) :
    extendableOf b g = decide (b3.toNat / 2 % 2 = 1) := by
  have fourth : glyphByte b g 3 = b3 := glyphByte_of_item h (by decide)
  rw [extendableOf, fourth, getLsbD_eq_decide, pow_one]

theorem formsOf_of_item (h : b.item .glyphs g = [b0, b1, b2, b3, b4, b5, b6, b7, b8, b9]) :
    formsOf b g = b6.toNat * 2 ^ 24 + b7.toNat * 2 ^ 16 + b8.toNat * 2 ^ 8 + b9.toNat := by
  have h6 : glyphByte b g 6 = b6 := glyphByte_of_item h (by decide)
  have h7 : glyphByte b g 7 = b7 := glyphByte_of_item h (by decide)
  have h8 : glyphByte b g 8 = b8 := glyphByte_of_item h (by decide)
  have h9 : glyphByte b g 9 = b9 := glyphByte_of_item h (by decide)
  rw [formsOf, h6, h7, h8, h9, pairValue, pairValue]
  omega

end

/-! ### Joins and transparency (R90, R96) -/

theorem glyphOffersBack_eq (b : Bank) (g : Nat) :
    glyphOffersBack b g = decide (joiningOf b g = .dual ∨ joiningOf b g = .right ∨ joiningOf b g = .cause) := by
  unfold glyphOffersBack
  cases joiningOf b g <;> rfl

theorem glyphOffersForward_eq (b : Bank) (g : Nat) :
    glyphOffersForward b g = decide (joiningOf b g = .dual ∨ joiningOf b g = .cause) := by
  unfold glyphOffersForward
  cases joiningOf b g <;> rfl

theorem letter_transparent_eq (b : Bank) (l : Letter) :
    (Cell.letter l).transparent b = (glyphTransparent b l.glyph && l.second.all (glyphTransparent b)) := by
  show l.transparent b = _
  unfold Letter.transparent
  cases l.second <;> rfl

/-! ### The letter at a place -/

theorem letterAt_append (before after : List Cell) (l : Letter) :
    letterAt (before ++ .letter l :: after) before.length = some l := by
  simp [letterAt]

theorem set_append_cons (before after : List Cell) (x y : Cell) :
    (before ++ x :: after).set before.length y = before ++ y :: after := by
  simp

/-- R98: the letter at a place settles as its neighbours give, and its width joins the accumulator. -/
theorem settleAt_of_cells (b : Bank) (c : LineCopy) {ln : Line} {before after : List Cell} {l : Letter} (nextOffers : Bool)
    (h : ln.cells = before ++ .letter l :: after) :
    ln.settleAt b c nextOffers before.length =
      { ln with
        cells := before ++ .letter (settledLetter b before l nextOffers) :: after
        acc := ln.acc + (settledLetter b before l nextOffers).width * (5 * c.size) } := by
  rw [Line.settleAt, h, letterAt_append, settledLetter_eq]
  simp only [List.take_left, set_append_cons, LineCopy.fine]

theorem settleProvisional_of_provisional (offers : Bool) {s : State} {before after : List Cell} {l : Letter}
    (h : s.shaper.line.cells = before ++ .letter l :: after) (hbefore : allSettled before = true) (hl : l.settled = false) :
    settleProvisional offers s =
      some (ligateAt before.length (s.setLine (s.shaper.line.settleAt s.bank s.copy offers before.length))) := by
  rw [settleProvisional, h, provisionalIndex_append before after l hbefore hl]

/-- Settles O21: the entry's bytes one by one, the first letter that is not settled, and the letter it becomes. -/
theorem settlementChoosesForm : Obligations.SettlementChoosesForm := by
  refine ⟨fun b g => ⟨?_, rfl, fun x => ?_, fun a => by cases a <;> rfl, glyphOffersBack_eq b g, glyphOffersForward_eq b g,
    fun _ => rfl, fun _ => rfl, fun _ => rfl, fun _ _ _ => rfl, fun _ => rfl⟩, fun offers s before after l => ?_, ?_⟩
  · intro b0 b1 b2 b3 b4 b5 b6 b7 b8 b9 h
    have byte {j : Nat} (hj : j < 10) := glyphByte_of_item h hj
    refine ⟨?_, faceOf_of_item h, sideOf_of_item h, byte (j := 1) (by decide), ?_, extendableOf_of_item h, ?_, ?_,
      formsOf_of_item h⟩
    · have fourth : glyphByte b g 3 = b3 := byte (j := 3) (by decide)
      subst fourth
      rfl
    · exact congrArg BitVec.toNat (byte (j := 2) (by decide))
    · exact congrArg BitVec.toNat (byte (j := 4) (by decide))
    · exact congrArg BitVec.toNat (byte (j := 5) (by decide))
  · cases x with
    | letter l =>
      refine (letter_transparent_eq b l).trans ?_
      dsimp only
      cases l.second <;> rfl
    | _ => rfl
  · exact ⟨settleProvisional_of_settled offers s, settleProvisional_of_provisional offers⟩
  · intro b c ln before after l nextOffers h
    exact settleAt_of_cells b c nextOffers h

/-! ### The ligature lookup (R67) -/

/-- R67: entry `i` is not empty and names the pair. -/
def NamesPair (b : Bank) (first second i : Nat) : Prop :=
  ligatureField b i 0 ≠ 0 ∧ ligatureField b i 0 = first ∧ ligatureField b i 2 = second

/-- Among `n` entries from `i` on, `k` is the lowest that names the pair. -/
structure LowestFrom (b : Bank) (first second i n k : Nat) : Prop where
  low : i ≤ k
  high : k < i + n
  names : NamesPair b first second k
  lowest : ∀ j, i ≤ j → j < k → ¬ NamesPair b first second j

/-- R67: the search finds the result of the lowest entry that names the pair. -/
theorem ligatureFrom_eq_some_iff (b : Bank) (first second g n i : Nat) :
    ligatureFrom b first second n i = some g ↔
      ∃ k, LowestFrom b first second i n k ∧ ligatureField b k 4 = g := by
  induction n generalizing i with
  | zero =>
    refine ⟨fun h => (by cases h), ?_⟩
    rintro ⟨k, hk, -⟩
    have := hk.low
    have := hk.high
    omega
  | succ n ih =>
    unfold ligatureFrom
    split
    · next here =>
      rw [Option.some.injEq]
      constructor
      · exact fun hg => ⟨i, ⟨Nat.le_refl i, by omega, here, fun j hlow hhigh => by omega⟩, hg⟩
      · rintro ⟨k, hk, hg⟩
        rcases Nat.eq_or_lt_of_le hk.low with rfl | later
        · exact hg
        · exact absurd here (hk.lowest i (Nat.le_refl i) later)
    · next other =>
      rw [ih]
      constructor
      · rintro ⟨k, hk, hg⟩
        refine ⟨k, ⟨Nat.le_of_succ_le hk.low, by have := hk.high; omega, hk.names, fun j hlow hhigh => ?_⟩, hg⟩
        rcases Nat.eq_or_lt_of_le hlow with rfl | later
        · exact other
        · exact hk.lowest j later hhigh
      · rintro ⟨k, hk, hg⟩
        have later : i ≠ k := fun h => other (h ▸ hk.names)
        have := hk.low
        have := hk.high
        exact ⟨k, ⟨by omega, by omega, hk.names, fun j hlow => hk.lowest j (by omega)⟩, hg⟩

/-- R67: the pair has a result when the lowest entry's result is usable; no later entry is consulted. -/
theorem ligatureOf_eq_some_iff (b : Bank) (first second g : Nat) :
    ligatureOf b first second = some g ↔ ligatureFrom b first second 256 0 = some g ∧ usable b g = true := by
  unfold ligatureOf
  cases ligatureFrom b first second 256 0 with
  | none => simp
  | some r =>
    by_cases hr : usable b r = true
    · rw [Option.some.injEq]
      dsimp only
      rw [if_pos hr, Option.some.injEq]
      exact ⟨fun h => ⟨h, h ▸ hr⟩, fun h => h.1⟩
    · dsimp only
      rw [if_neg hr, Option.some.injEq]
      exact ⟨fun h => (by cases h), fun ⟨h, hg⟩ => absurd (h ▸ hg) hr⟩

theorem ligatureField_of_item {b : Bank} {i k : Nat} {bytes : List Byte} (h : b.item .ligatures i = bytes) (hk : k + 1 < 6) :
    ligatureField b i k = (bytes.getD k 0).toNat * 256 + (bytes.getD (k + 1) 0).toNat := by
  have high : memRead b.ligatures (i * 6 + k) = bytes.getD k 0 :=
    memRead_of_item h (Nat.lt_of_succ_lt (show k + 1 < TableKind.ligatures.itemSize from hk))
  have low : memRead b.ligatures (i * 6 + k + 1) = bytes.getD (k + 1) 0 := memRead_of_item h (j := k + 1) hk
  rw [ligatureField, high, low, pairValue]

/-! ### The letter looked up and merged (R100, R101) -/

/-- R100: the lookup is made with a settled LETTER that is no ligature, with no unbroken BREAK before the next neighbour. -/
def LooksUp (b : Bank) (e : Letter) (after : List Cell) : Prop :=
  e.settled = true ∧ e.second = none ∧ (after.takeWhile (fun x => x.transparent b)).any Cell.isUnbrokenBreak = false

/-- R100: what a lookup with the LETTER just before it finds. -/
theorem ligatureResult_of_letters (b : Bank) (before after : List Cell) (e l : Letter) :
    ligatureResult b (before ++ .letter e :: .letter l :: after) (before.length + 1) =
      if e.settled && !e.isLigature && !(after.takeWhile (fun x => x.transparent b)).any Cell.isUnbrokenBreak then
        (ligatureOf b e.setGlyph l.setGlyph).map fun g => (g, e, l)
      else none := by
  have earlier : letterAt (before ++ .letter e :: .letter l :: after) before.length = some e := letterAt_append _ _ _
  have later : letterAt (before ++ .letter e :: .letter l :: after) (before.length + 1) = some l := by simp [letterAt]
  have rest : (before ++ .letter e :: .letter l :: after).drop (before.length + 1 + 1) = after := by
    rw [← List.drop_drop, ← List.drop_drop, List.drop_left]
    rfl
  simp only [ligatureResult, earlier, later, breakFollows, rest]
  cases ligatureOf b e.setGlyph l.setGlyph <;> rfl

theorem looksUp_iff (b : Bank) (e : Letter) (after : List Cell) :
    LooksUp b e after ↔
      (e.settled && !e.isLigature && !(after.takeWhile (fun x => x.transparent b)).any Cell.isUnbrokenBreak) = true := by
  simp only [LooksUp, Letter.isLigature, Bool.and_eq_true, Bool.not_eq_true', Option.isSome_eq_false_iff,
    Option.isNone_iff_eq_none, and_assoc]

/-- R100: no LETTER just before, no lookup. -/
theorem ligatureResult_of_no_letter (b : Bank) {before : List Cell} (rest : List Cell)
    (h : ∀ e, before.getLast? ≠ some (.letter e)) : ligatureResult b (before ++ rest) before.length = none := by
  rcases List.eq_nil_or_concat before with rfl | ⟨earlier, x, rfl⟩
  · rfl
  · rw [List.concat_eq_append] at h ⊢
    have last : letterAt (earlier ++ [x] ++ rest) earlier.length = none := by
      cases x with
      | letter e => exact absurd (by simp) (h e)
      | _ => simp [letterAt]
    rw [List.length_append, List.length_singleton, ligatureResult, last]

/-- The line as it was, where the lookup is not made or finds nothing. -/
theorem ligate_of_none {b : Bank} (c : LineCopy) {ln : Line} {i : Nat} (h : ligatureResult b ln.cells i = none) :
    ln.ligate b c i = (ln, i, 0) := by
  rw [Line.ligate, h]

/-- R97: a form by its two joins. -/
theorem formOf_eq_ite (previous next : Bool) :
    formOf previous next =
      if previous then (if next then .medial else .final) else (if next then .initial else .isolated) := by
  cases previous <;> cases next <;> rfl

theorem joinsPrevious_eq (f : Form) : f.joinsPrevious = decide (f = .medial ∨ f = .final) := by cases f <;> rfl

theorem ite_flagMarkOverflow (dropped : Nat) (ln : Line) :
    (if dropped = 0 then ln else ln.flagMarkOverflow) =
      { ln with flags := { ln.flags with markOverflow := ln.flags.markOverflow || decide (dropped ≠ 0) } } := by
  by_cases h : dropped = 0
  · simp [h]
  · simp [h, Line.flagMarkOverflow]

/-- R101: the two cells become one; the widths, the items and the flag follow. -/
theorem ligate_of_some {b : Bank} (c : LineCopy) {ln : Line} {before after : List Cell} {e l : Letter} {g : Nat}
    (hcells : ln.cells = before ++ .letter e :: .letter l :: after)
    (h : ligatureResult b ln.cells (before.length + 1) = some (g, e, l)) :
    ln.ligate b c (before.length + 1) =
      ({ ln with
          cells := before ++ .letter (mergeLetters b g e l).1 :: after
          acc := ln.acc - c.fine e.width - c.fine l.width + c.fine (advanceOf b g)
          items := ln.items - 1 - (mergeLetters b g e l).2
          flags :=
            { ln.flags with markOverflow := ln.flags.markOverflow || decide ((mergeLetters b g e l).2 ≠ 0) } },
        before.length, (mergeLetters b g e l).2) := by
  have merged : (ln.cells.set before.length (.letter (mergeLetters b g e l).1)).eraseIdx (before.length + 1) =
      before ++ .letter (mergeLetters b g e l).1 :: after := by
    rw [hcells, set_append_cons, List.eraseIdx_append_of_length_le (Nat.le_succ _)]
    simp
  simp only [Line.ligate, h, Nat.add_sub_cancel, merged, ite_flagMarkOverflow]
  rfl

/-- R104: the marks a lookup drops are counted, up to 65535. -/
theorem ligateAt_eq (i : Nat) (s : State) :
    ligateAt i s =
      ({ s with
          shaper := { s.shaper with line := (s.shaper.line.ligate s.bank s.copy i).1 }
          reply :=
            { s.reply with
              counters :=
                { s.reply.counters with
                  markOverflow :=
                    if (s.shaper.line.ligate s.bank s.copy i).2.2 = 0 then s.reply.counters.markOverflow
                    else min 65535 (s.reply.counters.markOverflow + (s.shaper.line.ligate s.bank s.copy i).2.2) } } },
        (s.shaper.line.ligate s.bank s.copy i).2.1) := by
  unfold ligateAt
  dsimp only
  split <;> rfl

/-- Settles O22: the search, the lookup that finds nothing, the merge, and the marks dropped. -/
theorem ligatureLookupAndMerge : Obligations.LigatureLookupAndMerge := by
  refine ⟨fun b first second => ⟨fun g => ?_, fun i f1 f0 s1 s0 r1 r0 h => ?_⟩, fun b c ln before after e l hcells => ?_,
    fun b c ln before after l hcells hlast => ?_, ligateAt_eq, fun x => by cases x <;> rfl⟩
  · rw [ligatureOf_eq_some_iff, ligatureFrom_eq_some_iff]
    constructor
    · rintro ⟨⟨k, hk, hg⟩, husable⟩
      exact ⟨k, by simpa using hk.high, hk.names, fun j => hk.lowest j (Nat.zero_le j), hg, husable⟩
    · rintro ⟨k, hk, hnames, hlowest, hg, husable⟩
      exact ⟨⟨k, ⟨Nat.zero_le k, by simpa using hk, hnames, fun j _ => hlowest j⟩, hg⟩, husable⟩
  · have field {k : Nat} (hk : k + 1 < 6) := ligatureField_of_item h hk
    exact ⟨by simpa using field (k := 0) (by decide), by simpa using field (k := 2) (by decide),
      by simpa using field (k := 4) (by decide)⟩
  · have found := ligatureResult_of_letters b before after e l
    rw [← hcells] at found
    refine ⟨fun hnone => ligate_of_none c (found.trans ?_), fun g hlook hresult => ?_⟩
    · rcases hnone with hlook | hresult
      · exact if_neg (mt (looksUp_iff b e after).2 hlook)
      · rw [hresult, Option.map_none, ite_self]
    · rw [hresult, if_pos ((looksUp_iff b e after).1 hlook)] at found
      rw [ligate_of_some c hcells found]
      simp only [mergeLetters, formOf_eq_ite, joinsPrevious_eq, joinsNext_eq, or_comm (a := l.form = .medial), LineCopy.fine]
  · exact ligate_of_none c (hcells ▸ ligatureResult_of_no_letter b _ hlast)

end Sys2Proof.Proofs
end

section
/-! SUPPORT. What a command can make of the table block: the banks as they stood, work on the standby bank, or an exchange of
the roles (O50, O54). -/

namespace Sys2Proof.Proofs

open Sys2Proof.Machine Sys2Proof.Safety

/-! ### The shaper's work before a line end leaves the tables and the wait (R90 to R108) -/

/-- The tables and the line end that waits are as they were. -/
structure TablesStand (s t : State) : Prop where
  tables : t.tables = s.tables
  waiting : t.shaper.waiting = s.shaper.waiting

theorem TablesStand.refl (s : State) : TablesStand s s := ⟨rfl, rfl⟩

theorem TablesStand.trans {s t u : State} (h : TablesStand s t) (k : TablesStand t u) : TablesStand s u :=
  ⟨k.tables.trans h.tables, k.waiting.trans h.waiting⟩

theorem tablesStand_setLine (s : State) (ln : Line) : TablesStand s (s.setLine ln) := ⟨rfl, rfl⟩

theorem tablesStand_ligateAt (i : Nat) (s : State) : TablesStand s (ligateAt i s).1 := by
  rw [ligateAt_eq]
  exact ⟨rfl, rfl⟩

theorem tablesStand_settleProvisional {offers : Bool} {s : State} {r : State × Nat}
    (h : settleProvisional offers s = some r) : TablesStand s r.1 := by
  unfold settleProvisional at h
  split at h <;> cases h
  exact (tablesStand_setLine s _).trans (tablesStand_ligateAt _ _)

theorem tablesStand_fitTest (i : Nat) (s : State) : TablesStand s (fitTest i s).state := by
  unfold fitTest
  split <;> exact .refl s

theorem tablesStand_appendArrival (a : Arrival) (s : State) : TablesStand s (appendArrival a s).state := by
  cases a with
  | letter g =>
    unfold appendArrival
    dsimp only
    split
    · exact ((tablesStand_setLine s _).trans (tablesStand_ligateAt _ _)).trans (tablesStand_fitTest _ _)
    · exact tablesStand_setLine s _
  | space => exact (tablesStand_setLine s _).trans (tablesStand_fitTest _ _)
  | disc => exact tablesStand_setLine s _
  | tab => exact (tablesStand_setLine s _).trans (tablesStand_fitTest _ _)
  | link k => exact tablesStand_setLine s _
  | carrier g mark => exact (tablesStand_setLine s _).trans (tablesStand_fitTest _ _)

theorem tablesStand_admitArrival (a : Arrival) (s : State) : TablesStand s (admitArrival a s).state := by
  unfold admitArrival
  split
  · exact .refl s
  · exact tablesStand_appendArrival a s

theorem tablesStand_takeArrival (a : Arrival) (s : State) : TablesStand s (takeArrival a s).state := by
  unfold takeArrival
  split
  · exact .refl s
  · split
    · exact tablesStand_admitArrival a s
    · split
      · exact tablesStand_admitArrival a s
      · next settled offending heq =>
        have stands := tablesStand_settleProvisional heq
        split
        · exact stands
        · exact stands.trans (tablesStand_admitArrival a settled)

theorem tablesStand_makeLineEnd (plan : EndPlan) (s : State) : TablesStand s (makeLineEnd plan s) := by
  rw [makeLineEnd_eq]
  exact ⟨rfl, rfl⟩

theorem tablesStand_joinPacket (p : PacketBody) (s : State) : TablesStand s (joinPacket p s) := ⟨rfl, rfl⟩

/-! ### A job exchanges the banks once at most, and only where it is to (R82, R83) -/

/-- R83: the line end that waits will still exchange the banks. -/
def ExchangeAwaited (s : State) : Prop := s.shaper.waiting.any (fun w => Job.willExchange w.job) = true

theorem TablesStand.awaited_iff {s t : State} (h : TablesStand s t) : ExchangeAwaited t ↔ ExchangeAwaited s := by
  rw [ExchangeAwaited, h.waiting, ExchangeAwaited]

/-- What all the work of a job makes of the banks: nothing, with the exchange perhaps still awaited, or the exchange it was
to make. -/
inductive JobMove (j : Job) (s t : State) : Prop
  | kept : t.tables = s.tables → (ExchangeAwaited t → ExchangeAwaited s ∨ Job.willExchange j = true) → JobMove j s t
  | exchanged : Job.willExchange j = true → t.tables = s.tables.exchange → JobMove j s t

theorem JobMove.of_stands (j : Job) {s t : State} (h : TablesStand s t) : JobMove j s t :=
  .kept h.tables fun ht => .inl (h.awaited_iff.1 ht)

/-- The work of the job that is left, once what came before it has left the banks alone. -/
theorem JobMove.after {j next : Job} {s u t : State} (h : TablesStand s u)
    (hnext : Job.willExchange next = true → Job.willExchange j = true) (k : JobMove next u t) : JobMove j s t := by
  cases k with
  | kept tables awaited => exact .kept (tables.trans h.tables) fun ht => (awaited ht).imp h.awaited_iff.1 hnext
  | exchanged due tables => exact .exchanged (hnext due) (h.tables ▸ tables)

/-- A job's progress: done with its banks moved, or at a line end with the banks as they were and no new exchange to make. -/
inductive AdvanceMove (j : Job) (s : State) : Progress → Prop
  | done {t : State} : JobMove j s t → AdvanceMove j s (.done t)
  | ends {t : State} {plan : EndPlan} {next : Job} : TablesStand s t →
      (Job.willExchange next = true → Job.willExchange j = true) → AdvanceMove j s (.ends t plan next)

theorem AdvanceMove.after {j : Job} {s u : State} {p : Progress} (h : TablesStand s u) (k : AdvanceMove j u p) :
    AdvanceMove j s p := by
  cases k with
  | done moved => exact .done (moved.after h id)
  | ends stands due => exact .ends (h.trans stands) due

theorem willExchange_of_swap {j : Job} {k : ControlEnd} (hj : j.control = some k) (h : k.kind = .swap) :
    Job.willExchange j = true := by
  simp [Job.willExchange, hj, h]

theorem jobMove_emptyEnd {j : Job} {k : ControlEnd} (hj : j.control = some k) (s : State) :
    JobMove j s (emptyEnd k.kind s) := by
  cases hkind : k.kind with
  | swap => exact .exchanged (willExchange_of_swap hj hkind) rfl
  | overflow => exact .of_stands j (.refl s)
  | endline => exact .of_stands j (.refl s)
  | endpara => exact .of_stands j ⟨rfl, rfl⟩
  | take => exact .of_stands j ⟨rfl, rfl⟩

theorem advanceMove_endByControl {j : Job} {k : ControlEnd} (hj : j.control = some k) (s : State) :
    AdvanceMove j s (endByControl k j s) := by
  unfold endByControl
  split
  · exact .done (jobMove_emptyEnd hj s)
  · exact .ends (.refl s) fun due => willExchange_of_swap hj (by simpa [Job.willExchange] using due)

theorem advanceMove_controlEnd {j : Job} {k : ControlEnd} (hj : j.control = some k) (s : State) :
    AdvanceMove j s (controlEnd k j s) := by
  unfold controlEnd
  split
  · exact advanceMove_endByControl hj s
  · next settled offending heq =>
    have stands := tablesStand_settleProvisional heq
    split
    · exact .ends stands fun due => by simpa only [Job.willExchange, hj] using due
    · exact (advanceMove_endByControl hj settled).after stands

theorem advanceMove_afterArrival (j : Job) (s : State) : AdvanceMove j s (afterArrival j s) := by
  unfold afterArrival
  split
  · next k hj => exact advanceMove_controlEnd hj s
  · refine .done ?_
    split
    · next hexchange => exact .exchanged (by simp [Job.willExchange, hexchange]) rfl
    · exact .of_stands j (.refl s)

theorem advanceMove_afterCarryOver (j : Job) (s : State) : AdvanceMove j s (afterCarryOver j s) := by
  unfold afterCarryOver
  split
  · exact advanceMove_afterArrival j s
  · next a _ =>
    have stands := tablesStand_takeArrival a s
    split
    · next t heq =>
      rw [heq] at stands
      exact (advanceMove_afterArrival j t).after stands
    · next t plan held heq =>
      rw [heq] at stands
      exact .ends stands id

theorem advanceMove_advance (j : Job) (s : State) : AdvanceMove j s (j.advance s) := by
  unfold Job.advance
  dsimp only
  split
  · exact (advanceMove_afterCarryOver j _).after (tablesStand_setLine s _)
  · exact .ends (tablesStand_setLine s _) id

/-- R82, R83: all the work of one entry, whatever room the exposure queue has. -/
theorem jobMove_runJob (room : Nat) (j : Job) (s : State) : JobMove j s (runJob room j s) := by
  induction room generalizing j s with
  | zero =>
    have moved := advanceMove_advance j s
    unfold runJob
    split
    · next heq => rw [heq] at moved; cases moved with | done h => exact h
    · next t plan next heq =>
      rw [heq] at moved
      cases moved with
      | ends stands due => exact .kept (stands.trans (tablesStand_makeLineEnd plan t)).tables fun ht => .inr (due ht)
  | succ room ih =>
    have moved := advanceMove_advance j s
    unfold runJob
    split
    · next heq => rw [heq] at moved; cases moved with | done h => exact h
    · next t plan next heq =>
      rw [heq] at moved
      cases moved with
      | ends stands due =>
        exact (ih next _).after ((stands.trans (tablesStand_makeLineEnd plan t)).trans (tablesStand_joinPacket _ _)) due

theorem jobMove_doJob (j : Job) (s : State) : JobMove j s (doJob j s) := jobMove_runJob s.room j s

/-! ### The roles of the banks (R56, R82) -/

@[simp] theorem setStandby_active (t : TableBlock) (k : Bank) : (t.setStandby k).active = t.active := by
  unfold TableBlock.setStandby
  split <;> rfl

@[simp] theorem setStandby_activeBank (t : TableBlock) (k : Bank) : (t.setStandby k).activeBank = t.activeBank := by
  cases h : t.active <;> simp [TableBlock.activeBank, TableBlock.setStandby, h]

@[simp] theorem setStandby_standbyBank (t : TableBlock) (k : Bank) : (t.setStandby k).standbyBank = k := by
  cases h : t.active <;> simp [TableBlock.standbyBank, TableBlock.setStandby, h]

theorem exchange_active_ne (t : TableBlock) : t.exchange.active ≠ t.active := by
  cases h : t.active <;> simp [TableBlock.exchange, h]

@[simp] theorem exchange_activeBank (t : TableBlock) : t.exchange.activeBank = t.standbyBank := by
  cases h : t.active <;> simp [TableBlock.activeBank, TableBlock.standbyBank, TableBlock.exchange, h]

@[simp] theorem exchange_standbyBank (t : TableBlock) : t.exchange.standbyBank = t.activeBank := by
  cases h : t.active <;> simp [TableBlock.activeBank, TableBlock.standbyBank, TableBlock.exchange, h]

/-! ### Canonical banks (R74, R188) -/

theorem bankCanonical_iff (b : Bank) : bankCanonical b = true ↔ ∀ k, (b.table k).wf = true := by
  simp only [bankCanonical, Bool.and_eq_true]
  constructor
  · rintro ⟨⟨⟨hmap, hglyphs⟩, hligatures⟩, hheader⟩ k
    cases k
    · exact hmap
    · exact hglyphs
    · exact hligatures
    · exact hheader
  · exact fun h => ⟨⟨⟨h .codeMap, h .glyphs⟩, h .ligatures⟩, h .header⟩

theorem bankCanonical_writeItem {b : Bank} (h : bankCanonical b = true) (k : TableKind) (i : Nat) (bytes : List Byte) :
    bankCanonical (b.writeItem k i bytes) = true :=
  (bankCanonical_iff _).2 (writeItem_table_wf ((bankCanonical_iff b).1 h) k i bytes)

/-- Both banks in canonical form, by their roles. -/
structure BanksCanonical (t : TableBlock) : Prop where
  active : bankCanonical t.activeBank = true
  standby : bankCanonical t.standbyBank = true

theorem banksCanonical_iff (t : TableBlock) :
    BanksCanonical t ↔ bankCanonical t.bankA = true ∧ bankCanonical t.bankB = true := by
  cases h : t.active
  · exact ⟨fun ⟨ha, hb⟩ => ⟨activeBank_of_a h ▸ ha, standbyBank_of_a h ▸ hb⟩,
      fun ⟨ha, hb⟩ => ⟨(activeBank_of_a h).symm ▸ ha, (standbyBank_of_a h).symm ▸ hb⟩⟩
  · exact ⟨fun ⟨hb, ha⟩ => ⟨standbyBank_of_b h ▸ ha, activeBank_of_b h ▸ hb⟩,
      fun ⟨ha, hb⟩ => ⟨(activeBank_of_b h).symm ▸ hb, (standbyBank_of_b h).symm ▸ ha⟩⟩

/-! ### Work on the standby bank (R57, R72 to R80) -/

/-- The active bank and the roles as they were, the banks canonical where they were, and no exchange awaited that was not. -/
structure StandbyWork (s t : State) : Prop where
  active : t.tables.active = s.tables.active
  activeBank : t.tables.activeBank = s.tables.activeBank
  canonical : BanksCanonical s.tables → BanksCanonical t.tables
  awaited : ExchangeAwaited t → ExchangeAwaited s

theorem StandbyWork.trans {s t u : State} (h : StandbyWork s t) (k : StandbyWork t u) : StandbyWork s u where
  active := k.active.trans h.active
  activeBank := k.activeBank.trans h.activeBank
  canonical := k.canonical ∘ h.canonical
  awaited := h.awaited ∘ k.awaited

theorem StandbyWork.of_tables {s t : State} (h : t.tables = s.tables) (awaited : ExchangeAwaited t → ExchangeAwaited s) :
    StandbyWork s t :=
  ⟨by rw [h], by rw [h], by rw [h]; exact id, awaited⟩

theorem TablesStand.standbyWork {s t : State} (h : TablesStand s t) : StandbyWork s t := .of_tables h.tables h.awaited_iff.1

theorem StandbyWork.refl (s : State) : StandbyWork s s := (TablesStand.refl s).standbyWork

/-- A job without an exchange leaves the banks alone. -/
theorem JobMove.standbyWork {j : Job} {s t : State} (h : JobMove j s t) (hj : Job.willExchange j = false) :
    StandbyWork s t := by
  cases h with
  | kept tables awaited => exact .of_tables tables fun ht => (awaited ht).resolve_right (by simp [hj])
  | exchanged due _ => simp [hj] at due

theorem standbyWork_doJob {j : Job} (hj : Job.willExchange j = false) (s : State) : StandbyWork s (doJob j s) :=
  (jobMove_doJob j s).standbyWork hj

theorem standbyWork_setStandby {s : State} {k : Bank} (hk : BanksCanonical s.tables → bankCanonical k = true) :
    StandbyWork s (s.setTables (s.tables.setStandby k)) where
  active := setStandby_active _ _
  activeBank := setStandby_activeBank _ _
  canonical h := ⟨by simpa using h.active, by simpa using hk h⟩
  awaited := id

theorem standbyWork_setRecord (s : State) (r : Option LoadRecord) :
    StandbyWork s (s.setTables { s.tables with record := r }) :=
  ⟨rfl, rfl, fun h => ⟨h.active, h.standby⟩, id⟩

/-- R77, R78: the standby bank made not valid. -/
theorem standbyWork_spoil (s : State) :
    StandbyWork s (s.setTables (s.tables.setStandby { s.tables.standbyBank with valid := false })) :=
  standbyWork_setStandby fun h => h.standby

/-! ### Aborts and boundaries (R21 to R24, R78) -/

theorem standbyWork_abortLoad (s : State) : StandbyWork s (abortLoad s) := by
  have cleared := standbyWork_setRecord s none
  unfold abortLoad
  split
  · exact .refl s
  · dsimp only
    split
    · exact (cleared.trans (standbyWork_spoil _)).trans (TablesStand.standbyWork ⟨rfl, rfl⟩)
    · exact cleared.trans (TablesStand.standbyWork ⟨rfl, rfl⟩)

theorem standbyWork_clearInHand (s : State) : StandbyWork s (clearInHand s) := by
  unfold clearInHand
  split
  · exact TablesStand.standbyWork ⟨rfl, rfl⟩
  · exact standbyWork_abortLoad s
  · exact standbyWork_abortLoad s
  all_goals exact .refl s

theorem standbyWork_closeTake (notice : Option NoticeKind) (s : State) : StandbyWork s (closeTake notice s) := by
  refine (standbyWork_clearInHand s).trans (TablesStand.standbyWork ?_)
  cases notice <;> exact ⟨rfl, rfl⟩

theorem tablesStand_openTake (p : Priority) (s : State) : TablesStand s (openTake p s) := ⟨rfl, rfl⟩

theorem standbyWork_closingBoundary (notice : Option NoticeKind) (s : State) :
    StandbyWork s (closingBoundary notice s) := by
  unfold closingBoundary
  split
  · exact .refl s
  · exact (standbyWork_closeTake notice s).trans (standbyWork_doJob rfl _)

theorem standbyWork_openingBoundary (p : Priority) (s : State) : StandbyWork s (openingBoundary p s) := by
  unfold openingBoundary
  split
  · exact (tablesStand_openTake p s).standbyWork
  · exact ((standbyWork_closeTake _ s).trans (tablesStand_openTake p _).standbyWork).trans (standbyWork_doJob rfl _)

theorem standbyWork_applyBoundary (lost : Option Boundary) (s : State) : StandbyWork s (applyBoundary lost s) := by
  unfold applyBoundary
  split
  · exact .refl s
  · exact standbyWork_openingBoundary _ s
  · exact standbyWork_closingBoundary _ s
  · exact standbyWork_closingBoundary _ s

theorem standbyWork_actOnLoss (s : State) : StandbyWork s (actOnLoss s) := by
  have cleared (d : DecoderState) : StandbyWork s (flagGap (setDecoderState d (clearInHand s))) :=
    (standbyWork_clearInHand s).trans (TablesStand.standbyWork ⟨rfl, rfl⟩)
  unfold actOnLoss
  split
  · exact .refl s
  · exact (tablesStand_setLine s _).standbyWork
  · exact cleared .text
  · exact cleared .skip
  · exact cleared .skip
  · exact .refl s

/-! ### Copy (R25, R26, R102 to R104) -/

theorem standbyWork_handArrival (a : Arrival) (s : State) : StandbyWork s (handArrival a s) := standbyWork_doJob rfl s

theorem standbyWork_handMark (mark : Nat) (s : State) : StandbyWork s (handMark mark s) := by
  unfold handMark
  split
  · exact (tablesStand_setLine s _).standbyWork
  · exact TablesStand.standbyWork ⟨rfl, rfl⟩
  · split
    · exact standbyWork_handArrival _ s
    · exact TablesStand.standbyWork ⟨rfl, rfl⟩

theorem standbyWork_takeText (c : Byte) (s : State) : StandbyWork s (takeText c s) := by
  have flagged : TablesStand s (count .unmapped (s.setLine s.shaper.line.flagUnmapped)) := ⟨rfl, rfl⟩
  unfold takeText
  split
  · exact standbyWork_handArrival _ s
  · exact standbyWork_handMark _ s
  · exact standbyWork_handArrival _ s
  · unfold handUnmapped
    dsimp only
    split
    · exact flagged.standbyWork.trans (standbyWork_handArrival _ _)
    · exact flagged.standbyWork

/-! ### Controls and loads (R27 to R39, R72 to R80) -/

theorem tablesStand_setDecoderState (d : DecoderState) (s : State) : TablesStand s (setDecoderState d s) := ⟨rfl, rfl⟩

theorem tablesStand_openControl (e : Entry) (s : State) : TablesStand s (openControl e s) := by
  unfold openControl
  split <;> exact ⟨rfl, rfl⟩

theorem tablesStand_addArgument (e : Entry) (s : State) : TablesStand s (addArgument e s) := by
  unfold addArgument
  split <;> exact ⟨rfl, rfl⟩

theorem tablesStand_setPlane (bytes : List Byte) (s : State) : TablesStand s (setPlane bytes s) := by
  unfold setPlane
  split <;> exact ⟨rfl, rfl⟩

theorem tablesStand_writeFormat (bytes : List Byte) (s : State) : TablesStand s (writeFormat bytes s) := by
  unfold writeFormat
  split <;> exact ⟨rfl, rfl⟩

theorem tablesStand_offerReply (q : Query) (s : State) : TablesStand s (offerReply q s) := by
  unfold offerReply
  split <;> exact ⟨rfl, rfl⟩

theorem standbyWork_openLoad (bytes : List Byte) (s : State) : StandbyWork s (openLoad bytes s) := by
  unfold openLoad
  split
  · exact TablesStand.standbyWork ⟨rfl, rfl⟩
  · exact (standbyWork_setRecord s _).trans (TablesStand.standbyWork ⟨rfl, rfl⟩)

theorem standbyWork_takeItem (k : TableKind) (index : Nat) (bytes : List Byte) (s : State) :
    StandbyWork s (takeItem k index bytes s) := by
  unfold takeItem
  split
  · exact .refl s
  · split
    · have written := standbyWork_setStandby (s := s) (k := s.tables.standbyBank.writeItem k index bytes) fun h =>
        bankCanonical_writeItem h.standby k index bytes
      exact written.trans (standbyWork_setRecord _ _)
    · exact standbyWork_setRecord s _

theorem standbyWork_takeLoadByte (e : Entry) (s : State) : StandbyWork s (takeLoadByte e s) := by
  unfold takeLoadByte
  split
  · dsimp only
    split
    · exact TablesStand.standbyWork ⟨rfl, rfl⟩
    · exact (tablesStand_setDecoderState _ s).standbyWork.trans (standbyWork_takeItem _ _ _ _)
  all_goals exact .refl s

theorem standbyWork_takeSum (sent : Nat) (s : State) : StandbyWork s (takeSum sent s) := by
  have cleared := standbyWork_setRecord s none
  unfold takeSum
  split
  · exact .refl s
  · dsimp only
    split
    · split
      · exact cleared
      · exact (cleared.trans (standbyWork_spoil _)).trans (TablesStand.standbyWork ⟨rfl, rfl⟩)
    · exact cleared.trans (TablesStand.standbyWork ⟨rfl, rfl⟩)

theorem standbyWork_takeSumByte (e : Entry) (s : State) : StandbyWork s (takeSumByte e s) := by
  unfold takeSumByte
  split
  · split
    · exact TablesStand.standbyWork ⟨rfl, rfl⟩
    · exact (tablesStand_setDecoderState _ s).standbyWork.trans (standbyWork_takeSum _ _)
  all_goals exact .refl s

/-- R79: the active bank's items are canonical, and so are their copies. -/
theorem standbyWork_copyBank (s : State) : StandbyWork s (copyBank s) := standbyWork_setStandby fun h => h.active

theorem standbyWork_clearBank (s : State) : StandbyWork s (clearBank s) := standbyWork_setStandby fun _ => rfl

theorem standbyWork_unitReset (s : State) : StandbyWork s (unitReset s) :=
  .of_tables rfl fun h => by cases h

/-! ### What a command can do to the banks -/

/-- R81, R83: the banks may exchange: the standby bank is valid, or the exchange was awaited before. -/
def MayExchange (s : State) : Prop := s.tables.standbyBank.valid = true ∨ ExchangeAwaited s

/-- Everything a command other than POWER_ON can make of the banks. The standby bank is worked on only while no exchange is
awaited. -/
inductive TableMove (s t : State) : Prop
  | kept : t.tables = s.tables → (ExchangeAwaited t → MayExchange s) → TableMove s t
  | standby : StandbyWork s t → ¬ ExchangeAwaited s → TableMove s t
  | exchanged : MayExchange s → t.tables = s.tables.exchange → TableMove s t

theorem TablesStand.tableMove {s t : State} (h : TablesStand s t) : TableMove s t :=
  .kept h.tables fun ht => .inr (h.awaited_iff.1 ht)

/-- A job's exchange is to a valid standby bank, or was awaited. -/
theorem JobMove.tableMove {j : Job} {s t : State} (h : JobMove j s t)
    (hj : Job.willExchange j = true → MayExchange s) : TableMove s t := by
  cases h with
  | kept tables awaited => exact .kept tables fun ht => (awaited ht).elim .inr hj
  | exchanged due tables => exact .exchanged (hj due) tables

theorem TableMove.after {s u t : State} (h : TablesStand s u) (k : TableMove u t) : TableMove s t := by
  have due : MayExchange u → MayExchange s := Or.imp (fun hu => h.tables ▸ hu) h.awaited_iff.1
  cases k with
  | kept tables awaited => exact .kept (tables.trans h.tables) (due ∘ awaited)
  | standby work idle => exact .standby (h.standbyWork.trans work) (idle ∘ h.awaited_iff.2)
  | exchanged mayExchange tables => exact .exchanged (due mayExchange) (h.tables ▸ tables)

theorem TableMove.before {s t u : State} (h : TableMove s t) (k : TablesStand t u) : TableMove s u := by
  cases h with
  | kept tables awaited => exact .kept (k.tables.trans tables) (awaited ∘ k.awaited_iff.1)
  | standby work idle => exact .standby (work.trans k.standbyWork) idle
  | exchanged mayExchange tables => exact .exchanged mayExchange (k.tables.trans tables)

/-- R81, R83: a SWAP begins its line end only where the standby bank is valid. -/
theorem tableMove_swapBanks (s : State) : TableMove s (swapBanks s) := by
  unfold swapBanks
  split
  · next hvalid => exact (jobMove_doJob _ s).tableMove fun _ => .inl hvalid
  · exact TablesStand.tableMove ⟨rfl, rfl⟩

/-- A control carried out, the decoder back in TEXT before its own work. -/
theorem tableMove_carryOut {work : List Byte → State → State}
    (hwork : ∀ bytes u, ¬ ExchangeAwaited u → TableMove u (work bytes u)) (e : Entry) {s : State}
    (hs : ¬ ExchangeAwaited s) : TableMove s (carryOut work e s) :=
  (hwork (s.decoder.argumentBytes e) (setDecoderState .text s) hs).after (tablesStand_setDecoderState .text s)

/-- The cases stand in the order of `decoderWork`. -/
theorem tableMove_decoderWork (c : Instr) (e : Entry) {s : State} (hs : ¬ ExchangeAwaited s) :
    TableMove s (decoderWork c e s) := by
  have strayControl : TableMove s (carryOut (fun _ => count .stray) e s) := TablesStand.tableMove ⟨rfl, rfl⟩
  have query (asked : List Byte → Query) : TableMove s (carryOut (fun bytes => offerReply (asked bytes)) e s) :=
    tableMove_carryOut (fun _ u _ => (tablesStand_offerReply _ u).tableMove) e hs
  cases c with
  | takeStartEntry => exact .standby (standbyWork_openingBoundary e.priority s) hs
  | takeEndEntry => exact .standby (standbyWork_closingBoundary none s) hs
  | cutEntry => exact .standby (standbyWork_closingBoundary _ s) hs
  | stalledEntry => exact .standby (standbyWork_closingBoundary _ s) hs
  | gapEntry => exact .standby ((standbyWork_actOnLoss s).trans (standbyWork_applyBoundary e.boundary _)) hs
  | textByte => exact .standby (standbyWork_takeText e.byte s) hs
  | strayCode => exact TablesStand.tableMove ⟨rfl, rfl⟩
  | controlCodeWithArguments => exact (tablesStand_openControl e s).tableMove
  | argumentByte => exact (tablesStand_addArgument e s).tableMove
  | plane => exact tableMove_carryOut (fun bytes u _ => (tablesStand_setPlane bytes u).tableMove) e hs
  | disc => exact .standby (standbyWork_handArrival _ s) hs
  | tab => exact .standby (standbyWork_handArrival _ s) hs
  | endline => exact .standby (standbyWork_doJob rfl s) hs
  | endpara => exact .standby (standbyWork_doJob rfl s) hs
  | join => exact .standby (standbyWork_handArrival _ s) hs
  | nojoin => exact .standby (standbyWork_handArrival _ s) hs
  | format => exact tableMove_carryOut (fun bytes u _ => (tablesStand_writeFormat bytes u).tableMove) e hs
  | leader => exact TablesStand.tableMove ⟨rfl, rfl⟩
  | load => exact tableMove_carryOut (fun bytes u hu => .standby (standbyWork_openLoad bytes u) hu) e hs
  | loadDataByte => exact .standby (standbyWork_takeLoadByte e s) hs
  | loadSumByte => exact .standby (standbyWork_takeSumByte e s) hs
  | copy => exact tableMove_carryOut (fun _ u hu => .standby (standbyWork_copyBank u) hu) e hs
  | clear => exact tableMove_carryOut (fun _ u hu => .standby (standbyWork_clearBank u) hu) e hs
  | swap => exact tableMove_carryOut (fun _ u _ => tableMove_swapBanks u) e hs
  | invalidBankOp => exact strayControl
  | status => exact query fun _ => .status
  | counts => exact query fun _ => .counts
  | countsAndClear => exact query fun _ => .countsAndClear
  | entry => exact query entryQuery
  | invalidQueryKind => exact strayControl
  | reset => exact .standby (standbyWork_unitReset s) hs
  | _ => exact (TablesStand.refl s).tableMove

/-- R18: the decoder takes no entry while a line end waits, so no exchange is awaited then. -/
theorem not_exchangeAwaited_of_ready {e : Entry} {s : State} (h : Ready e s) : ¬ ExchangeAwaited s := by
  obtain ⟨noLineEnd, -⟩ := (decoderWaiting_eq_false_iff s).1 h.2
  simp [ExchangeAwaited, noLineEnd]

theorem tableMove_of_decoderCommand {c : Instr} (hc : c ∈ decoderCommands) {s t : State} (h : exec c s = .next t) :
    TableMove s t := by
  rw [exec_decoderCommand hc] at h
  obtain ⟨e, hready, -, rfl⟩ := takeHead_next h
  have idle := not_exchangeAwaited_of_ready hready
  exact withRemoval_of (P₀ := TablesStand s) (fun _ => ⟨rfl, rfl⟩) (fun _ _ hu => hu.trans ⟨rfl, rfl⟩)
    (fun _ hu => (tableMove_decoderWork c e (idle ∘ hu.awaited_iff.1)).after hu) (fun _ _ hu => hu.before ⟨rfl, rfl⟩)

/-- R83: the work left by a line end that waited makes the exchange that was awaited, and no other. -/
theorem tableMove_of_packetJoin {s t : State} (h : execPacketJoin s = .next t) : TableMove s t := by
  unfold execPacketJoin at h
  split at h
  · cases h
  · next w hw =>
    split at h <;> cases h
    have joined : TablesStand (s.setShaper { s.shaper with waiting := none })
      (joinPacket w.packet (s.setShaper { s.shaper with waiting := none })) := tablesStand_joinPacket _ _
    have due : Job.willExchange w.job = true → ExchangeAwaited s := fun hj => by simp [ExchangeAwaited, hw, hj]
    have idle : ¬ ExchangeAwaited (s.setShaper { s.shaper with waiting := none }) := fun hs => by cases hs
    cases (jobMove_runJob _ w.job _).after joined id with
    | kept tables awaited => exact .kept tables fun ht => .inr (due ((awaited ht).resolve_left idle))
    | exchanged hj tables => exact .exchanged (.inr (due hj)) tables

theorem FrontKept.tablesStand {s t : State} (h : FrontKept s t) : TablesStand s t :=
  ⟨h.tables, congrArg Shaper.waiting h.shaper⟩

/-- R56, R57, R82, R83: the setting line's commands and the held return line leave the banks; the decoder's commands and a
packet that joins do what their work does. -/
theorem exec_tableMove {c : Instr} (hc : ∀ strap acceptAll, c ≠ .powerOn strap acceptAll) {s t : State}
    (h : exec c s = .next t) : TableMove s t := by
  have port {p : Port} (ht : t = s.setPort p) : TableMove s t := ht ▸ TablesStand.tableMove ⟨rfl, rfl⟩
  by_cases listed : c ∈ decoderCommands ∨ c ∈ busAndReturnCommands
  · rcases listed with decoder | busOrReturn
    · exact tableMove_of_decoderCommand decoder h
    · exact (exec_frontKept busOrReturn h).tablesStand.tableMove
  · cases c with
    | powerOn strap acceptAll => exact absurd rfl (hc strap acceptAll)
    | takeStart priority address => cases h; exact port rfl
    | takeEnd => cases h; exact port rfl
    | plain b => cases h; exact port rfl
    | holdLineRise => cases h; exact port rfl
    | holdLineFall =>
      simp only [exec, execHoldLineFall] at h
      split at h <;> cases h
      exact port rfl
    | takeTimerExpiry =>
      simp only [exec, execTakeTimerExpiry] at h
      split at h <;> cases h
      exact port rfl
    | ignoredFlaggedByte b =>
      simp only [exec, execIgnoredFlaggedByte] at h
      split at h <;> cases h
      exact (TablesStand.refl s).tableMove
    | packetJoin => exact tableMove_of_packetJoin h
    | invalidAnswer b =>
      simp only [exec, execInvalidAnswer] at h
      split at h
      · split at h <;> cases h
        exact (TablesStand.refl s).tableMove
      · cases h
    | returnLineHold begun =>
      simp only [exec, execReturnLineHold] at h
      split at h
      · split at h <;> cases h
        · exact (TablesStand.refl s).tableMove
        · exact TablesStand.tableMove ⟨rfl, rfl⟩
      · cases h
    | _ => exact absurd (by decide) listed

/-- Settles O50: what a command can make of the banks writes the active one in no case. -/
theorem activeBankIsNeverWritten : Obligations.ActiveBankIsNeverWritten := by
  intro c s t h hc
  cases exec_tableMove hc h with
  | kept tables _ => exact .inl (congrArg TableBlock.activeBank tables)
  | standby work _ => exact .inl work.activeBank
  | exchanged _ tables =>
    rw [tables]
    exact .inr ⟨exchange_active_ne _, exchange_activeBank _, exchange_standbyBank _⟩

/-! ### The invariant of the banks (R57, R83) -/

/-- The invariant by the banks' roles. -/
structure TablesHold (s : State) : Prop where
  canonical : BanksCanonical s.tables
  active : s.tables.activeBank.valid = true
  awaited : ExchangeAwaited s → s.tables.standbyBank.valid = true

theorem tableInv_iff (s : State) : TableInv s ↔ TablesHold s :=
  ⟨fun ⟨hbankA, hbankB, active, awaited⟩ => ⟨(banksCanonical_iff _).2 ⟨hbankA, hbankB⟩, active, awaited⟩,
    fun ⟨canonical, active, awaited⟩ =>
      have ⟨hbankA, hbankB⟩ := (banksCanonical_iff _).1 canonical
      ⟨hbankA, hbankB, active, awaited⟩⟩

theorem TablesHold.move {s t : State} (hs : TablesHold s) (h : TableMove s t) : TablesHold t := by
  cases h with
  | kept tables awaited =>
    have valid (ht : ExchangeAwaited t) : s.tables.standbyBank.valid = true := (awaited ht).elim id hs.awaited
    exact ⟨tables ▸ hs.canonical, tables ▸ hs.active, fun ht => tables ▸ valid ht⟩
  | standby work idle =>
    exact ⟨work.canonical hs.canonical, work.activeBank ▸ hs.active, fun ht => absurd (work.awaited ht) idle⟩
  | exchanged mayExchange tables =>
    have standby : s.tables.standbyBank.valid = true := mayExchange.elim id hs.awaited
    refine ⟨tables ▸ ⟨?_, ?_⟩, ?_, fun _ => ?_⟩
    · exact (exchange_activeBank s.tables).symm ▸ hs.canonical.standby
    · exact (exchange_standbyBank s.tables).symm ▸ hs.canonical.active
    · rw [tables, exchange_activeBank]; exact standby
    · rw [tables, exchange_standbyBank]; exact hs.active

/-- R70: two cleared banks, both valid. -/
theorem tablesHold_powerOn {strap : Nibble} {acceptAll : Bool} {s t : State}
    (h : exec (.powerOn strap acceptAll) s = .next t) : TablesHold t := by
  cases h
  exact ⟨⟨rfl, rfl⟩, rfl, fun h => by cases h⟩

/-- Settles O54: POWER_ON clears both banks, any other command makes one of the moves, and a bit time none. -/
theorem stepKeepsTableInv : Obligations.StepKeepsTableInv := by
  intro s t hs h
  rw [tableInv_iff] at hs ⊢
  unfold step at h
  split at h
  · cases h
    exact { hs with }
  · next c rest _ =>
    have queued : TablesHold (s.setPending rest) := { hs with }
    by_cases hc : ∃ strap acceptAll, c = .powerOn strap acceptAll
    · obtain ⟨strap, acceptAll, rfl⟩ := hc
      exact tablesHold_powerOn h
    · exact queued.move (exec_tableMove (fun strap acceptAll hpower => hc ⟨strap, acceptAll, hpower⟩) h)

end Sys2Proof.Proofs
end

section
/-! SUPPORT. The accumulator and the item count are the sums of the line store's cells: what each operation on a line and each
part of the shaper's work for one entry does to them (O56). -/

namespace Sys2Proof.Proofs

open Sys2Proof.Machine Sys2Proof.Safety

/-! ### The sums of a line (R88, R105) -/

/-- The accumulator is the fine width of the line's cells, and the item count what they would emit. -/
structure LineSums (b : Bank) (c : LineCopy) (ln : Line) : Prop where
  acc : ln.acc = sumFine c ln.cells
  items : ln.items = sumItems b ln.cells

theorem sumItems_append (b : Bank) (xs ys : List Cell) : sumItems b (xs ++ ys) = sumItems b xs + sumItems b ys := by
  induction xs with
  | nil => simp [sumItems]
  | cons x rest ih =>
    simp only [List.cons_append, sumItems, ih]
    omega

/-- The sums of a line without cells are 0, so no bank and no line copy can change them. -/
theorem LineSums.of_no_cells {b b' : Bank} {c c' : LineCopy} {ln : Line} (h : LineSums b c ln) (hcells : ln.cells = []) :
    LineSums b' c' ln := by
  obtain ⟨hacc, hitems⟩ := h
  rw [hcells] at hacc hitems
  exact ⟨by rw [hcells, hacc]; rfl, by rw [hcells, hitems]; rfl⟩

theorem lineSums_empty (b : Bank) (c : LineCopy) : LineSums b c Line.empty := ⟨rfl, rfl⟩

section
variable {b : Bank} {c : LineCopy} {ln : Line}

/-! ### Cells appended and re-measured (R90 to R95, R108) -/

theorem LineSums.append (h : LineSums b c ln) (x : Cell) : LineSums b c (ln.append b c x) where
  acc := by simp [Line.append, sumFine_append, sumFine, h.acc]
  items := by simp [Line.append, sumItems_append, sumItems, h.items]

theorem LineSums.recordBreak (h : LineSums b c ln) (width : Nat) : LineSums b c (ln.recordBreak c width) := by
  unfold Line.recordBreak
  split
  · exact ⟨h.acc, h.items⟩
  · exact h

theorem LineSums.appendSpace (h : LineSums b c ln) : LineSums b c (ln.appendSpace b c) := by
  unfold Line.appendSpace
  split
  · exact h.append _
  · exact (h.recordBreak _).append _

theorem LineSums.appendTab (h : LineSums b c ln) : LineSums b c (ln.appendTab b c) :=
  have appended := h.append (.tab (tabGap c ln.acc) [] 0)
  ⟨appended.acc, appended.items⟩

theorem LineSums.appendBreak (h : LineSums b c ln) : LineSums b c (ln.appendBreak b c) := (h.recordBreak _).append _

theorem LineSums.remeasureCell (h : LineSums b c ln) (x : Cell) : LineSums b c (ln.remeasureCell b c x) := by
  cases x with
  | letter l => exact h.append _
  | space w =>
    unfold Line.remeasureCell
    dsimp only
    split
    · exact h
    · exact h.appendSpace
  | tab gap leaders left => exact h.appendTab
  | brk w broken d => exact h.appendBreak
  | link k => exact h.append _
  | carrier k => exact h.append _

theorem LineSums.remeasure (h : LineSums b c ln) (cells : List Cell) : LineSums b c (remeasure b c cells ln).1 := by
  induction cells generalizing ln with
  | nil => exact h
  | cons x rest ih =>
    unfold Machine.remeasure
    split
    · exact h.remeasureCell x
    · exact ih (h.remeasureCell x)

/-! ### The provisional letter settled (R91, R98) -/

/-- The first letter that is not settled, by the cells around it. -/
theorem provisionalFrom_eq_some {cells : List Cell} {i k : Nat} (h : provisionalFrom i cells = some k) :
    ∃ before l after, cells = before ++ .letter l :: after ∧ k = i + before.length ∧ l.settled = false := by
  induction cells generalizing i with
  | nil => cases h
  | cons x rest ih =>
    have later (hrest : provisionalFrom (i + 1) rest = some k) :
        ∃ before l after, x :: rest = before ++ .letter l :: after ∧ k = i + before.length ∧ l.settled = false := by
      obtain ⟨before, l, after, rfl, rfl, hl⟩ := ih hrest
      exact ⟨x :: before, l, after, rfl, by rw [List.length_cons]; omega, hl⟩
    cases x with
    | letter l =>
      unfold provisionalFrom at h
      split at h
      · exact later h
      · next hl =>
        cases h
        exact ⟨[], l, rest, rfl, rfl, by simpa using hl⟩
    | _ => exact later h

/-- The letter settled was provisional, so its width was not in the accumulator. -/
theorem LineSums.settleAt (h : LineSums b c ln) (offers : Bool) {i : Nat} (hi : provisionalIndex ln.cells = some i) :
    LineSums b c (ln.settleAt b c offers i) ∧
      ∀ l, letterAt (ln.settleAt b c offers i).cells i = some l → l.settled = true := by
  obtain ⟨before, l, after, hcells, rfl, hl⟩ := provisionalFrom_eq_some hi
  obtain ⟨hacc, hitems⟩ := h
  have settled : (settledLetter b before l offers).settled = true := rfl
  rw [hcells] at hacc hitems
  rw [Nat.zero_add, settleAt_of_cells b c offers hcells]
  refine ⟨⟨?_, ?_⟩, fun m hm => ?_⟩
  · simp only [hacc, sumFine_append, sumFine, cellFine, hl, settled, LineCopy.fine, if_true, Bool.false_eq_true, if_false]
    omega
  · simp only [hitems, sumItems_append, sumItems]
    rfl
  · rw [letterAt_append] at hm
    cases hm
    exact settled

/-! ### The ligature lookup (R100, R101) -/

theorem letterAt_eq_some {cells : List Cell} {i : Nat} {l : Letter} (h : letterAt cells i = some l) :
    cells[i]? = some (.letter l) := by
  unfold letterAt at h
  split at h
  · next hcell => cases h; exact hcell
  · cases h

/-- A lookup that finds a glyph: the letter looked up, and just before it a settled one. -/
theorem ligatureResult_eq_some {cells : List Cell} {i g : Nat} {e l : Letter}
    (h : ligatureResult b cells i = some (g, e, l)) :
    ∃ before after, cells = before ++ .letter e :: .letter l :: after ∧ i = before.length + 1 ∧ e.settled = true := by
  unfold ligatureResult at h
  split at h
  · cases h
  · next j =>
    split at h
    · next e' l' he hl =>
      split at h
      · next hlooks =>
        split at h <;> cases h
        obtain ⟨hj, hjcell⟩ := List.getElem?_eq_some_iff.1 (letterAt_eq_some he)
        obtain ⟨hj', hjcell'⟩ := List.getElem?_eq_some_iff.1 (letterAt_eq_some hl)
        refine ⟨cells.take j, cells.drop (j + 2), ?_, by rw [List.length_take]; omega, ?_⟩
        · rw [← hjcell, ← hjcell', List.cons_getElem_drop_succ, List.cons_getElem_drop_succ, List.take_append_drop]
        · simp only [Bool.and_eq_true] at hlooks
          exact hlooks.1.1
      · cases h
    · cases h

/-- R101: of the marks of both letters three a side stay, and the rest are dropped. -/
theorem cellItems_mergeLetters (b : Bank) (g : Nat) (e l : Letter) :
    cellItems b (.letter (mergeLetters b g e l).1) + 1 + (mergeLetters b g e l).2 =
      cellItems b (.letter e) + cellItems b (.letter l) := by
  simp only [mergeLetters, cellItems, List.length_take, List.length_append]
  omega

/-- R101: both letters' widths go and the result's comes; an item goes, and with it the marks dropped. -/
theorem LineSums.ligate (h : LineSums b c ln) {i : Nat} (hl : ∀ l, letterAt ln.cells i = some l → l.settled = true) :
    LineSums b c (ln.ligate b c i).1 := by
  cases hresult : ligatureResult b ln.cells i with
  | none => rw [ligate_of_none c hresult]; exact h
  | some r =>
    obtain ⟨g, e, l⟩ := r
    obtain ⟨before, after, hcells, rfl, he⟩ := ligatureResult_eq_some hresult
    obtain ⟨hacc, hitems⟩ := h
    have lookedUp : l.settled = true := hl l (by simp [hcells, letterAt])
    have merged : (mergeLetters b g e l).1.settled = true := he
    have width : (mergeLetters b g e l).1.width = advanceOf b g := rfl
    have marks := cellItems_mergeLetters b g e l
    rw [ligate_of_some c hcells hresult]
    rw [hcells] at hacc hitems
    constructor
    · simp only [hacc, sumFine_append, sumFine, cellFine, he, lookedUp, merged, width, if_true]
      omega
    · simp only [hitems, sumItems_append, sumItems]
      omega

/-! ### A mark on the last cell (R102, R104) -/

theorem cellFine_withMark (c : LineCopy) (side : Side) (mark : Nat) (x : Cell) :
    cellFine c (x.withMark side mark) = cellFine c x := by
  cases x <;> rfl

theorem cellItems_withMark (b : Bank) {side : Side} (mark : Nat) {x : Cell} (h : (x.marksOn side).isSome = true) :
    cellItems b (x.withMark side mark) = cellItems b x + 1 := by
  cases x with
  | letter l => cases side <;> simp [Cell.withMark, joinMark, cellItems] <;> omega
  | carrier k => cases side <;> simp [Cell.withMark, joinMark, cellItems] <;> omega
  | _ => cases h

/-- A mark attaches to a last cell that can hold marks. -/
theorem cells_of_markFate_attach {mark : Nat} (h : ln.markFate b mark = .attach) :
    ∃ before x, ln.cells = before ++ [x] ∧ (x.marksOn (sideOf b mark)).isSome = true := by
  unfold Line.markFate at h
  split at h
  · cases h
  · next x hlast =>
    obtain ⟨before, hcells⟩ := List.getLast?_eq_some_iff.1 hlast
    split at h
    · cases h
    · next n hmarks => exact ⟨before, x, hcells, by simp [hmarks]⟩

theorem LineSums.attachMark (h : LineSums b c ln) {mark : Nat} (hfate : ln.markFate b mark = .attach) :
    LineSums b c (ln.attachMark b mark) := by
  obtain ⟨before, x, hcells, hmarks⟩ := cells_of_markFate_attach hfate
  have marked : (ln.attachMark b mark).cells = before ++ [x.withMark (sideOf b mark) mark] := by
    simp [Line.attachMark, hcells, List.modify_eq_take_drop]
  obtain ⟨hacc, hitems⟩ := h
  rw [hcells] at hacc hitems
  constructor
  · rw [marked, sumFine_append, sumFine, cellFine_withMark]
    exact hacc.trans (sumFine_append c before [x])
  · rw [marked, sumItems_append, sumItems, cellItems_withMark b mark hmarks]
    show ln.items + 1 = _
    simp only [hitems, sumItems_append, sumItems]
    omega

end

/-! ### Arrivals (R90) -/

/-- The shaper at work: the sums are true of the line under the active bank and the line copy, and no line end waits. -/
structure SumsAtWork (s : State) : Prop where
  sums : LineSums s.bank s.copy s.shaper.line
  idle : s.shaper.waiting = none

namespace SumsAtWork

variable {s : State} (h : SumsAtWork s)

include h

theorem setLine {ln : Line} (hln : LineSums s.bank s.copy ln) : SumsAtWork (s.setLine ln) := ⟨hln, h.idle⟩

theorem ligateAt {i : Nat} (hl : ∀ l, letterAt s.shaper.line.cells i = some l → l.settled = true) :
    SumsAtWork (Machine.ligateAt i s).1 := by
  rw [ligateAt_eq]
  exact ⟨h.sums.ligate hl, h.idle⟩

theorem settleProvisional {offers : Bool} {r : State × Nat} (hr : settleProvisional offers s = some r) :
    SumsAtWork r.1 := by
  unfold Machine.settleProvisional at hr
  split at hr <;> cases hr
  next i hi =>
    obtain ⟨settled, letter⟩ := h.sums.settleAt offers hi
    exact (h.setLine settled).ligateAt letter

theorem fitTest (i : Nat) : SumsAtWork (fitTest i s).state := by
  unfold Machine.fitTest
  split <;> exact h

theorem appendArrival (a : Arrival) : SumsAtWork (appendArrival a s).state := by
  cases a with
  | letter g =>
    unfold Machine.appendArrival
    dsimp only
    split
    · refine fitTest (ligateAt (h.setLine (h.sums.append _)) fun l hl => ?_) _
      have last := letterAt_append s.shaper.line.cells [] (transparentLetter s.bank g)
      cases last.symm.trans hl
      rfl
    · exact h.setLine (h.sums.append _)
  | space => exact fitTest (h.setLine h.sums.appendSpace) _
  | disc => exact h.setLine h.sums.appendBreak
  | tab => exact fitTest (h.setLine h.sums.appendTab) _
  | link k => exact h.setLine (h.sums.append _)
  | carrier g mark => exact fitTest (h.setLine (h.sums.append _)) _

theorem admitArrival (a : Arrival) : SumsAtWork (admitArrival a s).state := by
  unfold Machine.admitArrival
  split
  · exact h
  · exact h.appendArrival a

theorem takeArrival (a : Arrival) : SumsAtWork (takeArrival a s).state := by
  unfold Machine.takeArrival
  split
  · exact h
  · split
    · exact h.admitArrival a
    · split
      · exact h.admitArrival a
      · next settled offending heq =>
        have hsettled := h.settleProvisional heq
        split
        · exact hsettled
        · exact hsettled.admitArrival a

/-! ### A job up to its next line end (R82, R83, R106, R108, R120) -/

/-- R82: the other bank's items are those of no cells. -/
theorem exchangeBanks (hcells : s.shaper.line.cells = []) : SumsAtWork (exchangeBanks s) :=
  ⟨h.sums.of_no_cells hcells, h.idle⟩

theorem emptyEnd (kind : EndKind) (hcells : s.shaper.line.cells = []) : SumsAtWork (emptyEnd kind s) := by
  have dropped : SumsAtWork (dropFlags s) := h.setLine ⟨h.sums.acc, h.sums.items⟩
  cases kind with
  | overflow => exact h
  | endline => exact h
  | endpara => exact ⟨dropped.sums, dropped.idle⟩
  | take => exact dropped
  | swap => exact h.exchangeBanks hcells

end SumsAtWork

/-- R83: an exchange of banks has nothing before it. -/
theorem exchangesLast_iff (j : Job) :
    Job.exchangesLast j = true ↔ (j.exchange = true → j.carried = [] ∧ j.arrival = none ∧ j.control = none) := by
  cases h : j.exchange <;> simp [Job.exchangesLast, h, and_assoc]

theorem exchangesLast_of_no_exchange {j : Job} (h : j.exchange = false) : Job.exchangesLast j = true :=
  (exchangesLast_iff j).2 fun hj => by simp [h] at hj

/-- A job's progress with the sums true, the work left after a line end exchanging the banks last. -/
inductive SumsAdvance : Progress → Prop
  | done {t : State} : SumsAtWork t → SumsAdvance (.done t)
  | ends {t : State} {plan : EndPlan} {next : Job} : SumsAtWork t → Job.exchangesLast next = true →
      SumsAdvance (.ends t plan next)

namespace SumsAtWork

variable {s : State} (h : SumsAtWork s) {j : Job} (hj : j.exchange = false)

include h

theorem endByControl (k : ControlEnd) (j : Job) : SumsAdvance (endByControl k j s) := by
  unfold Machine.endByControl
  split
  · next hempty => exact .done (h.emptyEnd k.kind hempty.1)
  · exact .ends h ((exchangesLast_iff _).2 fun _ => ⟨rfl, rfl, rfl⟩)

include hj

theorem controlEnd (k : ControlEnd) : SumsAdvance (controlEnd k j s) := by
  unfold Machine.controlEnd
  split
  · exact h.endByControl k j
  · next settled offending heq =>
    have hsettled := h.settleProvisional heq
    split
    · exact .ends hsettled (exchangesLast_of_no_exchange hj)
    · exact hsettled.endByControl k j

theorem afterArrival : SumsAdvance (afterArrival j s) := by
  unfold Machine.afterArrival
  split
  · exact h.controlEnd hj _
  · rw [hj]
    exact .done h

theorem afterCarryOver : SumsAdvance (afterCarryOver j s) := by
  unfold Machine.afterCarryOver
  split
  · exact h.afterArrival hj
  · next a _ =>
    have taken := h.takeArrival a
    split
    · next heq => rw [heq] at taken; exact afterArrival taken hj
    · next heq => rw [heq] at taken; exact .ends taken (exchangesLast_of_no_exchange hj)

theorem advance : SumsAdvance (j.advance s) := by
  have measured := h.setLine (h.sums.remeasure (reformFirst s.bank j.carried))
  unfold Job.advance
  dsimp only
  split
  · exact measured.afterCarryOver hj
  · exact .ends measured (exchangesLast_of_no_exchange hj)

end SumsAtWork

/-! ### All the work of one entry (R19, R46, R83, R107) -/

/-- The invariant in its parts. -/
structure SumsHold (s : State) : Prop where
  sums : LineSums s.bank s.copy s.shaper.line
  emptied : s.shaper.waiting.isSome = true → s.shaper.line = Line.empty
  last : s.shaper.waiting.all (fun w => Job.exchangesLast w.job) = true

theorem lineSumsInv_iff (s : State) : LineSumsInv s ↔ SumsHold s :=
  ⟨fun ⟨acc, items, emptied, last⟩ => ⟨⟨acc, items⟩, emptied, last⟩,
    fun ⟨⟨acc, items⟩, emptied, last⟩ => ⟨acc, items, emptied, last⟩⟩

theorem SumsAtWork.sumsHold {s : State} (h : SumsAtWork s) : SumsHold s where
  sums := h.sums
  emptied hw := by simp [h.idle] at hw
  last := by rw [h.idle]; rfl

/-- R107: a line end that waits leaves the next line empty. -/
theorem sumsHold_waits (plan : EndPlan) (s : State) {w : WaitingEnd} (hlast : Job.exchangesLast w.job = true) :
    SumsHold ((makeLineEnd plan s).setShaper { (makeLineEnd plan s).shaper with waiting := some w }) :=
  ⟨lineSums_empty _ _, fun _ => rfl, hlast⟩

/-- R46, R107: a packet that joins leaves an empty line under whatever the pending set makes of the line copy. -/
theorem sumsAtWork_joins (p : PacketBody) (plan : EndPlan) {s : State} (h : SumsAtWork s) :
    SumsAtWork (joinPacket p (makeLineEnd plan s)) where
  sums := lineSums_empty _ _
  idle := (tablesStand_makeLineEnd plan s).waiting.trans h.idle

/-- R83: a job that is to exchange the banks does nothing before it. -/
theorem SumsAtWork.runJob_of_exchange (room : Nat) {j : Job} {s : State} (h : SumsAtWork s)
    (hlast : Job.exchangesLast j = true) (hj : j.exchange = true) (hcells : s.shaper.line.cells = []) :
    SumsHold (Machine.runJob room j s) := by
  obtain ⟨priority, carried, arrival, control, exchange⟩ := j
  obtain ⟨rfl, rfl, rfl⟩ := (exchangesLast_iff _).1 hlast hj
  rw [runJob_idle, if_pos hj]
  exact (h.exchangeBanks hcells).sumsHold

/-- All the work of one entry, whatever room the exposure queue has: at each line end the line is left empty, so that an
exchange of banks that follows finds it so. -/
theorem SumsAtWork.runJob (room : Nat) {j : Job} {s : State} (h : SumsAtWork s) (hlast : Job.exchangesLast j = true)
    (hcells : j.exchange = true → s.shaper.line.cells = []) : SumsHold (runJob room j s) := by
  induction room generalizing j s with
  | zero =>
    by_cases hj : j.exchange = true
    · exact h.runJob_of_exchange 0 hlast hj (hcells hj)
    · have advanced := h.advance (Bool.eq_false_of_not_eq_true hj)
      unfold Machine.runJob
      split
      · next heq => rw [heq] at advanced; cases advanced with | done hdone => exact hdone.sumsHold
      · next heq => rw [heq] at advanced; cases advanced with | ends _ hnext => exact sumsHold_waits _ _ hnext
  | succ room ih =>
    by_cases hj : j.exchange = true
    · exact h.runJob_of_exchange (room + 1) hlast hj (hcells hj)
    · have advanced := h.advance (Bool.eq_false_of_not_eq_true hj)
      unfold Machine.runJob
      split
      · next heq => rw [heq] at advanced; cases advanced with | done hdone => exact hdone.sumsHold
      · next heq =>
        rw [heq] at advanced
        cases advanced with
        | ends ended hnext => exact ih (sumsAtWork_joins _ _ ended) hnext fun _ => rfl

end Sys2Proof.Proofs
end

section
/-! SUPPORT. What a decoder event can do to the line store, said once: nothing, a mark, the unit reset or a job (O56). -/

namespace Sys2Proof.Proofs

open Sys2Proof.Machine Sys2Proof.Safety

/-! ### The line left as it stands -/

/-- The line but for its flags, a line end that waits, the active bank and the line copy as they were; the line copy may change
only while no cell stands in the line store (R45). -/
structure LineStands (s t : State) : Prop where
  line : { t.shaper.line with flags := s.shaper.line.flags } = s.shaper.line
  waiting : t.shaper.waiting = s.shaper.waiting
  bank : t.bank = s.bank
  copy : s.shaper.line.cells ≠ [] → t.copy = s.copy

theorem LineStands.cells {s t : State} (h : LineStands s t) : t.shaper.line.cells = s.shaper.line.cells :=
  (congrArg Line.cells h.line :)

theorem LineStands.acc {s t : State} (h : LineStands s t) : t.shaper.line.acc = s.shaper.line.acc :=
  (congrArg Line.acc h.line :)

theorem LineStands.items {s t : State} (h : LineStands s t) : t.shaper.line.items = s.shaper.line.items :=
  (congrArg Line.items h.line :)

theorem LineStands.refl (s : State) : LineStands s s := ⟨rfl, rfl, rfl, fun _ => rfl⟩

theorem LineStands.trans {s t u : State} (h : LineStands s t) (k : LineStands t u) : LineStands s u where
  line := (congrArg (fun ln : Line => { ln with flags := s.shaper.line.flags }) k.line).trans h.line
  waiting := k.waiting.trans h.waiting
  bank := k.bank.trans h.bank
  copy hs := (k.copy (h.cells ▸ hs)).trans (h.copy hs)

/-- Work on the standby bank that leaves the shaper and the format set. -/
theorem StandbyWork.lineStands {s t : State} (h : StandbyWork s t) (kept : t.shaper = s.shaper ∧ t.format = s.format) :
    LineStands s t where
  line := by rw [kept.1]
  waiting := congrArg Shaper.waiting kept.1
  bank := h.activeBank
  copy _ := congrArg FormatSet.line kept.2

/-! ### The decoder's own part (R21 to R28, R33 to R39) -/

theorem lineStands_abortLoad (s : State) : LineStands s (abortLoad s) := by
  refine (standbyWork_abortLoad s).lineStands ?_
  unfold abortLoad
  split
  · exact ⟨rfl, rfl⟩
  · dsimp only
    split <;> exact ⟨rfl, rfl⟩

theorem lineStands_clearInHand (s : State) : LineStands s (clearInHand s) := by
  unfold clearInHand
  split
  · exact ⟨rfl, rfl, rfl, fun _ => rfl⟩
  · exact lineStands_abortLoad s
  · exact lineStands_abortLoad s
  all_goals exact .refl s

theorem lineStands_closeTake (notice : Option NoticeKind) (s : State) : LineStands s (closeTake notice s) := by
  refine (lineStands_clearInHand s).trans ?_
  cases notice <;> exact ⟨rfl, rfl, rfl, fun _ => rfl⟩

theorem lineStands_openTake (p : Priority) (s : State) : LineStands s (openTake p s) := ⟨rfl, rfl, rfl, fun _ => rfl⟩

theorem lineStands_actOnLoss (s : State) : LineStands s (actOnLoss s) := by
  have cleared (d : DecoderState) : LineStands s (flagGap (setDecoderState d (clearInHand s))) :=
    (lineStands_clearInHand s).trans ⟨rfl, rfl, rfl, fun _ => rfl⟩
  unfold actOnLoss
  split
  · exact .refl s
  · exact ⟨rfl, rfl, rfl, fun _ => rfl⟩
  · exact cleared .text
  · exact cleared .skip
  · exact cleared .skip
  · exact .refl s

theorem lineStands_openControl (e : Entry) (s : State) : LineStands s (openControl e s) := by
  unfold openControl
  split <;> exact ⟨rfl, rfl, rfl, fun _ => rfl⟩

theorem lineStands_addArgument (e : Entry) (s : State) : LineStands s (addArgument e s) := by
  unfold addArgument
  split <;> exact ⟨rfl, rfl, rfl, fun _ => rfl⟩

theorem lineStands_setPlane (bytes : List Byte) (s : State) : LineStands s (setPlane bytes s) := by
  unfold setPlane
  split <;> exact ⟨rfl, rfl, rfl, fun _ => rfl⟩

/-- R45: beside cells a line parameter's write goes into the pending set. -/
theorem lineStands_fileLineWrite (w : LineWrite) (s : State) : LineStands s (fileLineWrite w s) := by
  refine ⟨rfl, rfl, rfl, fun hcells => ?_⟩
  show (s.format.fileLine s.shaper.line.cells.isEmpty w).line = s.format.line
  rw [List.isEmpty_eq_false_iff.2 hcells]
  rfl

theorem lineStands_writeFormat (bytes : List Byte) (s : State) : LineStands s (writeFormat bytes s) := by
  unfold writeFormat
  split
  · exact lineStands_fileLineWrite _ s
  · exact ⟨rfl, rfl, rfl, fun _ => rfl⟩
  · exact ⟨rfl, rfl, rfl, fun _ => rfl⟩

theorem lineStands_offerReply (q : Query) (s : State) : LineStands s (offerReply q s) := by
  unfold offerReply
  split <;> exact ⟨rfl, rfl, rfl, fun _ => rfl⟩

/-! ### Loads (R35, R36, R72 to R77) -/

theorem lineStands_openLoad (bytes : List Byte) (s : State) : LineStands s (openLoad bytes s) := by
  refine (standbyWork_openLoad bytes s).lineStands ?_
  unfold openLoad
  split <;> exact ⟨rfl, rfl⟩

theorem takeItem_kept (k : TableKind) (index : Nat) (bytes : List Byte) (s : State) :
    (takeItem k index bytes s).shaper = s.shaper ∧ (takeItem k index bytes s).format = s.format := by
  unfold takeItem
  split
  · exact ⟨rfl, rfl⟩
  · split <;> exact ⟨rfl, rfl⟩

theorem lineStands_takeLoadByte (e : Entry) (s : State) : LineStands s (takeLoadByte e s) := by
  refine (standbyWork_takeLoadByte e s).lineStands ?_
  unfold takeLoadByte
  split
  · dsimp only
    split
    · exact ⟨rfl, rfl⟩
    · exact takeItem_kept _ _ _ _
  all_goals exact ⟨rfl, rfl⟩

theorem takeSum_kept (sent : Nat) (s : State) :
    (takeSum sent s).shaper = s.shaper ∧ (takeSum sent s).format = s.format := by
  unfold takeSum
  split
  · exact ⟨rfl, rfl⟩
  · dsimp only
    split
    · split <;> exact ⟨rfl, rfl⟩
    · exact ⟨rfl, rfl⟩

theorem lineStands_takeSumByte (e : Entry) (s : State) : LineStands s (takeSumByte e s) := by
  refine (standbyWork_takeSumByte e s).lineStands ?_
  unfold takeSumByte
  split
  · split
    · exact ⟨rfl, rfl⟩
    · exact takeSum_kept _ _
  all_goals exact ⟨rfl, rfl⟩

/-! ### Every decoder event (R21 to R39) -/

/-- What the work of a decoder event makes of the line store: nothing, or, once the decoder has done its own part, a mark on the
last cell (R102), the unit reset (R111), or the shaper's job for the entry (R19). -/
inductive LineWork (s : State) : State → Prop
  | stands {t : State} : LineStands s t → LineWork s t
  | marked {u : State} (mark : Nat) : LineStands s u → u.shaper.line.markFate u.bank mark = .attach →
      LineWork s (u.setLine (u.shaper.line.attachMark u.bank mark))
  | reset {t : State} : t.shaper = Shaper.empty → LineWork s t
  | job {u : State} (j : Job) : LineStands s u → j.carried = [] → j.exchange = false → LineWork s (doJob j u)

theorem LineWork.after {s u t : State} (h : LineStands s u) (k : LineWork u t) : LineWork s t := by
  cases k with
  | stands hstands => exact .stands (h.trans hstands)
  | marked mark hstands hfate => exact .marked mark (h.trans hstands) hfate
  | reset hempty => exact .reset hempty
  | job j hstands hcarried hexchange => exact .job j (h.trans hstands) hcarried hexchange

theorem lineWork_handArrival (a : Arrival) (s : State) : LineWork s (handArrival a s) := .job _ (.refl s) rfl rfl

theorem lineWork_closingBoundary (notice : Option NoticeKind) (s : State) : LineWork s (closingBoundary notice s) := by
  unfold closingBoundary
  split
  · exact .stands (.refl s)
  · exact .job _ (lineStands_closeTake notice s) rfl rfl

theorem lineWork_openingBoundary (p : Priority) (s : State) : LineWork s (openingBoundary p s) := by
  unfold openingBoundary
  split
  · exact .stands (lineStands_openTake p s)
  · exact .job _ ((lineStands_closeTake _ s).trans (lineStands_openTake p _)) rfl rfl

theorem lineWork_applyBoundary (lost : Option Boundary) (s : State) : LineWork s (applyBoundary lost s) := by
  unfold applyBoundary
  split
  · exact .stands (.refl s)
  · exact lineWork_openingBoundary _ s
  · exact lineWork_closingBoundary _ s
  · exact lineWork_closingBoundary _ s

theorem lineWork_handMark (mark : Nat) (s : State) : LineWork s (handMark mark s) := by
  unfold handMark
  split
  · next hfate => exact .marked mark (.refl s) hfate
  · exact .stands ⟨rfl, rfl, rfl, fun _ => rfl⟩
  · split
    · exact lineWork_handArrival _ s
    · exact .stands ⟨rfl, rfl, rfl, fun _ => rfl⟩

theorem lineWork_takeText (c : Byte) (s : State) : LineWork s (takeText c s) := by
  have flagged : LineStands s (count .unmapped (s.setLine s.shaper.line.flagUnmapped)) := ⟨rfl, rfl, rfl, fun _ => rfl⟩
  unfold takeText
  split
  · exact lineWork_handArrival _ s
  · exact lineWork_handMark _ s
  · exact lineWork_handArrival _ s
  · unfold handUnmapped
    dsimp only
    split
    · exact (lineWork_handArrival _ _).after flagged
    · exact .stands flagged

theorem lineWork_swapBanks (s : State) : LineWork s (swapBanks s) := by
  unfold swapBanks
  split
  · exact .job _ (.refl s) rfl rfl
  · exact .stands ⟨rfl, rfl, rfl, fun _ => rfl⟩

theorem lineWork_controlWork {work : List Byte → State → State} (hwork : ControlWork work) (bytes : List Byte) (s : State) :
    LineWork s (work bytes s) := by
  cases hwork with
  | plane => exact .stands (lineStands_setPlane bytes s)
  | format => exact .stands (lineStands_writeFormat bytes s)
  | leader => exact .stands (lineStands_fileLineWrite _ s)
  | load => exact .stands (lineStands_openLoad bytes s)
  | copy => exact .stands ((standbyWork_copyBank s).lineStands ⟨rfl, rfl⟩)
  | clear => exact .stands ((standbyWork_clearBank s).lineStands ⟨rfl, rfl⟩)
  | swap => exact lineWork_swapBanks s
  | query asked => exact .stands (lineStands_offerReply _ s)
  | stray => exact .stands ⟨rfl, rfl, rfl, fun _ => rfl⟩

theorem lineWork_of_event {d : DecoderState} {e : Entry} {work : State → State} (hwork : DecoderEvent d e work) (s : State) :
    LineWork s (work s) := by
  cases hwork with
  | takeStart _ p => exact lineWork_openingBoundary p s
  | takeEnd => exact lineWork_closingBoundary none s
  | cut => exact lineWork_closingBoundary _ s
  | stalled => exact lineWork_closingBoundary _ s
  | gap _ n lost => exact (lineWork_applyBoundary lost _).after (lineStands_actOnLoss s)
  | idle b => exact .stands (.refl s)
  | skip b => exact .stands (.refl s)
  | text b => exact lineWork_takeText b s
  | stray b => exact .stands ⟨rfl, rfl, rfl, fun _ => rfl⟩
  | opened b => exact .stands (lineStands_openControl _ s)
  | arrival b a => exact lineWork_handArrival a s
  | lineEnd b kind => exact .job _ (.refl s) rfl rfl
  | reset b => exact .reset rfl
  | argument code bytes b => exact .stands (lineStands_addArgument _ s)
  | carriedOut code bytes b hcontrol =>
    exact (lineWork_controlWork hcontrol _ _).after (u := setDecoderState .text s) ⟨rfl, rfl, rfl, fun _ => rfl⟩
  | loadByte ctx b => exact .stands (lineStands_takeLoadByte _ s)
  | sumByte ctx b => exact .stands (lineStands_takeSumByte _ s)

/-! ### Every event keeps the sums true (O56) -/

theorem SumsAtWork.stands {s t : State} (hs : SumsAtWork s) (h : LineStands s t) : SumsAtWork t := by
  have line : LineSums s.bank s.copy t.shaper.line :=
    ⟨h.acc.trans (h.cells ▸ hs.sums.acc), h.items.trans (h.cells ▸ hs.sums.items)⟩
  refine ⟨?_, h.waiting.trans hs.idle⟩
  by_cases hcells : s.shaper.line.cells = []
  · exact line.of_no_cells (h.cells.trans hcells)
  · rw [h.bank, h.copy hcells]
    exact line

theorem SumsAtWork.work {s t : State} (hs : SumsAtWork s) (h : LineWork s t) : SumsHold t := by
  cases h with
  | stands hstands => exact (hs.stands hstands).sumsHold
  | marked mark hstands hfate =>
    have decoded := hs.stands hstands
    exact (decoded.setLine (decoded.sums.attachMark hfate)).sumsHold
  | reset hempty => exact ⟨hempty ▸ lineSums_empty _ _, fun _ => by rw [hempty]; rfl, by rw [hempty]; rfl⟩
  | job j hstands _ hexchange =>
    exact (hs.stands hstands).runJob _ (exchangesLast_of_no_exchange hexchange) fun hj => by simp [hexchange] at hj

/-- R18: the decoder takes no entry while a line end waits. -/
theorem SumsHold.atWork {s : State} (h : SumsHold s) (hw : s.decoderWaiting = false) : SumsAtWork s :=
  ⟨h.sums, ((decoderWaiting_eq_false_iff s).1 hw).1⟩

/-- R46, R83, R107: the packet that waited joins, and the work that waited with it begins on an empty line. -/
theorem SumsHold.packetJoin {s : State} (h : SumsHold s) {w : WaitingEnd} (hw : s.shaper.waiting = some w) (room : Nat) :
    SumsHold (runJob room w.job (joinPacket w.packet (s.setShaper { s.shaper with waiting := none }))) := by
  have emptied : s.shaper.line = Line.empty := h.emptied (by simp [hw])
  have last : Job.exchangesLast w.job = true := by simpa [hw] using h.last
  refine SumsAtWork.runJob room ⟨h.sums.of_no_cells ?_, rfl⟩ last fun _ => ?_ <;> exact congrArg Line.cells emptied

theorem SumsHold.retestReply {s : State} (hs : SumsHold s) : SumsHold (retestReply s) := by
  rw [retestReply_eq]
  split
  · split <;> exact { hs with }
  · exact hs

theorem SumsHold.noted {s t : State} (hs : SumsHold s) (h : Noted s t) : SumsHold t := by
  cases h <;> exact { hs with }

theorem event_keeps_sumsHold {s t : State} (h : Event s t) (hs : SumsHold s) : SumsHold t := by
  cases h with
  | kept => exact hs
  | powerOn strap acceptAll => exact ⟨lineSums_empty _ _, fun _ => rfl, rfl⟩
  | port _ => exact { hs with }
  | decoder hready hwork =>
    exact withRemoval_of (P₀ := SumsAtWork) (fun _ => { hs.atWork hready.2 with }) (fun _ _ hu => { hu with })
      (fun u hu => hu.work (lineWork_of_event hwork u)) (fun _ _ hu => { hu with })
  | packetJoin hw _ => exact hs.packetJoin hw _
  | @bus b _ _ hnoted => exact SumsHold.noted (s := s.setBus b) { hs with } hnoted
  | replyJoin _ _ => exact { hs with }
  | departure _ _ _ =>
    have left (r : ReplyUnit) : SumsHold (s.setReply r) := { hs with }
    exact (left _).retestReply
  | sent => exact { hs with }
  | lineHeld begun => exact { hs with }
  | lineReleased => exact { hs with }

/-- Settles O56: the sums in their parts, kept by each event of a step. -/
theorem stepKeepsLineSumsInv : Obligations.StepKeepsLineSumsInv := by
  intro s t hs h
  rw [lineSumsInv_iff] at hs ⊢
  exact step_keeps (P := SumsHold) (fun _ _ hs => { hs with }) (fun _ _ => event_keeps_sumsHold) hs h

end Sys2Proof.Proofs
end

section
/-! SUPPORT. What settling, an arrival, a mark, a line end and carry-over make of a line, said once (chapters 6 and 7). -/

namespace Sys2Proof.Proofs

open Sys2Proof.Machine Sys2Proof.Safety

/-! ### What an append does to a line (R92 to R94, R113 to R115) -/

/-- R113 to R115: an opportunity recorded becomes the last eligible break where it is eligible. -/
theorem recordBreak_eq (c : LineCopy) (width : Nat) (ln : Line) :
    ln.recordBreak c width =
      { ln with
        lastBreak :=
          if ln.cells.any Cell.allowsBreak = true ∧ width ≤ c.measureFine then some (ln.cells.length, width)
          else ln.lastBreak } := by
  unfold Line.recordBreak
  split <;> rfl

theorem appendSpace_eq (b : Bank) (c : LineCopy) (ln : Line) :
    ln.appendSpace b c =
      { ln with
        cells := ln.cells ++ [.space c.spaceWidth], acc := ln.acc + c.spaceWidth * (5 * c.size)
        lastBreak :=
          if ln.cells.getLast?.any Cell.isSpace = false ∧ ln.cells.any Cell.allowsBreak = true ∧ ln.acc ≤ c.measureFine then
            some (ln.cells.length, ln.acc)
          else ln.lastBreak } := by
  unfold Line.appendSpace Line.endsInSpace
  by_cases hlast : ln.cells.getLast?.any Cell.isSpace = true
  · simp only [hlast, if_true, Bool.true_eq_false, false_and, if_false]
    rfl
  · rw [Bool.not_eq_true] at hlast
    simp only [hlast, if_false, Bool.false_eq_true, true_and, recordBreak_eq]
    rfl

theorem appendBreak_eq (b : Bank) (c : LineCopy) (ln : Line) :
    ln.appendBreak b c =
      { ln with
        cells := ln.cells ++ [.brk (brokenWidthAfter b c ln.cells) false 0]
        items := ln.items + (if (headerGlyph b .breakGlyph).isSome then 1 else 0)
        lastBreak :=
          if ln.cells.any Cell.allowsBreak = true ∧ brokenWidthAfter b c ln.cells ≤ c.measureFine then
            some (ln.cells.length, brokenWidthAfter b c ln.cells)
          else ln.lastBreak } := by
  rw [Line.appendBreak, recordBreak_eq]
  rfl

/-! ### Settling and arrivals (R88, R90 to R103) -/

/-- R98, R100: the letter at a place settled and then looked up for a ligature. -/
def settledLine (b : Bank) (c : LineCopy) (offers : Bool) (i : Nat) (ln : Line) : Line :=
  ((ln.settleAt b c offers i).ligate b c i).1

/-- R91 to R95, R103: the line with the cell an arrival brings. -/
def appendedLine (b : Bank) (c : LineCopy) (a : Arrival) (ln : Line) : Line :=
  match a with
  | .letter g => ln.append b c (.letter (if glyphTransparent b g then transparentLetter b g else provisionalLetter g))
  | .space => ln.appendSpace b c
  | .tab => ln.appendTab b c
  | .disc => ln.appendBreak b c
  | .link k => ln.append b c (.link k)
  | .carrier g mark => ln.append b c (.carrier (carrierCell b g mark))

/-- R91: the arrival is a letter that settles, and is looked up, as it is appended. -/
def arrivesSettled (b : Bank) : Arrival → Bool
  | .letter g => glyphTransparent b g
  | _ => false

/-- R90 step 4: the line with an arrival appended and, where it is a transparent letter, looked up. -/
def arrivedLine (b : Bank) (c : LineCopy) (a : Arrival) (ln : Line) : Line :=
  if arrivesSettled b a then ((appendedLine b c a ln).ligate b c ln.cells.length).1 else appendedLine b c a ln

/-- The cell that an arrival brings. -/
def arrivalCell (b : Bank) (c : LineCopy) (a : Arrival) (ln : Line) : Cell :=
  match a with
  | .letter g => .letter (if glyphTransparent b g then transparentLetter b g else provisionalLetter g)
  | .space => .space c.spaceWidth
  | .tab => .tab (tabGap c ln.acc) [] 0
  | .disc => .brk (brokenWidthAfter b c ln.cells) false 0
  | .link k => .link k
  | .carrier g mark => .carrier (carrierCell b g mark)

theorem appendSpace_cells (b : Bank) (c : LineCopy) (ln : Line) :
    (ln.appendSpace b c).cells = ln.cells ++ [.space c.spaceWidth] := by
  rw [appendSpace_eq]

theorem appendBreak_cells (b : Bank) (c : LineCopy) (ln : Line) :
    (ln.appendBreak b c).cells = ln.cells ++ [.brk (brokenWidthAfter b c ln.cells) false 0] := by
  rw [appendBreak_eq]

theorem appendedLine_cells (b : Bank) (c : LineCopy) (a : Arrival) (ln : Line) :
    (appendedLine b c a ln).cells = ln.cells ++ [arrivalCell b c a ln] := by
  cases a with
  | space => exact appendSpace_cells b c ln
  | disc => exact appendBreak_cells b c ln
  | _ => rfl

theorem cellItems_arrivalCell (b : Bank) (c : LineCopy) (a : Arrival) (ln : Line) :
    cellItems b (arrivalCell b c a ln) = a.items b := by
  cases a with
  | letter g =>
    unfold arrivalCell
    dsimp only
    split <;> rfl
  | carrier g mark =>
    cases hside : sideOf b mark <;> simp [arrivalCell, carrierCell, cellItems, Arrival.items, hside]
  | _ => rfl

/-- R103: a CARRIER brings two items, its glyph and its mark. -/
theorem append_carrier_eq (b : Bank) (c : LineCopy) (g mark : Nat) (ln : Line) :
    ln.append b c (.carrier (carrierCell b g mark)) =
      { ln with
        cells := ln.cells ++ [.carrier (carrierCell b g mark)], acc := ln.acc + advanceOf b g * (5 * c.size)
        items := ln.items + 2 } := by
  have items : cellItems b (.carrier (carrierCell b g mark)) = 2 := cellItems_arrivalCell b c (.carrier g mark) ln
  rw [Line.append, items]
  rfl

/-- R88: the capacity test passed leaves room for the cell and its items. -/
theorem lacksRoom_eq_false_iff {b : Bank} {a : Arrival} {ln : Line} :
    ln.lacksRoom b a = false ↔ ln.cells.length < 192 ∧ ln.items + a.items b ≤ 255 := by
  simp only [Line.lacksRoom, Config.cellCapacity, Config.itemCapacity, Bool.or_eq_false_iff, decide_eq_false_iff_not,
    Nat.not_lt]
  rfl

/-- R91: a transparent letter stands last, settled, when it is looked up. -/
theorem settled_of_arrivesSettled {b : Bank} {c : LineCopy} {ln : Line} {a : Arrival} {l : Letter}
    (ha : arrivesSettled b a = true)
    (hl : letterAt (appendedLine b c a ln).cells ln.cells.length = some l) : l.settled = true := by
  cases a with
  | letter g =>
    have transparent : glyphTransparent b g = true := ha
    rw [appendedLine_cells, arrivalCell, if_pos transparent, letterAt_append] at hl
    cases hl
    rfl
  | _ => cases ha

/-! ### Marks (R102, R104) -/

theorem attachMark_cells {b : Bank} {ln : Line} {mark : Nat} {before : List Cell} {x : Cell} (h : ln.cells = before ++ [x]) :
    (ln.attachMark b mark).cells = before ++ [x.withMark (sideOf b mark) mark] := by
  simp [Line.attachMark, h, List.modify_eq_take_drop]

/-- R102, R104: what becomes of a mark when the last cell holds marks. -/
theorem markFate_of_last {b : Bank} {mark n : Nat} {ln : Line} {before : List Cell} {x : Cell}
    (hcells : ln.cells = before ++ [x]) (hmarks : x.marksOn (sideOf b mark) = some n) :
    ln.markFate b mark = if 3 ≤ n ∨ 255 < ln.items + 1 then .overflow else .attach := by
  rw [Line.markFate, hcells, List.getLast?_append_cons, List.getLast?_singleton]
  simp only [hmarks]

/-! ### Cells carried and re-formed (R108, R116 to R119) -/

/-- R116: what a line end at a break carries stands in the line, in its order. -/
theorem planAtBreak_carried_sublist (b : Bank) (cells : List Cell) (i : Nat) :
    (planAtBreak b cells i).carried.Sublist cells := by
  unfold planAtBreak
  split
  · exact List.drop_sublist _ _
  · exact (List.dropWhile_sublist _).trans (List.drop_sublist _ _)

/-- R116 to R118: an overflow carries cells of the line, in their order. -/
theorem planOverflow_carried_sublist (b : Bank) (ln : Line) (offending : Nat) :
    (planOverflow b ln offending).carried.Sublist ln.cells := by
  unfold planOverflow
  split
  · exact planAtBreak_carried_sublist b _ _
  · split
    · exact List.drop_sublist _ _
    · exact List.drop_sublist _ _

/-- R119: so does a capacity failure. -/
theorem planCapacity_carried_sublist (b : Bank) (c : LineCopy) (ln : Line) :
    (planCapacity b c ln).carried.Sublist ln.cells := by
  unfold planCapacity
  split
  · exact planAtBreak_carried_sublist b _ _
  · split
    · split
      · exact List.drop_sublist _ _
      · exact List.nil_sublist _
    · exact List.nil_sublist _

/-- R108 step 1: re-forming changes one cell at most, a settled LETTER set in another form. -/
theorem reformFirst_cases (b : Bank) (cells : List Cell) :
    reformFirst b cells = cells ∨
      ∃ before l after f, cells = before ++ .letter l :: after ∧ l.settled = true ∧
        reformFirst b cells = before ++ .letter (l.setForm b f) :: after := by
  induction cells with
  | nil => exact .inl rfl
  | cons x rest ih =>
    unfold reformFirst
    split
    · rcases ih with same | ⟨before, l, after, f, rfl, hl, reformed⟩
      · exact .inl (by rw [same])
      · exact .inr ⟨x :: before, l, after, f, rfl, hl, by rw [reformed]; rfl⟩
    · cases x with
      | letter l =>
        dsimp only
        split
        · next hreforms => exact .inr ⟨[], l, rest, _, rfl, (Bool.and_eq_true_iff.1 hreforms).1, rfl⟩
        · exact .inl rfl
      | _ => exact .inl rfl

end Sys2Proof.Proofs
end

section
/-! SUPPORT. The induction over the shaper's work for one entry, packaged once for rules about the line store and the cells that
are carried to it: what settling, an arrival, a mark and carry-over keep, every step keeps (O57, O58). -/

namespace Sys2Proof.Proofs

open Sys2Proof.Machine Sys2Proof.Safety

/-! ### Rules that the operations on a line keep -/

/-- A rule about a line under a bank and a line copy, with the carried cells that are still to be re-measured behind it. -/
abbrev LineRule := Bank → LineCopy → Line → List Cell → Prop

/-- The operations of the shaper keep a rule; `Settled` is what the rule makes of a line whose provisional letter has settled,
for the arrivals that are not transparent. -/
structure ShapingKeeps (Rule : LineRule) (Settled : Line → Prop) : Prop where
  empty : ∀ (b : Bank) (c : LineCopy), Rule b c Line.empty []
  bare : ∀ {b : Bank} {c : LineCopy} {ln : Line} (b' : Bank) (c' : LineCopy), Rule b c ln [] → ln.cells = [] →
    Rule b' c' ln []
  flags : ∀ {b : Bank} {c : LineCopy} {ln : Line} (f : LineFlags), Rule b c ln [] → Rule b c { ln with flags := f } []
  settled : ∀ {b : Bank} {c : LineCopy} {ln : Line}, Rule b c ln [] → provisionalIndex ln.cells = none → Settled ln
  settles : ∀ {b : Bank} {c : LineCopy} {ln : Line} {i : Nat} (offers : Bool), Rule b c ln [] →
    provisionalIndex ln.cells = some i → Rule b c (settledLine b c offers i ln) [] ∧ Settled (settledLine b c offers i ln)
  arrives : ∀ {b : Bank} {c : LineCopy} {ln : Line} {a : Arrival}, Rule b c ln [] → ln.lacksRoom b a = false →
    a.transparent b = true ∨ Settled ln → Rule b c (arrivedLine b c a ln) []
  marks : ∀ {b : Bank} {c : LineCopy} {ln : Line} {mark : Nat}, Rule b c ln [] → ln.markFate b mark = .attach →
    Rule b c (ln.attachMark b mark) []
  reforms : ∀ {b : Bank} {c : LineCopy} {ln : Line} {carried : List Cell}, Rule b c ln carried →
    Rule b c ln (reformFirst b carried)
  remeasures : ∀ {b : Bank} {c : LineCopy} {ln : Line} {x : Cell} {rest : List Cell}, Rule b c ln (x :: rest) →
    Rule b c (ln.remeasureCell b c x) rest
  carries : ∀ {b : Bank} {c : LineCopy} {ln : Line} {rest carried : List Cell} (c' : LineCopy), Rule b c ln rest →
    carried.Sublist (ln.cells ++ rest) → Rule b c' Line.empty carried

/-- The shaper at work: the rule holds of the line, and no line end waits. -/
structure RuleAtWork (Rule : LineRule) (s : State) : Prop where
  line : Rule s.bank s.copy s.shaper.line []
  idle : s.shaper.waiting = none

/-- The rule holds of the line, and of the cells that a waiting line end carries to the empty line, whatever the line copy then
is; an exchange of banks comes last (R83). -/
structure RuleHolds (Rule : LineRule) (s : State) : Prop where
  line : Rule s.bank s.copy s.shaper.line []
  emptied : s.shaper.waiting.isSome = true → s.shaper.line = Line.empty
  waits : ∀ w, s.shaper.waiting = some w →
    Job.exchangesLast w.job = true ∧ ∀ c, Rule s.bank c Line.empty w.job.carried

/-- How far an arrival got under the rule, with the cells that its line end carries cells of the line. -/
inductive RuleShaped (Rule : LineRule) : Shaped → Prop
  | done {t : State} : RuleAtWork Rule t → RuleShaped Rule (.done t)
  | ends {t : State} {plan : EndPlan} {held : Option Arrival} : RuleAtWork Rule t →
      plan.carried.Sublist t.shaper.line.cells → RuleShaped Rule (.ends t plan held)

/-- How far a job got under the rule, with the cells that its line end carries fit for the empty line. -/
inductive RuleAdvance (Rule : LineRule) : Progress → Prop
  | done {t : State} : RuleAtWork Rule t → RuleAdvance Rule (.done t)
  | ends {t : State} {plan : EndPlan} {next : Job} : t.shaper.waiting = none → Job.exchangesLast next = true →
      (∀ c, Rule t.bank c Line.empty next.carried) → RuleAdvance Rule (.ends t plan next)

theorem RuleShaped.fitTest {Rule : LineRule} {s : State} (i : Nat) (h : RuleAtWork Rule s) :
    RuleShaped Rule (fitTest i s) := by
  unfold Machine.fitTest
  split
  · exact .ends h (planOverflow_carried_sublist _ _ _)
  · exact .done h

theorem RuleAtWork.holds {Rule : LineRule} {s : State} (h : RuleAtWork Rule s) : RuleHolds Rule s where
  line := h.line
  emptied hw := by simp [h.idle] at hw
  waits w hw := by simp [h.idle] at hw

theorem RuleAtWork.ligateAt {Rule : LineRule} {s : State} {ln : Line} {i : Nat} (hidle : s.shaper.waiting = none)
    (h : Rule s.bank s.copy (ln.ligate s.bank s.copy i).1 []) : RuleAtWork Rule (ligateAt i (s.setLine ln)).1 := by
  rw [ligateAt_eq]
  exact ⟨h, hidle⟩

theorem RuleHolds.retestReply {Rule : LineRule} {s : State} (hs : RuleHolds Rule s) : RuleHolds Rule (retestReply s) := by
  rw [retestReply_eq]
  split
  · split <;> exact { hs with }
  · exact hs

theorem RuleHolds.noted {Rule : LineRule} {s t : State} (hs : RuleHolds Rule s) (h : Noted s t) : RuleHolds Rule t := by
  cases h <;> exact { hs with }

/-- R91: nothing settles where no letter is provisional. -/
theorem provisionalIndex_of_settleProvisional {s : State} {offers : Bool} (h : settleProvisional offers s = none) :
    provisionalIndex s.shaper.line.cells = none := by
  unfold settleProvisional at h
  split at h
  · assumption
  · cases h

theorem ligateAt_line (i : Nat) (s : State) : (ligateAt i s).1.shaper.line = (s.shaper.line.ligate s.bank s.copy i).1 := by
  rw [ligateAt_eq]

namespace ShapingKeeps

variable {Rule : LineRule} {Settled : Line → Prop} (k : ShapingKeeps Rule Settled)

include k

/-! ### Arrivals (R90) -/

theorem settleProvisional {s t : State} {offers : Bool} {offending : Nat} (h : RuleAtWork Rule s)
    (ht : settleProvisional offers s = some (t, offending)) : RuleAtWork Rule t ∧ Settled t.shaper.line := by
  unfold Machine.settleProvisional at ht
  split at ht
  · cases ht
  · next i hi =>
    obtain ⟨hrule, hsettled⟩ := k.settles offers h.line hi
    have line := ligateAt_line i (s.setLine (s.shaper.line.settleAt s.bank s.copy offers i))
    have work := RuleAtWork.ligateAt h.idle hrule
    rw [Option.some.injEq] at ht
    rw [ht] at line work
    exact ⟨work, line ▸ hsettled⟩

theorem appendArrival {s : State} {a : Arrival} (h : RuleAtWork Rule s) (hroom : s.shaper.line.lacksRoom s.bank a = false)
    (ha : a.transparent s.bank = true ∨ Settled s.shaper.line) : RuleShaped Rule (appendArrival a s) := by
  have arrived := k.arrives h.line hroom ha
  cases a with
  | letter g =>
    unfold Machine.appendArrival
    unfold arrivedLine appendedLine arrivesSettled at arrived
    by_cases hg : glyphTransparent s.bank g = true
    · simp only [hg, if_true] at arrived ⊢
      exact .fitTest _ (.ligateAt h.idle arrived)
    · simp only [hg, if_false, Bool.false_eq_true] at arrived ⊢
      exact .done ⟨arrived, h.idle⟩
  | space => exact .fitTest _ ⟨arrived, h.idle⟩
  | disc => exact .done ⟨arrived, h.idle⟩
  | tab => exact .fitTest _ ⟨arrived, h.idle⟩
  | link kind => exact .done ⟨arrived, h.idle⟩
  | carrier g mark => exact .fitTest _ ⟨arrived, h.idle⟩

theorem admitArrival {s : State} {a : Arrival} (h : RuleAtWork Rule s)
    (ha : a.transparent s.bank = true ∨ Settled s.shaper.line) : RuleShaped Rule (admitArrival a s) := by
  unfold Machine.admitArrival
  split
  · exact .ends h (planCapacity_carried_sublist _ _ _)
  · next hroom => exact k.appendArrival h (by simpa using hroom) ha

theorem takeArrival {s : State} (a : Arrival) (h : RuleAtWork Rule s) : RuleShaped Rule (takeArrival a s) := by
  unfold Machine.takeArrival
  split
  · exact .done h
  · split
    · next ha => exact k.admitArrival h (.inl ha)
    · split
      · next heq => exact k.admitArrival h (.inr (k.settled h.line (provisionalIndex_of_settleProvisional heq)))
      · next t offending heq =>
        obtain ⟨work, hsettled⟩ := k.settleProvisional h heq
        split
        · exact .ends work (planOverflow_carried_sublist _ _ _)
        · exact k.admitArrival work (.inr hsettled)

/-! ### A job up to its next line end (R82, R83, R106, R108, R120) -/

/-- What a line end carries is fit for the empty line. -/
theorem carried {s : State} {xs : List Cell} (h : RuleAtWork Rule s) (hxs : xs.Sublist s.shaper.line.cells) (c : LineCopy) :
    Rule s.bank c Line.empty xs :=
  k.carries c h.line (by rwa [List.append_nil])

theorem exchangeBanks {s : State} (h : RuleAtWork Rule s) (hcells : s.shaper.line.cells = []) :
    RuleAtWork Rule (exchangeBanks s) := ⟨k.bare _ _ h.line hcells, h.idle⟩

theorem emptyEnd {s : State} (kind : EndKind) (h : RuleAtWork Rule s) (hcells : s.shaper.line.cells = []) :
    RuleAtWork Rule (emptyEnd kind s) := by
  have dropped : RuleAtWork Rule (dropFlags s) := ⟨k.flags _ h.line, h.idle⟩
  cases kind with
  | overflow => exact h
  | endline => exact h
  | endpara => exact ⟨dropped.line, dropped.idle⟩
  | take => exact dropped
  | swap => exact k.exchangeBanks h hcells

theorem endByControl {s : State} (e : ControlEnd) (j : Job) (h : RuleAtWork Rule s) :
    RuleAdvance Rule (endByControl e j s) := by
  unfold Machine.endByControl
  split
  · next hempty => exact .done (k.emptyEnd e.kind h hempty.1)
  · exact .ends h.idle ((exchangesLast_iff _).2 fun _ => ⟨rfl, rfl, rfl⟩) (k.carried h (List.nil_sublist _))

theorem controlEnd {s : State} (e : ControlEnd) {j : Job} (hj : j.exchange = false) (h : RuleAtWork Rule s) :
    RuleAdvance Rule (controlEnd e j s) := by
  unfold Machine.controlEnd
  split
  · exact k.endByControl e j h
  · next t offending heq =>
    have work := (k.settleProvisional h heq).1
    split
    · exact .ends work.idle (exchangesLast_of_no_exchange hj) (k.carried work (planOverflow_carried_sublist _ _ _))
    · exact k.endByControl e j work

theorem afterArrival {s : State} {j : Job} (hj : j.exchange = false) (h : RuleAtWork Rule s) :
    RuleAdvance Rule (afterArrival j s) := by
  unfold Machine.afterArrival
  split
  · exact k.controlEnd _ hj h
  · rw [hj]
    exact .done h

theorem afterCarryOver {s : State} {j : Job} (hj : j.exchange = false) (h : RuleAtWork Rule s) :
    RuleAdvance Rule (afterCarryOver j s) := by
  unfold Machine.afterCarryOver
  split
  · exact k.afterArrival hj h
  · next a _ =>
    have taken := k.takeArrival a h
    split
    · next heq => rw [heq] at taken; cases taken with | done work => exact k.afterArrival hj work
    · next heq =>
      rw [heq] at taken
      cases taken with
      | ends work sub => exact .ends work.idle (exchangesLast_of_no_exchange hj) (k.carried work sub)

/-- R108: re-measuring moves the carried cells onto the line one by one. -/
theorem remeasure {b : Bank} {c : LineCopy} {ln : Line} {cells : List Cell} (h : Rule b c ln cells) :
    Rule b c (remeasure b c cells ln).1 ((remeasure b c cells ln).2.getD []) := by
  induction cells generalizing ln with
  | nil => exact h
  | cons x rest ih =>
    unfold Machine.remeasure
    split
    · exact k.remeasures h
    · exact ih (k.remeasures h)

theorem advance {s : State} {j : Job} (hj : j.exchange = false) (hidle : s.shaper.waiting = none)
    (h : Rule s.bank s.copy s.shaper.line j.carried) : RuleAdvance Rule (j.advance s) := by
  have measured := k.remeasure (k.reforms h)
  unfold Job.advance
  dsimp only
  split
  · next hall =>
    rw [hall] at measured
    exact k.afterCarryOver hj ⟨measured, hidle⟩
  · next rest hrest =>
    rw [hrest] at measured
    refine .ends hidle (exchangesLast_of_no_exchange hj) fun c => k.carries c measured ?_
    exact (planOverflow_carried_sublist _ _ _).append_right _

/-! ### All the work of one entry (R19, R46, R83, R107) -/

/-- R107: a line end that waits leaves the next line empty. -/
theorem waits {t : State} (plan : EndPlan) {w : WaitingEnd} (hlast : Job.exchangesLast w.job = true)
    (hcarried : ∀ c, Rule t.bank c Line.empty w.job.carried) :
    RuleHolds Rule ((makeLineEnd plan t).setShaper { (makeLineEnd plan t).shaper with waiting := some w }) := by
  have bank : (makeLineEnd plan t).bank = t.bank := congrArg TableBlock.activeBank (tablesStand_makeLineEnd plan t).tables
  refine ⟨k.empty _ _, fun _ => rfl, fun v hv => ?_⟩
  cases hv
  exact ⟨hlast, fun c => by rw [bank_setShaper, bank]; exact hcarried c⟩

/-- R83: a job that is to exchange the banks does nothing before it. -/
theorem runJob_of_exchange (room : Nat) {j : Job} {s : State} (hlast : Job.exchangesLast j = true) (hj : j.exchange = true)
    (hidle : s.shaper.waiting = none) (h : Rule s.bank s.copy s.shaper.line j.carried) (hcells : s.shaper.line.cells = []) :
    RuleHolds Rule (Machine.runJob room j s) := by
  obtain ⟨priority, carried, arrival, control, exchange⟩ := j
  obtain ⟨rfl, rfl, rfl⟩ := (exchangesLast_iff _).1 hlast hj
  rw [runJob_idle, if_pos hj]
  exact (k.exchangeBanks ⟨h, hidle⟩ hcells).holds

/-- All the work of one entry, whatever room the exposure queue has. -/
theorem runJob (room : Nat) {j : Job} {s : State} (hlast : Job.exchangesLast j = true) (hidle : s.shaper.waiting = none)
    (h : Rule s.bank s.copy s.shaper.line j.carried) (hcells : j.exchange = true → s.shaper.line.cells = []) :
    RuleHolds Rule (runJob room j s) := by
  induction room generalizing j s with
  | zero =>
    by_cases hj : j.exchange = true
    · exact k.runJob_of_exchange 0 hlast hj hidle h (hcells hj)
    · have advanced := k.advance (Bool.eq_false_of_not_eq_true hj) hidle h
      unfold Machine.runJob
      split
      · next heq => rw [heq] at advanced; cases advanced with | done work => exact work.holds
      · next heq => rw [heq] at advanced; cases advanced with | ends _ hnext hcarried => exact k.waits _ hnext hcarried
  | succ room ih =>
    by_cases hj : j.exchange = true
    · exact k.runJob_of_exchange (room + 1) hlast hj hidle h (hcells hj)
    · have advanced := k.advance (Bool.eq_false_of_not_eq_true hj) hidle h
      unfold Machine.runJob
      split
      · next heq => rw [heq] at advanced; cases advanced with | done work => exact work.holds
      · next t plan next heq =>
        rw [heq] at advanced
        cases advanced with
        | ends ended hnext hcarried =>
          obtain ⟨tables, waiting⟩ := tablesStand_makeLineEnd plan t
          have bank : (makeLineEnd plan t).bank = t.bank := congrArg TableBlock.activeBank tables
          exact ih hnext (waiting.trans ended) (bank ▸ hcarried _) fun _ => rfl

/-! ### Every event -/

theorem stands {s t : State} (h : RuleAtWork Rule s) (hst : LineStands s t) : RuleAtWork Rule t := by
  have line : t.shaper.line = { s.shaper.line with flags := t.shaper.line.flags } := by rw [← hst.line]
  have flagged : Rule s.bank s.copy t.shaper.line [] := line ▸ k.flags _ h.line
  refine ⟨?_, hst.waiting.trans h.idle⟩
  by_cases hcells : s.shaper.line.cells = []
  · exact k.bare _ _ flagged (hst.cells.trans hcells)
  · rw [hst.bank, hst.copy hcells]
    exact flagged

theorem work {s t : State} (h : RuleAtWork Rule s) (hwork : LineWork s t) : RuleHolds Rule t := by
  cases hwork with
  | stands hst => exact (k.stands h hst).holds
  | marked mark hst hfate =>
    obtain ⟨line, idle⟩ := k.stands h hst
    exact RuleAtWork.holds ⟨k.marks line hfate, idle⟩
  | reset hempty => exact ⟨hempty ▸ k.empty _ _, fun _ => by rw [hempty]; rfl, fun _ hw => by rw [hempty] at hw; cases hw⟩
  | job j hst hcarried hexchange =>
    obtain ⟨line, idle⟩ := k.stands h hst
    exact k.runJob _ (exchangesLast_of_no_exchange hexchange) idle (hcarried ▸ line) fun hj => by simp [hexchange] at hj

/-- R46, R83, R107: the packet that waited joins, and the work that waited with it begins on an empty line. -/
theorem packetJoin {s : State} (h : RuleHolds Rule s) {w : WaitingEnd} (hw : s.shaper.waiting = some w) (room : Nat) :
    RuleHolds Rule (Machine.runJob room w.job (joinPacket w.packet (s.setShaper { s.shaper with waiting := none }))) := by
  have emptied : s.shaper.line = Line.empty := h.emptied (by simp [hw])
  obtain ⟨hlast, hcarried⟩ := h.waits w hw
  refine k.runJob room hlast rfl ?_ fun _ => congrArg Line.cells emptied
  show Rule s.bank _ s.shaper.line w.job.carried
  rw [emptied]
  exact hcarried _

theorem event {s t : State} (h : Event s t) (hs : RuleHolds Rule s) : RuleHolds Rule t := by
  cases h with
  | kept => exact hs
  | powerOn strap acceptAll => exact ⟨k.empty _ _, fun _ => rfl, fun _ hw => by cases hw⟩
  | port _ => exact { hs with }
  | decoder hready hwork =>
    have idle := ((decoderWaiting_eq_false_iff s).1 hready.2).1
    exact withRemoval_of (P₀ := RuleAtWork Rule) (fun _ => ⟨hs.line, idle⟩) (fun _ _ hu => { hu with })
      (fun u hu => k.work hu (lineWork_of_event hwork u)) (fun _ _ hu => { hu with })
  | packetJoin hw _ => exact k.packetJoin hs hw _
  | @bus b _ _ hnoted => exact RuleHolds.noted (s := s.setBus b) { hs with } hnoted
  | replyJoin _ _ => exact { hs with }
  | departure _ _ _ =>
    have left (r : ReplyUnit) : RuleHolds Rule (s.setReply r) := { hs with }
    exact (left _).retestReply
  | sent => exact { hs with }
  | lineHeld begun => exact { hs with }
  | lineReleased => exact { hs with }

/-- A rule that the shaper's operations keep, every step keeps. -/
theorem step {s t : State} (hs : RuleHolds Rule s) (h : Machine.step s = .next t) : RuleHolds Rule t :=
  step_keeps (P := RuleHolds Rule) (fun _ _ hs => { hs with }) (fun _ _ => k.event) hs h

end ShapingKeeps

end Sys2Proof.Proofs
end

section
/-! SUPPORT. The bounds of the line store and of carried cells: what each operation on a line does to them (O57). -/

namespace Sys2Proof.Proofs

open Sys2Proof.Machine Sys2Proof.Safety

/-! ### Cells within the bounds (R88, R104) -/

/-- R88, R104: at most 192 cells, 255 items and three marks a side. -/
structure CellsBounded (b : Bank) (cells : List Cell) : Prop where
  count : cells.length ≤ 192
  items : sumItems b cells ≤ 255
  marks : cells.all marksBounded = true

theorem sumItems_sublist (b : Bank) {xs ys : List Cell} (h : xs.Sublist ys) : sumItems b xs ≤ sumItems b ys := by
  induction h with
  | slnil => exact Nat.le_refl _
  | cons x _ ih => exact Nat.le_trans ih (Nat.le_add_left _ _)
  | cons_cons x _ ih => exact Nat.add_le_add_left ih _

theorem CellsBounded.sublist {b : Bank} {xs ys : List Cell} (h : CellsBounded b ys) (hsub : xs.Sublist ys) :
    CellsBounded b xs where
  count := Nat.le_trans hsub.length_le h.count
  items := Nat.le_trans (sumItems_sublist b hsub) h.items
  marks := List.all_eq_true.2 fun x hx => List.all_eq_true.1 h.marks x (hsub.subset hx)

/-- A cell in the place of others that emit no fewer items. -/
theorem CellsBounded.replace {b : Bank} {before old after : List Cell} {x : Cell}
    (h : CellsBounded b (before ++ old ++ after)) (hold : old ≠ []) (hitems : cellItems b x ≤ sumItems b old)
    (hmarks : marksBounded x = true) : CellsBounded b (before ++ x :: after) := by
  obtain ⟨hcount, hsum, hall⟩ := h
  have one : 1 ≤ old.length := List.length_pos_iff.2 hold
  simp only [List.length_append, sumItems_append, List.all_append, Bool.and_eq_true] at hcount hsum hall
  refine ⟨?_, ?_, ?_⟩
  · simp only [List.length_append, List.length_cons]
    omega
  · simp only [sumItems_append, sumItems]
    omega
  · simp only [List.all_append, List.all_cons, hall, hmarks, Bool.and_self]

/-- A cell in the place of one that emits no fewer items. -/
theorem CellsBounded.replaceOne {b : Bank} {before after : List Cell} {x y : Cell}
    (h : CellsBounded b (before ++ x :: after)) (hitems : cellItems b y ≤ cellItems b x) (hmarks : marksBounded y = true) :
    CellsBounded b (before ++ y :: after) :=
  CellsBounded.replace (old := [x]) (by simpa using h) (List.cons_ne_nil _ _) (by simpa [sumItems] using hitems) hmarks

theorem CellsBounded.marks_of_mem {b : Bank} {before after : List Cell} {x : Cell} (h : CellsBounded b (before ++ x :: after)) :
    marksBounded x = true := List.all_eq_true.1 h.marks x (by simp)

/-- The sums of the line are true, and its cells with the carried ones behind them are within the bounds. -/
structure StoreRule (b : Bank) (c : LineCopy) (ln : Line) (rest : List Cell) : Prop where
  sums : LineSums b c ln
  bounded : CellsBounded b (ln.cells ++ rest)

theorem StoreRule.of_line {b : Bank} {c : LineCopy} {ln : Line} (sums : LineSums b c ln) (h : CellsBounded b ln.cells) :
    StoreRule b c ln [] := ⟨sums, by rwa [List.append_nil]⟩

theorem StoreRule.cells {b : Bank} {c : LineCopy} {ln : Line} (h : StoreRule b c ln []) : CellsBounded b ln.cells := by
  simpa using h.bounded

section
variable {b : Bank} {c : LineCopy} {ln : Line}

/-! ### The letter settled and looked up (R98, R101) -/

theorem CellsBounded.settleAt (h : CellsBounded b ln.cells) (c : LineCopy) (offers : Bool) {i : Nat}
    (hi : provisionalIndex ln.cells = some i) : CellsBounded b (ln.settleAt b c offers i).cells := by
  obtain ⟨before, l, after, hcells, rfl, -⟩ := provisionalFrom_eq_some hi
  rw [hcells] at h
  rw [Nat.zero_add, settleAt_of_cells b c offers hcells]
  exact h.replaceOne (Nat.le_refl _) h.marks_of_mem

/-- R101: three marks a side stay in the merged cell. -/
theorem marksBounded_mergeLetters (b : Bank) (g : Nat) (e l : Letter) :
    marksBounded (.letter (mergeLetters b g e l).1) = true := by
  simp [marksBounded, mergeLetters, List.length_take]

theorem CellsBounded.ligate (h : CellsBounded b ln.cells) (i : Nat) : CellsBounded b (ln.ligate b c i).1.cells := by
  cases hresult : ligatureResult b ln.cells i with
  | none => rw [ligate_of_none c hresult]; exact h
  | some r =>
    obtain ⟨g, e, l⟩ := r
    obtain ⟨before, after, hcells, rfl, -⟩ := ligatureResult_eq_some hresult
    have emitted := cellItems_mergeLetters b g e l
    rw [ligate_of_some c hcells hresult]
    rw [hcells] at h
    refine CellsBounded.replace (old := [.letter e, .letter l]) (by simpa using h) (List.cons_ne_nil _ _) ?_
      (marksBounded_mergeLetters b g e l)
    simp only [sumItems]
    omega

theorem StoreRule.settledLine (h : StoreRule b c ln []) (offers : Bool) {i : Nat} (hi : provisionalIndex ln.cells = some i) :
    StoreRule b c (settledLine b c offers i ln) [] := by
  obtain ⟨sums, letter⟩ := h.sums.settleAt offers hi
  exact .of_line (sums.ligate letter) ((h.cells.settleAt c offers hi).ligate i)

/-! ### Arrivals (R88, R90 to R95, R103) -/

theorem marksBounded_arrivalCell (b : Bank) (c : LineCopy) (a : Arrival) (ln : Line) :
    marksBounded (arrivalCell b c a ln) = true := by
  cases a with
  | letter g =>
    unfold arrivalCell
    dsimp only
    split <;> rfl
  | carrier g mark => cases hside : sideOf b mark <;> simp [arrivalCell, carrierCell, marksBounded, hside]
  | _ => rfl

theorem LineSums.appendedLine (h : LineSums b c ln) (a : Arrival) : LineSums b c (appendedLine b c a ln) := by
  cases a with
  | letter g => exact h.append _
  | space => exact h.appendSpace
  | tab => exact h.appendTab
  | disc => exact h.appendBreak
  | link k => exact h.append _
  | carrier g mark => exact h.append _

theorem StoreRule.appendedLine (h : StoreRule b c ln []) {a : Arrival} (hroom : ln.lacksRoom b a = false) :
    StoreRule b c (appendedLine b c a ln) [] := by
  obtain ⟨cell, item⟩ := lacksRoom_eq_false_iff.1 hroom
  refine .of_line (h.sums.appendedLine a) ?_
  rw [appendedLine_cells]
  refine ⟨?_, ?_, ?_⟩
  · simpa using cell
  · rw [sumItems_append, ← h.sums.items]
    simpa [sumItems, cellItems_arrivalCell] using item
  · simp [h.cells.marks, marksBounded_arrivalCell]

theorem StoreRule.arrivedLine (h : StoreRule b c ln []) {a : Arrival} (hroom : ln.lacksRoom b a = false) :
    StoreRule b c (arrivedLine b c a ln) [] := by
  have appended := h.appendedLine hroom
  unfold Proofs.arrivedLine
  split
  · next ha =>
    exact .of_line (appended.sums.ligate fun _ hl => settled_of_arrivesSettled ha hl) (appended.cells.ligate _)
  · exact appended

/-! ### Marks (R102, R104) -/

/-- R102, R104: a mark attaches to a last cell with fewer than three on its side, on a line with fewer than 255 items. -/
theorem room_of_markFate_attach {mark : Nat} (h : ln.markFate b mark = .attach) :
    ∃ before x n, ln.cells = before ++ [x] ∧ x.marksOn (sideOf b mark) = some n ∧ n < 3 ∧ ln.items < 255 := by
  obtain ⟨before, x, hcells, hmarks⟩ := cells_of_markFate_attach h
  obtain ⟨n, hn⟩ := Option.isSome_iff_exists.1 hmarks
  rw [markFate_of_last hcells hn] at h
  split at h
  · cases h
  · next hroom => exact ⟨before, x, n, hcells, hn, by omega, by omega⟩

theorem marksBounded_withMark {side : Side} {mark n : Nat} {x : Cell} (hx : marksBounded x = true)
    (hn : x.marksOn side = some n) (h3 : n < 3) : marksBounded (x.withMark side mark) = true := by
  cases x with
  | letter l =>
    cases side <;> cases hn <;> simp [marksBounded, Cell.withMark, joinMark, markCount] at hx h3 ⊢ <;> omega
  | carrier k =>
    cases side <;> cases hn <;> simp [marksBounded, Cell.withMark, joinMark, markCount] at hx h3 ⊢ <;> omega
  | _ => cases hn

theorem StoreRule.attachMark (h : StoreRule b c ln []) {mark : Nat} (hfate : ln.markFate b mark = .attach) :
    StoreRule b c (ln.attachMark b mark) [] := by
  obtain ⟨before, x, n, hcells, hn, h3, hitems⟩ := room_of_markFate_attach hfate
  have sums := h.sums.attachMark hfate
  obtain ⟨hcount, -, hmarks⟩ := h.cells
  rw [hcells, List.all_append, Bool.and_eq_true] at hmarks
  rw [hcells] at hcount
  have bounded : marksBounded x = true := by simpa using hmarks.2
  refine .of_line sums ⟨?_, sums.items ▸ hitems, ?_⟩
  · rw [attachMark_cells hcells]
    simpa using hcount
  · rw [attachMark_cells hcells, List.all_append, hmarks.1]
    simpa using marksBounded_withMark bounded hn h3

/-! ### Carried cells (R108) -/

theorem StoreRule.reformFirst {carried : List Cell} (h : StoreRule b c ln carried) :
    StoreRule b c ln (reformFirst b carried) := by
  rcases reformFirst_cases b carried with same | ⟨before, l, after, f, rfl, -, reformed⟩
  · rwa [same]
  · have bounded : CellsBounded b ((ln.cells ++ before) ++ .letter l :: after) := by simpa using h.bounded
    rw [reformed]
    refine ⟨h.sums, ?_⟩
    rw [← List.append_assoc]
    exact bounded.replaceOne (Nat.le_refl _) bounded.marks_of_mem

/-- R108 step 2: a re-measured cell joins the line with the marks and the items it had, or, a SPACE that would stand first, is
dropped. -/
inductive Remeasured (b : Bank) (ln m : Line) (x : Cell) : Prop
  | dropped : x.isSpace = true → m = ln → Remeasured b ln m x
  | joined (y : Cell) : m.cells = ln.cells ++ [y] → cellItems b y = cellItems b x →
      (marksBounded x = true → marksBounded y = true) → Remeasured b ln m x

theorem remeasured_remeasureCell (b : Bank) (c : LineCopy) (x : Cell) (ln : Line) :
    Remeasured b ln (ln.remeasureCell b c x) x := by
  cases x with
  | letter l =>
    by_cases hl : l.settled = true
    · exact .joined (.letter { l with width := advanceOf b l.setGlyph }) (by simp [Line.remeasureCell, Line.append, hl]) rfl id
    · exact .joined (.letter l) (by simp [Line.remeasureCell, Line.append, hl]) rfl id
  | space w =>
    unfold Line.remeasureCell
    dsimp only
    split
    · exact .dropped rfl rfl
    · exact .joined _ (appendSpace_cells b c ln) rfl id
  | tab gap leaders left => exact .joined _ rfl rfl fun _ => rfl
  | brk w broken d => exact .joined _ (appendBreak_cells b c ln) rfl fun _ => rfl
  | link k => exact .joined _ rfl rfl id
  | carrier k => exact .joined _ rfl rfl id

theorem StoreRule.remeasureCell {x : Cell} {rest : List Cell} (h : StoreRule b c ln (x :: rest)) :
    StoreRule b c (ln.remeasureCell b c x) rest := by
  refine ⟨h.sums.remeasureCell x, ?_⟩
  cases remeasured_remeasureCell b c x ln with
  | dropped _ same =>
    rw [same]
    exact h.bounded.sublist ((List.sublist_cons_self x rest).append_left _)
  | joined y cells items marks =>
    rw [cells, List.append_assoc]
    exact h.bounded.replaceOne (Nat.le_of_eq items) (marks h.bounded.marks_of_mem)

end

/-! ### Every step (O57) -/

theorem storeRule_shapingKeeps : ShapingKeeps StoreRule fun _ => True where
  empty b c := .of_line (lineSums_empty b c) ⟨Nat.zero_le _, Nat.zero_le _, rfl⟩
  bare b' c' h hcells := by
    refine .of_line (h.sums.of_no_cells hcells) ?_
    rw [hcells]
    exact ⟨Nat.zero_le _, Nat.zero_le _, rfl⟩
  flags _ h := ⟨⟨h.sums.acc, h.sums.items⟩, h.bounded⟩
  settled _ _ := trivial
  settles offers h hi := ⟨h.settledLine offers hi, trivial⟩
  arrives h hroom _ := h.arrivedLine hroom
  marks h hfate := h.attachMark hfate
  reforms h := h.reformFirst
  remeasures h := h.remeasureCell
  carries c' h hsub := ⟨lineSums_empty _ c', h.bounded.sublist hsub⟩

/-- The invariant of the line store is its rule, of the line and of the carried cells that wait. -/
theorem lineStoreInv_iff (s : State) : LineStoreInv s ↔ RuleHolds StoreRule s := by
  constructor
  · rintro ⟨hsums, hcount, hitems, hmarks, hwaits⟩
    obtain ⟨sums, emptied, last⟩ := (lineSumsInv_iff s).1 hsums
    refine ⟨.of_line sums ⟨hcount, sums.items ▸ hitems, hmarks⟩, emptied, fun w hw => ?_⟩
    simp only [hw, Option.all_some, Bool.and_eq_true, decide_eq_true_eq] at last hwaits
    obtain ⟨⟨count, items⟩, marks⟩ := hwaits
    exact ⟨last, fun c => ⟨lineSums_empty _ c, count, items, marks⟩⟩
  · rintro ⟨line, emptied, waits⟩
    obtain ⟨count, items, marks⟩ := line.cells
    refine ⟨(lineSumsInv_iff s).2 ⟨line.sums, emptied, ?_⟩, count, line.sums.items ▸ items, marks, ?_⟩
    · exact (Option.all_eq_true _ _).2 fun w hw => (waits w hw).1
    · refine (Option.all_eq_true _ _).2 fun w hw => ?_
      obtain ⟨-, count, items, marks⟩ := (waits w hw).2 s.copy
      simp only [Bool.and_eq_true, decide_eq_true_eq]
      exact ⟨⟨count, items⟩, marks⟩

/-- Settles O57: the bounds as a rule that the shaper's operations keep. -/
theorem stepKeepsLineStoreInv : Obligations.StepKeepsLineStoreInv := by
  intro s t hs h
  rw [lineStoreInv_iff] at hs ⊢
  exact storeRule_shapingKeeps.step hs h

end Sys2Proof.Proofs
end

section
/-! SUPPORT. The provisional letter and the last eligible break: what each operation on a line does to them (O58). -/

namespace Sys2Proof.Proofs

open Sys2Proof.Machine Sys2Proof.Safety

/-! ### The provisional letter is the last that is not transparent (R90, R91) -/

/-- R90: neighbours are looked for past these cells. -/
def LookedPast (b : Bank) (cells : List Cell) : Prop := cells.all (fun x => x.transparent b) = true

theorem lookedPast_cons {b : Bank} {x : Cell} {rest : List Cell} :
    LookedPast b (x :: rest) ↔ x.transparent b = true ∧ LookedPast b rest := by
  simp only [LookedPast, List.all_cons, Bool.and_eq_true]

theorem lookedPast_append {b : Bank} {xs ys : List Cell} : LookedPast b (xs ++ ys) ↔ LookedPast b xs ∧ LookedPast b ys := by
  simp only [LookedPast, List.all_append, Bool.and_eq_true]

theorem LookedPast.sublist {b : Bank} {xs ys : List Cell} (h : LookedPast b ys) (hsub : xs.Sublist ys) : LookedPast b xs :=
  List.all_eq_true.2 fun x hx => List.all_eq_true.1 h x (hsub.subset hx)

theorem allSettled_append (xs ys : List Cell) : allSettled (xs ++ ys) = (allSettled xs && allSettled ys) := List.all_append

theorem allSettled_letter_cons (l : Letter) (rest : List Cell) :
    allSettled (.letter l :: rest) = (l.settled && allSettled rest) := rfl

theorem provisionalLast_letter_cons {b : Bank} {l : Letter} {rest : List Cell} :
    provisionalLast b (.letter l :: rest) = true ↔
      (l.settled = true ∨ l.transparent b = false ∧ LookedPast b rest) ∧ provisionalLast b rest = true := by
  simp only [provisionalLast, LookedPast, Bool.and_eq_true, Bool.or_eq_true, Bool.not_eq_true']

theorem provisionalLast_of_cons {b : Bank} {x : Cell} {rest : List Cell} (h : provisionalLast b (x :: rest) = true) :
    provisionalLast b rest = true := by
  cases x with
  | letter l => exact (provisionalLast_letter_cons.1 h).2
  | _ => exact h

theorem provisionalLast_of_settled {b : Bank} {cells : List Cell} (h : allSettled cells = true) :
    provisionalLast b cells = true := by
  induction cells with
  | nil => rfl
  | cons x rest ih =>
    cases x with
    | letter l =>
      rw [allSettled_letter_cons, Bool.and_eq_true] at h
      exact provisionalLast_letter_cons.2 ⟨.inl h.1, ih h.2⟩
    | _ => exact ih h

/-- R91: cells that are looked past hold no provisional letter. -/
theorem settled_of_lookedPast {b : Bank} {cells : List Cell} (h : provisionalLast b cells = true) (hpast : LookedPast b cells) :
    allSettled cells = true := by
  induction cells with
  | nil => rfl
  | cons x rest ih =>
    obtain ⟨hx, hrest⟩ := lookedPast_cons.1 hpast
    have settled := ih (provisionalLast_of_cons h) hrest
    cases x with
    | letter l =>
      rw [allSettled_letter_cons, settled, Bool.and_true]
      rcases (provisionalLast_letter_cons.1 h).1 with hl | ⟨hl, -⟩
      · exact hl
      · exact absurd (hx.symm.trans hl) (by decide)
    | _ => exact settled

theorem provisionalLast_append {b : Bank} {xs ys : List Cell} :
    provisionalLast b (xs ++ ys) = true ↔
      provisionalLast b xs = true ∧ provisionalLast b ys = true ∧ (allSettled xs = true ∨ LookedPast b ys) := by
  induction xs with
  | nil => simp [provisionalLast, allSettled]
  | cons x rest ih =>
    cases x with
    | letter l =>
      rw [List.cons_append, provisionalLast_letter_cons, provisionalLast_letter_cons, ih, allSettled_letter_cons,
        Bool.and_eq_true, lookedPast_append]
      by_cases hl : l.settled = true
      · simp only [hl, true_or, true_and]
      · simp only [hl, Bool.false_eq_true, false_or, false_and]
        constructor
        · rintro ⟨⟨hopaque, hrest, hys⟩, last, last', -⟩
          exact ⟨⟨⟨hopaque, hrest⟩, last⟩, last', hys⟩
        · rintro ⟨⟨⟨hopaque, hrest⟩, last⟩, last', hys⟩
          exact ⟨⟨hopaque, hrest, hys⟩, last, last', .inr hys⟩
    | _ => exact ih

theorem provisionalLast_sublist {b : Bank} {xs ys : List Cell} (hsub : xs.Sublist ys) (h : provisionalLast b ys = true) :
    provisionalLast b xs = true := by
  induction hsub with
  | slnil => rfl
  | cons x _ ih => exact ih (provisionalLast_of_cons h)
  | cons_cons x hsub ih =>
    cases x with
    | letter l =>
      obtain ⟨hl, hrest⟩ := provisionalLast_letter_cons.1 h
      exact provisionalLast_letter_cons.2 ⟨hl.imp_right fun ⟨hnot, past⟩ => ⟨hnot, past.sublist hsub⟩, ih hrest⟩
    | _ => exact ih h

/-- With no provisional letter every letter is settled. -/
theorem settled_of_provisionalFrom_eq_none {cells : List Cell} {i : Nat} (h : provisionalFrom i cells = none) :
    allSettled cells = true := by
  induction cells generalizing i with
  | nil => rfl
  | cons x rest ih =>
    cases x with
    | letter l =>
      unfold provisionalFrom at h
      split at h
      · next hl => rw [allSettled_letter_cons, hl, ih h]; rfl
      · cases h
    | _ => exact ih (i := i + 1) h

/-- The provisional letter in a line: every other letter is settled, and the cells after it are looked past. -/
theorem provisional_split {b : Bank} {cells : List Cell} {i : Nat} (h : provisionalLast b cells = true)
    (hi : provisionalIndex cells = some i) :
    ∃ before l after, cells = before ++ .letter l :: after ∧ i = before.length ∧ allSettled before = true ∧
      allSettled after = true ∧ LookedPast b after := by
  obtain ⟨before, l, after, rfl, rfl, hl⟩ := provisionalFrom_eq_some hi
  obtain ⟨-, hrest, hlast⟩ := provisionalLast_append.1 h
  obtain ⟨hfirst, hafter⟩ := provisionalLast_letter_cons.1 hrest
  obtain ⟨hopaque, past⟩ : l.transparent b = false ∧ LookedPast b after := by simpa [hl] using hfirst
  refine ⟨before, l, after, rfl, Nat.zero_add _, ?_, settled_of_lookedPast hafter past, past⟩
  rcases hlast with hbefore | hpast
  · exact hbefore
  · exact absurd ((lookedPast_cons.1 hpast).1.symm.trans hopaque) (by decide)

/-- A cell in the place of another that is looked past no more than it and no less settled. -/
theorem provisionalLast_replace {b : Bank} {before after : List Cell} {x y : Cell}
    (h : provisionalLast b (before ++ x :: after) = true) (hpast : x.transparent b = true → y.transparent b = true)
    (hlast : provisionalLast b [x] = true → provisionalLast b [y] = true)
    (hsettled : allSettled [x] = true → allSettled [y] = true) : provisionalLast b (before ++ y :: after) = true := by
  rw [List.append_cons, provisionalLast_append, provisionalLast_append, allSettled_append, Bool.and_eq_true] at h ⊢
  obtain ⟨⟨hbefore, hx, hfirst⟩, hafter, hrest⟩ := h
  refine ⟨⟨hbefore, hlast hx, hfirst.imp_right fun past => ?_⟩, hafter, hrest.imp_left (And.imp_right hsettled)⟩
  exact lookedPast_cons.2 ⟨hpast (lookedPast_cons.1 past).1, rfl⟩

/-! ### The last eligible break (R113 to R115) -/

/-- R115: a place of the cells may be the last eligible break, with its broken width. -/
structure EligibleAt (c : LineCopy) (cells : List Cell) (i width : Nat) : Prop where
  names : cells[i]?.any namesBreak = true
  after : (cells.take i).any Cell.allowsBreak = true
  fits : width ≤ c.measureFine

/-- R115: the last eligible break of the line, if there is one, is eligible. -/
def BreakEligible (c : LineCopy) (ln : Line) : Prop :=
  ∀ i width, ln.lastBreak = some (i, width) → EligibleAt c ln.cells i width

theorem EligibleAt.lt_length {c : LineCopy} {cells : List Cell} {i width : Nat} (h : EligibleAt c cells i width) :
    i < cells.length := by
  by_contra hlong
  have names := h.names
  rw [List.getElem?_eq_none (Nat.not_lt.1 hlong)] at names
  cases names

theorem EligibleAt.append {c : LineCopy} {cells : List Cell} {i width : Nat} (h : EligibleAt c cells i width)
    (after : List Cell) : EligibleAt c (cells ++ after) i width where
  names := by rw [List.getElem?_append_left h.lt_length]; exact h.names
  after := by rw [List.take_append_of_le_length (Nat.le_of_lt h.lt_length)]; exact h.after
  fits := h.fits

/-- What lies before a place, and the cell there, decide whether it is eligible. -/
theorem EligibleAt.of_append {c : LineCopy} {before after : List Cell} {i width : Nat}
    (h : EligibleAt c (before ++ after) i width) (hi : i < before.length) : EligibleAt c before i width where
  names := by have names := h.names; rwa [List.getElem?_append_left hi] at names
  after := by have after := h.after; rwa [List.take_append_of_le_length (Nat.le_of_lt hi)] at after
  fits := h.fits

/-- Only what a cell may name, and what may stand before a break, decides whether a place is eligible. -/
theorem EligibleAt.replace {c : LineCopy} {before after : List Cell} {x y : Cell} {i width : Nat}
    (h : EligibleAt c (before ++ x :: after) i width) (hnames : namesBreak y = namesBreak x)
    (hallows : y.allowsBreak = x.allowsBreak) : EligibleAt c (before ++ y :: after) i width where
  names := by
    have read (cells : List Cell) : cells[i]?.any namesBreak = (cells.map namesBreak)[i]?.any id := by
      rw [List.getElem?_map]
      cases cells[i]? <;> rfl
    rw [read, List.map_append, List.map_cons, hnames, ← List.map_cons, ← List.map_append, ← read]
    exact h.names
  after := by
    have read (cells : List Cell) : (cells.take i).any Cell.allowsBreak = ((cells.map Cell.allowsBreak).take i).any id := by
      rw [← List.map_take, List.any_map]
      rfl
    rw [read, List.map_append, List.map_cons, hallows, ← List.map_cons, ← List.map_append, ← read]
    exact h.after
  fits := h.fits

/-- R114: neither of two letters, nor a cell that is looked past, is named but for an unbroken BREAK; so a break named in a line
whose letters merge, with no unbroken BREAK after them, stands before them. -/
theorem EligibleAt.before_letters {b : Bank} {c : LineCopy} {before after : List Cell} {e l : Letter} {i width : Nat}
    (h : EligibleAt c (before ++ .letter e :: .letter l :: after) i width) (hpast : LookedPast b after)
    (hbreak : after.any Cell.isUnbrokenBreak = false) : EligibleAt c before i width := by
  refine h.of_append ?_
  by_contra hlong
  obtain ⟨x, hx, hnames⟩ := (Option.any_eq_true _ _).1 h.names
  have hmem : x ∈ Cell.letter e :: .letter l :: after := by
    rw [List.getElem?_append_right (Nat.not_lt.1 hlong)] at hx
    exact List.mem_of_getElem? hx
  rcases List.mem_cons.1 hmem with rfl | hmem
  · cases hnames
  · rcases List.mem_cons.1 hmem with rfl | hmem
    · cases hnames
    · have transparent : x.transparent b = true := List.all_eq_true.1 hpast x hmem
      have solid : ¬ x.isUnbrokenBreak = true := List.any_eq_false.1 hbreak x hmem
      cases x with
      | space w => cases transparent
      | brk w broken d => exact solid hnames
      | _ => cases hnames

/-! ### Lines under the rule -/

/-- R91, R115: the provisional letter is the last cell that is not transparent, the carried cells among them, and the last
eligible break is eligible. -/
structure BreakRule (b : Bank) (c : LineCopy) (ln : Line) (rest : List Cell) : Prop where
  last : provisionalLast b (ln.cells ++ rest) = true
  eligible : BreakEligible c ln

section
variable {b : Bank} {c : LineCopy} {ln : Line}

theorem BreakRule.of_line (last : provisionalLast b ln.cells = true) (eligible : BreakEligible c ln) : BreakRule b c ln [] :=
  ⟨by rwa [List.append_nil], eligible⟩

theorem BreakRule.cells (h : BreakRule b c ln []) : provisionalLast b ln.cells = true := by simpa using h.last

/-- A line without cells has no eligible break. -/
theorem BreakEligible.of_no_cells (h : BreakEligible c ln) (hcells : ln.cells = []) (c' : LineCopy) : BreakEligible c' ln := by
  intro i width hlast
  have hlt := (h i width hlast).lt_length
  rw [hcells] at hlt
  exact absurd hlt (Nat.not_lt_zero i)

/-! ### Cells appended and re-measured (R90 to R95, R108) -/

theorem BreakEligible.append (h : BreakEligible c ln) (x : Cell) : BreakEligible c (ln.append b c x) :=
  fun i width hlast => (h i width hlast).append [x]

/-- R113, R114: the opportunity recorded, and then the cell that it names. -/
theorem BreakEligible.recordBreak_append (h : BreakEligible c ln) (width : Nat) {x : Cell} (hx : namesBreak x = true) :
    BreakEligible c ((ln.recordBreak c width).append b c x) := by
  unfold Line.recordBreak
  split
  · next heligible =>
    intro i w hlast
    cases hlast
    refine ⟨?_, ?_, heligible.2⟩
    · show ((ln.cells ++ [x])[ln.cells.length]?).any namesBreak = true
      simpa using hx
    · show ((ln.cells ++ [x]).take ln.cells.length).any Cell.allowsBreak = true
      simpa using heligible.1
  · exact h.append x

theorem BreakEligible.appendSpace (h : BreakEligible c ln) : BreakEligible c (ln.appendSpace b c) := by
  unfold Line.appendSpace
  split
  · exact h.append _
  · exact h.recordBreak_append _ rfl

theorem breakEligible_appendTab (b : Bank) (c : LineCopy) (ln : Line) : BreakEligible c (ln.appendTab b c) :=
  fun _ _ hlast => by cases hlast

theorem BreakEligible.appendBreak (h : BreakEligible c ln) : BreakEligible c (ln.appendBreak b c) :=
  h.recordBreak_append _ rfl

theorem BreakEligible.appendedLine (h : BreakEligible c ln) (a : Arrival) : BreakEligible c (appendedLine b c a ln) := by
  cases a with
  | letter g => exact h.append _
  | space => exact h.appendSpace
  | tab => exact breakEligible_appendTab b c ln
  | disc => exact h.appendBreak
  | link k => exact h.append _
  | carrier g mark => exact h.append _

theorem BreakEligible.remeasureCell (h : BreakEligible c ln) (x : Cell) : BreakEligible c (ln.remeasureCell b c x) := by
  cases x with
  | letter l => exact h.append _
  | space w =>
    unfold Line.remeasureCell
    dsimp only
    split
    · exact h
    · exact h.appendSpace
  | tab gap leaders left => exact breakEligible_appendTab b c ln
  | brk w broken d => exact h.appendBreak
  | link k => exact h.append _
  | carrier k => exact h.append _

/-- R108: the cell re-measured stands where it stood, between the line and the cells still to be re-measured; a SPACE that would
stand first is dropped. -/
theorem BreakRule.remeasureCell {x : Cell} {rest : List Cell} (h : BreakRule b c ln (x :: rest)) :
    BreakRule b c (ln.remeasureCell b c x) rest := by
  refine ⟨?_, h.eligible.remeasureCell x⟩
  have replaced (y : Cell) (hpast : x.transparent b = true → y.transparent b = true)
      (hlast : provisionalLast b [x] = true → provisionalLast b [y] = true)
      (hsettled : allSettled [x] = true → allSettled [y] = true) : provisionalLast b ((ln.cells ++ [y]) ++ rest) = true := by
    rw [List.append_assoc]
    exact provisionalLast_replace h.last hpast hlast hsettled
  cases x with
  | letter l =>
    by_cases hl : l.settled = true
    · have remeasured : (ln.remeasureCell b c (.letter l)).cells =
          ln.cells ++ [.letter { l with width := advanceOf b l.setGlyph }] := by simp [Line.remeasureCell, Line.append, hl]
      exact remeasured ▸ replaced _ id id id
    · have kept : (ln.remeasureCell b c (.letter l)).cells = ln.cells ++ [.letter l] := by
        simp [Line.remeasureCell, Line.append, hl]
      exact kept ▸ replaced _ id id id
  | space w =>
    unfold Line.remeasureCell
    dsimp only
    split
    · exact provisionalLast_sublist ((List.sublist_cons_self _ rest).append_left _) h.last
    · exact appendSpace_cells b c ln ▸ replaced _ id id id
  | tab gap leaders left => exact replaced _ id id id
  | brk w broken d =>
    show provisionalLast b ((ln.appendBreak b c).cells ++ rest) = true
    exact appendBreak_cells b c ln ▸ replaced _ (fun _ => rfl) id id
  | link k => exact replaced _ id id id
  | carrier k => exact replaced _ id id id

theorem BreakRule.reformFirst {carried : List Cell} (h : BreakRule b c ln carried) :
    BreakRule b c ln (reformFirst b carried) := by
  rcases reformFirst_cases b carried with same | ⟨before, l, after, f, rfl, hl, reformed⟩
  · rwa [same]
  · refine ⟨?_, h.eligible⟩
    have last := h.last
    rw [← List.append_assoc] at last
    rw [reformed, ← List.append_assoc]
    exact provisionalLast_replace last id (fun _ => rfl) fun _ => rfl

/-! ### The letter settled and looked up (R98, R100, R101) -/

/-- R100: a lookup that finds a glyph joins a letter to one that is settled and no ligature, with no unbroken BREAK between them
and the next neighbour. -/
theorem ligature_split {cells : List Cell} {i g : Nat} {e l : Letter} (h : ligatureResult b cells i = some (g, e, l)) :
    ∃ before after, cells = before ++ .letter e :: .letter l :: after ∧ i = before.length + 1 ∧ LooksUp b e after := by
  obtain ⟨before, after, rfl, rfl, -⟩ := ligatureResult_eq_some h
  refine ⟨before, after, rfl, rfl, (looksUp_iff b e after).2 ?_⟩
  rw [ligatureResult_of_letters] at h
  by_contra hnot
  rw [if_neg hnot] at h
  cases h

/-- R90: a ligature of two transparent letters is transparent. -/
theorem mergeLetters_transparent {g : Nat} {e l : Letter} (he : e.transparent b = true) (hl : l.transparent b = true) :
    (mergeLetters b g e l).1.transparent b = true := by
  simp only [Letter.transparent, Bool.and_eq_true] at he hl ⊢
  exact ⟨he.1, hl.1⟩

theorem BreakEligible.settleAt (h : BreakEligible c ln) (offers : Bool) {before after : List Cell} {l : Letter}
    (hcells : ln.cells = before ++ .letter l :: after) :
    BreakEligible c (ln.settleAt b c offers before.length) := by
  rw [settleAt_of_cells b c offers hcells]
  intro i width hlast
  have eligible := h i width hlast
  rw [hcells] at eligible
  exact eligible.replace rfl rfl

/-- R101: the merged cell takes the place of two of which the earlier is settled. -/
theorem provisionalLast_merge {earlier after : List Cell} {g : Nat} {e l : Letter}
    (h : provisionalLast b (earlier ++ .letter e :: .letter l :: after) = true) (he : e.settled = true)
    (hpast : LookedPast b after) : provisionalLast b (earlier ++ .letter (mergeLetters b g e l).1 :: after) = true := by
  obtain ⟨hearlier, hrest, hlast⟩ := provisionalLast_append.1 h
  have hafter := provisionalLast_of_cons (provisionalLast_of_cons hrest)
  refine provisionalLast_append.2 ⟨hearlier, provisionalLast_letter_cons.2 ⟨.inl he, hafter⟩, hlast.imp_right fun past => ?_⟩
  obtain ⟨hfirst, past⟩ := lookedPast_cons.1 past
  exact lookedPast_cons.2 ⟨mergeLetters_transparent hfirst (lookedPast_cons.1 past).1, hpast⟩

/-- R100, R101: a settled letter looked up, with no neighbour after it. -/
theorem BreakRule.ligate (h : BreakRule b c ln []) {before after : List Cell} {l : Letter}
    (hcells : ln.cells = before ++ .letter l :: after) (hpast : LookedPast b after) :
    BreakRule b c (ln.ligate b c before.length).1 [] := by
  cases hresult : ligatureResult b ln.cells before.length with
  | none => rw [ligate_of_none c hresult]; exact h
  | some r =>
    obtain ⟨g, e, l'⟩ := r
    obtain ⟨earlier, later, hsplit, hlen, hsettled, -, hbreak⟩ := ligature_split hresult
    have tail : later = after := by
      have split : before ++ .letter l :: after = (earlier ++ [.letter e]) ++ .letter l' :: later := by
        rw [← hcells, hsplit, List.append_cons]
      exact (List.cons.inj (List.append_inj split (by simp [hlen])).2).2.symm
    subst tail
    rw [List.takeWhile_eq_self_iff.2 (List.all_eq_true.1 hpast)] at hbreak
    have last := h.cells
    rw [hlen] at hresult ⊢
    rw [ligate_of_some c hsplit hresult]
    rw [hsplit] at last
    refine .of_line (provisionalLast_merge last hsettled hpast) fun i width hlast => ?_
    exact (EligibleAt.before_letters (hsplit ▸ h.eligible i width hlast) hpast hbreak).append _

/-- R101: a ligature of settled letters is settled. -/
theorem allSettled_ligate (h : allSettled ln.cells = true) (i : Nat) : allSettled (ln.ligate b c i).1.cells = true := by
  cases hresult : ligatureResult b ln.cells i with
  | none => rw [ligate_of_none c hresult]; exact h
  | some r =>
    obtain ⟨g, e, l⟩ := r
    obtain ⟨before, after, hcells, rfl, -⟩ := ligature_split hresult
    rw [ligate_of_some c hcells hresult]
    simp only [hcells, allSettled_append, allSettled_letter_cons, Bool.and_eq_true] at h ⊢
    obtain ⟨hbefore, he, -, hafter⟩ := h
    exact ⟨hbefore, he, hafter⟩

theorem BreakRule.settledLine (h : BreakRule b c ln []) (offers : Bool) {i : Nat} (hi : provisionalIndex ln.cells = some i) :
    BreakRule b c (settledLine b c offers i ln) [] ∧ allSettled (settledLine b c offers i ln).cells = true := by
  obtain ⟨before, l, after, hcells, rfl, hbefore, hafter, hpast⟩ := provisional_split h.cells hi
  have cells : (ln.settleAt b c offers before.length).cells = before ++ .letter (settledLetter b before l offers) :: after := by
    rw [settleAt_of_cells b c offers hcells]
  have settled : allSettled (ln.settleAt b c offers before.length).cells = true := by
    rw [cells, allSettled_append, allSettled_letter_cons, hbefore, hafter]
    rfl
  have rule : BreakRule b c (ln.settleAt b c offers before.length) [] :=
    .of_line (provisionalLast_of_settled settled) (h.eligible.settleAt offers hcells)
  exact ⟨rule.ligate cells hpast, allSettled_ligate settled _⟩

/-! ### Arrivals (R90) -/

/-- R90: the cell an arrival brings is looked past where the arrival is. -/
theorem arrivalCell_transparent (b : Bank) (c : LineCopy) (a : Arrival) (ln : Line) :
    (arrivalCell b c a ln).transparent b = a.transparent b := by
  cases a with
  | letter g =>
    by_cases hg : glyphTransparent b g = true
    · rw [arrivalCell, if_pos hg]
      exact Bool.and_true _
    · rw [arrivalCell, if_neg hg]
      exact Bool.and_true _
  | _ => rfl

/-- R91: a letter that is not transparent arrives provisional. -/
theorem provisionalLast_arrivalCell (b : Bank) (c : LineCopy) (a : Arrival) (ln : Line) :
    provisionalLast b [arrivalCell b c a ln] = true := by
  cases a with
  | letter g =>
    have transparent := arrivalCell_transparent b c (.letter g) ln
    refine provisionalLast_letter_cons.2 ⟨?_, rfl⟩
    by_cases hg : glyphTransparent b g = true
    · exact .inl (by rw [if_pos hg]; rfl)
    · exact .inr ⟨transparent.trans (Bool.eq_false_of_not_eq_true hg), rfl⟩
  | _ => rfl

/-- R90, R91: an arrival that is transparent, or that finds every letter settled, leaves the provisional letter last. -/
theorem BreakRule.appendedLine (h : BreakRule b c ln []) {a : Arrival}
    (ha : a.transparent b = true ∨ allSettled ln.cells = true) : BreakRule b c (appendedLine b c a ln) [] := by
  refine .of_line ?_ (h.eligible.appendedLine a)
  rw [appendedLine_cells, provisionalLast_append]
  refine ⟨h.cells, provisionalLast_arrivalCell b c a ln, ha.symm.imp_right fun transparent => ?_⟩
  exact lookedPast_cons.2 ⟨(arrivalCell_transparent b c a ln).trans transparent, rfl⟩

theorem BreakRule.arrivedLine (h : BreakRule b c ln []) {a : Arrival}
    (ha : a.transparent b = true ∨ allSettled ln.cells = true) : BreakRule b c (arrivedLine b c a ln) [] := by
  have appended := h.appendedLine ha
  unfold Proofs.arrivedLine
  split
  · cases a with
    | letter g => exact appended.ligate (appendedLine_cells b c (.letter g) ln) rfl
    | _ => contradiction
  · exact appended

/-! ### Marks (R102) -/

theorem provisionalLast_withMark {side : Side} {mark : Nat} {before : List Cell} {x : Cell}
    (h : provisionalLast b (before ++ [x]) = true) : provisionalLast b (before ++ [x.withMark side mark]) = true := by
  refine provisionalLast_replace h ?_ ?_ ?_ <;> cases x <;> exact id

theorem BreakRule.attachMark (h : BreakRule b c ln []) {mark : Nat} (hfate : ln.markFate b mark = .attach) :
    BreakRule b c (ln.attachMark b mark) [] := by
  obtain ⟨before, x, hcells, -⟩ := cells_of_markFate_attach hfate
  have marked : (ln.attachMark b mark).cells = before ++ [x.withMark (sideOf b mark) mark] := attachMark_cells hcells
  refine .of_line (marked ▸ provisionalLast_withMark (hcells ▸ h.cells)) fun i width hlast => ?_
  rw [marked]
  refine EligibleAt.replace (hcells ▸ h.eligible i width hlast) ?_ ?_ <;> cases x <;> rfl

end

/-! ### Every step (O58) -/

theorem breakEligible_of_no_break {c : LineCopy} {ln : Line} (h : ln.lastBreak = none) : BreakEligible c ln :=
  fun _ _ hlast => by rw [h] at hlast; cases hlast

theorem breakRule_shapingKeeps : ShapingKeeps BreakRule fun ln => allSettled ln.cells = true where
  empty _ _ := .of_line rfl (breakEligible_of_no_break rfl)
  bare _ c' h hcells := .of_line (by rw [hcells]; rfl) (h.eligible.of_no_cells hcells c')
  flags _ h := ⟨h.last, h.eligible⟩
  settled _ hnone := settled_of_provisionalFrom_eq_none hnone
  settles offers h hi := h.settledLine offers hi
  arrives h _ ha := h.arrivedLine ha
  marks h hfate := h.attachMark hfate
  reforms h := h.reformFirst
  remeasures h := h.remeasureCell
  carries _ h hsub := ⟨provisionalLast_sublist hsub h.last, breakEligible_of_no_break rfl⟩

theorem breakEligible_iff (c : LineCopy) (ln : Line) :
    BreakEligible c ln ↔
      ln.lastBreak.all (fun p =>
        ln.cells[p.1]?.any namesBreak && (ln.cells.take p.1).any Cell.allowsBreak && decide (p.2 ≤ c.measureFine)) = true := by
  rw [Option.all_eq_true]
  constructor
  · rintro h ⟨i, width⟩ hlast
    obtain ⟨names, after, fits⟩ := h i width hlast
    simp only [names, after, fits, decide_true, Bool.and_self]
  · intro h i width hlast
    have eligible := h (i, width) hlast
    simp only [Bool.and_eq_true, decide_eq_true_eq] at eligible
    obtain ⟨⟨names, after⟩, fits⟩ := eligible
    exact ⟨names, after, fits⟩

/-- The invariant of the provisional letter and the last eligible break is its rule, of the line and of the carried cells that
wait. -/
theorem breakInv_iff (s : State) : BreakInv s ↔ RuleHolds BreakRule s := by
  constructor
  · rintro ⟨last, eligible, emptied, waits⟩
    refine ⟨.of_line last ((breakEligible_iff _ _).2 eligible), emptied, fun w hw => ?_⟩
    obtain ⟨hlast, hexchange⟩ := (Bool.and_eq_true _ _).mp ((Option.all_eq_true _ _).1 waits w hw)
    exact ⟨hexchange, fun _ => ⟨hlast, breakEligible_of_no_break rfl⟩⟩
  · rintro ⟨line, emptied, waits⟩
    refine ⟨line.cells, (breakEligible_iff _ _).1 line.eligible, emptied, (Option.all_eq_true _ _).2 fun w hw => ?_⟩
    obtain ⟨hexchange, hcarried⟩ := waits w hw
    exact Bool.and_eq_true_iff.2 ⟨(hcarried s.copy).last, hexchange⟩

/-- Settles O58: the provisional letter and the last eligible break as a rule that the shaper's operations keep. -/
theorem stepKeepsBreakInv : Obligations.StepKeepsBreakInv := by
  intro s t hs h
  rw [breakInv_iff] at hs ⊢
  exact breakRule_shapingKeeps.step hs h

end Sys2Proof.Proofs
end

section
/-! SUPPORT. Arrivals and marks at the line store: what each appends, the settling and the tests around it, and the line ends
that hold it (O19, O20; R88, R90 to R95, R102 to R104, R112 to R115). -/

namespace Sys2Proof.Proofs

open Sys2Proof.Machine Sys2Proof.Safety

/-! ### The broken width (R94, R116) -/

/-- R94: the break letter's width is the one it has when re-formed with no next neighbour. -/
theorem brokenWidthAfter_of_break_letter (c : LineCopy) {b : Bank} {before after : List Cell} {l : Letter}
    (hafter : after.all (fun x => x.transparent b) = true) (hl : l.transparent b = false) (hsecond : l.second = none) :
    brokenWidthAfter b c (before ++ .letter l :: after) =
      sumFine c before + sumFine c after + (settledLetter b before l false).width * (5 * c.size)
        + breakAdvance b * (5 * c.size) := by
  have erased : (before ++ Cell.letter l :: after).eraseIdx before.length = before ++ after := by
    rw [List.eraseIdx_append_of_length_le (Nat.le_refl _), Nat.sub_self, List.eraseIdx_cons_zero]
  have kept : (before ++ Cell.letter l :: after).take before.length = before := List.take_left
  rw [brokenWidthAfter, breakLetter_append b before after l hafter hl hsecond, settledLetter_eq]
  dsimp only
  rw [erased, kept, sumFine_append]
  rfl

theorem brokenWidthAfter_of_no_break_letter (c : LineCopy) {b : Bank} {cells : List Cell} (h : breakLetter b cells = none) :
    brokenWidthAfter b c cells = sumFine c cells + breakAdvance b * (5 * c.size) := by
  rw [brokenWidthAfter, h]
  rfl

/-- R94: a ligature, or a cell other than a LETTER, is no break letter. -/
theorem breakLetter_of_other {b : Bank} {before after : List Cell} {x : Cell}
    (hafter : after.all (fun y => y.transparent b) = true) (hx : x.transparent b = false)
    (hother : ∀ l, x = .letter l → l.second ≠ none) : breakLetter b (before ++ x :: after) = none := by
  rw [breakLetter, lastSolidFrom_append b before after x 0 none hafter hx, Nat.zero_add]
  cases x with
  | letter l =>
    have ligature : l.isLigature = true := Option.isSome_iff_ne_none.2 (hother l rfl)
    simp only [letterAt_append, ligature, if_true]
  | _ => simp [letterAt]

theorem breakLetter_of_transparent {b : Bank} {cells : List Cell} (h : cells.all (fun x => x.transparent b) = true) :
    breakLetter b cells = none := by
  rw [breakLetter, lastSolidFrom_of_transparent b cells 0 none h]

/-! ### The job of one arrival (R19, R90) -/

/-- The arrival's job, left over once the arrival's line end is made: the cells carried, and the arrival that is held. -/
def heldJob (priority : Priority) (plan : EndPlan) (held : Option Arrival) : Job :=
  ⟨priority, plan.carried, held, none, false⟩

theorem handArrival_of_done {a : Arrival} {s t : State} (h : takeArrival a s = .done t) : handArrival a s = t := by
  refine runJob_of_done _ ((advance_of_carried_nil _ _ rfl).trans ?_)
  simp only [afterCarryOver, arrivalJob, h]
  rfl

/-- R107: an arrival that ends the line. -/
theorem handArrival_of_ends {a : Arrival} {s t : State} {plan : EndPlan} {held : Option Arrival}
    (h : takeArrival a s = .ends t plan held) :
    handArrival a s = lineEnds s.room s.decoder.priority plan (heldJob s.decoder.priority plan held) t := by
  refine runJob_of_ends _ ((advance_of_carried_nil _ _ rfl).trans ?_)
  simp only [afterCarryOver, arrivalJob, h]
  rfl

/-- An arrival's work that stops in the same way ends in the same state. -/
theorem handArrival_congr {a : Arrival} {s t : State} (h : takeArrival a s = takeArrival a t) (hroom : t.room = s.room)
    (hpriority : t.decoder.priority = s.decoder.priority) : handArrival a s = handArrival a t := by
  cases ht : takeArrival a t with
  | done u => rw [handArrival_of_done (h.trans ht), handArrival_of_done ht]
  | ends u plan held => rw [handArrival_of_ends (h.trans ht), handArrival_of_ends ht, hroom, hpriority]

/-- R112: the fit test as the spec counts it, under the line copy that the arrival found. -/
theorem overflows_iff_of_copy {s t : State} (hcopy : t.copy = s.copy) :
    t.overflows = true ↔ ¬ t.shaper.line.acc ≤ s.format.line.measure * 96 := by
  rw [State.overflows, hcopy, decide_eq_true_iff, Nat.not_le]
  rfl

/-! ### How an arrival is taken (R88, R90) -/

section
variable {a : Arrival} {s t : State} (ha : a.transparent s.bank = true ∨ allSettled s.shaper.line.cells = true)
  (hspace : a ≠ .space ∨ s.shaper.line.cells ≠ [])

include ha hspace

/-- R90: a transparent arrival, and one that finds every letter settled, settles nothing. -/
theorem takeArrival_of_settled : takeArrival a s = admitArrival a s := by
  have stays : ¬ (a = .space ∧ s.shaper.line.cells = []) := fun h => hspace.elim (· h.1) (· h.2)
  rw [takeArrival, if_neg stays]
  split
  · rfl
  · next hopaque => rw [settleProvisional_of_settled _ s (ha.resolve_left hopaque)]

/-- R88, R119: an arrival without room ends the line and is held. -/
theorem takeArrival_of_no_room (hfull : 192 ≤ s.shaper.line.cells.length ∨ 255 < s.shaper.line.items + a.items s.bank) :
    takeArrival a s = .ends s (planCapacity s.bank s.copy s.shaper.line) (some a) := by
  have lacks : s.shaper.line.lacksRoom s.bank a = true := by
    by_contra hroom
    obtain ⟨hcell, hitems⟩ := lacksRoom_eq_false_iff.1 (Bool.eq_false_of_not_eq_true hroom)
    omega
  rw [takeArrival_of_settled ha hspace, admitArrival, if_pos lacks]

variable (hcell : s.shaper.line.cells.length < 192) (hitems : s.shaper.line.items + a.items s.bank ≤ 255)

include hcell hitems

/-- R88: an arrival with room is appended. -/
theorem takeArrival_of_room : takeArrival a s = appendArrival a s := by
  rw [takeArrival_of_settled ha hspace, admitArrival, lacksRoom_eq_false_iff.2 ⟨hcell, hitems⟩]
  rfl

/-- R88, R90: an arrival with room that is appended with no fit test. -/
theorem handArrival_of_room (h : appendArrival a s = .done t) : handArrival a s = t :=
  handArrival_of_done ((takeArrival_of_room ha hspace hcell hitems).trans h)

/-- R88, R90, R112: an arrival with room that is appended and then tested for fit. -/
theorem handArrival_of_room_fitTest {offending : Nat} (h : appendArrival a s = fitTest offending t)
    (hstands : t.copy = s.copy ∧ t.bank = s.bank) :
    handArrival a s =
      if t.shaper.line.acc ≤ s.format.line.measure * 96 then t
      else
        lineEnds (8 - s.bus.queue.length) s.decoder.priority (planOverflow s.bank t.shaper.line offending)
          ⟨s.decoder.priority, (planOverflow s.bank t.shaper.line offending).carried, none, none, false⟩ t := by
  have taken := (takeArrival_of_room ha hspace hcell hitems).trans h
  have fits := overflows_iff_of_copy hstands.1
  unfold fitTest at taken
  split at taken
  · next overflow =>
    rw [if_neg (fits.1 overflow), handArrival_of_ends taken, hstands.2]
    rfl
  · next fit => rw [if_pos (not_not.1 (mt fits.2 fit))]; exact handArrival_of_done taken

end

/-- R98: a provisional letter is a cell of the line. -/
theorem cells_ne_nil_of_settleProvisional {offers : Bool} {s : State} {r : State × Nat}
    (h : settleProvisional offers s = some r) : s.shaper.line.cells ≠ [] := by
  intro hnil
  rw [settleProvisional_of_settled _ _ (allSettled_of_nil hnil)] at h
  cases h

/-- R90 steps 1 and 2: the provisional letter settles before an arrival that is not transparent, which is held if the line then
overflows. -/
theorem takeArrival_of_provisional {a : Arrival} {s t : State} {offending : Nat} (ha : a.transparent s.bank = false)
    (h : settleProvisional (a.offersBack s.bank) s = some (t, offending)) :
    takeArrival a s =
      if t.overflows then .ends t (planOverflow t.bank t.shaper.line offending) (some a) else admitArrival a t := by
  have stays : ¬ (a = .space ∧ s.shaper.line.cells = []) := fun hspace => cells_ne_nil_of_settleProvisional h hspace.2
  rw [takeArrival, if_neg stays, if_neg (by simp [ha]), h]

/-- Settling and the lookup change the line and the counters alone. -/
theorem settleProvisional_copy_bank {offers : Bool} {s t : State} {offending : Nat}
    (h : settleProvisional offers s = some (t, offending)) : t.copy = s.copy ∧ t.bank = s.bank := by
  obtain ⟨hformat, htables⟩ := settleProvisional_keeps h
  exact ⟨congrArg FormatSet.line hformat, congrArg TableBlock.activeBank htables⟩

theorem settleProvisional_room_priority {offers : Bool} {s t : State} {offending : Nat}
    (h : settleProvisional offers s = some (t, offending)) :
    t.room = s.room ∧ t.decoder.priority = s.decoder.priority := by
  unfold settleProvisional at h
  split at h
  · cases h
  · rw [ligateAt_eq] at h
    cases h
    exact ⟨rfl, rfl⟩

theorem ligateAt_copy_bank (i : Nat) (s : State) : (ligateAt i s).1.copy = s.copy ∧ (ligateAt i s).1.bank = s.bank := by
  rw [ligateAt_eq]
  exact ⟨rfl, rfl⟩

/-- R90, R98: the provisional letter settles before an arrival; if the line fits the arrival is taken as on that line, and if
not it is held while the line ends. -/
theorem handArrival_of_provisional {a : Arrival} {s t : State} {offending : Nat} (ha : a.transparent s.bank = false)
    (h : settleProvisional (a.offersBack s.bank) s = some (t, offending)) :
    (t.shaper.line.acc ≤ s.format.line.measure * 96 → allSettled t.shaper.line.cells = true → t.shaper.line.cells ≠ [] →
      handArrival a s = handArrival a t)
    ∧ (s.format.line.measure * 96 < t.shaper.line.acc →
      handArrival a s =
        lineEnds s.room s.decoder.priority (planOverflow s.bank t.shaper.line offending)
          (heldJob s.decoder.priority (planOverflow s.bank t.shaper.line offending) (some a)) t) := by
  obtain ⟨hcopy, hbank⟩ := settleProvisional_copy_bank h
  obtain ⟨hroom, hpriority⟩ := settleProvisional_room_priority h
  have fits := overflows_iff_of_copy hcopy
  have taken := takeArrival_of_provisional ha h
  refine ⟨fun fit hsettled hcells => ?_, fun overflow => ?_⟩
  · rw [if_neg (fun overflow => fits.1 overflow fit)] at taken
    exact handArrival_congr (taken.trans (takeArrival_of_settled (.inr hsettled) (.inr hcells)).symm) hroom hpriority
  · rw [if_pos (fits.2 (Nat.not_le_of_lt overflow)), hbank] at taken
    exact handArrival_of_ends taken

/-- Settles O19: the appends to a line, the arrivals with room, the provisional letter before them, and the capacity test. -/
theorem arrivalsAppend : Obligations.ArrivalsAppend := by
  refine ⟨fun x => ?_, fun b c ln => ?_, fun s => ?_⟩
  · cases x <;> exact ⟨rfl, rfl⟩
  · intro w eligible named breakWidth broken
    refine ⟨appendSpace_eq b c ln, rfl, appendBreak_eq b c ln, fun before l after hcells hafter hl hsecond => ?_,
      fun before x after hcells hafter hx hother => ?_, fun hall => ?_⟩
    · exact (congrArg (brokenWidthAfter b c) hcells).trans (brokenWidthAfter_of_break_letter c hafter hl hsecond)
    · exact brokenWidthAfter_of_no_break_letter c (hcells ▸ breakLetter_of_other hafter hx hother)
    · exact brokenWidthAfter_of_no_break_letter c (breakLetter_of_transparent hall)
  · intro bank copy line room breakItems set fits unsettled
    refine ⟨fun hempty => ?_, fun hcell hitems => ?_, fun g hg hcell hitems => ?_, fun hsettled hcell =>
      ⟨fun g hg hitems => ?_, fun hcells hitems => ?_, fun hitems => ?_, fun k hitems => ?_, fun g mark hitems => ?_⟩, ?_, ?_⟩
    · exact handArrival_of_done (if_pos ⟨rfl, hempty⟩)
    · exact handArrival_of_room (a := .disc) (.inl rfl) (.inl nofun) hcell hitems rfl
    · exact handArrival_of_room_fitTest (a := .letter g) (.inl hg) (.inl nofun) hcell hitems (if_pos hg)
        (ligateAt_copy_bank _ _)
    · exact handArrival_of_room (a := .letter g) (.inr hsettled) (.inl nofun) hcell hitems (if_neg (ne_true_of_eq_false hg))
    · exact handArrival_of_room_fitTest (a := .space) (.inr hsettled) (.inr hcells) hcell hitems rfl ⟨rfl, rfl⟩
    · exact handArrival_of_room_fitTest (a := .tab) (.inr hsettled) (.inl nofun) hcell hitems rfl ⟨rfl, rfl⟩
    · exact handArrival_of_room (a := .link k) (.inr hsettled) (.inl nofun) hcell hitems rfl
    · have two : line.items + 2 ≤ 255 := by omega
      refine handArrival_of_room_fitTest (a := .carrier g mark) (.inr hsettled) (.inl nofun) hcell two ?_ ⟨rfl, rfl⟩
      rw [appendArrival, append_carrier_eq]
      rfl
    · intro a ha offers t offending ht
      have same : offers = a.offersBack bank := by cases a <;> rfl
      exact handArrival_of_provisional ha (same ▸ ht)
    · intro a ha hspace items hfull plan
      have same : items = a.items bank := by cases a <;> rfl
      exact handArrival_of_ends (takeArrival_of_no_room ha hspace (same ▸ hfull))

/-! ### Marks (R102 to R104) -/

/-- R102: a LETTER or a CARRIER, but for the marks on its two sides. -/
def HoldsMarks (cell : List Nat → List Nat → Cell) : Prop :=
  (∃ l : Letter, cell = fun a b => .letter { l with above := a, below := b })
    ∨ (∃ k : Carrier, cell = fun a b => .carrier { k with above := a, below := b })

theorem HoldsMarks.marksOn {cell : List Nat → List Nat → Cell} (h : HoldsMarks cell) (side : Side) (above below : List Nat) :
    (cell above below).marksOn side = some (markCount side above below) := by
  rcases h with ⟨l, rfl⟩ | ⟨k, rfl⟩ <;> rfl

theorem HoldsMarks.withMark {cell : List Nat → List Nat → Cell} (h : HoldsMarks cell) (side : Side) (mark : Nat)
    (above below : List Nat) :
    (cell above below).withMark side mark = cell (joinMark side mark above below).1 (joinMark side mark above below).2 := by
  rcases h with ⟨l, rfl⟩ | ⟨k, rfl⟩ <;> rfl

/-- R103: with no LETTER or CARRIER last, a mark needs a carrier. -/
theorem markFate_of_other {b : Bank} (mark : Nat) {ln : Line}
    (h : ln.cells.getLast?.any (fun x => !x.isSpace && !x.isTab && x.isContent) = false) :
    ln.markFate b mark = .needsCarrier := by
  rw [Line.markFate]
  cases hlast : ln.cells.getLast? with
  | none => rfl
  | some x =>
    rw [hlast] at h
    cases x with
    | letter l => cases h
    | carrier k => cases h
    | _ => rfl

section
variable {mark : Nat} {s : State} {before : List Cell} {cell : List Nat → List Nat → Cell} {above below : List Nat}
  {side : Side}

/-- R102: a mark that attaches joins the list of its side and counts one item. -/
theorem handMark_of_attach (hcell : HoldsMarks cell) (hcells : s.shaper.line.cells = before ++ [cell above below])
    (hside : sideOf s.bank mark = side) (hmarks : markCount side above below < 3) (hitems : s.shaper.line.items < 255) :
    handMark mark s =
      s.setLine
        { s.shaper.line with
          cells := before ++ [cell (joinMark side mark above below).1 (joinMark side mark above below).2]
          items := s.shaper.line.items + 1 } := by
  subst hside
  have fate : s.shaper.line.markFate s.bank mark = .attach := by
    rw [markFate_of_last hcells (hcell.marksOn _ above below), if_neg (by omega)]
  have marked : (s.shaper.line.attachMark s.bank mark).cells = before ++ [_] := attachMark_cells hcells
  rw [hcell.withMark] at marked
  rw [handMark, fate, ← marked]
  rfl

/-- R104: a fourth mark on a side, or a 256th item, is dropped, counted and flagged. -/
theorem handMark_of_overflow (hcell : HoldsMarks cell) (hcells : s.shaper.line.cells = before ++ [cell above below])
    (hside : sideOf s.bank mark = side) (hfull : 3 ≤ markCount side above below ∨ 255 ≤ s.shaper.line.items) :
    handMark mark s = count .markOverflow (s.setLine s.shaper.line.flagMarkOverflow) := by
  subst hside
  have fate : s.shaper.line.markFate s.bank mark = .overflow := by
    rw [markFate_of_last hcells (hcell.marksOn _ above below), if_pos (hfull.imp_right Nat.lt_succ_of_le)]
  rw [handMark, fate]

/-- R103: a mark that finds neither is handed on inside a CARRIER, if the header names one, and is an orphan otherwise. -/
theorem handMark_of_other (h : s.shaper.line.cells.getLast?.any (fun x => !x.isSpace && !x.isTab && x.isContent) = false) :
    (headerGlyph s.bank .carrier = none → handMark mark s = count .orphans s)
    ∧ (∀ g, headerGlyph s.bank .carrier = some g → handMark mark s = handArrival (.carrier g mark) s) := by
  rw [handMark, markFate_of_other mark h]
  exact ⟨fun hnone => by rw [hnone], fun g hsome => by rw [hsome]⟩

end

/-- Settles O20: the mark that finds a letter or a carrier with room, without room, and the mark that finds neither. -/
theorem marksAttachOrDrop : Obligations.MarksAttachOrDrop := by
  intro s mark bank line set
  refine ⟨fun before above below cell hcell hcells => ⟨fun hside hmarks hitems => ?_, fun hside hmarks hitems => ?_,
    fun hfull => ?_⟩, handMark_of_other⟩
  · exact handMark_of_attach hcell hcells hside hmarks hitems
  · exact handMark_of_attach hcell hcells hside hmarks hitems
  · rcases hfull with ⟨hside, hmarks⟩ | ⟨hside, hmarks⟩ | hitems
    · exact handMark_of_overflow hcell hcells hside (.inl hmarks)
    · exact handMark_of_overflow hcell hcells hside (.inl hmarks)
    · exact handMark_of_overflow hcell hcells rfl (.inr hitems)

end Sys2Proof.Proofs
end

section
/-! SUPPORT. Overflows, capacity failures and carry-over: where the line ends, how letters of the ending line and of the carried
cells are set, and how carried cells are re-measured (O24; R106, R108, R109, R116 to R120). -/

namespace Sys2Proof.Proofs

open Sys2Proof.Machine Sys2Proof.Safety

/-! ### Where the line ends (R116 to R119) -/

section
variable {b : Bank} {ln : Line}

theorem planOverflow_of_break {i w : Nat} (h : ln.lastBreak = some (i, w)) (offending : Nat) :
    planOverflow b ln offending = planAtBreak b ln.cells i := by
  rw [planOverflow, h]

theorem planCapacity_of_break {i w : Nat} (h : ln.lastBreak = some (i, w)) (c : LineCopy) :
    planCapacity b c ln = planAtBreak b ln.cells i := by
  rw [planCapacity, h]

theorem planOverflow_of_no_break (h : ln.lastBreak = none) (offending : Nat) :
    planOverflow b ln offending =
      if contentBefore ln.cells (endCell ln.cells offending) then planForced ln.cells (endCell ln.cells offending)
      else planOverset b ln.cells offending := by
  rw [planOverflow, h]

/-- R119: a capacity failure without a break, before a provisional letter that has content before it. -/
theorem planCapacity_of_content {p : Nat} (h : ln.lastBreak = none) (hp : provisionalIndex ln.cells = some p)
    (hcontent : contentBefore ln.cells p = true) (c : LineCopy) : planCapacity b c ln = planForced ln.cells p := by
  rw [planCapacity, h]
  simp only [hp, hcontent, if_true]

/-- R119: otherwise it ends the line after its last cell. -/
theorem planCapacity_of_no_content (h : ln.lastBreak = none)
    (hcontent : ∀ p, provisionalIndex ln.cells = some p → contentBefore ln.cells p = false) (c : LineCopy) :
    planCapacity b c ln = planWhole b c ln.cells := by
  rw [planCapacity, h]
  cases hp : provisionalIndex ln.cells with
  | none => rfl
  | some p => simp only [hcontent p hp, Bool.false_eq_true, if_false]

end

/-! ### Letters of the ending line (R106, R116, R118, R119) -/

theorem reformBreakLetter_of_no_break_letter {b : Bank} {cells : List Cell} (h : breakLetter b cells = none) :
    reformBreakLetter b cells = cells := by
  rw [reformBreakLetter, h]

/-- R116: the break letter is re-formed after the cells before it, with no next neighbour. -/
theorem reformBreakLetter_of_break_letter {b : Bank} {before after : List Cell} {l : Letter}
    (hafter : after.all (fun y => y.transparent b) = true) (hl : l.transparent b = false) (hsecond : l.second = none) :
    reformBreakLetter b (before ++ .letter l :: after) = before ++ .letter (settledLetter b before l false) :: after := by
  rw [reformBreakLetter, breakLetter_append b before after l hafter hl hsecond, settledLetter_eq]
  simp only [List.take_left', set_append_cons]

/-- R116: the line broken at a BREAK is as wide as the broken width recorded there. -/
theorem sumFine_reformBreakLetter (b : Bank) (c : LineCopy) (cells : List Cell) (width : Nat) :
    sumFine c (reformBreakLetter b cells ++ [.brk width true (breakAdvance b)]) = brokenWidthAfter b c cells := by
  rw [sumFine_broken_break, reformBreakLetter, brokenWidthAfter]
  cases hletter : breakLetter b cells with
  | none => rfl
  | some r =>
    obtain ⟨j, l⟩ := r
    dsimp only
    rw [sumFine_set c cells j _ _ (breakLetter_at hletter)]
    rfl

/-- R118, R119: the provisional letter of an ending line settles with no next neighbour. -/
theorem settleInEnding_of_provisional (b : Bank) {before : List Cell} (after : List Cell) {l : Letter}
    (hbefore : allSettled before = true) (hl : l.settled = false) :
    settleInEnding b (before ++ .letter l :: after) = before ++ .letter (settledLetter b before l false) :: after := by
  rw [settleInEnding, provisionalIndex_append before after l hbefore hl, settledLetter_eq]
  simp only [letterAt_append, List.take_left', set_append_cons]

theorem provisionalIndex_of_settled {cells : List Cell} (h : allSettled cells = true) : provisionalIndex cells = none :=
  provisionalFrom_of_settled cells 0 h

theorem settleInEnding_of_settled (b : Bank) {cells : List Cell} (h : allSettled cells = true) :
    settleInEnding b cells = cells := by
  rw [settleInEnding, provisionalIndex_of_settled h]

/-! ### Carried cells re-formed (R108) -/

theorem reformFirst_transparent_cons {b : Bank} {x : Cell} (h : x.transparent b = true) (rest : List Cell) :
    reformFirst b (x :: rest) = x :: reformFirst b rest := if_pos h

theorem reformFirst_letter_cons {b : Bank} {l : Letter} (h : l.transparent b = false) (rest : List Cell) :
    reformFirst b (.letter l :: rest) =
      (if l.settled && !l.isLigature then .letter (l.setForm b (formOf false l.form.joinsNext)) else .letter l) :: rest :=
  if_neg (ne_true_of_eq_false h)

/-- R108: no other cell is re-formed. -/
theorem reformFirst_other_cons {b : Bank} {x : Cell} (h : x.transparent b = false) (hother : ∀ l, x ≠ .letter l)
    (rest : List Cell) : reformFirst b (x :: rest) = x :: rest := by
  refine (if_neg (ne_true_of_eq_false h)).trans ?_
  cases x with
  | letter l => exact absurd rfl (hother l)
  | _ => rfl

/-- R108 step 1: transparent cells are passed over. -/
theorem reformFirst_append {b : Bank} {before : List Cell} (h : before.all (fun y => y.transparent b) = true)
    (rest : List Cell) : reformFirst b (before ++ rest) = before ++ reformFirst b rest := by
  induction before with
  | nil => rfl
  | cons x before ih =>
    obtain ⟨hx, hbefore⟩ := lookedPast_cons.1 h
    rw [List.cons_append, reformFirst_transparent_cons hx, ih hbefore, List.cons_append]

theorem reformFirst_of_transparent {b : Bank} {cells : List Cell} (h : cells.all (fun y => y.transparent b) = true) :
    reformFirst b cells = cells := by
  simpa [reformFirst] using reformFirst_append h []

/-- R108: with no previous neighbour a letter keeps only its join to the next. -/
theorem setForm_joinsNext (b : Bank) (l : Letter) :
    l.setForm b (formOf false l.form.joinsNext) =
      inForm b l (if l.form = .initial ∨ l.form = .medial then .initial else .isolated) := by
  rw [inForm_eq]
  cases l.form <;> rfl

theorem reformFirst_of_letter {b : Bank} {before : List Cell} (h : before.all (fun y => y.transparent b) = true) {l : Letter}
    (hl : l.transparent b = false) (after : List Cell) :
    reformFirst b (before ++ .letter l :: after) =
      before
        ++ .letter
            (if l.settled = true ∧ l.second = none then
              inForm b l (if l.form = .initial ∨ l.form = .medial then .initial else .isolated)
            else l)
          :: after := by
  have reforms : (l.settled && !l.isLigature) = true ↔ l.settled = true ∧ l.second = none := by
    simp [Letter.isLigature]
  rw [reformFirst_append h, reformFirst_letter_cons hl]
  simp only [reforms, setForm_joinsNext]
  split <;> rfl

theorem reformFirst_of_other {b : Bank} {before : List Cell} (h : before.all (fun y => y.transparent b) = true) {x : Cell}
    (hx : x.transparent b = false) (hother : ∀ l, x ≠ .letter l) (after : List Cell) :
    reformFirst b (before ++ x :: after) = before ++ x :: after := by
  rw [reformFirst_append h, reformFirst_other_cons hx hother]

/-! ### Carried cells re-measured (R108, R120) -/

theorem remeasureCell_letter (b : Bank) (c : LineCopy) (l : Letter) (ln : Line) :
    ln.remeasureCell b c (.letter l) =
      { ln with
        cells := ln.cells ++ [.letter (if l.settled = true then { l with width := advanceOf b l.setGlyph } else l)]
        acc := ln.acc + (if l.settled = true then advanceOf b l.setGlyph * (5 * c.size) else 0)
        items := ln.items + (1 + l.above.length + l.below.length) } := by
  by_cases hl : l.settled = true
  · simp only [Line.remeasureCell, Line.append, cellFine, cellItems, hl, if_true, LineCopy.fine]
  · simp only [Line.remeasureCell, Line.append, cellFine, cellItems, hl, if_false, Bool.false_eq_true]

theorem remeasureCell_space (b : Bank) (c : LineCopy) (w : Nat) (ln : Line) :
    ln.remeasureCell b c (.space w) = if ln.cells = [] then ln else ln.appendSpace b c := by
  simp only [Line.remeasureCell, List.isEmpty_iff]

theorem remeasure_cons (b : Bank) (c : LineCopy) (x : Cell) (rest : List Cell) (ln : Line) :
    remeasure b c (x :: rest) ln =
      if (ln.remeasureCell b c x).acc ≤ c.measure * 96 then remeasure b c rest (ln.remeasureCell b c x)
      else (ln.remeasureCell b c x, some rest) := by
  rw [remeasure, ← ite_not]
  exact if_congr Nat.not_lt rfl rfl

/-- R108: what follows carry-over does not look at the cells that were carried. -/
theorem afterCarryOver_of_carried (carried : List Cell) (j : Job) (s : State) :
    afterCarryOver { j with carried := carried } s = afterCarryOver j s := rfl

/-- R108, R120: carry-over with no overflow goes on to the rest of the job. -/
theorem runJob_of_remeasured (room : Nat) {j : Job} {s : State} {ln : Line}
    (h : remeasure s.bank s.copy (reformFirst s.bank j.carried) s.shaper.line = (ln, none)) :
    runJob room j s = runJob room { j with carried := [] } (s.setLine ln) := by
  have advances : j.advance s = Job.advance { j with carried := [] } (s.setLine ln) := by
    rw [advance_of_carried_nil { j with carried := [] } _ rfl, afterCarryOver_of_carried, Job.advance, h]
  cases room <;> rw [runJob, runJob, advances]

/-- R120: carry-over that overflows the new line ends it in turn. -/
theorem runJob_of_overflow (room : Nat) {j : Job} {s : State} {ln : Line} {rest : List Cell}
    (h : remeasure s.bank s.copy (reformFirst s.bank j.carried) s.shaper.line = (ln, some rest)) :
    runJob room j s =
      lineEnds room j.priority (planCarried s.bank ln rest) { j with carried := (planCarried s.bank ln rest).carried }
        (s.setLine ln) :=
  runJob_of_ends room (by rw [Job.advance, h])

/-- Settles O24: where the line ends, how its letters and those of the carried cells are set, and the carry-over. -/
theorem overflowEndsAndCarriesOver : Obligations.OverflowEndsAndCarriesOver := by
  refine ⟨fun b c x before => ⟨?_, rfl, sumFine_reformBreakLetter b c before⟩, fun b ln offending => ⟨?_, ?_, ?_⟩,
    fun b c ln offending => ⟨?_, ?_⟩, fun b before after cells l x => ⟨?_, ?_, ?_, ?_, ?_⟩,
    fun b c ln => ⟨?_, fun k => rfl, ?_, fun _ _ _ => rfl, fun _ _ _ => rfl, fun k => rfl, rfl, ?_⟩, fun room j s => ⟨?_, ?_⟩,
    fun a s => rfl, fun j s => rfl⟩
  · cases x <;> rfl
  · rintro i w hbreak ⟨width, hspace⟩
    rw [planOverflow_of_break hbreak, planAtBreak, hspace]
  · intro i w broken width old hbreak hbrk
    rw [planOverflow_of_break hbreak, planAtBreak, hbrk]
  · intro hnone endAt
    refine ⟨fun hcontent => ?_, fun hcontent => ?_⟩
    · exact (planOverflow_of_no_break hnone offending).trans (if_pos hcontent)
    · exact (planOverflow_of_no_break hnone offending).trans (if_neg (ne_true_of_eq_false hcontent))
  · intro place hbreak
    rw [planCapacity_of_break hbreak, planOverflow_of_break hbreak]
  · exact fun hnone => ⟨fun p hp hcontent => planCapacity_of_content hnone hp hcontent c,
      fun hcontent => planCapacity_of_no_content hnone hcontent c⟩
  · exact fun h => ⟨provisionalIndex_of_settled h, settleInEnding_of_settled b h⟩
  · exact fun hbefore hl =>
      ⟨provisionalIndex_append before after l hbefore hl, settleInEnding_of_provisional b after hbefore hl⟩
  · exact reformBreakLetter_of_break_letter
  · exact fun hafter hx hother => reformBreakLetter_of_no_break_letter (breakLetter_of_other hafter hx hother)
  · intro h
    exact ⟨reformBreakLetter_of_no_break_letter (breakLetter_of_transparent h), reformFirst_of_transparent h,
      fun hl => reformFirst_of_letter h hl after, fun hx hother => reformFirst_of_other h hx hother after⟩
  · exact fun l => remeasureCell_letter b c l ln
  · exact fun w => remeasureCell_space b c w ln
  · exact fun x rest => remeasure_cons b c x rest ln
  · exact fun hnone => runJob_of_remeasured room (Prod.ext rfl hnone)
  · exact fun rest hrest => runJob_of_overflow room (Prod.ext rfl hrest)

end Sys2Proof.Proofs
end

section
/-! SUPPORT. What the justifier gives out: the extra width over the spaces (O25; R131), the extension strokes over the points
(O26; R127, R129, R130), and the leaders of the TABs (O27; R126). -/

namespace Sys2Proof.Proofs

open Sys2Proof.Machine Sys2Proof.Safety

/-! ### The extra width over the spaces (R131) -/

theorem spaceCount_eq_length_filter (cells : List Cell) : spaceCount cells = (cells.filter Cell.isSpace).length := by
  induction cells with
  | nil => rfl
  | cons x rest ih =>
    by_cases hx : x.isSpace = true
    · rw [spaceCount, if_pos hx, List.filter_cons_of_pos hx, List.length_cons, ih, Nat.add_comm]
    · rw [spaceCount, if_neg hx, List.filter_cons_of_neg hx, ih, Nat.zero_add]

theorem map_fst_spread (width extra : Nat) (cells : List Cell) : (spread width extra cells).map (·.1) = cells := by
  induction cells generalizing extra with
  | nil => rfl
  | cons x rest ih =>
    rw [spread]
    split <;> rw [List.map_cons, ih]

/-- R131: no more than one fine unit for each space is given out whole. -/
theorem sum_spread (width : Nat) {extra : Nat} {cells : List Cell} (h : extra ≤ spaceCount cells) :
    ((spread width extra cells).map (·.2)).sum = spaceCount cells * width + extra := by
  induction cells generalizing extra with
  | nil => simpa [spread, spaceCount] using (Nat.le_zero.1 h).symm
  | cons x rest ih =>
    by_cases hx : x.isSpace = true
    · rw [spaceCount, if_pos hx] at h
      rw [spread, if_pos hx, spaceCount, if_pos hx, List.map_cons, List.sum_cons, ih (by omega), Nat.add_mul, Nat.one_mul]
      dsimp only
      split <;> omega
    · rw [spaceCount, if_neg hx, Nat.zero_add] at h
      rw [spread, if_neg hx, spaceCount, if_neg hx, List.map_cons, List.sum_cons, ih h, Nat.zero_add, Nat.zero_add]

/-- R131: the first spaces are the wider ones. -/
theorem spread_width_at (width extra : Nat) {cells : List Cell} {i : Nat} (h : i < spaceCount cells) :
    (((spread width extra cells).filter (fun x => x.1.isSpace)).map (·.2))[i]? =
      some (width + (if i < extra then 1 else 0)) := by
  induction cells generalizing extra i with
  | nil => exact absurd h (Nat.not_lt_zero i)
  | cons x rest ih =>
    by_cases hx : x.isSpace = true
    · rw [spread, if_pos hx, List.filter_cons, if_pos hx, List.map_cons]
      cases i with
      | zero =>
        rw [List.getElem?_cons_zero]
        dsimp only
        split <;> rfl
      | succ i =>
        rw [spaceCount, if_pos hx] at h
        rw [List.getElem?_cons_succ, ih (extra - 1) (by omega)]
        simp only [Nat.lt_sub_iff_add_lt]
    · rw [spaceCount, if_neg hx, Nat.zero_add] at h
      rw [spread, if_neg hx, List.filter_cons, if_neg hx, ih extra h]

/-- Settles O25: the quotient at every space and one more at the first ones add up to the extra. -/
theorem spacesShareTheExtra : Obligations.SpacesShareTheExtra := by
  intro least extra cells some_space
  refine ⟨spaceCount_eq_length_filter cells, map_fst_spread _ _ cells, ?_, fun i => spread_width_at _ _⟩
  calc ((share least extra cells).map (·.2)).sum
      = spaceCount cells * (least + extra / spaceCount cells) + extra % spaceCount cells :=
        sum_spread _ (Nat.mod_lt extra some_space).le
    _ = spaceCount cells * least + extra := by rw [Nat.mul_add, Nat.add_assoc, Nat.div_add_mod]

/-! ### Where the extension points are (R129) -/

/-- R129: whether an extension point lies between the cells at an index and at the next. -/
def pointAt (b : Bank) (cells : List Cell) (i : Nat) : Bool :=
  match cells[i]?, cells[i + 1]? with
  | some x, some y => extensionPoint b x y
  | _, _ => false

/-- The number of extension points before an index. -/
def pointsBefore (b : Bank) (cells : List Cell) (i : Nat) : Nat := ((List.range i).filter (pointAt b cells)).length

section
variable {b : Bank} {x y : Cell} {rest cells : List Cell} {i : Nat}

theorem pointAt_cons_zero : pointAt b (x :: y :: rest) 0 = extensionPoint b x y := rfl

theorem pointAt_cons_succ : pointAt b (x :: cells) (i + 1) = pointAt b cells i := rfl

theorem pointAt_of_short (h : ∀ x y rest, cells = x :: y :: rest → False) : pointAt b cells i = false := by
  match cells with
  | [] => rfl
  | [x] => cases i <;> rfl
  | x :: y :: rest => exact (h x y rest rfl).elim

theorem pointsBefore_zero : pointsBefore b cells 0 = 0 := rfl

theorem pointsBefore_succ :
    pointsBefore b cells (i + 1) = pointsBefore b cells i + if pointAt b cells i = true then 1 else 0 := by
  rw [pointsBefore, List.range_succ, List.filter_append, List.length_append, List.filter_singleton]
  cases pointAt b cells i <;> rfl

theorem pointsBefore_cons_succ :
    pointsBefore b (x :: y :: rest) (i + 1) =
      (if extensionPoint b x y = true then 1 else 0) + pointsBefore b (y :: rest) i := by
  induction i with
  | zero => rw [pointsBefore_succ, pointAt_cons_zero, pointsBefore_zero, pointsBefore_zero, Nat.zero_add, Nat.add_zero]
  | succ i ih => rw [pointsBefore_succ, ih, pointAt_cons_succ, pointsBefore_succ, Nat.add_assoc]

theorem pointsBefore_of_short (h : ∀ x y rest, cells = x :: y :: rest → False) : pointsBefore b cells i = 0 := by
  induction i with
  | zero => rfl
  | succ i ih => rw [pointsBefore_succ, ih, pointAt_of_short h]; rfl

theorem pointCount_of_short (h : ∀ x y rest, cells = x :: y :: rest → False) : pointCount b cells = 0 := by
  rw [pointCount]
  exact h

theorem pointCount_eq_pointsBefore (b : Bank) (cells : List Cell) :
    pointCount b cells = pointsBefore b cells cells.length := by
  induction cells using pointCount.induct with
  | case1 x y rest ih => rw [pointCount, ih]; exact pointsBefore_cons_succ.symm
  | case2 cells short => rw [pointCount_of_short short, pointsBefore_of_short short]

theorem pointCount_pos (h : pointAt b cells i = true) : 0 < pointCount b cells := by
  have inside : i < cells.length := by
    by_contra outside
    rw [pointAt, List.getElem?_eq_none (Nat.not_lt.1 outside)] at h
    cases h
  have member : i ∈ (List.range cells.length).filter (pointAt b cells) :=
    List.mem_filter.2 ⟨List.mem_range.2 inside, h⟩
  exact pointCount_eq_pointsBefore b cells ▸ List.length_pos_of_mem member

end

/-! ### How many strokes (R127, R130) -/

theorem strokeTotal_of_room {b : Bank} {c : LineCopy} {slack : Nat} (hextend : 1 ≤ c.extend) (hwidth : 0 < strokeWidth b c)
    (hslack : strokeWidth b c ≤ slack) (points budget : Nat) :
    strokeTotal b c points slack budget = min (slack / strokeWidth b c) (min (points * c.extend) budget) :=
  if_pos ⟨hextend, hwidth, hslack⟩

theorem strokeTotal_of_no_room {b : Bank} {c : LineCopy} {slack : Nat}
    (h : c.extend = 0 ∨ strokeWidth b c = 0 ∨ slack < strokeWidth b c) (points budget : Nat) :
    strokeTotal b c points slack budget = 0 :=
  if_neg fun ⟨hextend, hwidth, hslack⟩ => by omega

/-- R130: EXTEND bounds the strokes of each point. -/
theorem strokeTotal_le (b : Bank) (c : LineCopy) (points slack budget : Nat) :
    strokeTotal b c points slack budget ≤ points * c.extend := by
  rw [strokeTotal]
  split
  · exact (min_le_right _ _).trans (min_le_left _ _)
  · exact Nat.zero_le _

/-- No share of a total passes the bound that the total keeps on average. -/
theorem shared_le {total points most : Nat} (h : total ≤ points * most) (hpoints : 0 < points) (i : Nat) :
    total / points + (if i < total % points then 1 else 0) ≤ most := by
  split
  · next remains =>
    refine (Nat.div_lt_iff_lt_mul hpoints).2 (lt_of_le_of_ne (Nat.mul_comm points most ▸ h) fun whole => ?_)
    rw [whole, Nat.mul_mod_left] at remains
    exact Nat.not_lt_zero i remains
  · exact Nat.div_le_of_le_mul h

/-! ### The strokes of each cell (R130) -/

/-- A cell's strokes, 0 beside a LETTER. -/
def strokesOf : Cell → Nat
  | .letter l => l.strokes
  | _ => 0

theorem strokesOf_withStrokes_of_point {b : Bank} {x y : Cell} (h : extensionPoint b x y = true) (n : Nat) :
    strokesOf (x.withStrokes n) = n := by
  cases x with
  | letter l => rfl
  | _ => cases h

/-- R130: a point gets its strokes at its earlier cell, the first ones one more, and no other cell changes. -/
theorem giveStrokes_getElem? (b : Bank) (each extra : Nat) (cells : List Cell) (i : Nat) :
    (giveStrokes b each extra cells)[i]? =
      if pointAt b cells i = true then
        cells[i]?.map (Cell.withStrokes (each + (if pointsBefore b cells i < extra then 1 else 0)))
      else cells[i]? := by
  induction extra, cells using giveStrokes.induct b generalizing i with
  | case1 extra x y rest point ih =>
    rw [giveStrokes, if_pos point]
    cases i with
    | zero =>
      rw [pointAt_cons_zero, if_pos point, pointsBefore_zero, apply_ite (each + ·)]
      rfl
    | succ i =>
      rw [List.getElem?_cons_succ, ih, pointAt_cons_succ, List.getElem?_cons_succ, pointsBefore_cons_succ, if_pos point]
      simp only [Nat.lt_sub_iff_add_lt, Nat.add_comm 1]
  | case2 extra x y rest point ih =>
    rw [giveStrokes, if_neg point]
    cases i with
    | zero => rw [pointAt_cons_zero, if_neg point]; rfl
    | succ i =>
      rw [List.getElem?_cons_succ, ih, pointAt_cons_succ, List.getElem?_cons_succ, pointsBefore_cons_succ, if_neg point,
        Nat.zero_add]
  | case3 extra cells short =>
    rw [giveStrokes, pointAt_of_short short, if_neg Bool.false_ne_true]
    exact short

/-- R130: the strokes given out, to cells that had none. -/
theorem sum_strokes_giveStrokes {b : Bank} (each : Nat) {extra : Nat} {cells : List Cell}
    (bare : ∀ x ∈ cells, strokesOf x = 0) (h : extra ≤ pointCount b cells) :
    ((giveStrokes b each extra cells).map strokesOf).sum = pointCount b cells * each + extra := by
  induction extra, cells using giveStrokes.induct b with
  | case1 extra x y rest point ih =>
    rw [pointCount, if_pos point] at h
    rw [giveStrokes, if_pos point, pointCount, if_pos point, List.map_cons, List.sum_cons,
      strokesOf_withStrokes_of_point point, ih (fun z hz => bare z (List.mem_cons_of_mem x hz)) (by omega), Nat.add_mul,
      Nat.one_mul]
    split <;> omega
  | case2 extra x y rest point ih =>
    rw [pointCount, if_neg point, Nat.zero_add] at h
    rw [giveStrokes, if_neg point, pointCount, if_neg point, List.map_cons, List.sum_cons, bare x List.mem_cons_self,
      ih (fun z hz => bare z (List.mem_cons_of_mem x hz)) h, Nat.zero_add, Nat.zero_add]
  | case3 extra cells short =>
    rw [pointCount_of_short short] at h ⊢
    rw [giveStrokes, List.sum_eq_zero]
    · omega
    · simpa using bare
    · exact short

/-- R130: the points take the strokes up whole. -/
theorem sum_strokes_withStrokes {b : Bank} {cells : List Cell} (bare : ∀ x ∈ cells, strokesOf x = 0) {total most : Nat}
    (h : total ≤ pointCount b cells * most) : ((withStrokes b total cells).map strokesOf).sum = total := by
  have remainder : total % pointCount b cells ≤ pointCount b cells := by
    obtain none | some_point := (pointCount b cells).eq_zero_or_pos
    · rw [none, Nat.zero_mul] at h
      rw [Nat.le_zero.1 h, Nat.zero_mod]
      exact Nat.zero_le _
    · exact (Nat.mod_lt _ some_point).le
  rw [withStrokes, sum_strokes_giveStrokes _ bare remainder, Nat.div_add_mod]

/-- Settles O26: the points one by one, the number of strokes, and what each point gets of it. -/
theorem strokesAreShared : Obligations.StrokesAreShared := by
  intro b c slack budget cells x isPoint pointsBefore' p k given strokes
  have width : strokeWidth b c = x := by
    unfold strokeWidth x
    cases headerGlyph b .extension <;> rfl
  have points : isPoint = pointAt b cells := by
    funext i
    simp only [isPoint, pointAt, extensionPoint, ← joinsNext_eq]
    rcases cells[i]? with _ | (_ | _ | _ | _ | _ | _) <;> rcases cells[i + 1]? with _ | (_ | _ | _ | _ | _ | _) <;> rfl
  have before : pointsBefore' = pointsBefore b cells := by
    funext i
    simp only [pointsBefore', points]
    rfl
  have count : pointCount b cells = p := by
    rw [pointCount_eq_pointsBefore, ← before]
  have cell_strokes : strokes = strokesOf := by
    funext y
    cases y <;> rfl
  have bound : k ≤ pointCount b cells * c.extend := count ▸ strokeTotal_le b c p slack budget
  clear_value x isPoint pointsBefore' p strokes
  subst width points before count cell_strokes
  refine ⟨rfl, rfl, ?_, ?_, ?_, ?_, fun l n => rfl, fun bare => ?_⟩
  · exact fun hextend hwidth hslack => strokeTotal_of_room hextend hwidth hslack _ budget
  · exact fun h => strokeTotal_of_no_room h _ budget
  · exact giveStrokes_getElem? b _ _ cells
  · exact fun i point => shared_le bound (pointCount_pos point) _
  · refine sum_strokes_withStrokes (fun y hy => ?_) bound
    cases y with
    | letter l => exact bare l hy
    | _ => rfl

/-! ### The leaders of one gap (R126) -/

section
variable {b : Bank} {c : LineCopy} {pattern : List Nat} {j : Nat}

/-- R126: from place `j` of the pattern, its end standing for its start, the fill places the glyph there or stops before it. -/
theorem fillLeaders_succ (hj : j ≤ pattern.length) (n room : Nat) :
    (∃ g, pattern[j % pattern.length]? = some g ∧ c.fine (advanceOf b g) ≤ room ∧ j % pattern.length + 1 ≤ pattern.length ∧
      fillLeaders b c pattern (n + 1) (pattern.drop j) room =
        let r := fillLeaders b c pattern n (pattern.drop (j % pattern.length + 1)) (room - c.fine (advanceOf b g))
        (g :: r.1, r.2))
    ∨ (∀ g, pattern[j % pattern.length]? = some g → room < c.fine (advanceOf b g))
      ∧ fillLeaders b c pattern (n + 1) (pattern.drop j) room = ([], room) := by
  have place : (if (pattern.drop j).isEmpty = true then pattern else pattern.drop j) =
      pattern.drop (j % pattern.length) := by
    obtain inside | rfl := hj.lt_or_eq
    · rw [if_neg (by simpa using inside), Nat.mod_eq_of_lt inside]
    · rw [if_pos (by simp), Nat.mod_self, List.drop_zero]
  rw [fillLeaders, place]
  cases hg : pattern[j % pattern.length]? with
  | none =>
    rw [List.drop_eq_nil_of_le (List.getElem?_eq_none_iff.1 hg)]
    exact .inr ⟨nofun, rfl⟩
  | some g =>
    obtain ⟨inside, rfl⟩ := List.getElem?_eq_some_iff.1 hg
    rw [List.drop_eq_getElem_cons inside]
    by_cases fits : c.fine (advanceOf b pattern[j % pattern.length]) ≤ room
    · exact .inl ⟨_, rfl, fits, inside, if_pos fits⟩
    · exact .inr ⟨fun g hg => Option.some.inj hg ▸ Nat.not_le.1 fits, if_neg fits⟩

/-- R126: a fill, from place `j` of the pattern on. -/
structure Fills (b : Bank) (c : LineCopy) (pattern : List Nat) (budget j room : Nat) (fill : List Nat × Nat) : Prop where
  exact_width : runWidth b c fill.1 + fill.2 = room
  within_budget : fill.1.length ≤ budget
  in_order : ∀ i, i < fill.1.length → fill.1[i]? = pattern[(j + i) % pattern.length]?
  stops : fill.1.length = budget ∨
    ∀ g, pattern[(j + fill.1.length) % pattern.length]? = some g → fill.2 < c.fine (advanceOf b g)

theorem fills_none {budget room : Nat}
    (h : 0 = budget ∨ ∀ g, pattern[j % pattern.length]? = some g → room < c.fine (advanceOf b g)) :
    Fills b c pattern budget j room ([], room) :=
  ⟨Nat.zero_add room, Nat.zero_le budget, fun i hi => absurd hi (Nat.not_lt_zero i), h⟩

/-- R126: one leader, and the fill of the room it leaves from the next place on. -/
theorem Fills.cons {budget room g : Nat} {fill : List Nat × Nat} (hg : pattern[j % pattern.length]? = some g)
    (fits : c.fine (advanceOf b g) ≤ room)
    (h : Fills b c pattern budget (j % pattern.length + 1) (room - c.fine (advanceOf b g)) fill) :
    Fills b c pattern (budget + 1) j room (g :: fill.1, fill.2) := by
  have place (i : Nat) : (j % pattern.length + 1 + i) % pattern.length = (j + (i + 1)) % pattern.length := by
    rw [Nat.add_assoc, Nat.mod_add_mod, Nat.add_comm 1]
  refine ⟨?_, Nat.succ_le_succ h.within_budget, fun i hi => ?_, ?_⟩
  · rw [runWidth, Nat.add_assoc, h.exact_width, Nat.add_sub_cancel' fits]
  · cases i with
    | zero => exact hg.symm
    | succ i => rw [List.getElem?_cons_succ, h.in_order i (Nat.lt_of_succ_lt_succ hi), place]
  · exact h.stops.imp (congrArg Nat.succ) fun stop => by rwa [place] at stop

theorem fillLeaders_fills (budget : Nat) (hj : j ≤ pattern.length) (room : Nat) :
    Fills b c pattern budget j room (fillLeaders b c pattern budget (pattern.drop j) room) := by
  induction budget generalizing j room with
  | zero => exact fills_none (.inl rfl)
  | succ n ih =>
    obtain ⟨g, hg, fits, inside, placed⟩ | ⟨stop, stopped⟩ := fillLeaders_succ (b := b) (c := c) hj n room
    · rw [placed]
      exact (ih inside _).cons hg fits
    · rw [stopped]
      exact fills_none (.inr stop)

end

/-- R126: every gap is filled from the start of the pattern. -/
theorem leaders_fill (b : Bank) (c : LineCopy) (budget gap : Nat) :
    Fills b c (leaderGlyphs b c) budget 0 gap (fillLeaders b c (leaderGlyphs b c) budget [] gap) := by
  have start : fillLeaders b c (leaderGlyphs b c) budget [] gap =
      fillLeaders b c (leaderGlyphs b c) budget (leaderGlyphs b c) gap := by
    cases budget with
    | zero => rfl
    | succ n => rw [fillLeaders, fillLeaders]; simp
  rw [start]
  exact fillLeaders_fills budget (Nat.zero_le _) gap

/-! ### The TABs of a line (R126) -/

section
variable (b : Bank) (c : LineCopy)

theorem fillTabs_cons_of_not_tab {x : Cell} (h : x.isTab = false) (rest : List Cell) (budget : Nat) :
    fillTabs b c (x :: rest) budget = (x :: (fillTabs b c rest budget).1, (fillTabs b c rest budget).2) := by
  cases x with
  | tab => cases h
  | _ => rfl

theorem fillTabs_append {before : List Cell} (h : before.any Cell.isTab = false) (after : List Cell) (budget : Nat) :
    fillTabs b c (before ++ after) budget =
      (before ++ (fillTabs b c after budget).1, (fillTabs b c after budget).2) := by
  induction before with
  | nil => rfl
  | cons x before ih =>
    obtain ⟨hx, hbefore⟩ := Bool.or_eq_false_iff.1 (List.any_cons ▸ h)
    rw [List.cons_append, fillTabs_cons_of_not_tab b c hx, ih hbefore, List.cons_append]

theorem fillTabs_of_no_tab {cells : List Cell} (h : cells.any Cell.isTab = false) (budget : Nat) :
    fillTabs b c cells budget = (cells, budget) := by
  simpa [fillTabs] using fillTabs_append b c h [] budget

end

/-- Settles O27: the fill of one gap from the start of the pattern, and the TABs one after another. -/
theorem leadersFillTheGap : Obligations.LeadersFillTheGap := by
  refine ⟨fun b c budget gap => ?_, fun b c budget gap left leaders before after => ?_⟩
  · obtain ⟨exact_width, within_budget, in_order, stops⟩ := leaders_fill b c budget gap
    simp only [Nat.zero_add] at in_order stops
    refine ⟨exact_width, within_budget, in_order, stops.imp_right fun stop => ?_⟩
    exact (Option.all_eq_true _ _).2 fun g hg => decide_eq_true (stop g hg)
  · exact ⟨rfl, fun g => rfl, fun no_tab => ⟨fillTabs_of_no_tab b c no_tab budget, fillTabs_append b c no_tab _ budget⟩⟩

end Sys2Proof.Proofs
end

section
/-! SUPPORT. The invariant of the exposure queue and the bus port (O59). -/

namespace Sys2Proof.Proofs

open Sys2Proof.Machine Sys2Proof.Safety

/-! ### The exposure queue (R154, R157, R168) -/

/-- The packets are numbered up to the next number, each with its check. -/
structure PacketsOk (next : BitVec 8) (q : List Packet) : Prop where
  numbered : consecutive next q = true
  checked : q.all (fun p => decide (p.check = packetCheck p.body p.sequence)) = true

theorem packetsOk_nil (next : BitVec 8) : PacketsOk next [] := ⟨rfl, rfl⟩

/-- R157: a packet with the next number at the tail moves the end of the row by one. -/
theorem consecutive_append {next : BitVec 8} {q : List Packet} (h : consecutive next q = true) {p : Packet}
    (hp : p.sequence = next) : consecutive (next + 1) (q ++ [p]) = true := by
  induction q with
  | nil => simp [consecutive, hp]
  | cons first rest ih =>
    simp only [consecutive, Bool.and_eq_true, decide_eq_true_eq] at h
    obtain ⟨hfirst, hrest⟩ := h
    have place : first.sequence = next + 1 - BitVec.ofNat 8 (rest.length + 1 + 1) := by
      rw [hfirst, BitVec.ofNat_add (x := rest.length + 1), BitVec.ofNat_eq_ofNat, add_sub_add_right_eq_sub]
    simpa [consecutive, place] using ih hrest

theorem PacketsOk.join {next : BitVec 8} {q : List Packet} (h : PacketsOk next q) (body : PacketBody) :
    PacketsOk (next + 1) (q ++ [⟨body, next, packetCheck body next⟩]) :=
  ⟨consecutive_append h.numbered rfl, by simp [h.checked]⟩

theorem PacketsOk.tail {next : BitVec 8} {q : List Packet} (h : PacketsOk next q) : PacketsOk next q.tail := by
  cases q with
  | nil => exact h
  | cons p rest =>
    have numbered := h.numbered
    have checked := h.checked
    rw [consecutive, Bool.and_eq_true] at numbered
    rw [List.all_cons, Bool.and_eq_true] at checked
    exact ⟨numbered.2, checked.2⟩

/-! ### What the port holds in each of its states (R158 to R170) -/

/-- The port neither owns the bus nor awaits an answer. -/
abbrev Unowned (b : Bus) : Prop := b.ownership = none ∧ b.holdTimer = none ∧ b.answerDue = false

/-- What the port holds in a state: the packet that it is busy with, its ownership, its timers and the answer due. -/
def HoldsIn (b : Bus) : BusState → Prop
  | .busIdle => b.queue = [] ∧ Unowned b ∧ b.deferTimer = none
  | .waiting => b.queue ≠ [] ∧ Unowned b ∧ b.deferTimer = none
  | .contending => b.queue ≠ [] ∧ Unowned b ∧ b.deferTimer = none
  | .sending =>
    b.queue ≠ [] ∧ (∃ o, b.ownership = some o ∧ o.sent < o.burstLimit) ∧ b.holdTimer = none ∧ b.deferTimer = none
      ∧ b.answerDue = false
  | .awaiting =>
    b.queue ≠ [] ∧ (∃ o, b.ownership = some o ∧ o.sent ≤ o.burstLimit) ∧ b.holdTimer.isSome = true ∧ b.deferTimer = none
      ∧ (b.answerDue = true → b.othersDrive = true)
  | .deferring => b.queue ≠ [] ∧ Unowned b ∧ b.deferTimer.isSome = true

/-- R159: no idle count stands while any party drives the bus. -/
def Quiet (b : Bus) : Prop := b.busy = true → b.idleCount = 0

/-- The invariant of the bus in its parts, but for the bound of the queue. -/
structure BusOk (b : Bus) : Prop where
  packets : PacketsOk b.nextSequence b.queue
  port : HoldsIn b b.state
  quiet : Quiet b

/-- The bus's part of the invariant, and the limit that an ownership will read: what the shaper's work keeps at every line end,
whatever room it was given. -/
structure BusStands (s : State) : Prop where
  bus : BusOk s.bus
  burstLimit : 1 ≤ s.format.unit.burstLimit

/-- The whole invariant, with the bound of the queue. -/
structure BusHolds (s : State) : Prop extends BusStands s where
  length_le : s.bus.queue.length ≤ 8

/-- The spec's clauses, state by state. -/
theorem holdsIn_iff (b : Bus) :
    HoldsIn b b.state ↔
      (b.state = .busIdle ↔ b.queue = [])
      ∧ (b.ownership.isSome = true ↔ b.state = .sending ∨ b.state = .awaiting)
      ∧ (b.holdTimer.isSome = true ↔ b.state = .awaiting)
      ∧ (b.deferTimer.isSome = true ↔ b.state = .deferring)
      ∧ b.ownership.all (fun o => decide (o.sent ≤ o.burstLimit)) = true
      ∧ (b.state = .sending → b.ownership.all (fun o => decide (o.sent < o.burstLimit)) = true)
      ∧ (b.answerDue = true → b.state = .awaiting ∧ b.othersDrive = true) := by
  cases hs : b.state with
  | busIdle | waiting | contending | deferring => simp only [HoldsIn, Unowned]; cases b.ownership <;> simp; grind
  | sending | awaiting => simp only [HoldsIn]; cases b.ownership <;> simp; grind

theorem busInv_iff (s : State) : BusInv s ↔ BusHolds s := by
  constructor
  · rintro ⟨hlen, hnumbered, hchecked, hidle, howned, hheld, hdeferred, hsent, hsending, hburst, hanswer, hquiet⟩
    exact ⟨⟨⟨⟨hnumbered, hchecked⟩, (holdsIn_iff _).2 ⟨hidle, howned, hheld, hdeferred, hsent, hsending, hanswer⟩, hquiet⟩,
      hburst⟩, hlen⟩
  · rintro ⟨⟨⟨⟨hnumbered, hchecked⟩, hport, hquiet⟩, hburst⟩, hlen⟩
    obtain ⟨hidle, howned, hheld, hdeferred, hsent, hsending, hanswer⟩ := (holdsIn_iff _).1 hport
    exact ⟨hlen, hnumbered, hchecked, hidle, howned, hheld, hdeferred, hsent, hsending, hburst, hanswer, hquiet⟩

/-! ### The bus's own events -/

theorem Quiet.of_idleCount {b : Bus} (h : b.idleCount = 0) : Quiet b := fun _ => h

theorem BusOk.holdsIn {b : Bus} (h : BusOk b) {st : BusState} (hs : b.state = st) : HoldsIn b st := hs ▸ h.port

theorem busy_of_othersDrive {b : Bus} (h : b.othersDrive = true) : b.busy = true := by simp [Bus.busy, h]

theorem busy_of_drives {b : Bus} (h : b.drives = true) : b.busy = true := by simp [Bus.busy, h]

/-- R159: while this unit does not drive it, the bus is busy by another party's drive, which stands as it was. -/
theorem Quiet.of_not_driving {b b' : Bus} (h : Quiet b) (hdrives : b'.drives = false)
    (hothers : b'.othersDrive = b.othersDrive) (hidle : b'.idleCount = b.idleCount) : Quiet b' := by
  intro hbusy
  rw [Bus.busy, hdrives, Bool.or_false, hothers] at hbusy
  exact hidle.trans (h (busy_of_othersDrive hbusy))

/-- Another party's drive changes nothing that the port holds, so long as an answer is due on a driven bus. -/
theorem HoldsIn.setDrive {b : Bus} {st : BusState} (h : HoldsIn b st) (idle : Nat) {drive due : Bool}
    (hdue : due = true → b.answerDue = true ∧ drive = true) :
    HoldsIn { b with othersDrive := drive, answerDue := due, idleCount := idle } st := by
  have notDue (hnone : b.answerDue = false) : due = false :=
    Bool.eq_false_iff.2 fun hd => Bool.eq_false_iff.1 hnone (hdue hd).1
  cases st with
  | busIdle | waiting | contending | deferring =>
    obtain ⟨hqueue, ⟨hown, hhold, hnone⟩, hdefer⟩ := h
    exact ⟨hqueue, ⟨hown, hhold, notDue hnone⟩, hdefer⟩
  | sending =>
    obtain ⟨hqueue, hown, hhold, hdefer, hnone⟩ := h
    exact ⟨hqueue, hown, hhold, hdefer, notDue hnone⟩
  | awaiting =>
    obtain ⟨hqueue, hown, hhold, hdefer, -⟩ := h
    exact ⟨hqueue, hown, hhold, hdefer, fun hd => (hdue hd).2⟩

theorem busOk_powerOn (b : Bus) : BusOk b.powerOn := ⟨packetsOk_nil 0, ⟨rfl, ⟨rfl, rfl, rfl⟩, rfl⟩, .of_idleCount rfl⟩

/-- R159, R160: a bit time begins the header of a port in WAITING, or counts. -/
theorem BusOk.bitTime {b : Bus} (h : BusOk b) : BusOk b.bitTime := by
  unfold Bus.bitTime
  split
  · exact ⟨h.packets, h.port, .of_idleCount rfl⟩
  · next hidle =>
    split
    · next hwaiting => exact ⟨h.packets, h.holdsIn hwaiting.1, .of_idleCount rfl⟩
    · exact ⟨h.packets, h.port, fun hbusy => absurd hbusy hidle⟩

/-- R157, R158: a packet joins, and a port in BUS_IDLE enters WAITING. -/
theorem BusOk.join {b : Bus} (h : BusOk b) (busGap : Nat) (p : PacketBody) : BusOk (b.join busGap p) := by
  have queued : b.queue ++ [⟨p, b.nextSequence, packetCheck p b.nextSequence⟩] ≠ [] := by simp
  unfold Bus.join
  dsimp only
  split
  · next hidle =>
    obtain ⟨-, hrest⟩ := h.holdsIn hidle
    refine ⟨h.packets.join p, ⟨queued, hrest⟩, h.quiet.of_not_driving rfl rfl rfl⟩
  · next hbusy =>
    refine ⟨h.packets.join p, ?_, h.quiet⟩
    have port := h.port
    show HoldsIn _ b.state
    cases hs : b.state with
    | busIdle => exact absurd hs hbusy
    | _ => rw [hs] at port; exact ⟨queued, port.2⟩

/-- R164, R167: an answer is taken in AWAITING alone. -/
theorem state_of_takesAnswer {b : Bus} (h : b.takesAnswer = true) : b.state = .awaiting := by
  rw [Bus.takesAnswer, Bool.and_eq_true, decide_eq_true_eq] at h
  exact h.1

/-- R168, R169: after an answer the head packet leaves, and the owner goes on or releases the bus. -/
theorem BusOk.answered {b : Bus} (h : BusOk b) (hs : b.state = .awaiting) (busGap : Nat) :
    BusOk (b.endAnswer.removeHead.goOnOrRelease busGap) := by
  obtain ⟨-, ⟨o, ho, -⟩, -, hdefer, -⟩ := h.holdsIn hs
  have mayGoOn : b.endAnswer.removeHead.mayGoOn = (decide (o.sent < o.burstLimit) && !b.queue.tail.isEmpty) := by
    simp [Bus.mayGoOn, Bus.removeHead, Bus.endAnswer, ho]
  unfold Bus.goOnOrRelease
  rw [mayGoOn]
  split
  · next hgo =>
    obtain ⟨hburst, hqueue⟩ : o.sent < o.burstLimit ∧ b.queue.tail ≠ [] := by simpa using hgo
    exact ⟨h.packets.tail, ⟨hqueue, ⟨o, ho, hburst⟩, rfl, hdefer, rfl⟩, .of_idleCount rfl⟩
  · split
    · next hempty =>
      exact ⟨h.packets.tail, ⟨List.isEmpty_iff.1 hempty, ⟨rfl, rfl, rfl⟩, hdefer⟩, .of_idleCount rfl⟩
    · next hqueue =>
      exact ⟨h.packets.tail, ⟨mt List.isEmpty_iff.2 hqueue, ⟨rfl, rfl, rfl⟩, hdefer⟩, .of_idleCount rfl⟩

theorem BusOk.event {u : UnitParams} {b b' : Bus} (hu : 1 ≤ u.burstLimit) (h : BusOk b) (he : BusEvent u b b') :
    BusOk b' := by
  cases he with
  | bitTime => exact h.bitTime
  | header _ hs _ _ => exact ⟨h.packets, h.holdsIn hs, .of_idleCount rfl⟩
  | sensedBusy => exact ⟨h.packets, h.port.setDrive 0 fun hdue => ⟨hdue, rfl⟩, .of_idleCount rfl⟩
  | contestLost hs _ => exact ⟨h.packets, h.holdsIn hs, .of_idleCount rfl⟩
  | contestWon hs _ =>
    obtain ⟨hqueue, ⟨-, hhold, hdue⟩, hdefer⟩ := h.holdsIn hs
    have idle : b.idleCount = 0 := h.quiet (busy_of_drives (by simp [Bus.drives, hs]))
    exact ⟨h.packets, ⟨hqueue, ⟨_, rfl, hu⟩, hhold, hdefer, hdue⟩, .of_idleCount idle⟩
  | collided hs _ =>
    obtain ⟨hqueue, -, hhold, hdefer, hdue⟩ := h.holdsIn hs
    exact ⟨h.packets, ⟨hqueue, ⟨rfl, hhold, hdue⟩, hdefer⟩, .of_idleCount rfl⟩
  | packetSent hs _ =>
    obtain ⟨hqueue, ⟨o, ho, hburst⟩, -, hdefer, -⟩ := h.holdsIn hs
    have sent : b.ownership.map (fun o => { o with sent := o.sent + 1 }) = some { o with sent := o.sent + 1 } := by
      rw [ho]
      rfl
    exact ⟨h.packets, ⟨hqueue, ⟨_, sent, hburst⟩, rfl, hdefer, fun _ => rfl⟩, .of_idleCount rfl⟩
  | answered htakes => exact h.answered (state_of_takesAnswer htakes) u.busGap
  | deferred htakes =>
    obtain ⟨hqueue, -⟩ := h.holdsIn (state_of_takesAnswer htakes)
    exact ⟨h.packets, ⟨hqueue, ⟨rfl, rfl, rfl⟩, rfl⟩, .of_idleCount rfl⟩
  | holdExpired hs _ =>
    obtain ⟨hqueue, -⟩ := h.holdsIn hs
    refine ⟨h.packets, ⟨hqueue, ⟨rfl, rfl, rfl⟩, rfl⟩, h.quiet.of_not_driving rfl rfl rfl⟩
  | deferExpired hs _ =>
    obtain ⟨hqueue, hrest, -⟩ := h.holdsIn hs
    refine ⟨h.packets, ⟨hqueue, hrest, rfl⟩, h.quiet.of_not_driving rfl rfl rfl⟩
  | released =>
    refine ⟨h.packets, h.port.setDrive _ nofun, fun hb => ?_⟩
    show (if b.othersDrive then 0 else b.idleCount) = 0
    split
    · rfl
    · exact h.quiet (busy_of_drives hb)

/-- R168: no event of the bus but a packet's joining makes the queue longer. -/
theorem busEvent_length_le {u : UnitParams} {b b' : Bus} (he : BusEvent u b b') : b'.queue.length ≤ b.queue.length := by
  cases he with
  | bitTime => rw [bitTime_queue]
  | answered _ =>
    have released : (b.endAnswer.removeHead.goOnOrRelease u.busGap).queue = b.queue.tail := by
      unfold Bus.goOnOrRelease
      repeat' split
      all_goals rfl
    rw [released, List.length_tail]
    exact Nat.sub_le ..
  | _ => exact Nat.le_refl _

/-! ### The work that makes packets (R19, R157) -/

theorem BusStands.makeLineEnd {s : State} (h : BusStands s) (plan : EndPlan) : BusStands (makeLineEnd plan s) :=
  ⟨makeLineEnd_bus plan s ▸ h.bus, (keeps_makeLineEnd plan s).unitParams ▸ h.burstLimit⟩

theorem BusStands.joinPacket {s : State} (h : BusStands s) (p : PacketBody) : BusStands (joinPacket p s) :=
  ⟨h.bus.join s.format.unit.busGap p, h.burstLimit⟩

theorem busStands_jobKeeps : JobKeeps BusStands where
  setLine _ hs := ⟨hs.bus, hs.burstLimit⟩
  paraDue hs := ⟨hs.bus, hs.burstLimit⟩
  count _ _ hs := ⟨hs.bus, hs.burstLimit⟩
  exchange hs := ⟨hs.bus, hs.burstLimit⟩
  joins _ plan hs := (hs.makeLineEnd plan).joinPacket _
  waits plan _ hs := ⟨(hs.makeLineEnd plan).bus, (hs.makeLineEnd plan).burstLimit⟩

/-- A job adds no more packets than the room that it is given. -/
theorem BusStands.runJob {s : State} (h : BusStands s) {room : Nat} (hroom : s.bus.queue.length + room ≤ 8) (j : Job) :
    BusHolds (runJob room j s) :=
  ⟨busStands_jobKeeps.runJob room j h, (runJob_queue_length_le room j s).trans hroom⟩

/-- R157: the room of a job is what the queue leaves. -/
theorem BusHolds.doJob {s : State} (h : BusHolds s) (j : Job) : BusHolds (doJob j s) := by
  refine h.toBusStands.runJob ?_ j
  have := h.length_le
  simp only [State.room, Config.exposureCapacity]
  omega

/-- R154: the packet that waited joins, and the rest of its job goes on with one place less. -/
theorem BusHolds.packetJoin {s : State} (h : BusHolds s) {w : WaitingEnd} {r : Nat} (hroom : s.room = r + 1) :
    BusHolds (runJob r w.job (joinPacket w.packet (s.setShaper { s.shaper with waiting := none }))) := by
  have released : BusStands (s.setShaper { s.shaper with waiting := none }) := ⟨h.bus, h.burstLimit⟩
  refine (released.joinPacket w.packet).runJob ?_ w.job
  have joined : (joinPacket w.packet (s.setShaper { s.shaper with waiting := none })).bus.queue.length =
      s.bus.queue.length + 1 := join_length ..
  simp only [State.room, Config.exposureCapacity] at hroom
  omega

/-! ### Every event keeps the invariant -/

theorem burstLimit_default : 1 ≤ UnitParams.default.burstLimit := by decide

/-- R50: BURST_LIMIT is written in its range. -/
theorem burstLimit_write {u : UnitParams} (h : 1 ≤ u.burstLimit) {w : UnitWrite} (hw : unitWriteInRange w = true) :
    1 ≤ (u.write w).burstLimit := by
  cases w with
  | burstLimit v =>
    rw [unitWriteInRange, within, Bool.and_eq_true, decide_eq_true_eq] at hw
    exact hw.1
  | _ => exact h

/-- The invariant speaks of the bus and of BURST_LIMIT alone. -/
theorem BusHolds.congr {s t : State} (h : BusHolds s) (hbus : t.bus = s.bus)
    (hburst : t.format.unit.burstLimit = s.format.unit.burstLimit) : BusHolds t :=
  ⟨⟨hbus ▸ h.bus, hburst ▸ h.burstLimit⟩, hbus ▸ h.length_le⟩

theorem BusHolds.offerReply {s : State} (h : BusHolds s) (q : Query) : BusHolds (offerReply q s) := by
  unfold Machine.offerReply
  split <;> exact h.congr rfl rfl

theorem BusHolds.fileLineWrite {s : State} (h : BusHolds s) (w : LineWrite) : BusHolds (fileLineWrite w s) := by
  refine h.congr rfl ?_
  unfold Machine.fileLineWrite FormatSet.fileLine
  split <;> rfl

theorem busHolds_workKeeps : WorkKeeps BusHolds BusHolds where
  done hs := hs
  report _ hs := hs.congr rfl rfl
  setDecoder _ hs := hs.congr rfl rfl
  setTables _ hs := hs.congr rfl rfl
  setLine _ hs := hs.congr rfl rfl
  count _ _ hs := hs.congr rfl rfl
  raise _ _ hs := hs.congr rfl rfl
  fileLine _ hs := hs.fileLineWrite _
  writeUnit hw hs := { hs with burstLimit := burstLimit_write hs.burstLimit hw }
  reset hs := ⟨⟨hs.bus, burstLimit_default⟩, hs.length_le⟩
  offer q hs := hs.offerReply q
  job j hs := hs.doJob j

theorem BusHolds.noted {s t : State} (h : BusHolds s) (ht : Noted s t) : BusHolds t := by
  cases ht <;> exact h.congr rfl rfl

theorem BusHolds.retestReply {s : State} (h : BusHolds s) : BusHolds (retestReply s) := by
  rw [retestReply_eq]
  split
  · split
    · exact h.congr rfl rfl
    · exact h
  · exact h

theorem event_keeps_busHolds {s t : State} (h : Event s t) (hs : BusHolds s) : BusHolds t := by
  cases h with
  | kept => exact hs
  | powerOn strap acceptAll => exact ⟨⟨busOk_powerOn s.bus, burstLimit_default⟩, Nat.zero_le 8⟩
  | port _ => exact hs.congr rfl rfl
  | decoder _ hwork => exact busHolds_workKeeps.event hwork fun _ => hs.congr rfl rfl
  | packetJoin _ hroom => exact hs.packetJoin hroom
  | @bus b _ hbus hnoted =>
    have moved : BusHolds (s.setBus b) :=
      ⟨⟨hs.bus.event hs.burstLimit hbus, hs.burstLimit⟩, (busEvent_length_le hbus).trans hs.length_le⟩
    exact moved.noted hnoted
  | replyJoin _ _ => exact hs.congr rfl rfl
  | departure _ _ _ =>
    have left (r : ReplyUnit) : BusHolds (s.setReply r) := hs.congr rfl rfl
    exact (left _).retestReply
  | sent => exact hs.congr rfl rfl
  | lineHeld begun => exact hs.congr rfl rfl
  | lineReleased => exact hs.congr rfl rfl

/-- Settles O59: each bus state holds what is its own, and a job adds no more packets than the queue has room for. -/
theorem stepKeepsBusInv : Obligations.StepKeepsBusInv := by
  intro s t hs h
  rw [busInv_iff] at hs ⊢
  exact step_keeps (P := BusHolds) (fun _ _ hs => hs.congr rfl rfl) (fun _ _ => event_keeps_busHolds) hs h

end Sys2Proof.Proofs
end

section
/-! SUPPORT. Starting classes, separators and levels (O29, O30; R139 to R144). -/

namespace Sys2Proof.Proofs

open Sys2Proof.Machine Sys2Proof.Safety

/-! ### Separators (R141) -/

/-- The class just before place `i`, `before` being the one before the first. -/
def classBefore (before : Option DirClass) (classes : List DirClass) : Nat → Option DirClass
  | 0 => before
  | i + 1 => classes[i]?

/-- R141: an S between two cells of starting class N becomes N, any other S becomes W. -/
def separated (before after : Option DirClass) (k : DirClass) : DirClass :=
  if k = .s then (if before = some .n ∧ after = some .n then .n else .w) else k

theorem resolveSeparators_cons (before : Option DirClass) (k : DirClass) (rest : List DirClass) :
    resolveSeparators before (k :: rest) = separated before rest.head? k :: resolveSeparators (some k) rest := rfl

theorem resolveSeparators_getElem? (before : Option DirClass) (classes : List DirClass) (i : Nat) :
    (resolveSeparators before classes)[i]? =
      classes[i]?.map (separated (classBefore before classes i) classes[i + 1]?) := by
  induction classes generalizing before i with
  | nil => rfl
  | cons k rest ih =>
    rw [resolveSeparators_cons]
    cases i with
    | zero => simp [classBefore, List.head?_eq_getElem?]
    | succ i =>
      rw [List.getElem?_cons_succ, List.getElem?_cons_succ, ih]
      cases i <;> rfl

/-- Before the first cell of the field's sequence stands none. -/
theorem classBefore_none_eq_some {classes : List DirClass} {i : Nat} {k : DirClass} :
    classBefore none classes i = some k ↔ 0 < i ∧ classes[i - 1]? = some k := by
  cases i <;> simp [classBefore]

theorem separated_ne_s (before after : Option DirClass) (k : DirClass) : separated before after k ≠ .s := by
  unfold separated
  split
  · split <;> nofun
  · assumption

theorem separated_eq_m {before after : Option DirClass} {k : DirClass} (h : separated before after k = .m) : k = .m := by
  unfold separated at h
  split at h
  · split at h <;> cases h
  · exact h

/-- A class of the settled sequence comes from one of the sequence. -/
theorem exists_of_mem_resolveSeparators {before : Option DirClass} {classes : List DirClass} {k : DirClass}
    (h : k ∈ resolveSeparators before classes) : ∃ k' ∈ classes, ∃ b a, k = separated b a k' := by
  obtain ⟨i, hi⟩ := List.mem_iff_getElem?.1 h
  rw [resolveSeparators_getElem?] at hi
  obtain ⟨k', hk', rfl⟩ := Option.map_eq_some_iff.1 hi
  exact ⟨k', List.mem_of_getElem? hk', _, _, rfl⟩

theorem s_notMem_resolveSeparators (before : Option DirClass) (classes : List DirClass) :
    DirClass.s ∉ resolveSeparators before classes := by
  intro h
  obtain ⟨k, -, b, a, hk⟩ := exists_of_mem_resolveSeparators h
  exact separated_ne_s b a k hk.symm

theorem m_notMem_resolveSeparators {before : Option DirClass} {classes : List DirClass} (hm : .m ∉ classes) :
    DirClass.m ∉ resolveSeparators before classes := by
  intro h
  obtain ⟨k, hk, b, a, heq⟩ := exists_of_mem_resolveSeparators h
  exact hm (separated_eq_m heq.symm ▸ hk)

theorem resolveSeparators_length (before : Option DirClass) (classes : List DirClass) :
    (resolveSeparators before classes).length = classes.length := by
  induction classes generalizing before with
  | nil => rfl
  | cons k rest ih => rw [resolveSeparators_cons, List.length_cons, List.length_cons, ih]

theorem resolveSeparators_of_no_s {before : Option DirClass} {classes : List DirClass} (h : .s ∉ classes) :
    resolveSeparators before classes = classes := by
  induction classes generalizing before with
  | nil => rfl
  | cons k rest ih =>
    rw [List.mem_cons, not_or] at h
    rw [resolveSeparators_cons, ih h.2, separated, if_neg (Ne.symm h.1)]

/-! ### Starting classes (R139) -/

theorem sequenceOf_eq_filterMap (b : Bank) (field : List (Cell × Nat)) :
    sequenceOf b field = field.filterMap (fun x => (startClass b x.1).map (fun k => (k, x.1, x.2))) := by
  induction field with
  | nil => rfl
  | cons x rest ih =>
    rw [sequenceOf, List.filterMap_cons]
    cases startClass b x.1 with
    | none => exact ih
    | some k => exact congrArg (_ :: ·) ih

/-- R139: M is read as W. -/
theorem startClassOf_ne_m (b : Bank) (g : Nat) : startClassOf b g ≠ .m := by
  unfold startClassOf
  split
  · nofun
  · assumption

theorem startClass_brk (b : Bank) (width : Nat) (broken : Bool) (d : Nat) :
    startClass b (.brk width broken d) = if broken = true then (headerGlyph b .breakGlyph).map (startClassOf b) else none := by
  unfold startClass
  cases headerGlyph b .breakGlyph <;> rfl

theorem startClass_ne_m (b : Bank) (x : Cell) : startClass b x ≠ some .m := by
  cases x with
  | letter l => exact fun h => startClassOf_ne_m b _ (Option.some.inj h)
  | brk width broken d =>
    rw [startClass_brk]
    split
    · intro h
      obtain ⟨g, -, hg⟩ := Option.map_eq_some_iff.1 h
      exact startClassOf_ne_m b g hg
    · nofun
  | _ => nofun

/-- Settles O29: the separators place by place, the sequence, and each cell's starting class. -/
theorem separatorsSettle : Obligations.SeparatorsSettle := by
  refine ⟨fun classes i => ?_, s_notMem_resolveSeparators none, sequenceOf_eq_filterMap,
    fun b x => ⟨?_, startClass_ne_m b x⟩⟩
  · rw [resolveSeparators_getElem?]
    refine congrArg (Option.map · _) (funext fun k => ?_)
    simp only [separated, classBefore_none_eq_some, and_assoc]
  · cases x with
    | brk width broken d => exact startClass_brk b width broken d
    | _ => rfl

/-! ### Digits (R142) -/

/-- The direction of a strong class. -/
def strongDirection : DirClass → Option Direction
  | .l => some .ltr
  | .r => some .rtl
  | _ => none

/-- R142: what a class resolves to, a digit with the direction counted up to it. -/
def resolvedWith (counted : Direction) : DirClass → Resolved
  | .l => .strong .ltr
  | .r => .strong .rtl
  | .n => .digit counted
  | _ => .neutral

/-- R142: the direction of the nearest strong cell, else the one given. -/
def countedAfter (counted : Direction) (classes : List DirClass) : Direction :=
  (classes.filterMap strongDirection).getLast?.getD counted

theorem resolveDigits_cons (counted : Direction) (k : DirClass) (rest : List DirClass) :
    resolveDigits counted (k :: rest) =
      resolvedWith counted k :: resolveDigits ((strongDirection k).getD counted) rest := by
  cases k <;> rfl

/-- The last of a list that begins with what an entry shows, else of the rest. -/
theorem getLast?_filterMap_cons_getD {α β : Type} (f : α → Option β) (x : α) (rest : List α) (y : β) :
    ((x :: rest).filterMap f).getLast?.getD y = (rest.filterMap f).getLast?.getD ((f x).getD y) := by
  rw [List.filterMap_cons]
  cases f x <;> simp [List.getLast?_cons]

theorem resolveDigits_getElem? (counted : Direction) (classes : List DirClass) (i : Nat) :
    (resolveDigits counted classes)[i]? = classes[i]?.map (resolvedWith (countedAfter counted (classes.take i))) := by
  induction classes generalizing counted i with
  | nil => rfl
  | cons k rest ih =>
    rw [resolveDigits_cons]
    cases i with
    | zero => rfl
    | succ i =>
      rw [List.getElem?_cons_succ, List.getElem?_cons_succ, ih, List.take_succ_cons]
      exact congrArg (Option.map · _) (congrArg resolvedWith (getLast?_filterMap_cons_getD ..).symm)

theorem resolveDigits_length (counted : Direction) (classes : List DirClass) :
    (resolveDigits counted classes).length = classes.length := by
  induction classes generalizing counted with
  | nil => rfl
  | cons k rest ih => rw [resolveDigits_cons, List.length_cons, List.length_cons, ih]

theorem resolveDigits_replicate (counted : Direction) (n : Nat) (k : DirClass) :
    resolveDigits counted (List.replicate n k) = List.replicate n (resolvedWith counted k) := by
  induction n generalizing counted with
  | zero => rfl
  | succ n ih =>
    have stays : resolvedWith ((strongDirection k).getD counted) k = resolvedWith counted k := by cases k <;> rfl
    rw [List.replicate_succ, resolveDigits_cons, ih, stays, List.replicate_succ]

/-! ### Neutral runs (R143) -/

/-- R143: a neutral cell takes what its two sides show when they agree, else the base direction. -/
def betweenSides (base left right : Direction) : Resolved → Resolved
  | .neutral => .strong (if left = right then left else base)
  | x => x

/-- R143: what the last cell that shows a direction shows, else the one given. -/
def shownBefore (left : Direction) (cells : List Resolved) : Direction :=
  (cells.filterMap Resolved.shows).getLast?.getD left

theorem resolveNeutrals_cons (base left : Direction) (x : Resolved) (rest : List Resolved) :
    resolveNeutrals base left (x :: rest) =
      betweenSides base left (shownAfter base rest) x :: resolveNeutrals base (x.shows.getD left) rest := by
  cases x <;> rfl

theorem resolveNeutrals_getElem? (base left : Direction) (cells : List Resolved) (i : Nat) :
    (resolveNeutrals base left cells)[i]? =
      cells[i]?.map (betweenSides base (shownBefore left (cells.take i)) (shownAfter base (cells.drop (i + 1)))) := by
  induction cells generalizing left i with
  | nil => rfl
  | cons x rest ih =>
    rw [resolveNeutrals_cons]
    cases i with
    | zero => rfl
    | succ i =>
      rw [List.getElem?_cons_succ, List.getElem?_cons_succ, ih, List.take_succ_cons, List.drop_succ_cons]
      exact congrArg (Option.map · _) (congrArg (betweenSides base · _) (getLast?_filterMap_cons_getD ..).symm)

theorem resolveNeutrals_length (base left : Direction) (cells : List Resolved) :
    (resolveNeutrals base left cells).length = cells.length := by
  induction cells generalizing left with
  | nil => rfl
  | cons x rest ih => rw [resolveNeutrals_cons, List.length_cons, List.length_cons, ih]

theorem resolveNeutrals_of_no_neutral {base left : Direction} {cells : List Resolved} (h : .neutral ∉ cells) :
    resolveNeutrals base left cells = cells := by
  induction cells generalizing left with
  | nil => rfl
  | cons x rest ih =>
    rw [List.mem_cons, not_or] at h
    rw [resolveNeutrals_cons, ih h.2]
    cases x with
    | neutral => exact absurd rfl h.1
    | _ => rfl

theorem shownAfter_replicate_neutral (base : Direction) (n : Nat) :
    shownAfter base (List.replicate n .neutral) = base := by
  induction n with
  | zero => rfl
  | succ n ih => exact ih

theorem resolveNeutrals_replicate_neutral (base : Direction) (n : Nat) :
    resolveNeutrals base base (List.replicate n .neutral) = List.replicate n (.strong base) := by
  induction n with
  | zero => rfl
  | succ n ih =>
    rw [List.replicate_succ, resolveNeutrals_cons, shownAfter_replicate_neutral, betweenSides, if_pos rfl, List.replicate_succ]
    exact congrArg (_ :: ·) ih

/-! ### The sides of a neutral run, place by place (R143) -/

section
variable {cells : List Resolved} {isSide : Nat → Bool} {shown : Nat → Direction}
  (h : ∀ j x, cells[j]? = some x → x.shows = if isSide j = true then some (shown j) else none)

include h

/-- The nearest side before place `i` is the last of the places below `i` that are sides. -/
theorem shownBefore_take (base : Direction) {i : Nat} (hi : i ≤ cells.length) :
    shownBefore base (cells.take i) = ((List.range i).filter isSide).getLast?.elim base shown := by
  induction i with
  | zero => rfl
  | succ i ih =>
    have at_i : cells[i]? = some cells[i] := List.getElem?_eq_getElem hi
    have before := ih (Nat.le_of_succ_le hi)
    have shows_i := h i _ at_i
    rw [shownBefore, List.take_add_one, at_i, List.filterMap_append, List.range_succ, List.filter_append]
    by_cases hside : isSide i = true
    · simp [hside, shows_i]
    · simpa [hside, shows_i, shownBefore] using before

/-- The nearest side from place `k` on is the first of those places that is a side. -/
theorem shownAfter_drop (base : Direction) {k m : Nat} (hlen : k + m = cells.length) :
    shownAfter base (cells.drop k) = ((List.range' k m).find? isSide).elim base shown := by
  induction m generalizing k with
  | zero => rw [List.drop_of_length_le (by omega)]; rfl
  | succ m ih =>
    have hk : k < cells.length := by omega
    have shows_k := h k _ (List.getElem?_eq_getElem hk)
    rw [List.drop_eq_getElem_cons hk, shownAfter, ih (by omega), shows_k, List.range'_succ, List.find?_cons]
    by_cases hside : isSide k = true <;> simp [hside]

end

/-! ### Levels (R144) -/

/-- A place that ends a neutral run. -/
def sideAt (settled : List DirClass) (j : Nat) : Bool := decide (settled[j]? ≠ some .w)

/-- R143: what a place shows, a digit its counted direction. -/
def directionAt (base : Direction) (settled : List DirClass) (j : Nat) : Direction :=
  match settled[j]? with
  | some .l => .ltr
  | some .r => .rtl
  | _ => countedAfter base (settled.take j)

/-- R143: what stands before place `i` beside its neutral run. -/
def leftOf (base : Direction) (settled : List DirClass) (i : Nat) : Direction :=
  ((List.range i).filter (sideAt settled)).getLast?.elim base (directionAt base settled)

/-- R143: what stands after place `i` beside its neutral run. -/
def rightOf (base : Direction) (settled : List DirClass) (i : Nat) : Direction :=
  ((List.range' (i + 1) (settled.length - (i + 1))).find? (sideAt settled)).elim base (directionAt base settled)

theorem shows_resolveDigits {base : Direction} {settled : List DirClass} (hs : .s ∉ settled) (hm : .m ∉ settled) (j : Nat)
    (x : Resolved) (hx : (resolveDigits base settled)[j]? = some x) :
    x.shows = if sideAt settled j = true then some (directionAt base settled j) else none := by
  rw [resolveDigits_getElem?] at hx
  obtain ⟨k, hk, rfl⟩ := Option.map_eq_some_iff.1 hx
  rw [sideAt, directionAt, hk]
  cases k with
  | s => exact absurd (List.mem_of_getElem? hk) hs
  | m => exact absurd (List.mem_of_getElem? hk) hm
  | _ => rfl

/-- R142 to R144: the level of each cell of a sequence whose separators have settled. -/
theorem levels_getElem? (base : Direction) {classes : List DirClass} (hm : .m ∉ classes) (i : Nat) :
    let settled := resolveSeparators none classes
    (levels base classes)[i]? =
      settled[i]?.map (fun k =>
        levelOf base
          (betweenSides base (leftOf base settled i) (rightOf base settled i)
            (resolvedWith (countedAfter base (settled.take i)) k))) := by
  intro settled
  have shows := shows_resolveDigits (base := base) (settled := settled) (s_notMem_resolveSeparators none classes)
    (m_notMem_resolveSeparators hm)
  have len := resolveDigits_length base settled
  have leveled : levels base classes = (resolveNeutrals base base (resolveDigits base settled)).map (levelOf base) := rfl
  rw [leveled, List.getElem?_map, resolveNeutrals_getElem?, resolveDigits_getElem?]
  cases hk : settled[i]? with
  | none => rfl
  | some k =>
    obtain ⟨hi, -⟩ := List.getElem?_eq_some_iff.1 hk
    rw [shownBefore_take shows base (by omega), shownAfter_drop shows base (m := settled.length - (i + 1)) (by omega)]
    rfl

theorem levels_length (base : Direction) (classes : List DirClass) : (levels base classes).length = classes.length := by
  rw [levels, List.length_map, resolveNeutrals_length, resolveDigits_length, resolveSeparators_length]

/-- A level is that of some cell's class. -/
theorem exists_of_mem_levels {base : Direction} {classes : List DirClass} {l : Nat} (h : l ∈ levels base classes) :
    ∃ x, l = levelOf base x := by
  obtain ⟨x, -, rfl⟩ := List.mem_map.1 h
  exact ⟨x, rfl⟩

theorem levelOf_ltr_le (x : Resolved) : levelOf .ltr x ≤ 2 := by rcases x with (_ | _) | (_ | _) | _ <;> decide

theorem levelOf_rtl (x : Resolved) : levelOf .rtl x = 1 ∨ levelOf .rtl x = 2 := by
  rcases x with (_ | _) | (_ | _) | _ <;> decide

/-! ### Fields of one class -/

/-- Without separators and neutral cells a level is that of the cell itself. -/
theorem levels_of_resolved {base : Direction} {classes : List DirClass} {cells : List Resolved} (hs : .s ∉ classes)
    (hdigits : resolveDigits base classes = cells) (hneutral : .neutral ∉ cells) :
    levels base classes = cells.map (levelOf base) := by
  rw [levels, resolveSeparators_of_no_s hs, hdigits, resolveNeutrals_of_no_neutral hneutral]

theorem levels_replicate (base : Direction) (n : Nat) {k : DirClass} (hs : k ≠ .s) (hneutral : resolvedWith base k ≠ .neutral) :
    levels base (List.replicate n k) = List.replicate n (levelOf base (resolvedWith base k)) := by
  rw [levels_of_resolved (fun h => hs (List.eq_of_mem_replicate h).symm) (resolveDigits_replicate base n k)
    (fun h => hneutral (List.eq_of_mem_replicate h).symm), List.map_replicate]

/-- A field of neutral cells alone is at the level of the base direction. -/
theorem levels_replicate_w (base : Direction) (n : Nat) :
    levels base (List.replicate n .w) = List.replicate n (levelOf base (.strong base)) := by
  have settled : resolveSeparators none (List.replicate n .w) = List.replicate n .w := resolveSeparators_of_no_s (by simp)
  rw [levels, settled, resolveDigits_replicate, resolvedWith, resolveNeutrals_replicate_neutral, List.map_replicate]
  all_goals nofun

/-- Digits after an R count right to left. -/
theorem levels_r_digits (base : Direction) (n : Nat) :
    levels base (.r :: List.replicate n .n) = 1 :: List.replicate n 2 := by
  have digits : resolveDigits base (.r :: List.replicate n .n) = .strong .rtl :: List.replicate n (.digit .rtl) :=
    congrArg (_ :: ·) (resolveDigits_replicate .rtl n .n)
  rw [levels_of_resolved (by simp) digits (by simp), List.map_cons, List.map_replicate]
  rfl

/-- Settles O30: the level of each cell, the range of the levels, and the fields of one class. -/
theorem levelsByClassAndBase : Obligations.LevelsByClassAndBase := by
  refine ⟨?_, levels_length, fun classes l hl => ?_, fun classes l hl => ?_,
    fun base n => ⟨?_, ?_, ?_, ?_⟩, levels_r_digits⟩
  · intro base classes hm settled strongLevel strongOf counted shows isSide left right i
    have strongOf_eq : strongOf = strongDirection := by funext k; cases k <;> rfl
    have counted_eq : counted = fun i => countedAfter base (settled.take i) := by
      simp only [counted, strongOf_eq]; rfl
    have shows_eq : shows = directionAt base settled := by
      simp only [shows, counted_eq]; rfl
    have side_eq : isSide = sideAt settled := rfl
    have left_eq : left i = leftOf base settled i := by
      simp only [left, shows_eq, side_eq, leftOf]
      cases ((List.range i).filter (sideAt settled)).getLast? <;> rfl
    have right_eq : right i = rightOf base settled i := by
      simp only [right, shows_eq, side_eq, rightOf]
      cases (List.range' (i + 1) (settled.length - (i + 1))).find? (sideAt settled) <;> rfl
    rw [levels_getElem? base hm, left_eq, right_eq, counted_eq]
    refine congrArg (Option.map · _) (funext fun k => ?_)
    have strong_level (d : Direction) : levelOf base (.strong d) = strongLevel d := by cases base <;> cases d <;> rfl
    have digit_level (d : Direction) : levelOf base (.digit d) = if d = .ltr then strongLevel .ltr else 2 := by
      cases base <;> cases d <;> rfl
    cases k with
    | l => exact strong_level .ltr
    | r => rfl
    | n => exact digit_level _
    | _ => exact strong_level _
  · obtain ⟨x, rfl⟩ := exists_of_mem_levels hl
    exact levelOf_ltr_le x
  · obtain ⟨x, rfl⟩ := exists_of_mem_levels hl
    exact levelOf_rtl x
  · rw [levels_replicate base n (k := .l) nofun nofun]
    cases base <;> rfl
  · rw [levels_replicate base n (k := .r) nofun nofun]
    rfl
  · rw [levels_replicate base n (k := .n) nofun nofun]
    cases base <;> rfl
  · rw [levels_replicate_w]
    cases base <;> rfl

end Sys2Proof.Proofs
end

section
/-! SUPPORT. The visual order of a field, run by run (O31; R145). -/

namespace Sys2Proof.Proofs

open Sys2Proof.Machine Sys2Proof.Safety

/-! ### One pass over the runs -/

section
variable {α : Type} {p : α → Bool}

/-- A run at the end of the cells. -/
theorem reverseRuns_of_all (opened : List α) {run : List α} (h : ∀ e ∈ run, p e = true) :
    reverseRuns p opened run = run.reverse ++ opened := by
  simpa [reverseRuns] using reverseRuns_run p opened run [] h

/-- A run is closed by a cell outside the runs, or by the end of the cells. -/
theorem reverseRuns_run_closed {run after : List α} (hrun : ∀ e ∈ run, p e = true)
    (hafter : ∀ e, after.head? = some e → p e = false) :
    reverseRuns p [] (run ++ after) = run.reverse ++ reverseRuns p [] after := by
  rw [reverseRuns_run p [] run after hrun, List.append_nil]
  cases after with
  | nil => simp [reverseRuns]
  | cons x rest => simp [reverseRuns, hafter x rfl]

/-- What stands before a run, and ends outside the runs, is passed over by itself. -/
theorem reverseRuns_before {before rest : List α} (h : ∀ e, before.getLast? = some e → p e = false) :
    reverseRuns p [] (before ++ rest) = reverseRuns p [] before ++ reverseRuns p [] rest := by
  obtain rfl | ⟨init, last, rfl⟩ := before.eq_nil_or_concat
  · rfl
  · have outside : p last = false := h last (by simp)
    rw [List.concat_eq_append, List.append_assoc, List.singleton_append, reverseRuns_stop p [] init rest last outside,
      reverseRuns_stop p [] init [] last outside, List.append_assoc]
    rfl

/-- R145: a maximal run is reversed in place. -/
theorem reverseRuns_maximal_run {before run after : List α} (hrun : ∀ e ∈ run, p e = true)
    (hbefore : ∀ e, before.getLast? = some e → p e = false) (hafter : ∀ e, after.head? = some e → p e = false) :
    reverseRuns p [] (before ++ run ++ after) = reverseRuns p [] before ++ run.reverse ++ reverseRuns p [] after := by
  rw [List.append_assoc, reverseRuns_before hbefore, reverseRuns_run_closed hrun hafter, List.append_assoc]

theorem reverseRuns_of_none {cells : List α} (h : ∀ e ∈ cells, p e = false) : reverseRuns p [] cells = cells := by
  induction cells with
  | nil => rfl
  | cons x rest ih =>
    rw [List.forall_mem_cons] at h
    simp [reverseRuns, h.1, ih h.2]

/-- A cell outside the runs keeps its place. -/
theorem reverseRuns_getElem?_of_outside {cells : List α} {i : Nat} {e : α} (h : cells[i]? = some e) (he : p e = false) :
    (reverseRuns p [] cells)[i]? = some e := by
  obtain ⟨hi, rfl⟩ := List.getElem?_eq_some_iff.1 h
  have before_length : (reverseRuns p [] (cells.take i)).length = i := by
    rw [reverseRuns_length, List.length_take_of_le hi.le, List.length_nil, Nat.zero_add]
  conv_lhs => rw [← List.take_append_drop i cells, List.drop_eq_getElem_cons hi, reverseRuns_stop p [] _ _ _ he]
  rw [List.getElem?_append_right before_length.le, before_length, Nat.sub_self, List.getElem?_cons_zero]

theorem reverseRuns_perm (opened cells : List α) : (reverseRuns p opened cells).Perm (opened ++ cells) := by
  induction cells generalizing opened with
  | nil => rw [reverseRuns, List.append_nil]
  | cons x rest ih =>
    rw [reverseRuns]
    split
    · exact (ih (x :: opened)).trans List.perm_middle.symm
    · exact ((ih []).cons x).append_left opened

end

/-! ### The two passes -/

/-- The pass over the runs at a level or above. -/
abbrev levelPass {α : Type} (k : Nat) (entries : List (Nat × α)) : List (Nat × α) :=
  reverseRuns (fun e => decide (k ≤ e.1)) [] entries

section
variable {α : Type} {entries : List (Nat × α)}

theorem levelPass_perm (k : Nat) (entries : List (Nat × α)) : (levelPass k entries).Perm entries := reverseRuns_perm [] entries

theorem visualOrder_perm (entries : List (Nat × α)) : (visualOrder entries).Perm entries :=
  (levelPass_perm 1 _).trans (levelPass_perm 2 entries)

theorem levelPass_of_lt {k : Nat} (h : ∀ e ∈ entries, e.1 < k) : levelPass k entries = entries :=
  reverseRuns_of_none fun e he => decide_eq_false (Nat.not_le_of_lt (h e he))

theorem levelPass_of_le {k : Nat} (h : ∀ e ∈ entries, k ≤ e.1) : levelPass k entries = entries.reverse := by
  simpa using reverseRuns_of_all [] fun e he => decide_eq_true (h e he)

/-- A field without a cell at level 0 is turned round as a whole, its level-2 runs keeping their order. -/
theorem visualOrder_of_one_le (h : ∀ e ∈ entries, 1 ≤ e.1) : visualOrder entries = (levelPass 2 entries).reverse :=
  levelPass_of_le fun e he => h e ((levelPass_perm 2 entries).mem_iff.1 he)

theorem visualOrder_of_level_zero (h : ∀ e ∈ entries, e.1 = 0) : visualOrder entries = entries := by
  have second : levelPass 2 entries = entries := levelPass_of_lt fun e he => by simp [h e he]
  have first : levelPass 1 entries = entries := levelPass_of_lt fun e he => by simp [h e he]
  exact (congrArg (levelPass 1) second).trans first

theorem visualOrder_of_level_one (h : ∀ e ∈ entries, e.1 = 1) : visualOrder entries = entries.reverse := by
  rw [visualOrder_of_one_le fun e he => (h e he).ge, levelPass_of_lt fun e he => by simp [h e he]]

theorem visualOrder_of_level_two (h : ∀ e ∈ entries, e.1 = 2) : visualOrder entries = entries := by
  rw [visualOrder_of_one_le fun e he => by simp [h e he], levelPass_of_le fun e he => (h e he).ge, List.reverse_reverse]

end

/-- Settles O31: what a pass makes of a run and of a cell outside the runs, and the two passes of the visual order. -/
theorem visualOrderReversesRuns : Obligations.VisualOrderReversesRuns := by
  refine ⟨fun k before run after hrun hbefore hafter => ?_, fun k before after x hx => ?_, fun k cells => ⟨?_, ?_⟩,
    fun entries => ⟨rfl, visualOrder_perm entries, visualOrder_of_level_zero, visualOrder_of_one_le,
      visualOrder_of_level_one, visualOrder_of_level_two⟩⟩
  · have outside {e : Nat × Cell} (he : e.1 < k) : decide (k ≤ e.1) = false := decide_eq_false (Nat.not_le_of_lt he)
    exact reverseRuns_maximal_run (fun e he => decide_eq_true (hrun e he)) (fun e he => outside (hbefore e he))
      (fun e he => outside (hafter e he))
  · exact reverseRuns_stop _ [] before after x (decide_eq_false (Nat.not_le_of_lt hx))
  · exact (reverseRuns_length _ [] cells).trans (Nat.zero_add _)
  · exact fun i e h he => reverseRuns_getElem?_of_outside h (decide_eq_false (Nat.not_le_of_lt he))

end Sys2Proof.Proofs
end

section
/-! SUPPORT. The marks of a base (O33; R149, R150). -/

namespace Sys2Proof.Proofs

open Sys2Proof.Machine Sys2Proof.Safety

/-- R150: how far a mark of a side reaches from the base, in du. -/
def extentOn (b : Bank) : Side → Nat → Nat
  | .above => aboveExtentOf b
  | .below => belowExtentOf b

/-- R150: the y of a height above the baseline, or of a depth below it. -/
def yOn : Side → Nat → Int
  | .above, h => h
  | .below, h => -h

/-- R149, R150: the item of one mark at a height in du. -/
def markItem (b : Bank) (c : LineCopy) (side : Side) (edge advance height mark : Nat) : Item :=
  { face := faceOf b mark, char := charOf b mark, x := markX c edge advance (advanceOf b mark)
    y := yOn side (markHeight c height) }

theorem markItems_cons (b : Bank) (c : LineCopy) (side : Side) (edge advance height mark : Nat) (marks : List Nat) :
    markItems b c side edge advance height (mark :: marks) =
      markItem b c side edge advance height mark
        :: markItems b c side edge advance (height + extentOn b side mark) marks := by
  cases side <;> rfl

/-- R150: each mark stands on the marks before it. -/
theorem markItems_getElem? (b : Bank) (c : LineCopy) (side : Side) (edge advance height : Nat) (marks : List Nat) (i : Nat) :
    (markItems b c side edge advance height marks)[i]? =
      marks[i]?.map (markItem b c side edge advance (height + ((marks.take i).map (extentOn b side)).sum)) := by
  induction marks generalizing height i with
  | nil => rfl
  | cons m rest ih =>
    rw [markItems_cons]
    cases i with
    | zero => rfl
    | succ i =>
      rw [List.getElem?_cons_succ, List.getElem?_cons_succ, ih, List.take_succ_cons, List.map_cons, List.sum_cons,
        Nat.add_assoc]

/-- R149: a mark no wider than its base stands right of the base's left edge by half of what it is narrower. -/
theorem markX_of_le (c : LineCopy) (edge : Nat) {advance mark : Nat} (h : mark ≤ advance) :
    markX c edge advance mark = (edge + (advance - mark) * (5 * c.size) / 2) / 96 := by
  have centred : ((edge : Int) + (((advance : Int) - mark) * (5 * c.size : Nat)).tdiv 2) =
      ((edge + (advance - mark) * (5 * c.size) / 2 : Nat) : Int) := by
    rw [← Nat.cast_sub h, ← Nat.cast_mul, Nat.cast_add]
    rfl
  rw [markX, centred]
  rfl

/-- R149: a wider mark stands left of that edge by half of what it is wider, and never left of 0. -/
theorem markX_of_ge (c : LineCopy) (edge : Nat) {advance mark : Nat} (h : advance ≤ mark) :
    markX c edge advance mark = (edge - (mark - advance) * (5 * c.size) / 2) / 96 := by
  have centred : ((edge : Int) + (((advance : Int) - mark) * (5 * c.size : Nat)).tdiv 2) =
      (edge : Int) - ((mark - advance) * (5 * c.size) / 2 : Nat) := by
    rw [← neg_sub, ← Nat.cast_sub h, neg_mul, Int.neg_tdiv, ← Nat.cast_mul]
    rfl
  rw [markX, centred, Int.toNat_sub]

/-- Settles O33: the stack of each side, and the x that centres a mark. -/
theorem marksStackAndCentre : Obligations.MarksStackAndCentre := by
  intro b c edge advance extent marks i
  exact ⟨markItems_getElem? b c .above edge advance extent marks i, markItems_getElem? b c .below edge advance extent marks i,
    fun m => markX_of_le c edge, fun m => markX_of_ge c edge⟩

end Sys2Proof.Proofs
end

section
/-! SUPPORT. A line's parts and the walk that places them (O32; R140, R146 to R148, R151). -/

namespace Sys2Proof.Proofs

open Sys2Proof.Machine Sys2Proof.Safety

section
variable (b : Bank) (c : LineCopy)

/-! ### Glyphs one after another (R148) -/

theorem walkGlyphs_cons (g : Nat) (rest : List Nat) (e : Nat) :
    (walkGlyphs b c (g :: rest) (Pen.start e)).1 =
      glyphItem b g (e / 96) :: (walkGlyphs b c rest (Pen.start (e + c.fine (advanceOf b g)))).1 := by
  rw [walkGlyphs, start_advance]
  rfl

theorem walkGlyphs_length (glyphs : List Nat) (e : Nat) : (walkGlyphs b c glyphs (Pen.start e)).1.length = glyphs.length := by
  induction glyphs generalizing e with
  | nil => rfl
  | cons g rest ih => rw [walkGlyphs_cons, List.length_cons, List.length_cons, ih]

/-- R148: a glyph stands at the exact edge that the glyphs before it leave. -/
theorem walkGlyphs_getElem? (glyphs : List Nat) (e i : Nat) :
    (walkGlyphs b c glyphs (Pen.start e)).1[i]? =
      glyphs[i]?.map (fun g => glyphItem b g ((e + runWidth b c (glyphs.take i)) / 96)) := by
  induction glyphs generalizing e i with
  | nil => rfl
  | cons g rest ih =>
    rw [walkGlyphs_cons]
    cases i with
    | zero => rfl
    | succ i => rw [List.getElem?_cons_succ, List.getElem?_cons_succ, ih, List.take_succ_cons, runWidth, Nat.add_assoc]

theorem runWidth_replicate (n g : Nat) : runWidth b c (List.replicate n g) = n * c.fine (advanceOf b g) := by
  induction n with
  | zero => rw [Nat.zero_mul]; rfl
  | succ n ih => rw [List.replicate_succ, runWidth, ih, Nat.succ_mul, Nat.add_comm]

/-- R148: one glyph again and again, each at the edge that the ones before it leave. -/
theorem walkGlyphs_replicate (n g e : Nat) :
    (walkGlyphs b c (List.replicate n g) (Pen.start e)).1 =
      (List.range n).map (fun j => glyphItem b g ((e + j * c.fine (advanceOf b g)) / 96)) := by
  refine List.ext_getElem? fun i => ?_
  rw [walkGlyphs_getElem?, List.getElem?_map]
  by_cases hi : i < n
  · rw [List.getElem?_replicate_of_lt hi, List.getElem?_range hi, List.take_replicate, min_eq_left hi.le, runWidth_replicate]
    rfl
  · rw [List.getElem?_eq_none (by simpa using hi), List.getElem?_eq_none (by simpa using hi)]
    rfl

/-! ### Cells one after another (R148, R149) -/

/-- R127: the width of a letter's strokes. -/
def strokesWidth (l : Letter) : Nat :=
  match headerGlyph b .extension with
  | some g => l.strokes * c.fine (advanceOf b g)
  | none => 0

/-- R148: a letter's strokes from a fine edge. -/
def strokeItems (l : Letter) (edge : Nat) : List Item :=
  match headerGlyph b .extension with
  | some g => (List.range l.strokes).map (fun j => glyphItem b g ((edge + j * c.fine (advanceOf b g)) / 96))
  | none => []

theorem placedWidth_letter (l : Letter) (w : Nat) :
    placedWidth b c (.letter l, w) = strokesWidth b c l + c.fine (advanceOf b l.setGlyph) := by
  simp only [placedWidth, strokesWidth, strokeWidth]
  cases headerGlyph b .extension <;> rfl

theorem placedWidth_brk (width : Nat) (broken : Bool) (d w : Nat) :
    placedWidth b c (.brk width broken d, w) =
      match headerGlyph b .breakGlyph with
      | some g => if broken = true then c.fine (advanceOf b g) else 0
      | none => 0 := by
  simp only [placedWidth, breakAdvance]
  cases headerGlyph b .breakGlyph <;> cases broken <;> simp [LineCopy.fine]

/-- R148, R149: a letter's strokes, then its base, then its marks. -/
theorem walkCell_letter (l : Letter) (w e : Nat) :
    (walkCell b c (.letter l, w) (Pen.start e)).1 =
      strokeItems b c l e ++ glyphItem b l.setGlyph ((e + strokesWidth b c l) / 96)
        :: baseMarks b c l.setGlyph (e + strokesWidth b c l) l.above l.below := by
  simp only [walkCell, strokeItems, strokesWidth]
  cases headerGlyph b .extension with
  | none => simp only [start_fine]; rfl
  | some g => simp only [walkGlyphs_pen, walkGlyphs_replicate, runWidth_replicate, start_fine]; rfl

theorem walkCell_carrier (k : Carrier) (w e : Nat) :
    (walkCell b c (.carrier k, w) (Pen.start e)).1 =
      glyphItem b k.glyph (e / 96) :: baseMarks b c k.glyph e k.above k.below := by
  simp only [walkCell, start_fine]
  rfl

theorem walkCell_brk (width : Nat) (broken : Bool) (d w e : Nat) :
    (walkCell b c (.brk width broken d, w) (Pen.start e)).1 =
      match headerGlyph b .breakGlyph with
      | some g => if broken = true then [glyphItem b g (e / 96)] else []
      | none => [] := by
  simp only [walkCell]
  cases headerGlyph b .breakGlyph <;> cases broken <;> rfl

/-- R146, R148: the cells after some others start where the placed widths of those end. -/
theorem walkCells_append (before rest : List (Cell × Nat)) (e : Nat) :
    walkCells b c (before ++ rest) (Pen.start e) =
      walkCells b c before (Pen.start e) ++ walkCells b c rest (Pen.start (e + contentWidth b c before)) := by
  induction before generalizing e with
  | nil => rfl
  | cons x before ih =>
    simp only [List.cons_append, walkCells, walkCell_pen, ih, contentWidth, List.append_assoc, Nat.add_assoc]

theorem walkCells_cons (x : Cell × Nat) (rest : List (Cell × Nat)) (e : Nat) :
    walkCells b c (x :: rest) (Pen.start e) =
      (walkCell b c x (Pen.start e)).1 ++ walkCells b c rest (Pen.start (e + placedWidth b c x)) := by
  rw [walkCells, walkCell_pen]

/-! ### The parts of a line (R140, R146, R147) -/

theorem lineParts_cons_of_not_tab {x : Cell × Nat} (h : x.1.isTab = false) (offset start position : Nat)
    (current rest : List (Cell × Nat)) :
    lineParts c offset current start position (x :: rest) =
      lineParts c offset (current ++ [x]) start (position + cellFine c x.1) rest := by
  obtain ⟨x, w⟩ := x
  cases x with
  | tab => cases h
  | _ => rfl

/-- R140: cells without a TAB join the field under way. -/
theorem lineParts_append {field : List (Cell × Nat)} (h : field.any (fun x => x.1.isTab) = false)
    (offset start position : Nat) (current rest : List (Cell × Nat)) :
    lineParts c offset current start position (field ++ rest) =
      lineParts c offset (current ++ field) start (position + sumFine c (field.map (·.1))) rest := by
  induction field generalizing current position with
  | nil => rw [List.append_nil]; rfl
  | cons x field ih =>
    obtain ⟨hx, hfield⟩ := Bool.or_eq_false_iff.1 (List.any_cons ▸ h)
    rw [List.cons_append, lineParts_cons_of_not_tab c hx, ih hfield, List.append_assoc, List.map_cons, sumFine,
      Nat.add_assoc]
    rfl

/-- R146: the last field takes the offset. -/
theorem lineParts_of_no_tab {field : List (Cell × Nat)} (h : field.any (fun x => x.1.isTab) = false) (offset start : Nat) :
    lineParts c offset [] start start field = [.field field start offset] := by
  simpa [lineParts] using lineParts_append c h offset start start [] []

/-- R140, R147: a TAB ends its field, places its leaders before its stop and starts the next field there. -/
theorem lineParts_tab {field : List (Cell × Nat)} (h : field.any (fun x => x.1.isTab) = false)
    (offset start gap left w : Nat) (leaders : List Nat) (after : List (Cell × Nat)) :
    lineParts c offset [] start start (field ++ (.tab gap leaders left, w) :: after) =
      .field field start 0 :: .run leaders (start + sumFine c (field.map (·.1)) + gap)
        :: lineParts c offset [] (start + sumFine c (field.map (·.1)) + gap) (start + sumFine c (field.map (·.1)) + gap)
          after := by
  rw [lineParts_append c h]
  rfl

/-- R146, R147: a part placed in an LTR base. -/
theorem placePart_ltr (h : c.direction = .ltr) (field : List (Cell × Nat)) (leaders : List Nat) (start offset stop : Nat) :
    placePart b c (.field field start offset) = walkCells b c (fieldOrder b c.direction field) (Pen.start (start + offset))
    ∧ placePart b c (.run leaders stop) = (walkGlyphs b c leaders (Pen.start (stop - runWidth b c leaders))).1 := by
  simp only [placePart, h, and_self]

/-- R146, R147: a part placed in an RTL base. -/
theorem placePart_rtl (h : c.direction = .rtl) (field : List (Cell × Nat)) (leaders : List Nat) (start offset stop : Nat) :
    placePart b c (.field field start offset) =
        walkCells b c (fieldOrder b c.direction field)
          (Pen.start (c.measure * 96 - start - offset - contentWidth b c field))
    ∧ placePart b c (.run leaders stop) = (walkGlyphs b c leaders.reverse (Pen.start (c.measure * 96 - stop))).1 := by
  simp only [placePart, h]
  exact ⟨rfl, rfl⟩

end

/-- Settles O32: the walk of glyphs, the walk of cells cell by cell, the parts of a line and their order. -/
theorem linePlacedAtExactEdges : Obligations.LinePlacedAtExactEdges := by
  refine ⟨fun b c glyphs e i => ⟨?_, walkGlyphs_length b c glyphs e, walkGlyphs_getElem? b c glyphs e i⟩, ?_, ?_, ?_⟩
  · rw [walkGlyphs_pen, start_fine]
  · intro b c before after cell w e glyph wide marks extension strokes strokesWide items placed
    have placed_eq : placedWidth b c (cell, w) = placed := by
      cases cell with
      | letter l => exact placedWidth_letter b c l w
      | brk width broken d => exact placedWidth_brk b c width broken d w
      | _ => rfl
    have items_eq (edge : Nat) : (walkCell b c (cell, w) (Pen.start edge)).1 = items edge := by
      cases cell with
      | letter l => exact walkCell_letter b c l w edge
      | carrier k => exact walkCell_carrier b c k w edge
      | brk width broken d => exact walkCell_brk b c width broken d w edge
      | _ => rfl
    refine ⟨rfl, rfl, ?_, ?_⟩
    · rw [contentWidth, placed_eq]
    · rw [walkCells_append, walkCells_cons, items_eq, placed_eq, List.append_assoc]
  · intro b c field after leaders start offset stop gap left w M ordered
    exact ⟨rfl, fun h => placePart_ltr b c h field leaders start offset stop,
      fun h => placePart_rtl b c h field leaders start offset stop,
      fun h => ⟨lineParts_of_no_tab c h offset start, lineParts_tab c h offset start gap left w leaders after⟩⟩
  · intro b c j parts
    refine ⟨fun h => ?_, fun h => ?_⟩
    · simp only [lineItems, h, parts]
    · simp only [lineItems, h, parts]

end Sys2Proof.Proofs
end

section
/-! SUPPORT. The exposure bus's commands one by one: the contest and the sending (O35), the bus sensed, the port's timers and a
bit time (O36), and the imaging unit's answers (O37). -/

namespace Sys2Proof.Proofs

open Sys2Proof.Machine Sys2Proof.Safety

/-! ### What the port reads off the bus (R159, R160, R164) -/

theorem gapReached_iff (b : Bus) : b.gapReached = true ↔ b.gap ≤ b.idleCount := decide_eq_true_iff

theorem gapReached_eq_false_iff (b : Bus) : b.gapReached = false ↔ b.idleCount < b.gap :=
  decide_eq_false_iff_not.trans Nat.not_le

theorem busy_iff (b : Bus) : b.busy = true ↔ b.othersDrive = true ∨ b.state = .contending ∨ b.state = .sending := by
  simp only [Bus.busy, Bus.drives, Bool.or_eq_true, decide_eq_true_eq]

theorem takesAnswer_iff (b : Bus) : b.takesAnswer = true ↔ b.state = .awaiting ∧ b.answerDue = true := by
  simp only [Bus.takesAnswer, Bool.and_eq_true, decide_eq_true_eq]

theorem takesAnswer_eq_false_iff (b : Bus) : b.takesAnswer = false ↔ b.state ≠ .awaiting ∨ b.answerDue = false := by
  simp only [Bus.takesAnswer, Bool.and_eq_false_iff, decide_eq_false_iff_not]

/-! ### Events of one port state (R161 to R165) -/

theorem inBusState_of_head {st : BusState} {s : State} {p : Packet} {rest : List Packet} (hqueue : s.bus.queue = p :: rest)
    (hstate : s.bus.state = st) (f : Packet → State) : inBusState st s f = .next (f p) := by
  simp only [inBusState, hqueue, if_pos hstate]

theorem inBusState_of_other {st : BusState} {s : State} (h : s.bus.queue = [] ∨ s.bus.state ≠ st) (f : Packet → State) :
    inBusState st s f = .refused (.cannotOccur .busStateOther) := by
  unfold inBusState
  rcases hqueue : s.bus.queue with _ | ⟨p, rest⟩
  · rfl
  · exact if_neg (h.resolve_left (by simp [hqueue]))

/-- R160, R161: the header begins on a free bus; what stands in its way is named in this order. -/
theorem exec_busFree (s : State) :
    exec .busFree s =
      if s.bus.othersDrive = true then .refused (.cannotOccur .busBusy)
      else if s.bus.state = .waiting ∧ s.bus.idleCount < s.bus.gap then .refused (.cannotOccur .gapNotReached)
      else inBusState .waiting s fun _ => { s with bus := { s.bus with state := .contending, idleCount := 0 } } := by
  show execBusFree s = _
  simp only [execBusFree, gapReached_eq_false_iff]
  rfl

theorem exec_busFree_of_gap_passed {s : State} (hdrive : s.bus.othersDrive = false)
    (hgap : s.bus.state = .waiting → s.bus.gap ≤ s.bus.idleCount) :
    exec .busFree s =
      inBusState .waiting s fun _ => { s with bus := { s.bus with state := .contending, idleCount := 0 } } := by
  have passed : ¬ (s.bus.state = .waiting ∧ s.bus.idleCount < s.bus.gap) := fun h => Nat.not_lt.2 (hgap h.1) h.2
  rw [exec_busFree, hdrive, if_neg Bool.false_ne_true, if_neg passed]

/-- R164: the packet's end, in an ownership. -/
theorem exec_packetSent_of_owner {s : State} {p : Packet} {rest : List Packet} {o : Ownership}
    (hqueue : s.bus.queue = p :: rest) (hstate : s.bus.state = .sending) (howner : s.bus.ownership = some o) :
    exec .packetSent s =
      .next
        { s with
          bus :=
            { s.bus with
              state := .awaiting, ownership := some { o with sent := o.sent + 1 }
              holdTimer := some s.format.unit.holdLimit, othersDrive := true, answerDue := true, idleCount := 0 } } := by
  show execPacketSent s = _
  rw [execPacketSent, inBusState_of_head hqueue hstate, howner]
  rfl

/-- Settles O35: each event in its own port state, then what refuses it. -/
theorem contestAndSending : Obligations.ContestAndSending := by
  refine ⟨fun s p rest hqueue => ⟨?_, ?_, ?_⟩, fun s => ⟨?_, ?_, ?_, ?_, ?_⟩⟩
  · intro hstate hdrive hgap
    rw [exec_busFree_of_gap_passed hdrive fun _ => hgap, inBusState_of_head hqueue hstate]
  · intro hstate
    exact ⟨inBusState_of_head hqueue hstate _, inBusState_of_head hqueue hstate _⟩
  · intro hstate
    exact ⟨inBusState_of_head hqueue hstate _, fun o howner => exec_packetSent_of_owner hqueue hstate howner⟩
  · intro hdrive
    rw [exec_busFree, if_pos hdrive]
  · intro hdrive hstate hgap
    rw [exec_busFree, hdrive, if_neg Bool.false_ne_true, if_pos ⟨hstate, hgap⟩]
  · intro hdrive hother
    have gap_passed (hstate : s.bus.state = .waiting) : s.bus.gap ≤ s.bus.idleCount :=
      (hother.resolve_left (not_not_intro hstate)).2
    rw [exec_busFree_of_gap_passed hdrive gap_passed, inBusState_of_other (hother.symm.imp_left And.left)]
  · intro hother
    exact ⟨inBusState_of_other hother _, inBusState_of_other hother _⟩
  · intro hother
    exact ⟨inBusState_of_other hother _, inBusState_of_other hother _⟩

/-! ### The port's timers and a bit time (R159, R160, R171, R173) -/

/-- R171: the hold timer's expiry, with the head packet's number in the notice. -/
theorem exec_holdExpiry_of_running {s : State} {p : Packet} {rest : List Packet} (hqueue : s.bus.queue = p :: rest)
    (hstate : s.bus.state = .awaiting) (hrunning : s.bus.holdTimer.isSome = true) :
    exec .holdExpiry s =
      .next
        (raise .holdExpired p.sequence.toNat
          (count .holdExpiries (s.setBus (s.bus.enterDeferring s.format.unit.deferWait)))) := by
  show execHoldExpiry s = _
  rw [execHoldExpiry, if_pos ⟨hstate, hrunning⟩, hqueue]
  rfl

theorem exec_holdExpiry_of_stopped {s : State} (h : s.bus.state ≠ .awaiting ∨ s.bus.holdTimer = none) :
    exec .holdExpiry s = .refused (.cannotOccur .timerStopped) :=
  if_neg fun ⟨hstate, hrunning⟩ => Option.isSome_iff_ne_none.1 hrunning (h.resolve_left (not_not_intro hstate))

theorem exec_deferExpiry_of_running {s : State} (hstate : s.bus.state = .deferring)
    (hrunning : s.bus.deferTimer.isSome = true) :
    exec .deferExpiry s =
      .next { s with bus := { s.bus with state := .waiting, gap := s.format.unit.busGap, deferTimer := none } } :=
  if_pos ⟨hstate, hrunning⟩

theorem exec_deferExpiry_of_stopped {s : State} (h : s.bus.state ≠ .deferring ∨ s.bus.deferTimer = none) :
    exec .deferExpiry s = .refused (.cannotOccur .timerStopped) :=
  if_neg fun ⟨hstate, hrunning⟩ => Option.isSome_iff_ne_none.1 hrunning (h.resolve_left (not_not_intro hstate))

/-- R159, R160: a bit time by who drives the bus and by the gap. -/
theorem bitTime_eq_ite (b : Bus) :
    b.bitTime =
      if b.othersDrive = true ∨ b.state = .contending ∨ b.state = .sending then { b with idleCount := 0 }
      else if b.state = .waiting ∧ b.gap ≤ b.idleCount then { b with state := .contending, idleCount := 0 }
      else { b with idleCount := b.idleCount + 1 } := by
  simp only [Bus.bitTime, busy_iff, gapReached_iff]
  rfl

theorem step_of_no_command {s : State} (h : s.pending = []) : step s = .next (tick s) := by
  simp only [step, h]

/-- Settles O36: the bus sensed and released, the two timers running and stopped, and the step with no command. -/
theorem busSensedAndTimersExpire : Obligations.BusSensedAndTimersExpire := by
  refine ⟨fun s => ⟨rfl, rfl⟩, fun s p rest hqueue => ⟨?_, ?_⟩, fun s => ⟨?_, ?_⟩, fun s hpending => ?_⟩
  · exact exec_holdExpiry_of_running hqueue
  · exact exec_deferExpiry_of_running
  · exact exec_holdExpiry_of_stopped
  · exact exec_deferExpiry_of_stopped
  · rw [step_of_no_command hpending, tick, bitTime_eq_ite]
    rfl

/-! ### The imaging unit's answers (R164, R167 to R170, R172) -/

/-- R169: the owner goes on while its burst and the queue allow. -/
theorem mayGoOn_iff {b : Bus} {o : Ownership} (h : b.ownership = some o) :
    b.mayGoOn = true ↔ o.sent < o.burstLimit ∧ b.queue ≠ [] := by
  simp only [Bus.mayGoOn, h, Bool.and_eq_true, decide_eq_true_eq, Bool.not_eq_true', List.isEmpty_eq_false_iff]

/-- R167 to R169: the bus after an answer that removes the head packet. -/
theorem answered_eq {b : Bus} {p : Packet} {rest : List Packet} {o : Ownership} (hqueue : b.queue = p :: rest)
    (howner : b.ownership = some o) (busGap : Nat) :
    b.endAnswer.removeHead.goOnOrRelease busGap =
      if o.sent < o.burstLimit ∧ rest ≠ [] then { b.endAnswer with queue := rest, state := .sending }
      else if rest = [] then { b.endAnswer with queue := [], state := .busIdle, ownership := none }
      else { b.endAnswer with queue := rest, state := .waiting, gap := busGap, ownership := none } := by
  have removed : b.endAnswer.removeHead = { b.endAnswer with queue := rest } := by
    simp only [Bus.removeHead, Bus.endAnswer, hqueue, List.tail_cons]
  have goes_on := mayGoOn_iff (b := { b.endAnswer with queue := rest }) howner
  rw [removed, Bus.goOnOrRelease]
  simp only [goes_on, List.isEmpty_iff]
  split
  · rfl
  · split
    · next hempty => rw [hempty]
    · rfl

/-- R167: no answer has an effect where the port takes none. -/
theorem exec_answer_of_not_taken {s : State} (h : s.bus.takesAnswer = false) :
    exec .accept s = .next s ∧ exec .reject s = .next s ∧ exec .defer s = .next s :=
  have not_taken := Bool.eq_false_iff.1 h
  ⟨if_neg not_taken, if_neg not_taken, if_neg not_taken⟩

theorem exec_accept_of_taken {s : State} (h : s.bus.takesAnswer = true) :
    exec .accept s = .next { s with bus := s.bus.endAnswer.removeHead.goOnOrRelease s.format.unit.busGap } :=
  if_pos h

theorem exec_reject_of_taken {s : State} {p : Packet} {rest : List Packet} (hqueue : s.bus.queue = p :: rest)
    (h : s.bus.takesAnswer = true) :
    exec .reject s =
      .next
        (raise .packetRejected (p.sequence.toNat * 256 + p.body.galley)
          (count .rejected { s with bus := s.bus.endAnswer.removeHead.goOnOrRelease s.format.unit.busGap })) := by
  show execReject s = _
  rw [execReject, if_pos h, hqueue]
  rfl

theorem exec_defer_of_taken {s : State} (h : s.bus.takesAnswer = true) :
    exec .defer s =
      .next (count .deferred { s with bus := s.bus.endAnswer.enterDeferring s.format.unit.deferWait }) :=
  if_pos h

theorem validAnswer_iff (b : Byte) : validAnswer b = true ↔ b = 0xA5 ∨ b = 0x96 ∨ b = 0xC3 := by
  simp only [validAnswer, Bool.or_eq_true, decide_eq_true_eq, or_assoc]

/-- Section 11.3: every valid answer has bit 7 set. -/
theorem le_toNat_of_validAnswer {b : Byte} (h : validAnswer b = true) : 0x80 ≤ b.toNat := by
  rcases (validAnswer_iff b).1 h with rfl | rfl | rfl <;> decide

/-- R167: a byte that is no answer, or one the port does not take, is ignored. -/
theorem exec_invalidAnswer (b : Byte) (s : State) :
    exec (.invalidAnswer b) s =
      if 0x80 ≤ b.toNat then
        if validAnswer b = true ∧ s.bus.takesAnswer = true then .refused (.cannotOccur .answerIsValid) else .next s
      else .fault .illFormedOperand := by
  show execInvalidAnswer b s = _
  simp only [execInvalidAnswer, isAnswerByte, decide_eq_true_eq, Bool.and_eq_true]

theorem exec_invalidAnswer_of_ignored {b : Byte} {s : State} (hb : 0x80 ≤ b.toNat)
    (h : ¬ (validAnswer b = true ∧ s.bus.takesAnswer = true)) : exec (.invalidAnswer b) s = .next s := by
  rw [exec_invalidAnswer, if_pos hb, if_neg h]

/-- Settles O37: the three answers taken, the answers ignored, and INVALID_ANSWER by its byte. -/
theorem answersTakenOrIgnored : Obligations.AnswersTakenOrIgnored := by
  refine ⟨fun s p rest o hstate hdue hqueue howner => ?_, fun s b => ⟨fun h => ?_, ?_, ?_, ?_⟩⟩
  · intro answered decided
    have taken : s.bus.takesAnswer = true := (takesAnswer_iff _).2 ⟨hstate, hdue⟩
    have decided_eq : s.bus.endAnswer.removeHead.goOnOrRelease s.format.unit.busGap = decided :=
      answered_eq hqueue howner _
    refine ⟨?_, ?_, exec_defer_of_taken taken⟩
    · rw [exec_accept_of_taken taken, decided_eq]
    · rw [exec_reject_of_taken hqueue taken, decided_eq]
      rfl
  · have not_taken : s.bus.takesAnswer = false := (takesAnswer_eq_false_iff _).2 h
    obtain ⟨accept_ignored, reject_ignored, defer_ignored⟩ := exec_answer_of_not_taken not_taken
    exact ⟨accept_ignored, reject_ignored, defer_ignored,
      fun hb => exec_invalidAnswer_of_ignored hb fun ⟨_, taken⟩ => Bool.eq_false_iff.1 not_taken taken⟩
  · intro hb hAccept hReject hDefer
    have not_valid : ¬ validAnswer b = true :=
      mt (validAnswer_iff b).1 (not_or.2 ⟨hAccept, not_or.2 ⟨hReject, hDefer⟩⟩)
    exact exec_invalidAnswer_of_ignored hb fun ⟨valid, _⟩ => not_valid valid
  · intro hstate hdue hvalid
    have valid : validAnswer b = true := (validAnswer_iff b).2 hvalid
    rw [exec_invalidAnswer, if_pos (le_toNat_of_validAnswer valid), if_pos ⟨valid, (takesAnswer_iff _).2 ⟨hstate, hdue⟩⟩]
  · intro hb
    rw [exec_invalidAnswer, if_neg (Nat.not_le.2 hb)]

end Sys2Proof.Proofs
end

section
/-! SUPPORT. A notice raised in the return queue (O48), and the counters that no command but a clearing one lowers (O49). -/

namespace Sys2Proof.Proofs

open Sys2Proof.Machine Sys2Proof.Safety

/-! ### A notice raised (R179, R184) -/

/-- Records before the first notice of the kind stand as they are. -/
theorem raiseIn_append_of_not_mem {kind : NoticeKind} {before : List Record} (h : kind ∉ noticeKinds before) (detail : Nat)
    (rest : List Record) : raiseIn kind detail (before ++ rest) = before ++ raiseIn kind detail rest := by
  induction before with
  | nil => rfl
  | cons r before ih =>
    cases r with
    | notice k n d =>
      obtain ⟨hk, hbefore⟩ := not_or.1 (mt List.mem_cons.2 h)
      exact (if_neg (Ne.symm hk)).trans (congrArg (.notice k n d :: ·) (ih hbefore))
    | status f => exact congrArg (.status f :: ·) (ih h)
    | counts c => exact congrArg (.counts c :: ·) (ih h)
    | entry t b i p v => exact congrArg (.entry t b i p v :: ·) (ih h)

/-- R179: the queued notice of the kind takes the new detail and one repeat more. -/
theorem raiseIn_notice_same (kind : NoticeKind) (detail n old : Nat) (rest : List Record) :
    raiseIn kind detail (.notice kind n old :: rest) = .notice kind (min 255 (n + 1)) detail :: rest := if_pos rfl

/-- Settles O48: the records before the notice's place stand, and at that place it joins the tail or merges. -/
theorem noticesMerge : Obligations.NoticesMerge := by
  intro s kind detail
  refine ⟨fun hnew => ?_, fun before after n old hqueue hfirst => ?_⟩
  · have joins := raiseIn_append_of_not_mem hnew detail []
    rw [List.append_nil] at joins
    rw [raise, joins]
    rfl
  · rw [raise, hqueue, raiseIn_append_of_not_mem hfirst, raiseIn_notice_same]
    rfl

/-! ### Counters that are not cleared (R182, R185) -/

/-- No counter of `c` that is in range is smaller in the state. -/
def CountersRise (c : Counters) (s : State) : Prop :=
  ∀ name, c.get name ≤ 65535 → c.get name ≤ s.reply.counters.get name

section Rises

variable {c : Counters}

theorem countersRise_self (s : State) : CountersRise s.reply.counters s := fun _ _ => Nat.le_refl _

theorem CountersRise.countBy {s : State} (h : CountersRise c s) (name : CounterName) (n : Nat) :
    CountersRise c (countBy name n s) := by
  intro name' hrange
  have hle := h name' hrange
  rw [countBy_counters, add_get]
  split
  · next same =>
    subst same
    exact Nat.le_min.2 ⟨hrange, hle.trans (Nat.le_add_right _ n)⟩
  · exact hle

theorem CountersRise.count {s : State} (h : CountersRise c s) (name : CounterName) : CountersRise c (count name s) :=
  h.countBy name 1

theorem CountersRise.countIf {s : State} (h : CountersRise c s) (b : Bool) (name : CounterName) :
    CountersRise c (countIf b name s) := by
  cases b
  · exact h
  · exact h.count name

/-- R136: a line end counts FORCED, OVERSET and LOOSE. -/
theorem CountersRise.makeLineEnd {s : State} (h : CountersRise c s) (plan : EndPlan) : CountersRise c (makeLineEnd plan s) :=
  ((h.countIf _ _).countIf _ _).countIf _ _

theorem CountersRise.reportLoss {s : State} (h : CountersRise c s) (l : Loss) : CountersRise c (reportLoss l s) :=
  h.countBy _ _

theorem countersRise_jobKeeps : JobKeeps (CountersRise c) where
  setLine _ hs := hs
  paraDue hs := hs
  count name n hs := hs.countBy name n
  exchange hs := hs
  joins _ plan hs := (hs.makeLineEnd plan).count .lines
  waits plan _ hs := hs.makeLineEnd plan

/-- The decoder's own part of an entry's work; of what follows it, the shaper's job or a reply offered, nothing is said here,
since a COUNTS-and-clear reply clears the counters (R182). -/
theorem countersRise_workKeeps : WorkKeeps (CountersRise c) fun _ => True where
  done _ := trivial
  report _ _ := trivial
  setDecoder _ hs := hs
  setTables _ hs := hs
  setLine _ hs := hs
  count name n hs := hs.countBy name n
  raise _ _ hs := hs
  fileLine _ hs := hs
  writeUnit _ hs := hs
  reset hs := hs
  offer _ _ := trivial
  job _ _ := trivial

theorem CountersRise.doJob {s : State} (h : CountersRise c s) (j : Job) : CountersRise c (doJob j s) :=
  countersRise_jobKeeps.doJob j h

/-! ### Work that the decoder hands on (R19, R21 to R26, R81) -/

theorem CountersRise.closingBoundary {s : State} (h : CountersRise c s) (notice : Option NoticeKind) :
    CountersRise c (closingBoundary notice s) := by
  unfold Machine.closingBoundary
  split
  · exact h
  · exact (countersRise_workKeeps.closeTake notice h).doJob _

theorem CountersRise.openingBoundary {s : State} (h : CountersRise c s) (p : Priority) :
    CountersRise c (openingBoundary p s) := by
  unfold Machine.openingBoundary
  split
  · exact countersRise_workKeeps.openTake p h
  · exact CountersRise.doJob (countersRise_workKeeps.openTake p (countersRise_workKeeps.closeTake _ h)) _

theorem CountersRise.applyBoundary {s : State} (h : CountersRise c s) (lost : Option Boundary) :
    CountersRise c (applyBoundary lost s) := by
  unfold Machine.applyBoundary
  split
  · exact h
  · exact h.openingBoundary _
  · exact h.closingBoundary _
  · exact h.closingBoundary _

theorem CountersRise.handMark {s : State} (h : CountersRise c s) (mark : Nat) : CountersRise c (handMark mark s) := by
  unfold Machine.handMark
  split
  · exact h
  · exact h.count .markOverflow
  · split
    · exact h.doJob _
    · exact h.count .orphans

theorem CountersRise.takeText {s : State} (h : CountersRise c s) (b : Byte) : CountersRise c (takeText b s) := by
  have flagged : CountersRise c (Machine.count .unmapped (s.setLine s.shaper.line.flagUnmapped)) := h.count .unmapped
  unfold Machine.takeText
  split
  · exact h.doJob _
  · exact h.handMark _
  · exact h.doJob _
  · unfold handUnmapped
    dsimp only
    split
    · exact flagged.doJob _
    · exact flagged

theorem CountersRise.swapBanks {s : State} (h : CountersRise c s) : CountersRise c (swapBanks s) := by
  unfold Machine.swapBanks
  split
  · exact h.doJob _
  · exact h

/-! ### Replies (R20, R180, R182) -/

/-- R182: COUNTS-and-clear alone sets the counters to 0. -/
theorem countersAfter_of_ne {q : Query} (hq : q ≠ .countsAndClear) (c : Counters) : q.countersAfter c = c :=
  (countersAfter_eq q c).trans (if_neg hq)

theorem CountersRise.joinReply {s : State} (h : CountersRise c s) {q : Query} (hq : q ≠ .countsAndClear) :
    CountersRise c (joinReply q s) := by
  intro name hrange
  show _ ≤ (q.countersAfter s.reply.counters).get name
  rw [countersAfter_of_ne hq]
  exact h name hrange

theorem CountersRise.offerReply {s : State} (h : CountersRise c s) {q : Query} (hq : q ≠ .countsAndClear) :
    CountersRise c (offerReply q s) := by
  unfold Machine.offerReply
  split
  · exact h.joinReply hq
  · exact h

theorem CountersRise.retestReply {s : State} (h : CountersRise c s) (hq : s.reply.offered ≠ some .countsAndClear) :
    CountersRise c (retestReply s) := by
  rw [retestReply_eq]
  split
  · next q hoffered =>
    split
    · exact h.joinReply fun hclear => hq (hclear ▸ hoffered)
    · exact h
  · exact h

/-! ### What each command makes of the counters -/

/-- The cases stand in the order of `decoderWork`. -/
theorem CountersRise.decoderWork {i : Instr} (hi : i ≠ .countsAndClear) (e : Entry) {s : State} (h : CountersRise c s) :
    CountersRise c (decoderWork i e s) := by
  have own : WorkKeeps (CountersRise c) fun _ => True := countersRise_workKeeps
  have inText : CountersRise c (setDecoderState .text s) := h
  cases i with
  | takeStartEntry => exact h.openingBoundary e.priority
  | takeEndEntry => exact h.closingBoundary none
  | cutEntry => exact h.closingBoundary _
  | stalledEntry => exact h.closingBoundary _
  | gapEntry => exact CountersRise.applyBoundary (own.actOnLoss h) e.boundary
  | textByte => exact h.takeText e.byte
  | strayCode => exact h.count .stray
  | controlCodeWithArguments => exact own.openControl e h
  | argumentByte => exact own.addArgument e h
  | plane => exact own.setPlane _ inText
  | disc => exact h.doJob _
  | tab => exact h.doJob _
  | endline => exact h.doJob _
  | endpara => exact h.doJob _
  | join => exact h.doJob _
  | nojoin => exact h.doJob _
  | format => exact own.writeFormat _ inText
  | leader => exact h
  | load => exact own.openLoad _ inText
  | loadDataByte => exact own.takeLoadByte e h
  | loadSumByte => exact own.takeSumByte e h
  | copy => exact h
  | clear => exact h
  | swap => exact inText.swapBanks
  | invalidBankOp => exact inText.count .stray
  | status => exact inText.offerReply nofun
  | counts => exact inText.offerReply nofun
  | countsAndClear => exact absurd rfl hi
  | entry => exact inText.offerReply nofun
  | invalidQueryKind => exact inText.count .stray
  | reset => exact h
  | _ => exact h

theorem countersRise_of_decoderCommand {i : Instr} (hi : i ∈ decoderCommands) (hclear : i ≠ .countsAndClear) {s t : State}
    (h : exec i s = .next t) : CountersRise s.reply.counters t := by
  rw [exec_decoderCommand hi] at h
  obtain ⟨e, -, -, rfl⟩ := takeHead_next h
  exact withRemoval_keeps (P := CountersRise s.reply.counters) (fun _ hu => hu.decoderWork hclear e)
    (fun l _ hu => hu.reportLoss l) (fun _ => countersRise_self s)

/-- The commands of the exposure bus. -/
def busCommands : List Instr :=
  [.busFree, .busFoundBusy, .contestLost, .contestWon, .collision, .packetSent, .accept, .reject, .defer, .holdExpiry,
    .deferExpiry, .imagingUnitRelease]

/-- R162 to R173: beside the bus itself, a command of the exposure bus leaves a count, a notice, both or nothing. The cases
stand in the order of the list. -/
theorem exec_busCommand_noted {i : Instr} (hi : i ∈ busCommands) {s t : State} (h : exec i s = .next t) :
    ∃ b, Noted (s.setBus b) t := by
  have ignored : ∃ b, Noted (s.setBus b) s := ⟨s.bus, .nothing⟩
  simp only [busCommands, List.mem_cons, List.not_mem_nil, or_false] at hi
  rcases hi with rfl | rfl | rfl | rfl | rfl | rfl | rfl | rfl | rfl | rfl | rfl | rfl
  · rw [exec_busFree] at h
    split at h
    · cases h
    · split at h
      · cases h
      · obtain ⟨-, -, -, rfl⟩ := inBusState_next h
        exact ⟨_, .nothing⟩
  · cases h; exact ⟨_, .nothing⟩
  · obtain ⟨-, -, -, rfl⟩ := inBusState_next h
    exact ⟨_, .counted _⟩
  · obtain ⟨-, -, -, rfl⟩ := inBusState_next h
    exact ⟨_, .nothing⟩
  · obtain ⟨-, -, p, rfl⟩ := inBusState_next h
    exact ⟨_, .raised _ _⟩
  · obtain ⟨-, -, -, rfl⟩ := inBusState_next h
    exact ⟨_, .nothing⟩
  · simp only [exec, execAccept] at h
    split at h <;> cases h
    · exact ⟨_, .nothing⟩
    · exact ignored
  · simp only [exec, execReject] at h
    split at h <;> cases h
    · exact ⟨_, .both _ _ _⟩
    · exact ignored
  · simp only [exec, execDefer] at h
    split at h <;> cases h
    · exact ⟨_, .counted _⟩
    · exact ignored
  · simp only [exec, execHoldExpiry] at h
    split at h <;> cases h
    exact ⟨_, .both _ _ _⟩
  · simp only [exec, execDeferExpiry] at h
    split at h <;> cases h
    exact ⟨_, .nothing⟩
  · cases h; exact ⟨_, .nothing⟩

theorem CountersRise.noted {s t : State} (h : CountersRise c s) (ht : Noted s t) : CountersRise c t := by
  cases ht with
  | nothing => exact h
  | counted name => exact h.count name
  | raised _ _ => exact h
  | both name _ _ => exact h.count name

end Rises

theorem countersRise_of_packetJoin {s t : State} (h : execPacketJoin s = .next t) : CountersRise s.reply.counters t := by
  unfold execPacketJoin at h
  split at h
  · cases h
  · split at h <;> cases h
    exact countersRise_jobKeeps.runJob _ _ ((countersRise_self s).countBy .lines 1)

theorem countersRise_of_offeredReplyJoin {s t : State} (hq : s.reply.offered ≠ some .countsAndClear)
    (h : execOfferedReplyJoin s = .next t) : CountersRise s.reply.counters t := by
  unfold execOfferedReplyJoin at h
  split at h
  · cases h; exact countersRise_self _
  · next q hoffered =>
    split at h <;> cases h
    exact (countersRise_self s).joinReply fun hclear => hq (hclear ▸ hoffered)

theorem countersRise_of_recordDeparture {s t : State} (hq : s.reply.offered ≠ some .countsAndClear)
    (h : execRecordDeparture s = .next t) : CountersRise s.reply.counters t := by
  unfold execRecordDeparture at h
  split at h
  · cases h
  · split at h <;> cases h
    exact CountersRise.retestReply (countersRise_self s) hq

/-- R182, R185: but for power-on and the two ways a COUNTS-and-clear reply joins, a command lowers no counter in range. -/
theorem exec_countersRise {i : Instr} {s t : State} (h : exec i s = .next t)
    (hpower : ∀ strap acceptAll, i ≠ .powerOn strap acceptAll) (hclear : i ≠ .countsAndClear)
    (hwaits : i = .offeredReplyJoin ∨ i = .recordDeparture → s.reply.offered ≠ some .countsAndClear) :
    CountersRise s.reply.counters t := by
  have kept : CountersRise s.reply.counters s := countersRise_self s
  by_cases listed : i ∈ decoderCommands ∨ i ∈ busCommands
  · rcases listed with decoder | bus
    · exact countersRise_of_decoderCommand decoder hclear h
    · obtain ⟨b, noted⟩ := exec_busCommand_noted bus h
      exact CountersRise.noted (s := s.setBus b) kept noted
  · cases i with
    | powerOn strap acceptAll => exact absurd rfl (hpower strap acceptAll)
    | takeStart priority address => cases h; exact kept
    | takeEnd => cases h; exact kept
    | plain b => cases h; exact kept
    | ignoredFlaggedByte b =>
      simp only [exec, execIgnoredFlaggedByte] at h
      split at h <;> cases h
      exact kept
    | holdLineRise => cases h; exact kept
    | holdLineFall =>
      simp only [exec, execHoldLineFall] at h
      split at h <;> cases h
      exact kept
    | takeTimerExpiry =>
      simp only [exec, execTakeTimerExpiry] at h
      split at h <;> cases h
      exact kept
    | packetJoin => exact countersRise_of_packetJoin h
    | invalidAnswer b =>
      rw [exec_invalidAnswer] at h
      split at h
      · split at h <;> cases h
        exact kept
      · cases h
    | offeredReplyJoin => exact countersRise_of_offeredReplyJoin (hwaits (.inl rfl)) h
    | recordDeparture => exact countersRise_of_recordDeparture (hwaits (.inr rfl)) h
    | recordSent =>
      simp only [exec, execRecordSent] at h
      split at h
      · cases h
      · split at h <;> cases h
        exact kept
    | returnLineHold n =>
      rw [exec_returnLineHold] at h
      split at h
      · split at h <;> cases h <;> exact kept
      · cases h
    | returnLineRelease => cases h; exact kept
    | _ => exact absurd (by decide) listed

/-- Settles O49: each name reads its counter, and every command but a clearing one counts upwards or not at all. -/
theorem countersNeverDecrease : Obligations.CountersNeverDecrease :=
  ⟨fun _ => rfl, fun _ _ _ name h hpower hclear hwaits => exec_countersRise h hpower hclear hwaits name⟩

end Sys2Proof.Proofs
end

section
/-! SUPPORT. The step that finds a command in the queue (O1); `step_of_no_command` is the step that finds none. -/

namespace Sys2Proof.Proofs

open Sys2Proof.Machine Sys2Proof.Safety

/-- The command leaves the queue before it acts (log 4). -/
theorem step_of_command {s : State} {c : Instr} {rest : List Instr} (h : s.pending = c :: rest) :
    step s = exec c (s.setPending rest) := by
  simp only [step, h]

/-- Settles O1: the step by the queue it finds, whose rest `setPending` writes. -/
theorem stepRunsFrontCommand : Obligations.StepRunsFrontCommand := by
  intro c rest s hqueue
  calc step s = exec c (s.setPending rest) := step_of_command hqueue
    _ = exec c { s with pending := rest } := rfl

end Sys2Proof.Proofs
end
